-- ==== Sys2Proof/Word.lean ====
section
/-! DEFINITION. The word and byte types of the register block and of host memory (R11, R72, R74). -/

namespace Sys2Proof

/-- A register word: every register is 32 bits unless a rule gives another width (R11, R72). -/
abbrev Word := BitVec 32

/-- One byte of host memory or of a queued operation. -/
abbrev Byte := BitVec 8

end Sys2Proof
end

