-- ==== Sys2Proof/Config.lean ====
section
/-! DEFINITION. The parameters fixed at construction (spec/00_scope.md R8, R9), the parameter LAYOUT
(spec/30_encoding.md R100 to R108), and the free values: what the environment draws when no script
queues a draw (spec/10_state.md R27). -/

namespace Sys2Proof

/-- FIFO_THRESHOLD `T` (R8): 16 or 32 bytes; no other value can be constructed. -/
inductive Threshold where
  | t16
  | t32
deriving DecidableEq, Repr

/-- `T` in bytes (R8). -/
def Threshold.bytes : Threshold → Nat
  | .t16 => 16
  | .t32 => 32

/-- Byte offsets of the registers from REG_BASE (R100). -/
structure Offsets where
  ctl : Nat
  clk : Nat
  st0 : Nat
  st1 : Nat
  im : Nat
  tor : Nat
  tod : Nat
  blen : Nat
  nblk : Nat
  drr : Nat
  dxr : Nat
  cmd : Nat
  arg : Nat
  rsp0 : Nat
  rsp1 : Nat
  rsp2 : Nat
  rsp3 : Nat
  drsp : Nat
  fifoctl : Nat
deriving DecidableEq, Repr

/-- The polarity of the named fields (spec/93 U4), register by register: a bit that is 1 here is active
low, so that the register holds 0 there where the field's bit is 1. ST0 and IM share the positions of
R103 and have each its own polarity. -/
structure Polarity where
  ctl : Word
  clk : Word
  st0 : Word
  im : Word
  cmd : Word
  st1 : Word
  fifoctl : Word
deriving DecidableEq, Repr

/-- The parameter LAYOUT (R100, spec/93 U4): register offsets, the bit position of every named field (the
position of its lowest bit where a field has several), and the polarity of the fields. -/
structure Layout where
  off : Offsets
  low : Polarity
  -- CTL (R101)
  datrst : Nat
  cmdrst : Nat
  width4 : Nat
  -- CLK (R102)
  div : Nat
  clken : Nat
  -- ST0 and IM (R103)
  datdne : Nat
  rspdne : Nat
  toutrd : Nat
  toutrs : Nat
  crcwr : Nat
  crcrd : Nat
  crcrs : Nat
  dxrdy : Nat
  drrdy : Nat
  -- CMD (R104)
  indx : Nat
  pplen : Nat
  bsyexp : Nat
  rspfmt : Nat
  dtrw : Nat
  strmtp : Nat
  wdatx : Nat
  initck : Nat
  dmatrig : Nat
  -- ST1 (R106)
  busy : Nat
  -- FIFOCTL (R107)
  rst : Nat
  dir : Nat
  lev : Nat
  accwd : Nat
deriving DecidableEq, Repr

/-- The default LAYOUT of R100 to R107, the one spec/opcode_table.json uses. -/
def Layout.default : Layout where
  off := { ctl := 0x00, clk := 0x04, st0 := 0x08, st1 := 0x0C, im := 0x10, tor := 0x14, tod := 0x18,
           blen := 0x1C, nblk := 0x20, drr := 0x28, dxr := 0x2C, cmd := 0x30, arg := 0x34,
           rsp0 := 0x38, rsp1 := 0x3C, rsp2 := 0x40, rsp3 := 0x44, drsp := 0x48, fifoctl := 0x74 }
  low := { ctl := 0, clk := 0, st0 := 0, im := 0, cmd := 0, st1 := 0, fifoctl := 0 }
  datrst := 0
  cmdrst := 1
  width4 := 2
  div := 0
  clken := 8
  datdne := 0
  rspdne := 2
  toutrd := 3
  toutrs := 4
  crcwr := 5
  crcrd := 6
  crcrs := 7
  dxrdy := 9
  drrdy := 10
  indx := 0
  pplen := 7
  bsyexp := 8
  rspfmt := 9
  dtrw := 11
  strmtp := 12
  wdatx := 13
  initck := 14
  dmatrig := 16
  busy := 0
  rst := 0
  dir := 1
  lev := 2
  accwd := 3

/-- The bit positions of the nine events and enables (R103). -/
def Layout.statusBits (l : Layout) : List Nat :=
  [l.datdne, l.rspdne, l.toutrd, l.toutrs, l.crcwr, l.crcrd, l.crcrs, l.dxrdy, l.drrdy]

/-- The bit positions of the named fields of a command word (R104). -/
def Layout.cmdBits (l : Layout) : List Nat :=
  [l.indx, l.indx + 1, l.indx + 2, l.indx + 3, l.indx + 4, l.indx + 5, l.pplen, l.bsyexp,
    l.rspfmt, l.rspfmt + 1, l.dtrw, l.strmtp, l.wdatx, l.initck, l.dmatrig]

/-- The bit positions of the soft reset. CMDRST and DATRST (R22) are one bit or two: spec/90 C4 says that
"with another `LAYOUT` they may be one bit". -/
def Layout.resetPositions (l : Layout) : List Nat :=
  if l.datrst = l.cmdrst then [l.cmdrst] else [l.datrst, l.cmdrst]

/-- Register by register, the active-low bits and the positions the named fields take. -/
def Layout.registers (l : Layout) : List (Word × List Nat) :=
  [ (l.low.ctl, l.resetPositions ++ [l.width4]),
    (l.low.clk, [l.div, l.div + 1, l.div + 2, l.div + 3, l.clken]),
    (l.low.st0, l.statusBits),
    (l.low.im, l.statusBits),
    (l.low.cmd, l.cmdBits),
    (l.low.st1, [l.busy]),
    (l.low.fifoctl, [l.rst, l.dir, l.lev, l.accwd, l.accwd + 1]) ]

/-- A LAYOUT a register block can have: every field inside the 32-bit word, no two fields of one register
on the same bit (CMDRST and DATRST excepted, which spec/90 C4 lets be one), and no bit active low but those
of named fields. DESIGN CHOICE (entry 5): the spec states no condition on another LAYOUT, and these are the
model's. A premise of statements only; no operation tests it. -/
def Layout.ok (l : Layout) : Bool :=
  l.registers.all fun r => r.2.all (· < 32) && decide r.2.Nodup
    && (List.range 32).all fun p => !r.1.getLsbD p || r.2.contains p

/-- DIV_WIDTH (R9): 4 bits. -/
def DIV_WIDTH : Nat := 4

/-- DIV_MAX = 2^DIV_WIDTH - 1 (R9). -/
def DIV_MAX : Nat := 2 ^ DIV_WIDTH - 1

/-- ADDR_WIDTH (R9): host memory has 32-bit byte addresses. -/
def ADDR_WIDTH : Nat := 32

/-- CTO_MAX (R9): the maximum of the 16-bit command timeout. -/
def CTO_MAX : Nat := 0xFFFF

/-- DTO_MAX (R9): the maximum of the 16-bit data timeout. -/
def DTO_MAX : Nat := 0xFFFF

/-- BLKSZ_MAX (R9). -/
def BLKSZ_MAX : Nat := 65535

/-- NBLK_MAX (R9). -/
def NBLK_MAX : Nat := 65535

/-- The construction parameters (R8, R9). The model carries them in State, where no step writes them,
so that a statement over every state is a statement over every configuration (entry 4). -/
structure Config where
  /-- `T` (R8). -/
  threshold : Threshold
  /-- USE_DMA (R8). -/
  useDma : Bool
  /-- OD_DIVIDER, in 0..DIV_MAX (R9, R242). -/
  odDivider : BitVec 4
  /-- HS_CRC_HZ (R9, R199). -/
  hsCrcHz : Nat
  /-- DRSP_SENTINEL, in 0..255 (R9, R197). -/
  drspSentinel : Byte
  /-- BUSY_POLL_MAX less one: the bound is a natural >= 1 (R9, R171). -/
  busyPollMore : Nat
  /-- INITCK_POLL_MAX less one: the bound is a natural >= 1 (R9, R245). -/
  initckPollMore : Nat
  /-- REG_BASE (R9). -/
  regBase : Nat
  /-- T_SETTLE (R9, R243). -/
  tSettle : Nat
  /-- T_RESET (R9, R202). -/
  tReset : Nat
  /-- LAYOUT (R9, R100). -/
  layout : Layout
deriving DecidableEq, Repr

/-- BUSY_POLL_MAX (R9). -/
def Config.busyPollMax (c : Config) : Nat := c.busyPollMore + 1

/-- INITCK_POLL_MAX (R9). -/
def Config.initckPollMax (c : Config) : Nat := c.initckPollMore + 1

/-- The configuration State.reset carries. OD_DIVIDER, DRSP_SENTINEL and LAYOUT are the defaults of
R9; the rest follow the conventions of spec/95_test_vectors.md. DESIGN CHOICE (entry 4), unsafe for a
statement that rests on these values. -/
def Config.default : Config where
  threshold := .t32
  useDma := true
  odDivider := 15
  hsCrcHz := 25000000
  drspSentinel := 0x9F
  busyPollMore := 2
  initckPollMore := 1
  regBase := 0
  tSettle := 0
  tReset := 0
  layout := Layout.default

/-- The `n`-th free register or FIFO draw (R27: "a 32-bit word ... chosen by the environment,
independently at each read"). No body: nothing constrains it (entry 8). -/
opaque Config.freeWord : Nat → Word

/-- The `n`-th free clock-rate answer less one: the rate is a natural > 0 (R255, entry 8). -/
opaque Config.freeRateLess1 : Nat → Nat

/-- The `n`-th free answer of a channel request: `some handle` for Ok, `none` for Fail (R255, entry 8). -/
opaque Config.freeChannel : Nat → Option Nat

/-- The `n`-th free answer of DmaMap, as (address, length) pairs; `none` for Fail (R88, entry 8). -/
opaque Config.freeMap : Nat → Option (List (Nat × Nat))

/-- The `n`-th free answer of the board collaborator (R260, R261, entry 8). -/
opaque Config.freeBool : Nat → Bool

end Sys2Proof
end

