-- ==== Sys2Proof/Syntax.lean ====
section
/-! DEFINITION. The operations of the block as syntax: one constructor of `Instr` per row of
spec/opcode_table.json, and the records their operands are made of (spec/10_state.md R50 to R52,
spec/30_encoding.md R112, R113). -/

namespace Sys2Proof

/-- Direction of a data phase: READ is card to host, WRITE is host to card (R52). -/
inductive Dir where
  | read
  | write
deriving DecidableEq, Repr

/-- Which command of the request is in flight (R16). -/
inductive Slot where
  | main
  | stop
deriving DecidableEq, Repr

/-- Response-format class (R51, R105). -/
inductive Resp where
  | none
  | shortCrc
  | longCrc
  | shortNoCrc
deriving DecidableEq, Repr

/-- Bus mode (R40, R240). -/
inductive BusMode where
  | openDrain
  | pushPull
deriving DecidableEq, Repr

/-- Power mode (R240, R246). -/
inductive PowerMode where
  | off
  | up
  | on
deriving DecidableEq, Repr

/-- A segment of a scatter-gather list: byte address and length (R52). -/
structure Seg where
  addr : Nat
  len : Nat
deriving DecidableEq, Repr

/-- A Command record (R51). -/
structure Command where
  index : Nat
  arg : Word
  resp : Resp
  busy : Bool
deriving DecidableEq, Repr

/-- A DataPhase record (R52). -/
structure DataPhase where
  dir : Dir
  blockSize : Nat
  blockCount : Nat
  sg : List Seg
  timeoutCycles : Nat
  stream : Bool
deriving DecidableEq, Repr

/-- A BusRequest (R50); direction "none" is `data` absent. -/
structure BusRequest where
  id : Nat
  cmd : Command
  data : Option DataPhase
  stop : Option Command
deriving DecidableEq, Repr

/-- The named fields of a command word but `INITCK`, which row CMD_WORD holds 0 (R104). -/
structure CmdFields where
  indx : BitVec 6
  pplen : Bool
  bsyexp : Bool
  rspfmt : Resp
  dtrw : Bool
  strmtp : Bool
  wdatx : Bool
  dmatrig : Bool
deriving DecidableEq, Repr

/-- The nine named events of ST0, which are the nine enables of IM (R24, R28, R103). -/
structure StatusBits where
  datdne : Bool
  rspdne : Bool
  toutrd : Bool
  toutrs : Bool
  crcwr : Bool
  crcrd : Bool
  crcrs : Bool
  dxrdy : Bool
  drrdy : Bool
deriving DecidableEq, Repr

/-- The named fields of FIFOCTL; ACCWD is always 0 (R107). -/
structure FifoFields where
  rst : Bool
  dir : Bool
  lev : Bool
deriving DecidableEq, Repr

/-- One constructor per row of spec/opcode_table.json. The first eight are what an outside agent
invokes, the next fourteen the micro-operations (R112), the rest the word-format rows. -/
inductive Instr where
  | attach
  | detach
  /-- `width` is the code of R113 (W1 = 0, W4 = 1; any other is refused UnsupportedWidth, R240). -/
  | setIos (width : Nat) (mode : BusMode) (power : PowerMode) (clockHz : Nat)
  | request (req : BusRequest)
  | getCd
  | getRo
  | irq
  | dmaErr
  | divsolve (r f : Nat)
  | prepare
  /-- `none` is the code NONE of R113, which FIFO_CFG does not admit (R142). -/
  | fifoCfg (dir : Option Dir)
  | dmaSetup
  | pioInit
  | pioXfer (n : Nat)
  | busyCheck
  /-- `none` is the code none of R113, which CMD_START does not admit (R178). -/
  | cmdStart (slot : Option Slot)
  | softReset
  | cmdEnd
  | dataTeardown
  | xferEnd
  | complete
  | initck
  | cmdWord (f : CmdFields)
  | initckWord
  /-- An ST0 row holds the whole status word: its own bit is 1 and the others are any (R114). -/
  | stDatdne (w : Word)
  | stToutrd (w : Word)
  | stCrcwr (w : Word)
  | stCrcrd (w : Word)
  | stToutrs (w : Word)
  | stCrcrs (w : Word)
  | stRspdne (w : Word)
  | stDxrdy (w : Word)
  | stDrrdy (w : Word)
  | imWord (f : StatusBits)
  | fifoctlWord (f : FifoFields)
  /-- A CTL or CLK row holds the whole word: its reserved bits are the writer's (R22, R23, R37). -/
  | ctlWord (w : Word)
  | clkWord (w : Word)
deriving DecidableEq, Repr

end Sys2Proof
end

