-- ==== Sys2Proof/Machine/Flags.lean ====
section
/-! DEFINITION. The word formats of the register block, field by field, under any LAYOUT
(spec/30_encoding.md R100 to R107, spec/93 U4): assembling a word from its named fields and testing a
named field. No other file names a bit position or a polarity. -/

namespace Sys2Proof.Machine

/-- The word with bit `p` set and no other (R11). -/
def bit (p : Nat) : Word := 1#32 <<< p

/-- A one-bit field at position `p`. -/
def flag (b : Bool) (p : Nat) : Word := if b then bit p else 0#32

/-- A field of several bits whose lowest bit is `lo`. -/
def fieldAt (v lo : Nat) : Word := BitVec.ofNat 32 v <<< lo

/-- Between a register's word and the word in which every named bit is 1 where its field says 1: the bits
of `low` are active low (spec/93 U4). It is its own inverse. -/
def active (low w : Word) : Word := w ^^^ low

/-- Change the named fields of a register's word and keep every other bit. -/
def updateActive (low : Word) (f : Word → Word) (w : Word) : Word := active low (f (active low w))

/-- A 16-bit value register (TOR, TOD, BLEN, NBLK): bits 31:16 are written 0 (R108). -/
def value16 (n : Nat) : Word := BitVec.ofNat 32 (n % 2 ^ 16)

/-! ### CMD (R104, R105) -/

/-- The RSPFMT code of a response class (R105). -/
def respCode : Resp → Nat
  | .none => 0
  | .shortCrc => 1
  | .longCrc => 2
  | .shortNoCrc => 3

/-- The command word with every field of `f`, `INITCK` 0 and the reserved bits 0 (R104, R110). -/
def cmdWord (l : Layout) (f : CmdFields) : Word :=
  active l.low.cmd <| fieldAt f.indx.toNat l.indx ||| flag f.pplen l.pplen ||| flag f.bsyexp l.bsyexp
    ||| fieldAt (respCode f.rspfmt) l.rspfmt ||| flag f.dtrw l.dtrw ||| flag f.strmtp l.strmtp
    ||| flag f.wdatx l.wdatx ||| flag f.dmatrig l.dmatrig

/-- The command word of the initialisation clock pulse: only `INITCK` is set (R245). -/
def initckWord (l : Layout) : Word := active l.low.cmd (bit l.initck)

/-! ### ST0 and IM (R103) -/

/-- The named event at position `p` of a word read from ST0. -/
def eventAt (l : Layout) (w : Word) (p : Nat) : Bool := (active l.low.st0 w).getLsbD p

/-- The nine named events of a word read from ST0; every other bit is ignored (R24). -/
def statusOf (l : Layout) (w : Word) : StatusBits where
  datdne := eventAt l w l.datdne
  rspdne := eventAt l w l.rspdne
  toutrd := eventAt l w l.toutrd
  toutrs := eventAt l w l.toutrs
  crcwr := eventAt l w l.crcwr
  crcrd := eventAt l w l.crcrd
  crcrs := eventAt l w l.crcrs
  dxrdy := eventAt l w l.dxrdy
  drrdy := eventAt l w l.drrdy

/-- A status word with the event at position `p` seen and every other bit as it was. -/
def withEvent (l : Layout) (w : Word) (p : Nat) : Word := updateActive l.low.st0 (· ||| bit p) w

/-- The status word with the events of both words: "accumulating all observed bits" (R192). -/
def bothEvents (l : Layout) (q s : Word) : Word := updateActive l.low.st0 (· ||| active l.low.st0 s) q

/-- The IM word with these nine enables, every bit with no field 0 (R28, R103). -/
def maskWord (l : Layout) (b : StatusBits) : Word :=
  active l.low.im <| flag b.datdne l.datdne ||| flag b.rspdne l.rspdne ||| flag b.toutrd l.toutrd
    ||| flag b.toutrs l.toutrs ||| flag b.crcwr l.crcwr ||| flag b.crcrd l.crcrd
    ||| flag b.crcrs l.crcrs ||| flag b.dxrdy l.dxrdy ||| flag b.drrdy l.drrdy

/-- The IM word with every enable 0: "disable all interrupts" (R191, R226). -/
def noInterrupts (l : Layout) : Word := active l.low.im 0

/-- Either FIFO-ready bit, whatever the direction (R192). -/
def fifoReady (b : StatusBits) : Bool := b.dxrdy || b.drrdy

/-- The armed mask of R111 as named bits: `data` is the direction of the data phase in flight, if one
is, and `pio` says it is not by DMA. -/
def armedBits (data : Option Dir) (pio : Bool) : StatusBits where
  datdne := data.isSome
  rspdne := true
  toutrd := data == some .read
  toutrs := true
  crcwr := data == some .write
  crcrd := data == some .read
  crcrs := true
  dxrdy := data == some .write && pio
  drrdy := data == some .read && pio

/-! ### ST1 (R106) -/

/-- `ST1.BUSY`. -/
def busyOf (l : Layout) (w : Word) : Bool := (active l.low.st1 w).getLsbD l.busy

/-! ### CTL (R101) -/

/-- `CTL` with `WIDTH4` set or cleared and every other bit as it was (R241). -/
def withWidth4 (l : Layout) (w : Word) (on : Bool) : Word :=
  updateActive l.low.ctl (fun v => if on then v ||| bit l.width4 else v &&& ~~~(bit l.width4)) w

/-- Both soft-reset bits (R22, R202). -/
def resetBits (l : Layout) : Word := bit l.cmdrst ||| bit l.datrst

/-- `CTL` with both soft-reset bits asserted and every other bit as it was (R202). -/
def assertResets (l : Layout) (w : Word) : Word := updateActive l.low.ctl (· ||| resetBits l) w

/-- `CTL` with both soft-reset bits released and every other bit as it was (R202). -/
def releaseResets (l : Layout) (w : Word) : Word := updateActive l.low.ctl (· &&& ~~~(resetBits l)) w

/-! ### CLK (R102) -/

/-- DIV_MASK: `2^DIV_WIDTH - 1` at the field's position (R240). -/
def divMask (l : Layout) : Word := fieldAt (2 ^ DIV_WIDTH - 1) l.div

/-- `CLK` with the `DIV` field replaced and every other bit as it was (R242, R243). -/
def withDiv (l : Layout) (w : Word) (d : Nat) : Word :=
  updateActive l.low.clk (fun v => (v &&& ~~~(divMask l)) ||| fieldAt d l.div) w

/-- The `DIV` field of a `CLK` word. -/
def divOf (l : Layout) (w : Word) : Nat := (active l.low.clk w >>> l.div).toNat % 2 ^ DIV_WIDTH

/-- `CLK.CLKEN`. -/
def clkenOf (l : Layout) (w : Word) : Bool := (active l.low.clk w).getLsbD l.clken

/-- `CLK` with `CLKEN` 0 (R243). -/
def gateClock (l : Layout) (w : Word) : Word :=
  updateActive l.low.clk (· &&& ~~~(bit l.clken)) w

/-- `CLK` with `CLKEN` 1 (R243). -/
def ungateClock (l : Layout) (w : Word) : Word := updateActive l.low.clk (· ||| bit l.clken) w

/-! ### FIFOCTL (R107) -/

/-- The FIFOCTL word of its named fields, ACCWD and the reserved bits 0. -/
def fifoWord (l : Layout) (f : FifoFields) : Word :=
  active l.low.fifoctl <| flag f.rst l.rst ||| flag f.dir l.dir ||| flag f.lev l.lev

end Sys2Proof.Machine
end

