-- ==== Sys2Proof/WellFormed.lean ====
section
/-! DEFINITION. Which instructions are well formed: operands inside the domain their rule gives, and
inside the fields the model's message encoding gives them (entry 2). Whether a BusRequest is one that
REQUEST accepts (R54) is not decided here but by REQUEST itself. -/

namespace Sys2Proof

/-- A natural that fits the eight-byte operand field. -/
def fitsNat (n : Nat) : Bool := decide (n < 2 ^ 64)

def Seg.fits (g : Seg) : Bool := fitsNat g.addr && fitsNat g.len

def Command.fits (c : Command) : Bool := fitsNat c.index

def DataPhase.fits (d : DataPhase) : Bool :=
  fitsNat d.blockSize && fitsNat d.blockCount && fitsNat d.sg.length && d.sg.all Seg.fits
    && fitsNat d.timeoutCycles

def BusRequest.fits (r : BusRequest) : Bool :=
  fitsNat r.id && r.cmd.fits && r.data.all DataPhase.fits && r.stop.all Command.fits

/-- Well-formedness, constructor by constructor: R130 (`r` greater than 0), R142 (READ or WRITE),
R160 (`n` at least 1), R178 (MAIN or STOP), R103 (an ST0 row's own bit, under the table's layout). -/
def Instr.wf : Instr → Bool
  | .attach => true
  | .detach => true
  | .setIos width _ _ clockHz => decide (width < 256) && fitsNat clockHz
  | .request req => req.fits
  | .getCd => true
  | .getRo => true
  | .irq => true
  | .dmaErr => true
  | .divsolve r f => decide (1 ≤ r) && fitsNat (r - 1) && fitsNat f
  | .prepare => true
  | .fifoCfg dir => dir.isSome
  | .dmaSetup => true
  | .pioInit => true
  | .pioXfer n => decide (1 ≤ n) && fitsNat (n - 1)
  | .busyCheck => true
  | .cmdStart slot => slot.isSome
  | .softReset => true
  | .cmdEnd => true
  | .dataTeardown => true
  | .xferEnd => true
  | .complete => true
  | .initck => true
  | .cmdWord _ => true
  | .initckWord => true
  | .stDatdne w => w.getLsbD Layout.default.datdne
  | .stToutrd w => w.getLsbD Layout.default.toutrd
  | .stCrcwr w => w.getLsbD Layout.default.crcwr
  | .stCrcrd w => w.getLsbD Layout.default.crcrd
  | .stToutrs w => w.getLsbD Layout.default.toutrs
  | .stCrcrs w => w.getLsbD Layout.default.crcrs
  | .stRspdne w => w.getLsbD Layout.default.rspdne
  | .stDxrdy w => w.getLsbD Layout.default.dxrdy
  | .stDrrdy w => w.getLsbD Layout.default.drrdy
  | .imWord _ => true
  | .fifoctlWord _ => true
  | .ctlWord _ => true
  | .clkWord _ => true

end Sys2Proof
end

