-- ==== Sys2Proof/Decode.lean ====
section
/-! DEFINITION. Decoding a queued message to an instruction, total on any bytes and refusing by name,
and the encoder. The table (spec/opcode_table.json) gives 5-bit selector rows, with no bits for their
operands, and 32-bit register-word rows, which overlap one another; the operand fields of the first and
the format tag of the second are the model's own (DESIGN CHOICE, entries 2 and 3). -/

namespace Sys2Proof

/-- Which of the table's two kinds of row a message is for: a 5-bit selector, or a 32-bit word of a
register format. -/
inductive Port where
  | selector
  | word
deriving DecidableEq, Repr

/-- Why bytes are no instruction. -/
inductive DecodeError where
  /-- The message ends inside an operand. -/
  | truncated
  /-- A selector code R112 leaves unassigned (0x08..0x0F, 0x1E, 0x1F), or more than five bits (R115). -/
  | unassignedSelector (code : Nat)
  /-- An operand code that R113 does not give. -/
  | badOperandCode (code : Nat)
  /-- A word whose fixed bits are not the row's (R104, R107, R103). -/
  | reservedBits
  /-- An ST0 row whose own bit is 0 (R114). -/
  | rowBitClear
  /-- A format tag that names no row of the table. -/
  | unknownFormat (tag : Nat)
deriving DecidableEq, Repr

/-! ### Reading operand fields -/

/-- A reader takes the bytes left and answers a value and the bytes after it. -/
abbrev Reader (α : Type) := List Byte → Except DecodeError (α × List Byte)

def Reader.pure {α : Type} (a : α) : Reader α := fun bs => .ok (a, bs)

def Reader.fail {α : Type} (e : DecodeError) : Reader α := fun _ => .error e

def Reader.bind {α β : Type} (p : Reader α) (f : α → Reader β) : Reader β := fun bs =>
  match p bs with
  | .ok (a, rest) => f a rest
  | .error e => .error e

/-- A natural in `k` bytes, the lowest first. -/
def getLE : Nat → Reader Nat
  | 0 => Reader.pure 0
  | k + 1 => fun bs =>
    match bs with
    | [] => .error .truncated
    | b :: bs =>
      match getLE k bs with
      | .ok (n, rest) => .ok (b.toNat + 256 * n, rest)
      | .error e => .error e

/-- A natural operand: eight bytes. -/
def getNat : Reader Nat := getLE 8

/-- A 32-bit operand: four bytes. -/
def getWord : Reader Word := (getLE 4).bind fun n => Reader.pure (BitVec.ofNat 32 n)

/-- A one-byte operand with the codes `f` knows. -/
def getCode {α : Type} (f : Nat → Option α) : Reader α := (getLE 1).bind fun n =>
  match f n with
  | some a => Reader.pure a
  | none => Reader.fail (.badOperandCode n)

/-- `n` values one after another. -/
def getMany {α : Type} (p : Reader α) : Nat → Reader (List α)
  | 0 => Reader.pure []
  | n + 1 => p.bind fun a => (getMany p n).bind fun as => Reader.pure (a :: as)

/-- A list: its length, then its values. -/
def getList {α : Type} (p : Reader α) : Reader (List α) := getNat.bind fun n => getMany p n

def boolOfCode : Nat → Option Bool
  | 0 => some false
  | 1 => some true
  | _ => none

def getBool : Reader Bool := getCode boolOfCode

/-- A value that may be absent: 0, or 1 and the value. -/
def getOption {α : Type} (p : Reader α) : Reader (Option α) := getBool.bind fun b =>
  if b then p.bind fun a => Reader.pure (some a) else Reader.pure none

/-! ### Operand codes (R113) -/

def busModeOfCode : Nat → Option BusMode
  | 0 => some .openDrain
  | 1 => some .pushPull
  | _ => none

def powerModeOfCode : Nat → Option PowerMode
  | 0 => some .off
  | 1 => some .up
  | 2 => some .on
  | _ => none

def dirOfCode : Nat → Option Dir
  | 1 => some .read
  | 2 => some .write
  | _ => none

def dirOrNoneOfCode : Nat → Option (Option Dir)
  | 0 => some none
  | 1 => some (some .read)
  | 2 => some (some .write)
  | _ => none

def slotOrNoneOfCode : Nat → Option (Option Slot)
  | 0 => some none
  | 1 => some (some .main)
  | 2 => some (some .stop)
  | _ => none

def respOfCode : Nat → Option Resp
  | 0 => some .none
  | 1 => some .shortCrc
  | 2 => some .longCrc
  | 3 => some .shortNoCrc
  | _ => none

/-! ### Records -/

def getSeg : Reader Seg := getNat.bind fun a => getNat.bind fun n => Reader.pure ⟨a, n⟩

def getCommand : Reader Command :=
  getNat.bind fun index => getWord.bind fun arg => (getCode respOfCode).bind fun resp =>
  getBool.bind fun busy => Reader.pure ⟨index, arg, resp, busy⟩

def getDataPhase : Reader DataPhase :=
  (getCode dirOfCode).bind fun dir => getNat.bind fun size => getNat.bind fun count =>
  (getList getSeg).bind fun sg => getNat.bind fun tmo => getBool.bind fun stream =>
  Reader.pure ⟨dir, size, count, sg, tmo, stream⟩

def getRequest : Reader BusRequest :=
  getNat.bind fun id => getCommand.bind fun cmd => (getOption getDataPhase).bind fun data =>
  (getOption getCommand).bind fun stop => Reader.pure ⟨id, cmd, data, stop⟩

/-! ### The rows -/

/-- The operation a selector code names (R112), with its operands. `DIVSOLVE` codes `r - 1` and
`PIO_XFER` codes `n - 1`, since both operands are at least 1 (R130, R160). -/
def getOperation : Nat → Reader Instr
  | 0x00 => Reader.pure .attach
  | 0x01 => Reader.pure .detach
  | 0x02 => (getLE 1).bind fun width => (getCode busModeOfCode).bind fun mode =>
      (getCode powerModeOfCode).bind fun power => getNat.bind fun hz =>
      Reader.pure (.setIos width mode power hz)
  | 0x03 => getRequest.bind fun req => Reader.pure (.request req)
  | 0x04 => Reader.pure .getCd
  | 0x05 => Reader.pure .getRo
  | 0x06 => Reader.pure .irq
  | 0x07 => Reader.pure .dmaErr
  | 0x10 => getNat.bind fun r => getNat.bind fun f => Reader.pure (.divsolve (r + 1) f)
  | 0x11 => Reader.pure .prepare
  | 0x12 => (getCode dirOrNoneOfCode).bind fun dir => Reader.pure (.fifoCfg dir)
  | 0x13 => Reader.pure .dmaSetup
  | 0x14 => Reader.pure .pioInit
  | 0x15 => getNat.bind fun n => Reader.pure (.pioXfer (n + 1))
  | 0x16 => Reader.pure .busyCheck
  | 0x17 => (getCode slotOrNoneOfCode).bind fun slot => Reader.pure (.cmdStart slot)
  | 0x18 => Reader.pure .softReset
  | 0x19 => Reader.pure .cmdEnd
  | 0x1A => Reader.pure .dataTeardown
  | 0x1B => Reader.pure .xferEnd
  | 0x1C => Reader.pure .complete
  | 0x1D => Reader.pure .initck
  | code => Reader.fail (.unassignedSelector code)

/-- The RSPFMT field of a command word under the table's layout: bits 10:9 (R104, R105). -/
def rspfmtOf (w : Word) : Resp :=
  match w.getLsbD 10, w.getLsbD 9 with
  | false, false => .none
  | false, true => .shortCrc
  | true, false => .longCrc
  | true, true => .shortNoCrc

/-- Row CMD_WORD, pattern 000000000000000t00xswffbp0iiiiii. -/
def decodeCmd (w : Word) : Except DecodeError Instr :=
  if w &&& 0xFFFEC040 = 0 then
    .ok (.cmdWord { indx := w.extractLsb' 0 6, pplen := w.getLsbD 7, bsyexp := w.getLsbD 8,
                    rspfmt := rspfmtOf w, dtrw := w.getLsbD 11, strmtp := w.getLsbD 12,
                    wdatx := w.getLsbD 13, dmatrig := w.getLsbD 16 })
  else .error .reservedBits

/-- Row IM_WORD, pattern 000000000000000000000rx0cdwstm0e. -/
def decodeIm (w : Word) : Except DecodeError Instr :=
  if w &&& 0xFFFFF902 = 0 then
    .ok (.imWord { datdne := w.getLsbD 0, rspdne := w.getLsbD 2, toutrd := w.getLsbD 3,
                   toutrs := w.getLsbD 4, crcwr := w.getLsbD 5, crcrd := w.getLsbD 6,
                   crcrs := w.getLsbD 7, dxrdy := w.getLsbD 9, drrdy := w.getLsbD 10 })
  else .error .reservedBits

/-- Row FIFOCTL_WORD, pattern 00000000000000000000000000000ldr. -/
def decodeFifoctl (w : Word) : Except DecodeError Instr :=
  if w &&& 0xFFFFFFF8 = 0 then
    .ok (.fifoctlWord { rst := w.getLsbD 0, dir := w.getLsbD 1, lev := w.getLsbD 2 })
  else .error .reservedBits

/-- An ST0 row: its own bit is 1 and every other bit is any. -/
def decodeStatus (w : Word) (p : Nat) (i : Instr) : Except DecodeError Instr :=
  if w.getLsbD p then .ok i else .error .rowBitClear

/-- The row of a word that is no command word: the first ST0 row whose bit it has, in the table's order,
and CTL_WORD, which every word matches, where it has none. -/
def decodeRest (w : Word) : Instr :=
  if w.getLsbD 0 then .stDatdne w
  else if w.getLsbD 3 then .stToutrd w
  else if w.getLsbD 5 then .stCrcwr w
  else if w.getLsbD 6 then .stCrcrd w
  else if w.getLsbD 4 then .stToutrs w
  else if w.getLsbD 7 then .stCrcrs w
  else if w.getLsbD 2 then .stRspdne w
  else if w.getLsbD 9 then .stDxrdy w
  else if w.getLsbD 10 then .stDrrdy w
  else .ctlWord w

/-- A word with no format tag: the rows of the table overlap, so the word alone does not say which it
is. It is the INITCK word or an ST0 event where it is exactly that row's match, and otherwise the first
row of the table that it matches (DESIGN CHOICE, entry 3). No such word is refused. -/
def decodeUntagged (w : Word) : Instr :=
  if w = 0x4000 then .initckWord
  else if w ∈ [0x001, 0x008, 0x020, 0x040, 0x010, 0x080, 0x004, 0x200, 0x400] then decodeRest w
  else match decodeCmd w with
    | .ok i => i
    | .error _ => decodeRest w

/-- The register-word row a format tag names: the tag is the row's place in the table, counted from 0. -/
def decodeWord (tag : Nat) (w : Word) : Except DecodeError Instr :=
  match tag with
  | 0 => .ok (decodeUntagged w)
  | 22 => decodeCmd w
  | 23 => if w = 0x4000 then .ok .initckWord else .error .reservedBits
  | 24 => decodeStatus w 0 (.stDatdne w)
  | 25 => decodeStatus w 3 (.stToutrd w)
  | 26 => decodeStatus w 5 (.stCrcwr w)
  | 27 => decodeStatus w 6 (.stCrcrd w)
  | 28 => decodeStatus w 4 (.stToutrs w)
  | 29 => decodeStatus w 7 (.stCrcrs w)
  | 30 => decodeStatus w 2 (.stRspdne w)
  | 31 => decodeStatus w 9 (.stDxrdy w)
  | 32 => decodeStatus w 10 (.stDrrdy w)
  | 33 => decodeIm w
  | 34 => decodeFifoctl w
  | 35 => .ok (.ctlWord w)
  | 36 => .ok (.clkWord w)
  | _ => .error (.unknownFormat tag)

/-- A register-word message: the word, then its format tag. -/
def getRow : Reader Instr := getWord.bind fun w => (getLE 1).bind fun tag => fun bs =>
  match decodeWord tag w with
  | .ok i => .ok (i, bs)
  | .error e => .error e

/-- The instruction at the head of a message, and the bytes after it. -/
def decode : Port → List Byte → Except DecodeError (Instr × List Byte)
  | .selector, bs => ((getLE 1).bind getOperation) bs
  | .word, bs => getRow bs

/-! ### The encoder -/

/-- A natural in `k` bytes, the lowest first. -/
def putLE : Nat → Nat → List Byte
  | 0, _ => []
  | k + 1, n => BitVec.ofNat 8 n :: putLE k (n / 256)

def putNat (n : Nat) : List Byte := putLE 8 n

def putWord (w : Word) : List Byte := putLE 4 w.toNat

def putBool (b : Bool) : List Byte := putLE 1 (if b then 1 else 0)

def putOption {α : Type} (f : α → List Byte) : Option α → List Byte
  | none => putBool false
  | some a => putBool true ++ f a

def putMany {α : Type} (f : α → List Byte) : List α → List Byte
  | [] => []
  | a :: as => f a ++ putMany f as

def putList {α : Type} (f : α → List Byte) (as : List α) : List Byte :=
  putNat as.length ++ putMany f as

def busModeCode : BusMode → Nat
  | .openDrain => 0
  | .pushPull => 1

def powerModeCode : PowerMode → Nat
  | .off => 0
  | .up => 1
  | .on => 2

def dirCode : Dir → Nat
  | .read => 1
  | .write => 2

def dirOrNoneCode : Option Dir → Nat
  | none => 0
  | some d => dirCode d

def slotOrNoneCode : Option Slot → Nat
  | none => 0
  | some .main => 1
  | some .stop => 2

def putSeg (g : Seg) : List Byte := putNat g.addr ++ putNat g.len

def putCommand (c : Command) : List Byte :=
  putNat c.index ++ putWord c.arg ++ putLE 1 (Machine.respCode c.resp) ++ putBool c.busy

def putDataPhase (d : DataPhase) : List Byte :=
  putLE 1 (dirCode d.dir) ++ putNat d.blockSize ++ putNat d.blockCount ++ putList putSeg d.sg
    ++ putNat d.timeoutCycles ++ putBool d.stream

def putRequest (r : BusRequest) : List Byte :=
  putNat r.id ++ putCommand r.cmd ++ putOption putDataPhase r.data ++ putOption putCommand r.stop

/-- A register-word message. -/
def putRow (tag : Nat) (w : Word) : List Byte := putWord w ++ putLE 1 tag

/-- The kind of message an instruction is queued as. -/
def portOf : Instr → Port
  | .cmdWord _ | .initckWord | .stDatdne _ | .stToutrd _ | .stCrcwr _ | .stCrcrd _ | .stToutrs _
  | .stCrcrs _ | .stRspdne _ | .stDxrdy _ | .stDrrdy _ | .imWord _ | .fifoctlWord _ | .ctlWord _
  | .clkWord _ => .word
  | .attach | .detach | .setIos _ _ _ _ | .request _ | .getCd | .getRo | .irq | .dmaErr
  | .divsolve _ _ | .prepare | .fifoCfg _ | .dmaSetup | .pioInit | .pioXfer _ | .busyCheck
  | .cmdStart _ | .softReset | .cmdEnd | .dataTeardown | .xferEnd | .complete | .initck => .selector

/-- The bytes of a well-formed instruction, in a message of kind `portOf`. -/
def encode : Instr → List Byte
  | .attach => putLE 1 0x00
  | .detach => putLE 1 0x01
  | .setIos width mode power hz =>
      putLE 1 0x02 ++ putLE 1 width ++ putLE 1 (busModeCode mode) ++ putLE 1 (powerModeCode power)
        ++ putNat hz
  | .request req => putLE 1 0x03 ++ putRequest req
  | .getCd => putLE 1 0x04
  | .getRo => putLE 1 0x05
  | .irq => putLE 1 0x06
  | .dmaErr => putLE 1 0x07
  | .divsolve r f => putLE 1 0x10 ++ putNat (r - 1) ++ putNat f
  | .prepare => putLE 1 0x11
  | .fifoCfg dir => putLE 1 0x12 ++ putLE 1 (dirOrNoneCode dir)
  | .dmaSetup => putLE 1 0x13
  | .pioInit => putLE 1 0x14
  | .pioXfer n => putLE 1 0x15 ++ putNat (n - 1)
  | .busyCheck => putLE 1 0x16
  | .cmdStart slot => putLE 1 0x17 ++ putLE 1 (slotOrNoneCode slot)
  | .softReset => putLE 1 0x18
  | .cmdEnd => putLE 1 0x19
  | .dataTeardown => putLE 1 0x1A
  | .xferEnd => putLE 1 0x1B
  | .complete => putLE 1 0x1C
  | .initck => putLE 1 0x1D
  | .cmdWord f => putRow 22 (Machine.cmdWord Layout.default f)
  | .initckWord => putRow 23 (Machine.initckWord Layout.default)
  | .stDatdne w => putRow 24 w
  | .stToutrd w => putRow 25 w
  | .stCrcwr w => putRow 26 w
  | .stCrcrd w => putRow 27 w
  | .stToutrs w => putRow 28 w
  | .stCrcrs w => putRow 29 w
  | .stRspdne w => putRow 30 w
  | .stDxrdy w => putRow 31 w
  | .stDrrdy w => putRow 32 w
  | .imWord f => putRow 33 (Machine.maskWord Layout.default f)
  | .fifoctlWord f => putRow 34 (Machine.fifoWord Layout.default f)
  | .ctlWord w => putRow 35 w
  | .clkWord w => putRow 36 w

/-! ### A word of the opcode table -/

/-- Zeros enough for the operands of any message `withFetchWord` is asked for: a REQUEST with every
operand 0 takes 25 bytes. -/
def tablePadding : List Byte := List.replicate 64 0#8

/-- Rows of at most 8 bits are selectors, the others register words. -/
def tablePort (nbits : Nat) : Port := if nbits ≤ 8 then .selector else .word

/-- The bytes of a table word, the lowest first, and zeros above it. -/
def tableBytes (nbits w : Nat) : List Byte :=
  putLE (match tablePort nbits with | .selector => 1 | .word => 4) w ++ tablePadding

/-- The instruction the decoder reads from a word numbered as spec/opcode_table.json numbers it. -/
def decodeTableWord (nbits w : Nat) : Option Instr :=
  match decode (tablePort nbits) (tableBytes nbits w) with
  | .ok (i, _) => some i
  | .error _ => none

end Sys2Proof
end

