-- ==== Sys2Proof/Machine/State.lean ====
section
/-! DEFINITION. The state of the block (spec/10_state.md R20 to R64), plain data throughout, its events,
and the reasons a step can stop. -/

namespace Sys2Proof.Machine

/-! ### Registers -/

/-- The engine-written registers, plain storage (R26). -/
inductive StoredReg where
  | ctl
  | clk
  | im
  | tor
  | tod
  | blen
  | nblk
  | cmd
  | arg
  | fifoctl
deriving DecidableEq, Repr

/-- The environment registers the engine reads as words: every read is a draw (R27). -/
inductive DrawnReg where
  | st0
  | st1
  | rsp0
  | rsp1
  | rsp2
  | rsp3
  | drsp
deriving DecidableEq, Repr

/-- A register as an event names it (R58). -/
inductive Reg where
  | stored (r : StoredReg)
  | drawn (r : DrawnReg)
deriving DecidableEq, Repr

/-- The stored words of the engine-written registers (R21, R26). -/
structure Regs where
  ctl : Word
  clk : Word
  im : Word
  tor : Word
  tod : Word
  blen : Word
  nblk : Word
  cmd : Word
  arg : Word
  fifoctl : Word
deriving DecidableEq, Repr

/-! ### HostState -/

/-- The sequencer state (R41). -/
inductive Phase where
  | idle
  | commandIssued
  | dataInFlight
  | stopIssued
deriving DecidableEq, Repr

/-- The two bus widths of the block (R40). -/
inductive BusWidth where
  | w1
  | w4
deriving DecidableEq, Repr

/-- HostState `H` (R40). -/
structure HostState where
  attached : Bool
  phase : Phase
  /-- Which command of `Q` is in flight. -/
  cmd : Option Slot
  /-- A data phase of `Q` is in flight. -/
  data : Bool
  /-- Direction of the in-flight data phase; `none` is NONE. -/
  dataDir : Option Dir
  doDma : Bool
  sgIdx : Nat
  bufPtr : Nat
  segLeft : Nat
  bytesLeft : Nat
  busMode : BusMode
  busWidth : BusWidth
  busClockHz : Nat
  powerMode : PowerMode
  refClockHz : Nat
  dmaOk : Bool
  msg : List Seg
deriving DecidableEq, Repr

/-! ### The request in flight -/

/-- The error kinds a request can carry (R270). -/
inductive ErrorKind where
  | none
  | timeout
  | crc
  | dma
deriving DecidableEq, Repr

/-- The four words of a response; `w0` is `resp[0]`, the most significant (R221). -/
structure Response where
  w0 : Word
  w1 : Word
  w2 : Word
  w3 : Word
deriving DecidableEq, Repr

/-- A response of zeros (R53). -/
def Response.zero : Response := ⟨0, 0, 0, 0⟩

/-- The result fields of `Q` (R53). -/
structure Result where
  cmdResp : Response
  cmdError : ErrorKind
  stopResp : Response
  stopError : ErrorKind
  dataError : ErrorKind
  bytesXfered : Nat
deriving DecidableEq, Repr

/-- The request in flight: the BusRequest and its result fields (R50). -/
structure InFlight where
  req : BusRequest
  result : Result
deriving DecidableEq, Repr

/-- The Completion record (R227). -/
structure CompletionRecord where
  id : Nat
  cmdResp : Response
  cmdError : ErrorKind
  stopResp : Response
  stopError : ErrorKind
  dataError : ErrorKind
  bytesXfered : Nat
deriving DecidableEq, Repr

/-! ### The DMA program -/

/-- Address mode of one side of a descriptor (R56). -/
inductive AddrMode where
  | incr
  | fixed
deriving DecidableEq, Repr

/-- A DMA descriptor or template (R56). -/
structure Desc where
  srcAddr : Nat
  srcMode : AddrMode
  dstAddr : Nat
  dstMode : AddrMode
  elemWidth : Nat
  frameElems : Nat
  elemCount : Nat
  link : Option Nat
deriving DecidableEq, Repr

/-- The DMA program `D` (R56, R57). -/
structure DmaProgram where
  tmplRead : Desc
  tmplWrite : Desc
  chanRead : Option Nat
  chanWrite : Option Nat
  desc : List Desc
deriving DecidableEq, Repr

/-! ### The trace -/

/-- Width of a FIFO or host-memory access: 1, 2 or 4 bytes (R72, R73). -/
inductive Width where
  | byte
  | half
  | word
deriving DecidableEq, Repr

/-- An event of the trace (R58). -/
inductive Event where
  | regR (r : Reg) (v : Word)
  | regW (r : StoredReg) (v : Word)
  | fifoR (w : Width) (v : Word)
  | fifoW (w : Width) (v : Word)
  | memR (addr : Nat) (w : Width) (v : Word)
  | memW (addr : Nat) (w : Width) (v : Word)
  | delay (d : Nat)
  | dmaRequest (dir : Dir) (result : Option Nat)
  | dmaFree (dir : Dir)
  | dmaMap (sg : List Seg) (dir : Dir) (result : Option (List Seg))
  | dmaUnmap (sg : List Seg) (dir : Dir)
  | dmaProg (chan : Option Nat) (i : Nat) (desc : Desc)
  | dmaStart (chan : Option Nat)
  | dmaStop (chan : Option Nat)
  | dmaClean (chan : Option Nat)
  | clkEnable
  | clkDisable
  | clkRate (v : Nat)
  | boardCd (v : Bool)
  | boardRo (v : Bool)
  | completion (rec : CompletionRecord)
deriving DecidableEq, Repr

/-! ### Fault, transient flags -/

/-- The sticky fault of the engine; the spec gives it this one value (R59, R276). -/
inductive StickyFault where
  | pioCursorExhausted
deriving DecidableEq, Repr

/-- The transient state of one IRQ operation (R60), stored so that a row that runs one classification
rule has a state to act on (entry 18). -/
structure IrqLocal where
  /-- The last status word read. -/
  s : Word
  /-- The combined status. -/
  q : Word
  endCmd : Bool
  endXfer : Bool
  needReset : Bool
  completed : Bool
deriving DecidableEq, Repr

/-- The flags at the entry of every IRQ operation, and between operations (R60, R301). -/
def IrqLocal.clear : IrqLocal := ⟨0, 0, false, false, false, false⟩

/-! ### The environment's scripts (the model's own) -/

/-- A scripted answer of DmaMap (R88, R117). -/
inductive MapAnswer where
  | fail
  /-- Ok with the list as given: what a deterministic simulator uses. -/
  | identity
  | list (msg : List Seg)
deriving DecidableEq, Repr

/-- The draws a script has queued, one queue per source (R117 `env`), and how many free draws were made. -/
structure EnvScript where
  st0 : List Word
  st1 : List Word
  rsp0 : List Word
  rsp1 : List Word
  rsp2 : List Word
  rsp3 : List Word
  drsp : List Word
  drr : List Word
  dmaMap : List MapAnswer
  dmaReq : List (Option Nat)
  clkRate : List Nat
  cd : List Bool
  ro : List Bool
  drawn : Nat
deriving DecidableEq, Repr

/-- No script: every draw is a free value. -/
def EnvScript.empty : EnvScript :=
  ⟨[], [], [], [], [], [], [], [], [], [], [], [], [], 0⟩

/-! ### Queue and results (the model's own) -/

/-- An operation an outside agent has invoked and the engine has not begun: "operations are queued
events on one owner of H" (R84). -/
structure Message where
  port : Port
  bytes : List Byte
deriving DecidableEq, Repr

/-- The refusals of R277. -/
inductive RefuseKind where
  | faulted
  | notAttached
  | alreadyAttached
  | detachWhileBusy
  | iosWhileBusy
  | unsupportedWidth
  | requestWhileBusy
  | malformedRequest
deriving DecidableEq, Repr

/-- What the last operation answered to the one who invoked it. -/
inductive Ret where
  /-- No operation has run. -/
  | none
  /-- It ran and returns no value. -/
  | done
  /-- It raised the sticky fault and was abandoned (R276). -/
  | halted
  /-- It was refused, with no effect (R277). -/
  | refused (k : RefuseKind)
  /-- The queued bytes name no operation and were turned away, with no effect (R115, entry 13). -/
  | undecodable (e : DecodeError)
  /-- DIVSOLVE (R130). -/
  | divider (d : Nat)
  /-- DMA_SETUP: ok or fail (R144). -/
  | setup (ok : Bool)
  /-- BUSY_CHECK: stuck or clear (R171). -/
  | busy (stuck : Bool)
  /-- GET_CD, GET_RO (R260, R261). -/
  | answer (v : Bool)
  /-- IRQ: handled or spurious (R190). -/
  | interrupt (handled : Bool)
deriving DecidableEq, Repr

/-! ### State -/

/-- Host memory: (address, byte) pairs, addresses strictly rising, no entry equal to what an unlisted
address reads as. -/
abbrev Memory := List Host.Cell

/-- The state of the block (R20), and the model's own fields after it. -/
structure State where
  regs : Regs
  h : HostState
  q : Option InFlight
  dma : DmaProgram
  mem : Memory
  trace : List Event
  fault : Option StickyFault
  irq : IrqLocal
  /-- The model's own: the construction parameters, which no step writes (entry 4). -/
  cfg : Config
  /-- The model's own: queued draws and the free-draw counter (entry 8). -/
  env : EnvScript
  /-- The model's own: operations not yet begun, oldest first (entry 1). -/
  pending : List Message
  /-- The model's own: what the last operation answered (entry 14). -/
  ret : Ret
deriving DecidableEq, Repr

/-! ### Why a step stops -/

/-- The machine stops. -/
inductive Fault where
  /-- A micro-operation reads a record that is absent (`Q`, `Q.data`, `Q.stop`, `H.cmd`, the direction,
  a segment): the source's "null in-flight pointers where non-null is required", an unrecoverable
  assertion (R276). Raised by the micro-operations when they are queued by themselves in a state that
  lacks the record. Safe: no sequence of outside operations from reset reaches it. -/
  | nullInFlight
  /-- A host-memory access outside the 2^ADDR_WIDTH byte addresses that exist (R70, R54). Raised by
  PIO_XFER. Safe: R54 keeps every segment of an accepted request inside the space. -/
  | addressOutOfRange
deriving DecidableEq, Repr

/-- The model gives no meaning. -/
inductive Refusal where
  /-- An arm of `exec` that has no meaning yet. Safe. -/
  | notModelled (mnemonic : String)
  /-- An operand outside the domain its rule gives: DIVSOLVE `r` = 0 (R130), FIFO_CFG NONE (R142),
  PIO_XFER `n` = 0 (R160), CMD_START with no slot (R178). Raised by those four. Safe. -/
  | operandOutOfDomain
  /-- A scripted clock rate of 0: "a rate of 0 is given no meaning" (spec/93 U15). Raised by ATTACH. Safe. -/
  | clockRateZero
deriving DecidableEq, Repr

/-- What an operation answers. -/
abbrev Answer := Host.Outcome State Fault Refusal

/-! ### Reset (R62, R300, R301) -/

/-- The descriptor D.tmpl holds before ATTACH computes it: unspecified by R62; DESIGN CHOICE (entry 7). -/
def Desc.zero : Desc := ⟨0, .incr, 0, .incr, 0, 0, 0, none⟩

/-- HostState after hardware reset (R62, middle column); `ref_clock_hz` is unspecified there: DESIGN
CHOICE 1 (entry 7). -/
def HostState.reset : HostState where
  attached := false
  phase := .idle
  cmd := none
  data := false
  dataDir := none
  doDma := false
  sgIdx := 0
  bufPtr := 0
  segLeft := 0
  bytesLeft := 0
  busMode := .openDrain
  busWidth := .w1
  busClockHz := 0
  powerMode := .off
  refClockHz := 1
  dmaOk := false
  msg := []

/-- The state after hardware reset, for any configuration and any RESET_IMAGE (R300). -/
def State.hardwareReset (cfg : Config) (image : Regs) : State where
  regs := image
  h := HostState.reset
  q := none
  dma := ⟨Desc.zero, Desc.zero, none, none, []⟩
  mem := []
  trace := []
  fault := none
  irq := IrqLocal.clear
  cfg := cfg
  env := EnvScript.empty
  pending := []
  ret := .none

/-- A RESET_IMAGE of zeros: the spec gives none (R300); DESIGN CHOICE (entry 6), unsafe. -/
def Regs.zero : Regs := ⟨0, 0, 0, 0, 0, 0, 0, 0, 0, 0⟩

/-- The machine right after reset: `hardwareReset` at the named configuration and reset image. -/
def State.reset : State := State.hardwareReset Config.default Regs.zero

end Sys2Proof.Machine
end

