-- ==== Sys2Proof/Machine/Ops.lean ====
section
/-! DEFINITION. The named operations over the state that every meaning is made of: the pseudocode
primitives of R12, host memory, the environment's draws, refusing, raising the fault. -/

namespace Sys2Proof.Machine

/-! ### Running an operation -/

/-- Go on with `f` unless the sticky fault has been raised: "the engine takes no further step" (R12),
the rest of the running operation is abandoned (R276). -/
def andThen (o : Answer) (f : State → Answer) : Answer :=
  match o with
  | .next s => match s.fault with
    | none => f s
    | some _ => .next s
  | .fault r => .fault r
  | .refused r => .refused r

/-- `refuse(k)` (R12, R277): no state of the spec changes and the trace gains nothing; the answer says
so. R277 lets a model give a refusal "as an error return" (entry 13). -/
def refuse (k : RefuseKind) (s : State) : Answer := .next { s with ret := .refused k }

/-- The first test of every operation: while the fault is set every operation is refused (R59, R277). -/
def operation (s : State) (body : State → Answer) : Answer :=
  match s.fault with
  | some _ => refuse .faulted s
  | none => body { s with ret := .done }

/-- The second test of the operations that need an attached engine (R277). -/
def whenAttached (s : State) (body : State → Answer) : Answer :=
  if s.h.attached then body s else refuse .notAttached s

/-- `raise Fault(PioCursorExhausted)` (R12, R276): the one exception of the engine. It sets the sticky
fault and leaves every other piece of state as it is at that moment; nothing is saved and control goes
nowhere. There is no return from it: once set it is never cleared (R59). -/
def raiseFault (s : State) : Answer :=
  .next { s with fault := some .pioCursorExhausted, ret := .halted }

/-- Answer a value to the invoker. -/
def returning (r : Ret) (s : State) : State := { s with ret := r }

/-! ### The trace (R58) -/

/-- `emit E` (R12). -/
def emit (e : Event) (s : State) : State := { s with trace := s.trace ++ [e] }

/-- `Delay(d)` (R12, R320). -/
def delay (d : Nat) (s : State) : State := emit (.delay d) s

/-! ### Engine-written registers (R26) -/

def Regs.get (b : Regs) : StoredReg → Word
  | .ctl => b.ctl
  | .clk => b.clk
  | .im => b.im
  | .tor => b.tor
  | .tod => b.tod
  | .blen => b.blen
  | .nblk => b.nblk
  | .cmd => b.cmd
  | .arg => b.arg
  | .fifoctl => b.fifoctl

def Regs.set (b : Regs) (r : StoredReg) (v : Word) : Regs :=
  match r with
  | .ctl => { b with ctl := v }
  | .clk => { b with clk := v }
  | .im => { b with im := v }
  | .tor => { b with tor := v }
  | .tod => { b with tod := v }
  | .blen => { b with blen := v }
  | .nblk => { b with nblk := v }
  | .cmd => { b with cmd := v }
  | .arg => { b with arg := v }
  | .fifoctl => { b with fifoctl := v }

/-- `RegRead` of an engine-written register: the word of the most recent write (R12, R26). -/
def regRead (r : StoredReg) (s : State) : Word × State :=
  (s.regs.get r, emit (.regR (.stored r) (s.regs.get r)) s)

/-- `RegWrite` (R12, R26): the whole word, and no other register changes. -/
def regWrite (r : StoredReg) (v : Word) (s : State) : State :=
  emit (.regW r v) { s with regs := s.regs.set r v }

/-! ### Draws (R27) -/

/-- The head of a script, or the `n`-th free value where the script is empty. -/
def drawFrom {α : Type} (free : Nat → α) (queue : List α) (n : Nat) : α × List α × Nat :=
  match queue with
  | v :: rest => (v, rest, n)
  | [] => (free n, [], n + 1)

def EnvScript.words (e : EnvScript) : DrawnReg → List Word
  | .st0 => e.st0
  | .st1 => e.st1
  | .rsp0 => e.rsp0
  | .rsp1 => e.rsp1
  | .rsp2 => e.rsp2
  | .rsp3 => e.rsp3
  | .drsp => e.drsp

def EnvScript.setWords (e : EnvScript) (r : DrawnReg) (ws : List Word) : EnvScript :=
  match r with
  | .st0 => { e with st0 := ws }
  | .st1 => { e with st1 := ws }
  | .rsp0 => { e with rsp0 := ws }
  | .rsp1 => { e with rsp1 := ws }
  | .rsp2 => { e with rsp2 := ws }
  | .rsp3 => { e with rsp3 := ws }
  | .drsp => { e with drsp := ws }

/-- The value the next read of `r` draws. -/
def drawnWord (r : DrawnReg) (s : State) : Word :=
  (drawFrom Config.freeWord (s.env.words r) s.env.drawn).1

/-- The environment after a read of `r`. -/
def envAfterWord (r : DrawnReg) (e : EnvScript) : EnvScript :=
  let d := drawFrom Config.freeWord (e.words r) e.drawn
  { e.setWords r d.2.1 with drawn := d.2.2 }

/-- `RegRead` of an environment register: a draw, independent at each read (R12, R27). -/
def regDraw (r : DrawnReg) (s : State) : Word × State :=
  (drawnWord r s,
    emit (.regR (.drawn r) (drawnWord r s)) { s with env := envAfterWord r s.env })

/-- Draw the clock collaborator's rate (R255): a script's number as it stands, else a positive number. -/
def drawRate (s : State) : Nat × State :=
  let d := drawFrom (fun n => Config.freeRateLess1 n + 1) s.env.clkRate s.env.drawn
  (d.1, { s with env := { s.env with clkRate := d.2.1, drawn := d.2.2 } })

/-- Draw the answer of a channel request: `some handle` or `none` for Fail (R255). -/
def drawChannel (s : State) : Option Nat × State :=
  let d := drawFrom Config.freeChannel s.env.dmaReq s.env.drawn
  (d.1, { s with env := { s.env with dmaReq := d.2.1, drawn := d.2.2 } })

/-- Draw the answer of the card-detect query (R260). -/
def drawCd (s : State) : Bool × State :=
  let d := drawFrom Config.freeBool s.env.cd s.env.drawn
  (d.1, { s with env := { s.env with cd := d.2.1, drawn := d.2.2 } })

/-- Draw the answer of the write-protect query (R261). -/
def drawRo (s : State) : Bool × State :=
  let d := drawFrom Config.freeBool s.env.ro s.env.drawn
  (d.1, { s with env := { s.env with ro := d.2.1, drawn := d.2.2 } })

/-- The sum of the lengths of a list of segments. -/
def totalLength (sg : List Seg) : Nat := (sg.map Seg.len).sum

/-- The answers R88 allows: "a non-empty list ... whose lengths sum to the sum of the lengths of sg". -/
def lawfulMap (sg msg : List Seg) : Bool := !msg.isEmpty && totalLength msg == totalLength sg

/-- A list R88 does not allow is no answer the collaborator can give: it is read as Fail (entry 9). -/
def lawfulOrFail (sg : List Seg) (r : Option (List Seg)) : Option (List Seg) :=
  match r with
  | some msg => if lawfulMap sg msg then some msg else none
  | none => none

/-- A free answer of DmaMap as a scripted one. -/
def freeMapAnswer (n : Nat) : MapAnswer :=
  match Config.freeMap n with
  | none => .fail
  | some ps => .list (ps.map fun p => ⟨p.1, p.2⟩)

/-- What an answer says of a list `sg`: `none` for Fail. -/
def MapAnswer.result (a : MapAnswer) (sg : List Seg) : Option (List Seg) :=
  match a with
  | .fail => none
  | .identity => lawfulOrFail sg (some sg)
  | .list msg => lawfulOrFail sg (some msg)

/-- Draw the answer of `DmaMap(sg, dir)` (R88). -/
def drawMap (sg : List Seg) (s : State) : Option (List Seg) × State :=
  let d := drawFrom freeMapAnswer s.env.dmaMap s.env.drawn
  (d.1.result sg, { s with env := { s.env with dmaMap := d.2.1, drawn := d.2.2 } })

/-! ### Access widths -/

def Width.bytes : Width → Nat
  | .byte => 1
  | .half => 2
  | .word => 4

/-- The low `8w` bits of a word (R108). -/
def Width.mask (w : Width) (v : Word) : Word := BitVec.ofNat 32 (v.toNat % 2 ^ (8 * w.bytes))

/-! ### The FIFO ports (R12, R31) -/

/-- `FifoRead(w)`: an `8w`-bit draw from DRR (R27). -/
def fifoRead (w : Width) (s : State) : Word × State :=
  let d := drawFrom Config.freeWord s.env.drr s.env.drawn
  let v := w.mask d.1
  (v, emit (.fifoR w v) { s with env := { s.env with drr := d.2.1, drawn := d.2.2 } })

/-- `FifoWrite(w, v)`: DXR is a write-only stream, so only the trace shows it (R31). -/
def fifoWrite (w : Width) (v : Word) (s : State) : State := emit (.fifoW w v) s

/-! ### Host memory (R70, R74) -/

/-- What a byte of memory that nothing has written reads as: the spec gives no contents; DESIGN CHOICE
(entry 11), unsafe. -/
def unlistedByte : Byte := 0

/-- One byte of memory. -/
def Memory.get : Memory → Nat → Byte
  | [], _ => unlistedByte
  | (a', b') :: m, a => if a = a' then b' else Memory.get m a

/-- Write one byte, keeping the canonical form. -/
def Memory.set : Memory → Nat → Byte → Memory
  | [], a, b => if b = unlistedByte then [] else [(a, b)]
  | (a', b') :: m, a, b =>
    if a < a' then
      if b = unlistedByte then (a', b') :: m else (a, b) :: (a', b') :: m
    else if a = a' then
      if b = unlistedByte then m else (a, b) :: m
    else (a', b') :: Memory.set m a b

/-- The canonical form from an address on: addresses strictly rising from `lo`, all below
2^ADDR_WIDTH, no entry equal to what an unlisted address reads as. -/
def Memory.wfFrom : Nat → Memory → Bool
  | _, [] => true
  | lo, (a, b) :: m => decide (lo ≤ a) && decide (a < 2 ^ ADDR_WIDTH) && decide (b ≠ unlistedByte)
      && Memory.wfFrom (a + 1) m

/-- Memory is in its canonical form. -/
def Memory.wf (m : Memory) : Bool := Memory.wfFrom 0 m

/-- `k` bytes from `a`, the lowest address in bits 7:0 (R74). -/
def Memory.readLE (m : Memory) (a : Nat) : Nat → Word
  | 0 => 0
  | k + 1 => (Memory.get m a).setWidth 32 ||| (Memory.readLE m (a + 1) k <<< 8)

/-- Store the low `k` bytes of `v` from `a` on, bits 7:0 at the lowest address (R74). -/
def Memory.writeLE (m : Memory) (a : Nat) : Nat → Word → Memory
  | 0, _ => m
  | k + 1, v => Memory.writeLE (Memory.set m a (v.setWidth 8)) (a + 1) k (v >>> 8)

/-- Every address of the access exists (R70). -/
def inHostMemory (a : Nat) (w : Width) : Bool := decide (a + w.bytes ≤ 2 ^ ADDR_WIDTH)

/-- `MemRead(a, n)` (R12). -/
def memRead (a : Nat) (w : Width) (s : State) : Word × State :=
  let v := Memory.readLE s.mem a w.bytes
  (v, emit (.memR a w v) s)

/-- `MemWrite(a, n, v)` (R12). -/
def memWrite (a : Nat) (w : Width) (v : Word) (s : State) : State :=
  emit (.memW a w v) { s with mem := Memory.writeLE s.mem a w.bytes v }

end Sys2Proof.Machine
end

