-- ==== Sys2Proof/Machine/Operands.lean ====
section
/-! DEFINITION. The operands of the operations: which command a slot names, where its response and its
error go, which channel a direction names, the in-flight record, and the codes of R113 and R270. -/

namespace Sys2Proof.Machine

/-! ### Codes (R113, R270) -/

def phaseCode : Phase → Nat
  | .idle => 0
  | .commandIssued => 1
  | .dataInFlight => 2
  | .stopIssued => 3

def errorCode : ErrorKind → Nat
  | .none => 0
  | .timeout => 1
  | .crc => 2
  | .dma => 3

/-- The width a SET_IOS operand codes, if it is one of this block's (R113, R115). -/
def widthOfCode : Nat → Option BusWidth
  | 0 => some .w1
  | 1 => some .w4
  | _ => none

/-! ### The in-flight record -/

/-- The command of a slot: `Q.cmd` for MAIN, `Q.stop` for STOP (R178). -/
def InFlight.command (q : InFlight) : Slot → Option Command
  | .main => some q.req.cmd
  | .stop => q.req.stop

/-- `err(slot)` (R193). -/
def Result.error (r : Result) : Slot → ErrorKind
  | .main => r.cmdError
  | .stop => r.stopError

/-- `err(slot) <- k` (R193). -/
def Result.setError (r : Result) (slot : Slot) (k : ErrorKind) : Result :=
  match slot with
  | .main => { r with cmdError := k }
  | .stop => { r with stopError := k }

/-- `resp(slot)` (R220). -/
def Result.response (r : Result) : Slot → Response
  | .main => r.cmdResp
  | .stop => r.stopResp

/-- `resp(slot) <- p` (R220). -/
def Result.setResponse (r : Result) (slot : Slot) (p : Response) : Result :=
  match slot with
  | .main => { r with cmdResp := p }
  | .stop => { r with stopResp := p }

/-- The result fields REQUEST starts with (R53, R170). -/
def Result.initial : Result := ⟨Response.zero, .none, Response.zero, .none, .none, 0⟩

/-- `record(req)` (R227). -/
def InFlight.record (q : InFlight) : CompletionRecord where
  id := q.req.id
  cmdResp := q.result.cmdResp
  cmdError := q.result.cmdError
  stopResp := q.result.stopResp
  stopError := q.result.stopError
  dataError := q.result.dataError
  bytesXfered := q.result.bytesXfered

/-- `total = block_count * block_size` (R52, R148). -/
def dataTotal (d : DataPhase) : Nat := d.blockCount * d.blockSize

/-- Use `Q`; a null reference where there is none (R276). -/
def withQ (s : State) (f : InFlight → Answer) : Answer :=
  match s.q with
  | some q => f q
  | none => .fault .nullInFlight

/-- Use `Q.data`. -/
def withData (s : State) (f : InFlight → DataPhase → Answer) : Answer :=
  withQ s fun q =>
    match q.req.data with
    | some d => f q d
    | none => .fault .nullInFlight

/-- Use `H.data_dir` where it is READ or WRITE. -/
def withDir (s : State) (f : Dir → Answer) : Answer :=
  match s.h.dataDir with
  | some dir => f dir
  | none => .fault .nullInFlight

/-- Change the result fields of the request in flight. -/
def setResult (q : InFlight) (r : Result) (s : State) : State := { s with q := some { q with result := r } }

/-! ### The DMA program -/

/-- `D.chan[dir]` (R46, R57). -/
def DmaProgram.chan (d : DmaProgram) : Dir → Option Nat
  | .read => d.chanRead
  | .write => d.chanWrite

/-- `D.tmpl[dir]` (R56). -/
def DmaProgram.tmpl (d : DmaProgram) : Dir → Desc
  | .read => d.tmplRead
  | .write => d.tmplWrite

/-- `T` of the configuration. -/
def State.threshold (s : State) : Nat := s.cfg.threshold.bytes

/-- Whether a PIO data phase is in flight: `H.data and not H.do_dma` (R192). -/
def State.pioActive (s : State) : Bool := s.h.data && !s.h.doDma

/-- The direction of the data phase in flight, if one is (R110, R111). -/
def State.activeDir (s : State) : Option Dir := if s.h.data then s.h.dataDir else none

/-- The combined status `q` of the IRQ operation as named bits (R60, R114). -/
def State.combined (s : State) : StatusBits := statusOf s.cfg.layout s.irq.q

/-- The status word read last as named bits (R60). -/
def State.lastStatus (s : State) : StatusBits := statusOf s.cfg.layout s.irq.s

end Sys2Proof.Machine
end

