-- ==== Sys2Proof/Machine/Boundary.lean ====
section
/-! DEFINITION. Attach, detach and the pass-through queries (spec/47_host_boundary.md R255 to R268). -/

namespace Sys2Proof.Machine

/-! ### ATTACH (R255) -/

/-- `D.tmpl[WRITE]` (R56): the fields a transfer substitutes hold 0 and NONE (entry 22). -/
def templateWrite (c : Config) : Desc where
  srcAddr := 0
  srcMode := .incr
  dstAddr := c.regBase + c.layout.off.dxr
  dstMode := .fixed
  elemWidth := 4
  frameElems := c.threshold.bytes / 4
  elemCount := 0
  link := none

/-- `D.tmpl[READ]` (R56). -/
def templateRead (c : Config) : Desc where
  srcAddr := c.regBase + c.layout.off.drr
  srcMode := .fixed
  dstAddr := 0
  dstMode := .incr
  elemWidth := 4
  frameElems := c.threshold.bytes / 4
  elemCount := 0
  link := none

/-- Record both channel handles, or free the one that was granted (R255). -/
def settleChannels (a b : Option Nat) (s : State) : State :=
  match a, b with
  | some ha, some hb =>
    { s with dma := { s.dma with chanRead := some ha, chanWrite := some hb }, h := { s.h with dmaOk := true } }
  | some _, none => emit (.dmaFree .read) s
  | none, some _ => emit (.dmaFree .write) s
  | none, none => s

/-- The channel requests: both are always made (R255). -/
def requestChannels (s : State) : State :=
  let a := drawChannel s
  let s := emit (.dmaRequest .read a.1) a.2
  let b := drawChannel s
  let s := emit (.dmaRequest .write b.1) b.2
  settleChannels a.1 b.1 s

/-- HostState, `Q` and the DMA program as ATTACH leaves them, but for the rate, the channels and
`dma_ok`, which stand as they are (R255, R62; entry 21). -/
def freshSession (s : State) : State :=
  { s with
    h := { HostState.reset with attached := true, refClockHz := s.h.refClockHz, dmaOk := s.h.dmaOk }
    dma := { s.dma with tmplRead := templateRead s.cfg, tmplWrite := templateWrite s.cfg, desc := [] }
    q := none }

/-- ATTACH from the drawn rate on (R255). -/
def attachAt (rate : Nat) (s : State) : State :=
  let s := emit (.clkRate rate) s
  let s := { s with h := { s.h with refClockHz := rate, dmaOk := false },
                    dma := { s.dma with chanRead := none, chanWrite := none } }
  freshSession (if s.cfg.useDma then requestChannels s else s)

/-- The body of ATTACH once nothing refuses it (R255). -/
def attachAdmitted (s : State) : Answer :=
  let r := drawRate (emit .clkEnable s)
  if r.1 = 0 then .refused .clockRateZero else .next (attachAt r.1 r.2)

/-! ### DETACH (R258) -/

/-- Give the channel pair back (R258). -/
def freeChannels (s : State) : State :=
  let s := emit (.dmaFree .write) (emit (.dmaFree .read) s)
  { s with dma := { s.dma with chanRead := none, chanWrite := none }, h := { s.h with dmaOk := false } }

/-- The body of DETACH once nothing refuses it (R258). -/
def detachAdmitted (s : State) : State :=
  let s := emit .clkDisable (if s.h.dmaOk then freeChannels s else s)
  { s with h := { s.h with attached := false } }

/-! ### Rows -/

/-- Row ATTACH (R255). -/
def execAttach (s : State) : Answer :=
  operation s fun s => if s.h.attached then refuse .alreadyAttached s else attachAdmitted s

/-- Row DETACH (R258). -/
def execDetach (s : State) : Answer :=
  operation s fun s => whenAttached s fun s =>
    if s.h.phase = .idle then .next (detachAdmitted s) else refuse .detachWhileBusy s

/-- Row GET_CD (R260). -/
def execGetCd (s : State) : Answer :=
  operation s fun s => whenAttached s fun s =>
    let r := drawCd s
    .next (returning (.answer r.1) (emit (.boardCd r.1) r.2))

/-- Row GET_RO (R261). -/
def execGetRo (s : State) : Answer :=
  operation s fun s => whenAttached s fun s =>
    let r := drawRo s
    .next (returning (.answer r.1) (emit (.boardRo r.1) r.2))

end Sys2Proof.Machine
end

