-- ==== Sys2Proof/Machine/ClockDivider.lean ====
section
/-! DEFINITION. The clock divider solver (spec/40_clock_divider.md R130 to R137). -/

namespace Sys2Proof.Machine

/-- `ceil(r / (2*f))` as R136 writes it. -/
def ceilHalfRatio (r f : Nat) : Nat := (r + 2 * f - 1) / (2 * f)

/-- `DIVSOLVE(r, f)` (R130): the natural subtraction is the rule's `max(0, ... - 1)`. -/
def divsolve (r f : Nat) : Nat :=
  if f = 0 then DIV_MAX else min (ceilHalfRatio r f - 1) DIV_MAX

/-- The loop of R132 from divider `d` down. -/
def divisorDown (r f : Nat) : Nat → Nat
  | 0 => 0
  | d + 1 => if r ≤ 2 * (d + 1) * f then divisorDown r f d else d + 1

/-- The search of R132. -/
def divsearch (r f : Nat) : Nat := if r > 2 * f then divisorDown r f DIV_MAX else 0

/-- The effective bus frequency of a divider, an exact quotient (R135). -/
def feff (r d : Nat) : ℚ := (r : ℚ) / (2 * ((d : ℚ) + 1))

/-- Row DIVSOLVE: a pure function, whose result the invoker gets (R130). -/
def execDivsolve (r f : Nat) (s : State) : Answer :=
  operation s fun s => if r = 0 then .refused .operandOutOfDomain else .next (returning (.divider (divsolve r f)) s)

end Sys2Proof.Machine
end

