-- ==== Sys2Proof/Machine/BusTiming.lean ====
section
/-! DEFINITION. Bus timing configuration (spec/46_bus_timing.md R240 to R249): SET_IOS, INITCK. -/

namespace Sys2Proof.Machine

/-! ### INITCK (R245) -/

/-- At most `n` reads of ST0, stopping at the first with RSPDNE = 1. -/
def initckPoll : Nat → State → State
  | 0, s => s
  | n + 1, s =>
    let r := regDraw .st0 s
    if (statusOf s.cfg.layout r.1).rspdne then r.2 else initckPoll n r.2

/-- `INITCK` (R245). -/
def initck (s : State) : State :=
  initckPoll s.cfg.initckPollMax (regWrite .cmd (initckWord s.cfg.layout) s)

/-! ### SET_IOS (R240) -/

/-- Step 1, width (R241). -/
def setWidth (width : BusWidth) (s : State) : State :=
  let r := regRead .ctl s
  let s := regWrite .ctl (withWidth4 s.cfg.layout r.1 (width == .w4)) r.2
  { s with h := { s.h with busWidth := width } }

/-- Step 2 in open-drain mode (R242). -/
def setClockOpenDrain (s : State) : State :=
  let r := regRead .clk s
  regWrite .clk (withDiv s.cfg.layout r.1 s.cfg.odDivider.toNat) r.2

/-- Step 2 in push-pull mode (R243): gate, settle, divide, ungate, settle. -/
def setClockPushPull (clockHz : Nat) (s : State) : State :=
  let d := divsolve s.h.refClockHz clockHz
  let r := regRead .clk s
  let c1 := gateClock s.cfg.layout r.1
  let c2 := withDiv s.cfg.layout c1 d
  let c3 := ungateClock s.cfg.layout c2
  let s := delay s.cfg.tSettle (regWrite .clk c1 r.2)
  let s := regWrite .clk c2 s
  delay s.cfg.tSettle (regWrite .clk c3 s)

/-- Step 2, clock, and what the engine remembers of it (R240, R244). -/
def setClock (mode : BusMode) (clockHz : Nat) (s : State) : State :=
  let s := match mode with
    | .openDrain => setClockOpenDrain s
    | .pushPull => setClockPushPull clockHz s
  { s with h := { s.h with busMode := mode, busClockHz := clockHz } }

/-- Step 3, power: INITCK on the transition to UP (R246). -/
def setPower (power : PowerMode) (s : State) : State :=
  let s := if power == .up && s.h.powerMode != .up then initck s else s
  { s with h := { s.h with powerMode := power } }

/-- The body of SET_IOS once nothing refuses it (R240). -/
def setIosAdmitted (width : BusWidth) (mode : BusMode) (power : PowerMode) (clockHz : Nat) (s : State) : State :=
  setPower power (setClock mode clockHz (setWidth width s))

/-! ### Rows -/

/-- Row SET_IOS (R240). -/
def execSetIos (width : Nat) (mode : BusMode) (power : PowerMode) (clockHz : Nat) (s : State) : Answer :=
  operation s fun s => whenAttached s fun s =>
    if s.h.phase = .idle then
      match widthOfCode width with
      | some width => .next (setIosAdmitted width mode power clockHz s)
      | none => refuse .unsupportedWidth s
    else refuse .iosWhileBusy s

/-- Row INITCK (R245). -/
def execInitck (s : State) : Answer := operation s fun s => .next (initck s)

end Sys2Proof.Machine
end

