-- ==== Sys2Proof/Machine/Pio.lean ====
section
/-! DEFINITION. The PIO FIFO engine (spec/42_pio_fifo.md R160 to R164). -/

namespace Sys2Proof.Machine

/-- `WIDTH(p, m)` (R161), chosen once per call. -/
def widthFor (p m : Nat) : Width :=
  if p % 4 = 0 ∧ m % 4 = 0 then .word
  else if p % 2 = 0 ∧ m % 2 = 0 then .half
  else .byte

/-- One access pair of R160 at address `a`. -/
def pioAccess (dir : Dir) (w : Width) (a : Nat) (s : State) : Answer :=
  if inHostMemory a w then
    match dir with
    | .write => let r := memRead a w s; .next (fifoWrite w r.1 r.2)
    | .read => let r := fifoRead w s; .next (memWrite a w r.1 r.2)
  else .fault .addressOutOfRange

/-- `count` access pairs at consecutive addresses from `a` on (the loop of R160). -/
def pioAccesses (dir : Dir) (w : Width) : Nat → Nat → State → Answer
  | 0, _, s => .next s
  | count + 1, a, s => andThen (pioAccess dir w a s) (pioAccesses dir w count (a + w.bytes))

/-- The first step of R160: where the current segment is exhausted, go to the next one, or raise the
fault if none is left while bytes remain. -/
def pioAdvance (d : DataPhase) (s : State) : Answer :=
  if s.h.segLeft = 0 then
    if s.h.bytesLeft > 0 ∧ s.h.sgIdx + 1 ≥ d.sg.length then raiseFault s
    else
      match d.sg[s.h.sgIdx + 1]? with
      | some seg => .next { s with h := { s.h with
          sgIdx := s.h.sgIdx + 1, bufPtr := seg.addr, segLeft := min seg.len s.h.bytesLeft } }
      | none => .fault .nullInFlight
  else .next s

/-- `m = min(n, H.seg_left)`: the bytes one call moves once the segment is chosen (R160). -/
def pioChunk (n : Nat) (s : State) : Nat := min n s.h.segLeft

/-- The counters after `m` bytes have moved (R160). -/
def pioCount (m : Nat) (s : State) : State :=
  { s with h := { s.h with bufPtr := s.h.bufPtr + m, segLeft := s.h.segLeft - m,
                           bytesLeft := s.h.bytesLeft - m } }

/-- The movement of R160: `m` bytes from `H.buf_ptr` on at the width of R161, then the counters. -/
def pioMove (dir : Dir) (n : Nat) (s : State) : Answer :=
  let m := pioChunk n s
  let w := widthFor s.h.bufPtr m
  andThen (pioAccesses dir w (m / w.bytes) s.h.bufPtr s) fun s => .next (pioCount m s)

/-- `PIO_XFER(n)` (R160). -/
def pioXfer (n : Nat) (s : State) : Answer :=
  withData s fun _ d => withDir s fun dir => andThen (pioAdvance d s) (pioMove dir n)

/-- Row PIO_XFER. -/
def execPioXfer (n : Nat) (s : State) : Answer :=
  operation s fun s => if n = 0 then .refused .operandOutOfDomain else pioXfer n s

end Sys2Proof.Machine
end

