-- ==== Sys2Proof/Machine/Transfer.lean ====
section
/-! DEFINITION. The transfer strategy selector (spec/41_transfer_selector.md R140 to R149): FIFO_CFG,
DMA_SETUP, PIO_INIT, PREPARE. -/

namespace Sys2Proof.Machine

/-! ### FIFO_CFG (R142) -/

/-- The FIFOCTL word of a direction, with the reset bit as given (R107, R142). -/
def fifoctlFor (s : State) (dir : Dir) (reset : Bool) : Word :=
  fifoWord s.cfg.layout { rst := reset, dir := dir == .write, lev := s.cfg.threshold == .t32 }

/-- `FIFO_CFG(dir)` (R142). -/
def fifoCfg (dir : Dir) (s : State) : State :=
  regWrite .fifoctl (fifoctlFor s dir false) (regWrite .fifoctl (fifoctlFor s dir true) s)

/-! ### DMA_SETUP (R143, R144) -/

/-- Every length is a multiple of `T` (R143 d, f). -/
def allAligned (t : Nat) (sg : List Seg) : Bool := sg.all fun g => g.len % t == 0

/-- The descriptor of one mapped segment: the template with address, count and link substituted (R144). -/
def descFor (tmpl : Desc) (dir : Dir) (g : Seg) (link : Option Nat) : Desc :=
  match dir with
  | .write => { tmpl with srcAddr := g.addr, elemCount := g.len / 4, link := link }
  | .read => { tmpl with dstAddr := g.addr, elemCount := g.len / 4, link := link }

/-- The chain for a mapped list from index `i` on: each links to the next, the last to NONE (R144). -/
def descChain (tmpl : Desc) (dir : Dir) : Nat → List Seg → List Desc
  | _, [] => []
  | i, g :: rest =>
    descFor tmpl dir g (if rest.isEmpty then none else some (i + 1)) :: descChain tmpl dir (i + 1) rest

/-- Program a chain of descriptors from index `i` on (R144). -/
def programChain (ch : Option Nat) : Nat → List Desc → State → State
  | _, [], s => s
  | i, e :: rest, s => programChain ch (i + 1) rest (emit (.dmaProg ch i e) s)

/-- Program and start the channel for a mapped list (R144). -/
def dmaProgram (dir : Dir) (msg : List Seg) (s : State) : State :=
  let chain := descChain (s.dma.tmpl dir) dir 0 msg
  let s := programChain (s.dma.chan dir) 0 chain s
  let s := emit (.dmaStart (s.dma.chan dir)) s
  { s with dma := { s.dma with desc := chain }, h := { s.h with msg := msg } }

/-- `DMA_SETUP()` (R144): whether the set-up succeeded, and the state after it. -/
def dmaSetup (d : DataPhase) (dir : Dir) (s : State) : Bool × State :=
  if allAligned s.threshold d.sg then
    let r := drawMap d.sg s
    let s' := emit (.dmaMap d.sg dir r.1) r.2
    match r.1 with
    | none => (false, s')
    | some msg =>
      if allAligned s.threshold msg then (true, dmaProgram dir msg s')
      else (false, emit (.dmaUnmap d.sg dir) s')
  else (false, s)

/-! ### PIO_INIT (R147) -/

/-- `PIO_INIT` (R147). -/
def pioInit (d : DataPhase) (s : State) : Answer :=
  match d.sg with
  | [] => .fault .nullInFlight
  | g :: _ => .next { s with h := { s.h with sgIdx := 0, bufPtr := g.addr, segLeft := min g.len s.h.bytesLeft } }

/-! ### PREPARE (R141) -/

/-- No data phase (R141, first rule). -/
def prepareNoData (s : State) : State :=
  regWrite .nblk 0 (regWrite .blen 0 { s with h := { s.h with data := false, dataDir := none } })

/-- The register writes and the cursor of a data phase, before the strategy is chosen (R141). -/
def prepareRegisters (d : DataPhase) (s : State) : State :=
  let s := { s with h := { s.h with data := true } }
  let s := regWrite .tod (value16 (min d.timeoutCycles DTO_MAX)) s
  let s := regWrite .nblk (value16 d.blockCount) s
  let s := regWrite .blen (value16 d.blockSize) s
  let s := { s with h := { s.h with dataDir := some d.dir } }
  let s := fifoCfg d.dir s
  { s with h := { s.h with bytesLeft := dataTotal d } }

/-- Conditions (a), (b), (c) of R143, tested before DMA_SETUP is called (R141). -/
def dmaEligible (d : DataPhase) (s : State) : Bool :=
  s.cfg.useDma && s.h.dmaOk && dataTotal d % s.threshold == 0

/-- DMA was selected (R141): no PIO path can be taken. -/
def selectDma (s : State) : State := { s with h := { s.h with doDma := true, bytesLeft := 0 } }

/-- The choice of strategy (R141, R143). -/
def prepareStrategy (d : DataPhase) (s : State) : Answer :=
  if dmaEligible d s then
    let r := dmaSetup d d.dir s
    if r.1 then .next (selectDma r.2) else pioInit d r.2
  else pioInit d s

/-- `PREPARE` (R141). -/
def prepare (s : State) : Answer :=
  withQ s fun q =>
    match q.req.data with
    | none => .next (prepareNoData s)
    | some d => prepareStrategy d (prepareRegisters d s)

/-! ### Rows -/

/-- Row PREPARE. -/
def execPrepare (s : State) : Answer := operation s prepare

/-- Row FIFO_CFG: its operand is READ or WRITE (R142). -/
def execFifoCfg (dir : Option Dir) (s : State) : Answer :=
  operation s fun s =>
    match dir with
    | some dir => .next (fifoCfg dir s)
    | none => .refused .operandOutOfDomain

/-- Row DMA_SETUP: it reads `Q.data` and `H.data_dir` (R144). -/
def execDmaSetup (s : State) : Answer :=
  operation s fun s => withData s fun _ d => withDir s fun dir =>
    let r := dmaSetup d dir s
    .next (returning (.setup r.1) r.2)

/-- Row PIO_INIT. -/
def execPioInit (s : State) : Answer := operation s fun s => withData s fun _ d => pioInit d s

end Sys2Proof.Machine
end

