-- ==== Sys2Proof/Machine/Command.lean ====
section
/-! DEFINITION. Request submission, busy pre-check and command issue (spec/43_command_issue.md R170 to
R183). -/

namespace Sys2Proof.Machine

/-! ### BUSY_CHECK (R171) -/

/-- At most `n` reads of ST1, stopping at the first with BUSY = 0; true for stuck. -/
def busyPoll : Nat → State → Bool × State
  | 0, s => (true, s)
  | n + 1, s =>
    let r := regDraw .st1 s
    if busyOf s.cfg.layout r.1 then busyPoll n r.2 else (false, r.2)

/-- `BUSY_CHECK` (R171): true for stuck. -/
def busyCheck (s : State) : Bool × State := busyPoll s.cfg.busyPollMax s

/-! ### CMD_START (R178) -/

/-- The fields of the command word of `c` (R110). -/
def commandFields (q : InFlight) (c : Command) (s : State) : CmdFields where
  indx := BitVec.ofNat 6 c.index
  pplen := s.h.busMode == .pushPull
  bsyexp := c.busy
  rspfmt := c.resp
  dtrw := s.activeDir == some .write
  strmtp := s.h.data && q.req.data.any (·.stream)
  wdatx := s.h.data
  dmatrig := s.h.doDma

/-- The command word of `c` (R110). -/
def commandWord (q : InFlight) (c : Command) (s : State) : Word :=
  cmdWord s.cfg.layout (commandFields q c s)

/-- The armed mask (R111). -/
def armedMask (s : State) : Word :=
  maskWord s.cfg.layout (armedBits s.activeDir (!s.h.doDma))

/-- A non-DMA write is pre-loaded (R180). -/
def preloads (s : State) : Bool := s.pioActive && s.h.dataDir == some .write

/-- The phase CMD_START leaves (R178). -/
def phaseOfSlot : Slot → Phase
  | .main => .commandIssued
  | .stop => .stopIssued

/-- The writes after the pre-load: ARG, CMD, IM, in that order, and the phase (R178, R181). -/
def issue (slot : Slot) (arg w im : Word) (s : State) : State :=
  let s := regWrite .im im (regWrite .cmd w (regWrite .arg arg s))
  { s with h := { s.h with phase := phaseOfSlot slot } }

/-- `CMD_START(slot)` (R178). -/
def cmdStart (slot : Slot) (s : State) : Answer :=
  withQ s fun q =>
    match q.command slot with
    | none => .fault .nullInFlight
    | some c =>
      let s := { s with h := { s.h with cmd := some slot } }
      let w := commandWord q c s
      let s := regWrite .tor (value16 CTO_MAX) s
      let im := armedMask s
      andThen (if preloads s then pioXfer s.threshold s else .next s) fun s =>
        .next (issue slot c.arg w im s)

/-! ### REQUEST (R170) -/

/-- A segment R54 admits: not empty, inside the address space. -/
def segValid (g : Seg) : Bool := decide (1 ≤ g.len) && decide (g.addr + g.len ≤ 2 ^ ADDR_WIDTH)

/-- A data phase R54 admits. -/
def dataValid (d : DataPhase) : Bool :=
  decide (1 ≤ d.blockSize) && decide (d.blockSize ≤ BLKSZ_MAX) && decide (1 ≤ d.blockCount)
    && decide (d.blockCount ≤ NBLK_MAX) && !d.sg.isEmpty && d.sg.all segValid

/-- WellFormed(req) (R54). -/
def requestValid (r : BusRequest) : Bool :=
  decide (r.cmd.index ≤ 63) && r.stop.all (fun c => decide (c.index ≤ 63)) && r.data.all dataValid
    && (r.stop.isNone || r.data.isSome)

/-- The request as REQUEST accepts it (R170). -/
def accepted (req : BusRequest) : InFlight := ⟨req, Result.initial⟩

/-- The busy-stuck outcome: the one Completion of a request that never became `Q` (R170, R172). -/
def busyStuck (req : BusRequest) (s : State) : State :=
  emit (.completion { accepted req with result := { Result.initial with cmdError := .timeout } }.record) s

/-- The request becomes `Q`, is prepared and its command is started (R170). -/
def submit (req : BusRequest) (s : State) : Answer :=
  andThen (prepare { s with q := some (accepted req), h := { s.h with doDma := false } }) (cmdStart .main)

/-- The body of REQUEST once nothing refuses it (R170). -/
def requestAdmitted (req : BusRequest) (s : State) : Answer :=
  let r := busyCheck s
  if r.1 then .next (busyStuck req r.2) else submit req r.2

/-! ### Rows -/

/-- Row REQUEST (R170). -/
def execRequest (req : BusRequest) (s : State) : Answer :=
  operation s fun s => whenAttached s fun s =>
    if s.h.phase = .idle then
      if requestValid req then requestAdmitted req s else refuse .malformedRequest s
    else refuse .requestWhileBusy s

/-- Row BUSY_CHECK (R171). -/
def execBusyCheck (s : State) : Answer :=
  operation s fun s =>
    let r := busyCheck s
    .next (returning (.busy r.1) r.2)

/-- Row CMD_START: its operand is MAIN or STOP (R178). -/
def execCmdStart (slot : Option Slot) (s : State) : Answer :=
  operation s fun s =>
    match slot with
    | some slot => cmdStart slot s
    | none => .refused .operandOutOfDomain

end Sys2Proof.Machine
end

