-- ==== Sys2Proof/Machine/Completion.lean ====
section
/-! DEFINITION. Ending a command, ending a data phase, completing a request (spec/45_completion.md R220
to R230). -/

namespace Sys2Proof.Machine

/-! ### COMPLETE (R226) -/

/-- The engine's own state after a completion, before the mask is cleared (R226). -/
def clearRequest (s : State) : State :=
  { s with q := none, h := { s.h with cmd := none, data := false, phase := .idle } }

/-- `COMPLETE` for the request `q`: state, then mask, then flag, and the Completion last (R226). -/
def completeRequest (q : InFlight) (s : State) : State :=
  let s := regWrite .im (noInterrupts s.cfg.layout) (clearRequest s)
  emit (.completion q.record) { s with irq := { s.irq with completed := true } }

/-- `COMPLETE` (R226). -/
def complete (s : State) : Answer := withQ s fun q => .next (completeRequest q s)

/-! ### DATA_TEARDOWN (R223) -/

/-- Release the DMA resources of a transfer (R223). -/
def releaseDma (d : DataPhase) (dir : Dir) (s : State) : State :=
  let ch := s.dma.chan dir
  emit (.dmaUnmap d.sg dir) (emit (.dmaClean ch) (emit (.dmaStop ch) s))

/-- Clear the in-flight data phase (R223). -/
def clearData (s : State) : State :=
  { s with h := { s.h with data := false, doDma := false, dataDir := none, msg := [] } }

/-- `DATA_TEARDOWN` (R223). -/
def dataTeardown (s : State) : Answer :=
  if s.h.doDma then
    withData s fun _ d => withDir s fun dir => .next (clearData (releaseDma d dir s))
  else .next (clearData s)

/-! ### CMD_END (R220, R221) -/

/-- The response latch (R221): the answer is what `dst` becomes. -/
def latch (c : Command) (dst : Response) (s : State) : Response × State :=
  match c.resp with
  | .longCrc =>
    let r0 := regDraw .rsp0 s
    let r1 := regDraw .rsp1 r0.2
    let r2 := regDraw .rsp2 r1.2
    let r3 := regDraw .rsp3 r2.2
    (⟨r3.1, r2.1, r1.1, r0.1⟩, r3.2)
  | .shortCrc | .shortNoCrc =>
    let r := regDraw .rsp3 s
    ({ dst with w0 := r.1 }, r.2)
  | .none => (dst, s)

/-- The first half of CMD_END: the command is no longer in flight and its response is latched (R220). -/
def latchInto (q : InFlight) (slot : Slot) (c : Command) (s : State) : State :=
  let s := { s with h := { s.h with cmd := none } }
  let r := latch c (q.result.response slot) s
  setResult q (q.result.setResponse slot r.1) r.2

/-- The second half of CMD_END: complete at once, or go on to the data phase (R220, R222). -/
def finishCommand (q : InFlight) (slot : Slot) (s : State) : Answer :=
  if s.h.data && q.result.error slot == .none then
    .next { s with h := { s.h with phase := .dataInFlight } }
  else if s.h.data then andThen (dataTeardown s) complete
  else complete s

/-- `CMD_END` (R220). -/
def cmdEnd (s : State) : Answer :=
  withQ s fun q =>
    match s.h.cmd with
    | none => .fault .nullInFlight
    | some slot =>
      match q.command slot with
      | none => .fault .nullInFlight
      | some c => finishCommand q slot (latchInto q slot c s)

/-! ### XFER_END (R224) -/

/-- After the teardown: the stop command if the request carries one and its main command has no error,
else the completion (R224). -/
def stopOrComplete (s : State) : Answer :=
  withQ s fun q =>
    if q.req.stop.isNone || q.result.cmdError != .none then complete s else cmdStart .stop s

/-- `XFER_END` (R224). -/
def xferEnd (s : State) : Answer := andThen (dataTeardown s) stopOrComplete

/-! ### Rows -/

/-- Row CMD_END. -/
def execCmdEnd (s : State) : Answer := operation s cmdEnd

/-- Row DATA_TEARDOWN. -/
def execDataTeardown (s : State) : Answer := operation s dataTeardown

/-- Row XFER_END. -/
def execXferEnd (s : State) : Answer := operation s xferEnd

/-- Row COMPLETE. -/
def execComplete (s : State) : Answer := operation s complete

end Sys2Proof.Machine
end

