-- ==== Sys2Proof/Machine/Interrupt.lean ====
section
/-! DEFINITION. The interrupt path (spec/44_interrupt.md R190 to R206): IRQ with its FIFO service loop,
the six classification rules, SOFT_RESET and the ending stage; DMA_ERR. -/

namespace Sys2Proof.Machine

/-! ### SOFT_RESET (R202) -/

/-- `SOFT_RESET` (R202). -/
def softReset (s : State) : State :=
  let r := regRead .ctl s
  let s := regWrite .ctl (assertResets s.cfg.layout r.1) r.2
  let s := delay s.cfg.tReset s
  regWrite .ctl (releaseResets s.cfg.layout r.1) s

/-! ### The FIFO service loop (R192) -/

/-- Read ST0 into `s` (R192): a fresh draw. -/
def readStatus (s : State) : State :=
  let r := regDraw .st0 s
  { r.2 with irq := { r.2.irq with s := r.1 } }

/-- `q <- q | s` (R192). -/
def accumulate (s : State) : State :=
  { s with irq := { s.irq with q := bothEvents s.cfg.layout s.irq.q s.irq.s } }

/-- The loop's condition (R192). -/
def serviceDue (s : State) : Bool :=
  fifoReady s.lastStatus && decide (s.h.bytesLeft > 0) && s.pioActive

/-- The loop, at most `fuel` iterations. -/
def serviceLoop : Nat → State → Answer
  | 0, s => .next s
  | fuel + 1, s =>
    if serviceDue s then
      andThen (pioXfer s.threshold s) fun s => serviceLoop fuel (accumulate (readStatus s))
    else .next s

/-- The number of segments of the list in flight. -/
def segmentCount (s : State) : Nat :=
  match s.q with
  | some q => (q.req.data.map (·.sg.length)).getD 0
  | none => 0

/-- Iterations enough: each moves a byte or, over an empty segment, advances the cursor (R192, R289;
entry 23). -/
def serviceFuel (s : State) : Nat := s.h.bytesLeft + segmentCount s + 1

/-- The FIFO service loop (R192). -/
def fifoService (s : State) : Answer := serviceLoop (serviceFuel s) s

/-! ### The classification rules (R193 to R200) -/

/-- Set `end_xfer` (R193). -/
def raiseEndXfer (s : State) : State := { s with irq := { s.irq with endXfer := true } }

/-- Set `end_cmd` (R193). -/
def raiseEndCmd (s : State) : State := { s with irq := { s.irq with endCmd := true } }

/-- Set `need_reset` (R193). -/
def raiseNeedReset (s : State) : State := { s with irq := { s.irq with needReset := true } }

/-- The residual drain is due: a PIO read with a tail shorter than one threshold (R195). -/
def residualDue (s : State) : Bool :=
  !s.h.doDma && s.h.dataDir == some .read && decide (0 < s.h.bytesLeft)
    && decide (s.h.bytesLeft < s.threshold)

/-- The end of rule 1: the data phase is complete and the whole total is counted (R195). -/
def countData (s : State) : Answer :=
  withData s fun q d =>
    .next (setResult q { q.result with bytesXfered := q.result.bytesXfered + dataTotal d } (raiseEndXfer s))

/-- Rule 1, data-done (R195). -/
def ruleDataDone (s : State) : Answer :=
  if s.combined.datdne && s.h.data then
    andThen (if residualDue s then pioXfer s.h.bytesLeft s else .next s) countData
  else .next s

/-- Rule 2, read data timeout (R196). -/
def ruleDataTimeout (s : State) : Answer :=
  if s.combined.toutrd && s.h.data then
    withQ s fun q =>
      .next (raiseNeedReset (raiseEndXfer (setResult q { q.result with dataError := .timeout } s)))
  else .next s

/-- The kind rule 3 surfaces: CRC, or TIMEOUT where the write bit is set and the captured byte is the
sentinel (R197). DRSP is read only where the write bit is set. -/
def dataCrcKind (s : State) : ErrorKind × State :=
  if s.combined.crcwr then
    let r := regDraw .drsp s
    (if r.1.setWidth 8 = s.cfg.drspSentinel then .timeout else .crc, r.2)
  else (.crc, s)

/-- Rule 3, data CRC error (R197). -/
def ruleDataCrc (s : State) : Answer :=
  if (s.combined.crcwr || s.combined.crcrd) && s.h.data then
    withQ s fun q =>
      let r := dataCrcKind s
      .next (raiseNeedReset (raiseEndXfer (setResult q { q.result with dataError := r.1 } r.2)))
  else .next s

/-- Rule 4, command timeout (R198). -/
def ruleCommandTimeout (s : State) : Answer :=
  match s.h.cmd with
  | some slot =>
    if s.combined.toutrs then
      withQ s fun q =>
        let s := setResult q (q.result.setError slot .timeout) s
        .next (raiseNeedReset (if s.h.data then raiseEndXfer s else raiseEndCmd s))
    else .next s
  | none => .next s

/-- Rule 5, command CRC error: does nothing above HS_CRC_HZ (R199). -/
def ruleCommandCrc (s : State) : Answer :=
  match s.h.cmd with
  | some slot =>
    if s.combined.crcrs && decide (s.h.busClockHz ≤ s.cfg.hsCrcHz) then
      withQ s fun q =>
        .next (raiseNeedReset (raiseEndCmd (setResult q (q.result.setError slot .crc) s)))
    else .next s
  | none => .next s

/-- Rule 6, command-done (R200). -/
def ruleCommandDone (s : State) : Answer :=
  if s.combined.rspdne && s.h.cmd.isSome then .next (raiseEndCmd s) else .next s

/-- The six rules in order, each applied once to the same combined status (R193, R114). -/
def classify (s : State) : Answer :=
  andThen (ruleDataDone s) fun s =>
  andThen (ruleDataTimeout s) fun s =>
  andThen (ruleDataCrc s) fun s =>
  andThen (ruleCommandTimeout s) fun s =>
  andThen (ruleCommandCrc s) ruleCommandDone

/-! ### The operation (R190) -/

/-- One pulse at most, after the rules and before the enders (R203). -/
def resetIfNeeded (s : State) : State := if s.irq.needReset then softReset s else s

/-- The ending stage (R204). -/
def endingStage (s : State) : Answer :=
  andThen (if s.irq.endCmd then cmdEnd s else .next s) fun s =>
    if s.irq.endXfer && s.h.data && !s.irq.completed then xferEnd s else .next s

/-- Nothing is in flight (R191). -/
def nothingInFlight (s : State) : Bool := s.h.cmd.isNone && !s.h.data

/-- The entry of IRQ: the flags are cleared and the raw status word is read (R190, R282). -/
def irqEnter (s : State) : State :=
  let s := readStatus { s with irq := IrqLocal.clear }
  { s with irq := { s.irq with q := s.irq.s } }

/-- The transient state of IRQ is gone (R60). -/
def dropIrq (s : State) : State := { s with irq := IrqLocal.clear }

/-- The end of IRQ, whether it ran through or was abandoned by the fault (R60, R276). -/
def irqLeave (o : Answer) : Answer :=
  match o with
  | .next s => .next (dropIrq s)
  | .fault r => .fault r
  | .refused r => .refused r

/-- The spurious case: disable all interrupts (R191). -/
def irqSpurious (s : State) : State :=
  returning (.interrupt false) (regWrite .im (noInterrupts s.cfg.layout) s)

/-- The handled case, after the status word is read (R190). -/
def irqHandle (s : State) : Answer :=
  andThen (fifoService s) fun s =>
  andThen (classify s) fun s =>
  andThen (endingStage (resetIfNeeded s)) fun s => .next (returning (.interrupt true) s)

/-- The body of IRQ once nothing refuses it (R190). -/
def irqBody (s : State) : Answer :=
  let s := irqEnter s
  irqLeave (if nothingInFlight s then .next (irqSpurious s) else irqHandle s)

/-- Mark the in-flight DMA transfer failed (R206). -/
def dmaErrBody (s : State) : Answer :=
  if s.h.data && s.h.doDma then
    withQ s fun q => .next (setResult q { q.result with dataError := .dma } s)
  else .next s

/-! ### Rows -/

/-- Row IRQ (R190). -/
def execIrq (s : State) : Answer := operation s fun s => whenAttached s irqBody

/-- Row DMA_ERR (R206): not refused while detached (R277). -/
def execDmaErr (s : State) : Answer := operation s dmaErrBody

/-- Row SOFT_RESET (R202). -/
def execSoftReset (s : State) : Answer := operation s fun s => .next (softReset s)

/-- Present a status word with the row's event, at position `p`, as the status read and as the combined
status (entry 18). -/
def presentStatus (w : Word) (p : Nat) (s : State) : State :=
  { s with irq := { s.irq with s := withEvent s.cfg.layout w p, q := withEvent s.cfg.layout w p } }

/-- Row ST_DATDNE: rule 1 (R195). -/
def execStDatdne (w : Word) (s : State) : Answer :=
  operation s fun s => ruleDataDone (presentStatus w s.cfg.layout.datdne s)

/-- Row ST_TOUTRD: rule 2 (R196). -/
def execStToutrd (w : Word) (s : State) : Answer :=
  operation s fun s => ruleDataTimeout (presentStatus w s.cfg.layout.toutrd s)

/-- Row ST_CRCWR: rule 3, the write bit (R197). -/
def execStCrcwr (w : Word) (s : State) : Answer :=
  operation s fun s => ruleDataCrc (presentStatus w s.cfg.layout.crcwr s)

/-- Row ST_CRCRD: rule 3, the read bit (R197). -/
def execStCrcrd (w : Word) (s : State) : Answer :=
  operation s fun s => ruleDataCrc (presentStatus w s.cfg.layout.crcrd s)

/-- Row ST_TOUTRS: rule 4 (R198). -/
def execStToutrs (w : Word) (s : State) : Answer :=
  operation s fun s => ruleCommandTimeout (presentStatus w s.cfg.layout.toutrs s)

/-- Row ST_CRCRS: rule 5 (R199). -/
def execStCrcrs (w : Word) (s : State) : Answer :=
  operation s fun s => ruleCommandCrc (presentStatus w s.cfg.layout.crcrs s)

/-- Row ST_RSPDNE: rule 6 (R200). -/
def execStRspdne (w : Word) (s : State) : Answer :=
  operation s fun s => ruleCommandDone (presentStatus w s.cfg.layout.rspdne s)

/-- Row ST_DXRDY: the FIFO service loop (R192). -/
def execStDxrdy (w : Word) (s : State) : Answer :=
  operation s fun s => fifoService (presentStatus w s.cfg.layout.dxrdy s)

/-- Row ST_DRRDY: the FIFO service loop (R192). -/
def execStDrrdy (w : Word) (s : State) : Answer :=
  operation s fun s => fifoService (presentStatus w s.cfg.layout.drrdy s)

end Sys2Proof.Machine
end

