-- ==== Sys2Proof/Machine/Words.lean ====
section
/-! DEFINITION. The register-word rows: one whole-word RegWrite each (R12, R26, R72; entry 19). -/

namespace Sys2Proof.Machine

/-- Row CMD_WORD: the word of R104 with these fields, written to CMD. -/
def execCmdWord (f : CmdFields) (s : State) : Answer :=
  operation s fun s => .next (regWrite .cmd (cmdWord s.cfg.layout f) s)

/-- Row INITCK_WORD: the word with only INITCK set, written to CMD (R245). -/
def execInitckWord (s : State) : Answer :=
  operation s fun s => .next (regWrite .cmd (initckWord s.cfg.layout) s)

/-- Row IM_WORD: the mask with these enables, written to IM (R28, R103). -/
def execImWord (f : StatusBits) (s : State) : Answer :=
  operation s fun s => .next (regWrite .im (maskWord s.cfg.layout f) s)

/-- Row FIFOCTL_WORD: the word with these fields, written to FIFOCTL (R107). -/
def execFifoctlWord (f : FifoFields) (s : State) : Answer :=
  operation s fun s => .next (regWrite .fifoctl (fifoWord s.cfg.layout f) s)

/-- Row CTL_WORD: the word, written to CTL (R101). -/
def execCtlWord (w : Word) (s : State) : Answer := operation s fun s => .next (regWrite .ctl w s)

/-- Row CLK_WORD: the word, written to CLK (R102). -/
def execClkWord (w : Word) (s : State) : Answer := operation s fun s => .next (regWrite .clk w s)

end Sys2Proof.Machine
end

