-- ==== Sys2Proof/Machine/Dispatch.lean ====
section
/-! DEFINITION. The meaning of every instruction, one arm per row of spec/opcode_table.json. -/

namespace Sys2Proof.Machine

def exec (i : Instr) (s : State) : Host.Outcome State Fault Refusal :=
  match i with
  | .attach => Sys2Proof.Machine.execAttach s
  | .detach => Sys2Proof.Machine.execDetach s
  | .setIos width mode power clockHz => Sys2Proof.Machine.execSetIos width mode power clockHz s
  | .request req => Sys2Proof.Machine.execRequest req s
  | .getCd => Sys2Proof.Machine.execGetCd s
  | .getRo => Sys2Proof.Machine.execGetRo s
  | .irq => Sys2Proof.Machine.execIrq s
  | .dmaErr => Sys2Proof.Machine.execDmaErr s
  | .divsolve r f => Sys2Proof.Machine.execDivsolve r f s
  | .prepare => Sys2Proof.Machine.execPrepare s
  | .fifoCfg dir => Sys2Proof.Machine.execFifoCfg dir s
  | .dmaSetup => Sys2Proof.Machine.execDmaSetup s
  | .pioInit => Sys2Proof.Machine.execPioInit s
  | .pioXfer n => Sys2Proof.Machine.execPioXfer n s
  | .busyCheck => Sys2Proof.Machine.execBusyCheck s
  | .cmdStart slot => Sys2Proof.Machine.execCmdStart slot s
  | .softReset => Sys2Proof.Machine.execSoftReset s
  | .cmdEnd => Sys2Proof.Machine.execCmdEnd s
  | .dataTeardown => Sys2Proof.Machine.execDataTeardown s
  | .xferEnd => Sys2Proof.Machine.execXferEnd s
  | .complete => Sys2Proof.Machine.execComplete s
  | .initck => Sys2Proof.Machine.execInitck s
  | .cmdWord f => Sys2Proof.Machine.execCmdWord f s
  | .initckWord => Sys2Proof.Machine.execInitckWord s
  | .stDatdne w => Sys2Proof.Machine.execStDatdne w s
  | .stToutrd w => Sys2Proof.Machine.execStToutrd w s
  | .stCrcwr w => Sys2Proof.Machine.execStCrcwr w s
  | .stCrcrd w => Sys2Proof.Machine.execStCrcrd w s
  | .stToutrs w => Sys2Proof.Machine.execStToutrs w s
  | .stCrcrs w => Sys2Proof.Machine.execStCrcrs w s
  | .stRspdne w => Sys2Proof.Machine.execStRspdne w s
  | .stDxrdy w => Sys2Proof.Machine.execStDxrdy w s
  | .stDrrdy w => Sys2Proof.Machine.execStDrrdy w s
  | .imWord f => Sys2Proof.Machine.execImWord f s
  | .fifoctlWord f => Sys2Proof.Machine.execFifoctlWord f s
  | .ctlWord w => Sys2Proof.Machine.execCtlWord w s
  | .clkWord w => Sys2Proof.Machine.execClkWord w s

end Sys2Proof.Machine
end

