-- ==== Sys2Proof/Machine/Fetch.lean ====
section
/-! DEFINITION. Taking the next queued operation (R84, R289; entry 1). -/

namespace Sys2Proof.Machine

/-- What the head of the queue holds. -/
inductive Fetched where
  /-- Nothing is queued: "between operations the engine does nothing" (R289). -/
  | idle
  /-- The next operation, and the queue without it. -/
  | operation (i : Instr) (rest : List Message)
  /-- The head of the queue names no operation, and the queue without it. -/
  | undecodable (e : DecodeError) (rest : List Message)
deriving DecidableEq, Repr

/-- The next operation of the queue, its bytes decoded. -/
def fetch (s : State) : Fetched :=
  match s.pending with
  | [] => .idle
  | m :: rest =>
    match decode m.port m.bytes with
    | .ok (i, _) => .operation i rest
    | .error e => .undecodable e rest

/-- The queue with its head taken. -/
def dequeue (rest : List Message) (s : State) : State := { s with pending := rest }

/-- Bytes that name no operation: "a harness that decodes one refuses it" (R115). As every refusal it has
no effect but the answer (R277, entry 13). -/
def turnAway (e : DecodeError) (s : State) : Answer := .next (returning (.undecodable e) s)

/-- The message of a word of spec/opcode_table.json. -/
def tableMessage (nbits w : Nat) : Message := ⟨tablePort nbits, tableBytes nbits w⟩

/-- Queue a message as the next operation. -/
def enqueueFirst (m : Message) (s : State) : State := { s with pending := m :: s.pending }

/-- Queue an operation as the next one, in the model's message encoding. -/
def messageOf (i : Instr) : Message := ⟨portOf i, encode i⟩

end Sys2Proof.Machine
end

