-- ==== Sys2Proof/Machine/Step.lean ====
section
/-! DEFINITION. One step of the block: the next queued operation, run to its end (R84; entry 1). -/

namespace Sys2Proof.Machine

/-- One step. With nothing queued the engine does nothing (R289, R300). -/
def step (s : State) : Host.Outcome State Fault Refusal :=
  match fetch s with
  | .idle => .next s
  | .operation i rest => exec i (dequeue rest s)
  | .undecodable e rest => turnAway e (dequeue rest s)

/-- `s` with the instruction of a table word queued as the next operation: what an outside agent's
invocation of it leaves (entry 1). -/
def State.withFetchWord (s : State) (nbits w : Nat) : State := enqueueFirst (tableMessage nbits w) s

end Sys2Proof.Machine
end

