-- ==== Sys2Proof/Safety.lean ====
section
/-! DEFINITION. What the claims speak of: which operations an outside agent invokes, the invariant
between operations (spec/10_state.md R36, R42, R43, R47), where a run stands (spec/60_exceptions.md
R294), the values an operation draws, and what it adds to the trace. -/

namespace Sys2Proof.Machine

/-! ### Outside operations (R112, R84) -/

/-- The operations "an outside agent invokes": selector codes 0x00 to 0x07 (R112). -/
def outside : Instr → Bool
  | .attach => true
  | .detach => true
  | .setIos _ _ _ _ => true
  | .request _ => true
  | .getCd => true
  | .getRo => true
  | .irq => true
  | .dmaErr => true
  | .divsolve _ _ => false
  | .prepare => false
  | .fifoCfg _ => false
  | .dmaSetup => false
  | .pioInit => false
  | .pioXfer _ => false
  | .busyCheck => false
  | .cmdStart _ => false
  | .softReset => false
  | .cmdEnd => false
  | .dataTeardown => false
  | .xferEnd => false
  | .complete => false
  | .initck => false
  | .cmdWord _ => false
  | .initckWord => false
  | .stDatdne _ => false
  | .stToutrd _ => false
  | .stCrcwr _ => false
  | .stCrcrd _ => false
  | .stToutrs _ => false
  | .stCrcrs _ => false
  | .stRspdne _ => false
  | .stDxrdy _ => false
  | .stDrrdy _ => false
  | .imWord _ => false
  | .fifoctlWord _ => false
  | .ctlWord _ => false
  | .clkWord _ => false

/-- The head of a message is an outside operation, or no instruction at all. -/
def outsideMessage (m : Message) : Bool :=
  match decode m.port m.bytes with
  | .ok (i, _) => outside i
  | .error _ => true

/-! ### The invariant between operations -/

/-- The table of R42: what is in flight in each phase. -/
abbrev PhaseTable (s : State) : Prop :=
  match s.h.phase with
  | .idle => s.h.cmd = none ∧ s.h.data = false ∧ s.q = none
  | .commandIssued => s.h.cmd = some .main ∧ s.q.isSome ∧ s.h.data = s.q.any (·.req.data.isSome)
  | .dataInFlight => s.h.cmd = none ∧ s.h.data = true ∧ s.q.any (·.req.data.isSome)
  | .stopIssued => s.h.cmd = some .stop ∧ s.h.data = false ∧ s.q.any (·.req.stop.isSome)

/-- What a request in flight is between operations: one that R54 admits, its direction the one in `H`,
no command error yet (R285), and the byte count 0 while its data phase runs and 0 or the total after
(R227). -/
abbrev RequestInFlight (s : State) (q : InFlight) : Prop :=
  requestValid q.req ∧ q.result.cmdError = .none ∧ q.result.stopError = .none ∧
  (s.h.data = true → s.h.dataDir = q.req.data.map (·.dir) ∧ q.result.bytesXfered = 0) ∧
  (q.result.bytesXfered = 0 ∨ q.req.data.any (fun d => q.result.bytesXfered == dataTotal d))

/-- The cursor of R43 lies in its segment, and the segment in the list; never more is left than the
total (R162). -/
abbrev CursorInList (s : State) (d : DataPhase) : Prop :=
  s.h.segLeft ≤ s.h.bytesLeft ∧ s.h.bytesLeft ≤ dataTotal d ∧
  match d.sg[s.h.sgIdx]? with
  | some g => g.addr ≤ s.h.bufPtr ∧ s.h.bufPtr + s.h.segLeft ≤ g.addr + g.len
  | none => False

/-- The invariant between operations of an engine that has not faulted (R36, R42, R43, R47, R57). -/
structure EngineConsistent (s : State) : Prop where
  /-- R42. -/
  phase : PhaseTable s
  /-- Only an attached engine has a request in flight (R258, R285). -/
  attached : s.h.phase ≠ .idle → s.h.attached = true
  /-- R42, last sentence. -/
  noData : s.h.data = false → s.h.dataDir = none ∧ s.h.doDma = false
  request : ∀ q, s.q = some q → RequestInFlight s q
  /-- R43, while PIO is active. -/
  cursor : ∀ q, s.q = some q → ∀ d, q.req.data = some d → s.h.data = true → s.h.doDma = false →
    CursorInList s d
  /-- R36: the FIFO is released from reset and set to the direction of the data phase in flight. -/
  fifo : s.h.data = true → ∀ dir, s.h.dataDir = some dir → s.regs.fifoctl = fifoctlFor s dir false
  /-- R43: "While `H.do_dma`, `H.bytes_left` = 0". -/
  dmaNoPio : s.h.doDma = true → s.h.bytesLeft = 0 ∧ s.h.dmaOk = true
  /-- R40: both channels are held (R57). -/
  channels : s.h.dmaOk = true → s.dma.chanRead.isSome ∧ s.dma.chanWrite.isSome
  /-- R40: a positive rate. -/
  refClock : s.h.refClockHz > 0
  /-- R47. -/
  bytes : s.h.bytesLeft ≤ BLKSZ_MAX * NBLK_MAX

/-- The invariant of the engine under outside operations: consistent unless faulted, and only outside
operations queued. -/
structure EngineInv (s : State) : Prop where
  consistent : s.fault = none → EngineConsistent s
  queue : ∀ m ∈ s.pending, outsideMessage m = true

/-! ### Where a run stands (R294) -/

/-- The states a model should distinguish at the end of a run (R294). -/
inductive RunEnd where
  | faulted
  | detached
  | quiescent
  | pending
deriving DecidableEq, Repr

/-- Where a run that stops here stands (R294). -/
def runEnd (s : State) : RunEnd :=
  if s.fault.isSome then .faulted
  else if !s.h.attached then .detached
  else if s.h.phase = .idle then .quiescent
  else .pending

/-! ### Draws (R27) -/

/-- The next `n` draws of a word register, and the environment after them. -/
def envDraws (r : DrawnReg) : Nat → EnvScript → List Word × EnvScript
  | 0, e => ([], e)
  | n + 1, e =>
    let rest := envDraws r n (envAfterWord r e)
    ((drawFrom Config.freeWord (e.words r) e.drawn).1 :: rest.1, rest.2)

/-- The next `n` draws of the FIFO read port, and the environment after them. -/
def fifoDraws : Nat → EnvScript → List Word × EnvScript
  | 0, e => ([], e)
  | n + 1, e =>
    let d := drawFrom Config.freeWord e.drr e.drawn
    let rest := fifoDraws n { e with drr := d.2.1, drawn := d.2.2 }
    (d.1 :: rest.1, rest.2)

/-! ### What an operation adds to the trace -/

/-- The events of `t` after those of `s`. -/
def newEvents (s t : State) : List Event := t.trace.drop s.trace.length

/-- A Completion. -/
def isCompletion : Event → Bool
  | .completion _ => true
  | _ => false

/-- A write of the register `r`. -/
def isWriteOf (r : StoredReg) : Event → Bool
  | .regW r' _ => r' == r
  | _ => false

/-- A read or a write of CTL. -/
def isCtlAccess : Event → Bool
  | .regR (.stored .ctl) _ => true
  | .regW .ctl _ => true
  | _ => false

/-- The stored registers after these events (R26). -/
def replayRegs : Regs → List Event → Regs
  | b, [] => b
  | b, .regW r v :: es => replayRegs (b.set r v) es
  | b, _ :: es => replayRegs b es

/-- Host memory after these events (R74). -/
def replayMem : Memory → List Event → Memory
  | m, [] => m
  | m, .memW a w v :: es => replayMem (Memory.writeLE m a w.bytes v) es
  | m, _ :: es => replayMem m es

/-- A host-memory access is aligned to its width (R76) and inside a segment of the list (R71). -/
def accessInside (sg : List Seg) : Event → Bool
  | .memR a w _ => a % w.bytes == 0 && sg.any fun g => decide (g.addr ≤ a) && decide (a + w.bytes ≤ g.addr + g.len)
  | .memW a w _ => a % w.bytes == 0 && sg.any fun g => decide (g.addr ≤ a) && decide (a + w.bytes ≤ g.addr + g.len)
  | _ => true

/-- The segments the operation's request may touch: of the request in flight, or of the one submitted. -/
def segmentsOf (i : Instr) (s : State) : List Seg :=
  match i with
  | .request req => (req.data.map (·.sg)).getD []
  | _ => match s.q with
    | some q => (q.req.data.map (·.sg)).getD []
    | none => []

/-- The events that program a chain of descriptors from index `i` on (R144). -/
def progEvents (ch : Option Nat) : Nat → List Desc → List Event
  | _, [] => []
  | i, e :: rest => .dmaProg ch i e :: progEvents ch (i + 1) rest

/-- The events of `count` writes of a PIO chunk at width `w` from address `a` on: each word read from
host memory and put into the FIFO, in ascending address order (R75, R160). -/
def writeEvents (m : Memory) (w : Width) : Nat → Nat → List Event
  | 0, _ => []
  | count + 1, a =>
    let v := Memory.readLE m a w.bytes
    .memR a w v :: .fifoW w v :: writeEvents m w count (a + w.bytes)

/-- The events of a PIO chunk of reads of these drawn words, from address `a` on (R75, R160). -/
def readEvents (w : Width) : List Word → Nat → List Event
  | [], _ => []
  | v :: vs, a => .fifoR w (w.mask v) :: .memW a w (w.mask v) :: readEvents w vs (a + w.bytes)

/-- Host memory after a PIO chunk of reads of these drawn words, from address `a` on (R74, R160). -/
def readMemory (w : Width) : List Word → Nat → Memory → Memory
  | [], _, m => m
  | v :: vs, a, m => readMemory w vs (a + w.bytes) (Memory.writeLE m a w.bytes (w.mask v))

/-! ### The walker over a whole data phase (R162) -/

/-- The bytes of `k` from `a` on. -/
def memBytes (m : Memory) : Nat → Nat → List Byte
  | _, 0 => []
  | a, k + 1 => Memory.get m a :: memBytes m (a + 1) k

/-- The bytes of the segments of a list, one after another. -/
def segmentBytes (m : Memory) : List Seg → List Byte
  | [] => []
  | g :: rest => memBytes m g.addr g.len ++ segmentBytes m rest

/-- The bytes of a word, the earliest of the stream in bits 7:0 (R75). -/
def wordBytes (v : Word) : Nat → List Byte
  | 0 => []
  | k + 1 => v.setWidth 8 :: wordBytes (v >>> 8) k

/-- The bytes that FIFO writes put into the stream, in order (R75). -/
def fifoStream : List Event → List Byte
  | [] => []
  | .fifoW w v :: es => wordBytes v w.bytes ++ fifoStream es
  | _ :: es => fifoStream es

/-- The addresses of the bytes of a list of segments, one after another. -/
def segmentAddrs : List Seg → List Nat
  | [] => []
  | g :: rest => (List.range g.len).map (g.addr + ·) ++ segmentAddrs rest

/-- The bytes that FIFO reads took from the stream, in order (R75). -/
def drawnStream : List Event → List Byte
  | [] => []
  | .fifoR w v :: es => wordBytes v w.bytes ++ drawnStream es
  | _ :: es => drawnStream es

/-- Host memory after these bytes are stored at these addresses, one after another. -/
def storeStream : List Nat → List Byte → Memory → Memory
  | a :: as, b :: bs, m => storeStream as bs (Memory.set m a b)
  | _, _, m => m

/-! ### Parts of an operation -/

/-- Run the instruction `i` names from the state where `c` holds there, and nothing where it does not. -/
def execIf (c : State → Bool) (i : State → Instr) (s : State) : Answer :=
  if c s then exec (i s) s else .next s

/-- A sequence of PIO_XFER calls, ending early once no byte is left. -/
def pioWalk : List Nat → State → Answer
  | [], s => .next s
  | n :: ns, s => if s.h.bytesLeft = 0 then .next s else andThen (exec (.pioXfer n) s) (pioWalk ns)

end Sys2Proof.Machine
end

