-- ==== Sys2Proof/Certificates/Slice0/Obligations.lean ====
section
/-! DEFINITION. The statements for the provers. An explicit final state `{ s with … }` says what an
operation does and, by what it does not name, its frame. `ret` is the model's own field (entry 14): a
statement that cites a rule as stated leaves it open. A word of named fields is written `fields ^^^ low`,
where `low` are the active-low bits of the layout (spec/93 U4); the default layout has none, and the word
is then the one the rule writes. -/

open Sys2Proof Sys2Proof.Machine

/-! ### Encoding -/

/-- Every well-formed instruction is read back from its own message, whatever follows it: every operand
at every value its field admits (the messages are the model's, entries 2 and 3; the codes R112, R113, the
word formats R101 to R107). -/
def Obligations.DecodeEncodeRoundTrip : Prop :=
  ∀ (i : Instr) (rest : List Byte), i.wf = true → decode (portOf i) (encode i ++ rest) = .ok (i, rest)

/-- Words written out from R112, R104, R103 and R107 decode to the instructions they stand for, and the
codes R112 leaves unassigned are refused by name (R115). Three things here are the model's and not the
tables': an operand byte after the selector (entry 2: PIO_XFER stores its operand less one), which row an
untagged word is (entry 3: 0x80 and 0x200 are ST0 rows, 0x12A98 a command word), and the tags 33 and 34
that name a row (entry 3). -/
def Obligations.TableWordsDecode : Prop :=
  decodeTableWord 5 0x06 = some .irq ∧
  decodeTableWord 5 0x15 = some (.pioXfer 1) ∧
  decodeTableWord 5 0x1A = some .dataTeardown ∧
  decodeTableWord 32 0x00012A98 = some (.cmdWord {
    indx := 24, pplen := true, bsyexp := false,
    rspfmt := .shortCrc, dtrw := true, strmtp := false, wdatx := true, dmatrig := true }) ∧
  decodeTableWord 32 0x00004000 = some .initckWord ∧
  decodeTableWord 32 0x00000080 = some (.stCrcrs 0x80) ∧
  decodeTableWord 32 0x00000200 = some (.stDxrdy 0x200) ∧
  decodeWord 33 0x2B5 = .ok (.imWord {
    datdne := true, rspdne := true, toutrd := false, toutrs := true,
    crcwr := true, crcrd := false, crcrs := true, dxrdy := true, drrdy := false }) ∧
  decodeWord 34 0x7 = .ok (.fifoctlWord { rst := true, dir := true, lev := true }) ∧
  ∀ (b : Byte) (rest : List Byte),
    (0x08 ≤ b.toNat ∧ b.toNat ≤ 0x0F) ∨ (0x1E ≤ b.toNat ∧ b.toNat ≤ 0x1F) →
    decode .selector (b :: rest) = .error (.unassignedSelector b.toNat)

/-- R110: every named field of the command word CMD_START leaves in CMD, and every bit with no field, under
any layout a register block can have, whether or not a pre-load came before it. -/
def Obligations.CommandWordAssembly : Prop :=
  ∀ (s t : State) (slot : Slot) (q : InFlight) (c : Command), s.cfg.layout.ok = true →
    s.fault = none → s.q = some q → (slot = .main ∧ c = q.req.cmd ∨ slot = .stop ∧ q.req.stop = some c) →
    c.index ≤ 63 → exec (.cmdStart (some slot)) s = .next t → t.fault = none →
    let l := s.cfg.layout
    let w := t.regs.cmd ^^^ l.low.cmd
    (w >>> l.indx).toNat % 64 = c.index ∧
    (w >>> l.rspfmt).toNat % 4 = respCode c.resp ∧
    w.getLsbD l.bsyexp = c.busy ∧
    w.getLsbD l.wdatx = s.h.data ∧
    w.getLsbD l.strmtp = (s.h.data && q.req.data.any (·.stream)) ∧
    w.getLsbD l.dtrw = (s.h.data && s.h.dataDir == some .write) ∧
    w.getLsbD l.dmatrig = s.h.doDma ∧
    w.getLsbD l.pplen = (s.h.busMode == .pushPull) ∧
    w.getLsbD l.initck = false ∧
    (∀ p, p ∉ [l.indx, l.indx + 1, l.indx + 2, l.indx + 3, l.indx + 4, l.indx + 5, l.pplen, l.bsyexp,
        l.rspfmt, l.rspfmt + 1, l.dtrw, l.strmtp, l.wdatx, l.initck, l.dmatrig] →
      t.regs.cmd.getLsbD p = false) ∧
    (s.h.data = false → s.h.doDma = false →
      w.getLsbD l.wdatx = false ∧ w.getLsbD l.strmtp = false ∧ w.getLsbD l.dtrw = false ∧
      w.getLsbD l.dmatrig = false)

/-- R111: the mask CMD_START leaves in IM, as the union of named bits under any layout, and as the five
words of the rule under the default one, whether or not a pre-load came before it. That the mask's bits are
those of the fields where an enable is active low is the model's choice (entry 5). -/
def Obligations.ArmedMaskUnion : Prop :=
  ∀ (s t : State) (slot : Slot),
    s.fault = none → exec (.cmdStart (some slot)) s = .next t → t.fault = none →
    let l := s.cfg.layout
    t.regs.im = ((bit l.rspdne ||| bit l.crcrs ||| bit l.toutrs)
      ||| (if s.h.data = true ∧ s.h.dataDir = some .write then
             bit l.datdne ||| bit l.crcwr ||| (if s.h.doDma then 0 else bit l.dxrdy) else 0)
      ||| (if s.h.data = true ∧ s.h.dataDir = some .read then
             bit l.datdne ||| bit l.crcrd ||| bit l.toutrd ||| (if s.h.doDma then 0 else bit l.drrdy) else 0)) ^^^ l.low.im ∧
    (l = Layout.default → t.regs.im =
      if s.h.data = true ∧ s.h.dataDir = some .write then (if s.h.doDma then 0x0B5 else 0x2B5)
      else if s.h.data = true ∧ s.h.dataDir = some .read then (if s.h.doDma then 0x0DD else 0x4DD)
      else 0x094)

/-! ### The step -/

/-- A step runs the operation at the head of the queue, taken off the queue; with nothing queued it does
nothing (R84, R289; the queue is the model's, entry 1); bytes that name no operation are turned away with
no effect (R115; the form is the model's, entry 13). -/
def Obligations.StepRunsDecodedInstruction : Prop :=
  (∀ s : State, s.pending = [] → step s = .next s) ∧
  (∀ (s : State) (m : Message) (rest : List Message) (i : Instr) (tail : List Byte),
    s.pending = m :: rest → decode m.port m.bytes = .ok (i, tail) →
    step s = exec i { s with pending := rest }) ∧
  ∀ (s : State) (m : Message) (rest : List Message) (e : DecodeError),
    s.pending = m :: rest → decode m.port m.bytes = .error e →
    ∃ r, step s = .next { s with pending := rest, ret := r }

/-- Queuing any well-formed instruction as the next operation and taking a step is executing it. -/
def Obligations.QueuedInstructionRuns : Prop :=
  ∀ (i : Instr) (s : State), i.wf = true →
    step { s with pending := messageOf i :: s.pending } = exec i s

/-- No operation changes the configuration (R20: it is not state), no operation touches the queue of
those to come (R84), the trace only grows (R58), and the fault once set stays (R59). -/
def Obligations.ExecKeepsConfigQueueTraceFault : Prop :=
  ∀ (i : Instr) (s t : State), exec i s = .next t →
    t.cfg = s.cfg ∧ t.pending = s.pending ∧ s.trace <+: t.trace ∧ (s.fault ≠ none → t.fault = s.fault)

/-- The stored registers and host memory are what the trace's writes leave (R26, R74, R58): after any
operation every register holds the last word written to it, and memory the last bytes. -/
def Obligations.StoredStateFollowsTrace : Prop :=
  ∀ (i : Instr) (s t : State), exec i s = .next t →
    t.regs = replayRegs s.regs (newEvents s t) ∧ t.mem = replayMem s.mem (newEvents s t)

/-! ### Invariants -/

/-- Every step keeps host memory in its canonical form (entry 11: the form is the model's), from every
state. -/
def Obligations.StepKeepsMemoryCanonical : Prop :=
  ∀ s t : State, s.mem.wf = true → step s = .next t → t.mem.wf = true

/-- Every step keeps the invariant between operations: the phase table of R42, the cursor of R43, the
FIFO direction of R36, the bounds of R47, with outside operations queued (the queue is the model's, entry
1), unless the engine has faulted. -/
def Obligations.StepKeepsEngineInvariant : Prop :=
  ∀ s t : State, EngineInv s → step s = .next t → EngineInv t

/-- After hardware reset every field R62 gives a value has it, whatever the configuration and the reset
image; the invariants hold; and the machine of the row is one such state (entries 4 and 6). -/
def Obligations.HardwareResetState : Prop :=
  (∀ (cfg : Config) (image : Regs),
    let s := State.hardwareReset cfg image
    s.regs = image ∧ s.h.attached = false ∧ s.h.phase = .idle ∧ s.h.cmd = none ∧ s.h.data = false ∧
    s.h.dataDir = none ∧ s.h.doDma = false ∧ s.h.sgIdx = 0 ∧ s.h.bufPtr = 0 ∧ s.h.segLeft = 0 ∧
    s.h.bytesLeft = 0 ∧ s.h.busMode = .openDrain ∧ s.h.busWidth = .w1 ∧ s.h.busClockHz = 0 ∧
    s.h.powerMode = .off ∧ s.h.dmaOk = false ∧ s.h.msg = [] ∧ s.dma.desc = [] ∧ s.q = none ∧
    s.trace = [] ∧ s.fault = none ∧
    EngineInv s ∧ s.mem.wf = true ∧ runEnd s = .detached) ∧
  ∃ image, State.reset = State.hardwareReset Config.default image

/-! ### The whole machine -/

/-- Under the invariant every operation an outside agent invokes runs to its end: it answers a next
state, in every phase and for every draw (R278, R280; a clock rate of 0 has no meaning, entry 10). -/
def Obligations.OutsideOperationsAlwaysAnswer : Prop :=
  ∀ (i : Instr) (s : State), outside i = true → EngineInv s →
    (i = .attach → ∀ r ∈ s.env.clkRate, r ≠ 0) → ∃ t, exec i s = .next t

/-- R285: every edge of the phase graph, and the operation it happens in. -/
def Obligations.PhaseTransitionGraph : Prop :=
  ∀ (i : Instr) (s t : State), outside i = true → EngineInv s → exec i s = .next t →
    t.h.phase = s.h.phase ∨
    ((∃ req, i = .request req) ∧ s.h.phase = .idle ∧ t.h.phase = .commandIssued) ∨
    (i = .irq ∧ s.h.phase = .commandIssued ∧ s.h.data = true ∧ t.h.phase = .dataInFlight) ∨
    (i = .irq ∧ (s.h.phase = .commandIssued ∨ s.h.phase = .dataInFlight) ∧
      s.q.any (·.req.stop.isSome) = true ∧ t.h.phase = .stopIssued) ∨
    (i = .irq ∧ s.h.phase ≠ .idle ∧ t.h.phase = .idle)

/-- One operation delivers at most one Completion; it is the operation's last event, of the request in
flight (or of the one turned away as busy); the engine is then idle with no reference to it; and where
DMA was in use the channel was stopped and cleaned and the list unmapped before (R226, R228, R229, R268). -/
def Obligations.CompletionEndsTheRequest : Prop :=
  ∀ (i : Instr) (s t : State), outside i = true → EngineInv s → exec i s = .next t →
    (∀ e ∈ newEvents s t, isCompletion e = false) ∨
    ∃ pre record, newEvents s t = pre ++ [.completion record] ∧ (∀ e ∈ pre, isCompletion e = false) ∧
      runEnd t = .quiescent ∧ t.h.cmd = none ∧ t.h.data = false ∧ t.q = none ∧
      ((∃ req, i = .request req ∧ record.id = req.id ∧ record.cmdError = .timeout) ∨
       (i = .irq ∧ ∃ q, s.q = some q ∧ record.id = q.req.id ∧
         ∀ d dir, s.h.doDma = true → q.req.data = some d → s.h.dataDir = some dir →
           ∃ a b, pre = a ++ [.dmaStop (s.dma.chan dir), .dmaClean (s.dma.chan dir), .dmaUnmap d.sg dir] ++ b))

/-- The engine touches host memory only inside the segments of the request, aligned to the access
(R71, R76); no byte outside them changes; and no byte at all changes but by an interrupt's service of a
PIO read (R89). -/
def Obligations.HostMemoryConfined : Prop :=
  ∀ (i : Instr) (s t : State), outside i = true → EngineInv s → exec i s = .next t →
    (∀ e ∈ newEvents s t, accessInside (segmentsOf i s) e = true) ∧
    (∀ a, (∀ g ∈ segmentsOf i s, a < g.addr ∨ g.addr + g.len ≤ a) →
      Memory.get t.mem a = Memory.get s.mem a) ∧
    (¬ (i = .irq ∧ s.h.data = true ∧ s.h.doDma = false ∧ s.h.dataDir = some .read) → t.mem = s.mem)

/-- R36: at every FIFO access the last word written to FIFOCTL has the direction of the access and the
reset released. -/
def Obligations.FifoDirectionMatchesAccess : Prop :=
  ∀ (i : Instr) (s t : State), outside i = true → EngineInv s → exec i s = .next t →
    ∀ pre e post, newEvents s t = pre ++ e :: post →
      (∀ w v, e = .fifoR w v → (replayRegs s.regs pre).fifoctl =
        fifoWord s.cfg.layout { rst := false, dir := false, lev := s.cfg.threshold == .t32 }) ∧
      (∀ w v, e = .fifoW w v → (replayRegs s.regs pre).fifoctl =
        fifoWord s.cfg.layout { rst := false, dir := true, lev := s.cfg.threshold == .t32 })

/-- R203, R202: one IRQ operation accesses CTL not at all, or in exactly one soft-reset pulse; and the
pulse comes before any Completion. -/
def Obligations.OnePulsePerInterrupt : Prop :=
  ∀ s t : State, EngineInv s → exec .irq s = .next t →
    (∀ e ∈ newEvents s t, isCtlAccess e = false) ∨
    ∃ pre post, newEvents s t = pre ++
        [.regR (.stored .ctl) s.regs.ctl, .regW .ctl (assertResets s.cfg.layout s.regs.ctl),
         .delay s.cfg.tReset, .regW .ctl (releaseResets s.cfg.layout s.regs.ctl)] ++ post ∧
      (∀ e ∈ pre ++ post, isCtlAccess e = false) ∧ (∀ e ∈ pre, isCompletion e = false)

/-- R277: every refusal, in the order its operation tests them, leaves the state as it was; the answer is
an error return (entry 13). While the fault is set every row is refused (R59). -/
def Obligations.RefusalsHaveNoEffect : Prop :=
  (∀ (i : Instr) (s : State), s.fault ≠ none → exec i s = .next { s with ret := .refused .faulted }) ∧
  (∀ (i : Instr) (s : State), s.fault = none → s.h.attached = false →
    i = .detach ∨ (∃ w m p hz, i = .setIos w m p hz) ∨ (∃ req, i = .request req) ∨ i = .getCd ∨
      i = .getRo ∨ i = .irq → exec i s = .next { s with ret := .refused .notAttached }) ∧
  (∀ s : State, s.fault = none → s.h.attached = true →
    exec .attach s = .next { s with ret := .refused .alreadyAttached }) ∧
  (∀ s : State, s.fault = none → s.h.attached = true → s.h.phase ≠ .idle →
    exec .detach s = .next { s with ret := .refused .detachWhileBusy } ∧
    (∀ w m p hz, exec (.setIos w m p hz) s = .next { s with ret := .refused .iosWhileBusy }) ∧
    (∀ req, exec (.request req) s = .next { s with ret := .refused .requestWhileBusy })) ∧
  (∀ s : State, s.fault = none → s.h.attached = true → s.h.phase = .idle →
    (∀ w m p hz, w ≠ 0 → w ≠ 1 →
      exec (.setIos w m p hz) s = .next { s with ret := .refused .unsupportedWidth }) ∧
    (∀ req, requestValid req = false →
      exec (.request req) s = .next { s with ret := .refused .malformedRequest }))

/-! ### Clock divider and bus timing -/

/-- R130: the divider is the least that keeps the frequency at or below the request, and DIV_MAX if there
is none; the operation writes no state. -/
def Obligations.DivsolveLeastDivider : Prop :=
  (∀ r f : Nat, 0 < r →
    divsolve r f ≤ DIV_MAX ∧
    ((r ≤ 2 * (divsolve r f + 1) * f ∧ ∀ d < divsolve r f, 2 * (d + 1) * f < r) ∨
     (divsolve r f = DIV_MAX ∧ ∀ d ≤ DIV_MAX, 2 * (d + 1) * f < r))) ∧
  (∀ (r f : Nat) (s : State), 0 < r → s.fault = none →
    exec (.divsolve r f) s = .next { s with ret := .divider (divsolve r f) }) ∧
  divsolve 48000000 20000000 = 1

/-- R132: the downward search computes the same function. -/
def Obligations.DivsolveSearchAgrees : Prop :=
  ∀ r f : Nat, 0 < r → 0 < f → divsearch r f = divsolve r f

/-- R135: no overshoot inside the envelope, monotonicity, optimality, range; over exact quotients. -/
def Obligations.DivsolveEffectiveFrequency : Prop :=
  (∀ r f : Nat, 0 < f → r ≤ 2 * (DIV_MAX + 1) * f → feff r (divsolve r f) ≤ (f : ℚ)) ∧
  (∀ r f1 f2 : Nat, 0 < r → f1 ≤ f2 → divsolve r f2 ≤ divsolve r f1) ∧
  (∀ r f : Nat, 0 < f → 0 < divsolve r f → r ≤ 2 * (DIV_MAX + 1) * f →
    (f : ℚ) < feff r (divsolve r f - 1)) ∧
  (∀ r f : Nat, divsolve r f ≤ DIV_MAX)

/-- R133: at half the reference clock and above the divider is 0. -/
def Obligations.DivsolveMaximumSpeed : Prop :=
  ∀ r f : Nat, 0 < r → r ≤ 2 * f → divsolve r f = 0

/-- R240 to R244: an admitted SET_IOS that is no power-up transition, in each bus mode: the width, then
the clock, and nothing else. -/
def Obligations.SetIosWidthAndClock : Prop :=
  ∀ (s : State) (code : Nat) (width : BusWidth) (power : PowerMode) (hz : Nat),
    s.fault = none → s.h.attached = true → s.h.phase = .idle →
    (code = 0 ∧ width = .w1 ∨ code = 1 ∧ width = .w4) → (power = .up → s.h.powerMode = .up) →
    let l := s.cfg.layout
    let v := s.regs.ctl ^^^ l.low.ctl
    let ctl := (if width = .w4 then v ||| bit l.width4 else v &&& ~~~(bit l.width4)) ^^^ l.low.ctl
    let od := withDiv l s.regs.clk s.cfg.odDivider.toNat
    let c1 := ((s.regs.clk ^^^ l.low.clk) &&& ~~~(bit l.clken)) ^^^ l.low.clk
    let c2 := withDiv l c1 (divsolve s.h.refClockHz hz)
    let c3 := ((c2 ^^^ l.low.clk) ||| bit l.clken) ^^^ l.low.clk
    exec (.setIos code .openDrain power hz) s = .next { s with
      regs := { s.regs with ctl := ctl, clk := od }
      h := { s.h with busWidth := width, busMode := .openDrain, busClockHz := hz, powerMode := power }
      trace := s.trace ++ [.regR (.stored .ctl) s.regs.ctl, .regW .ctl ctl,
        .regR (.stored .clk) s.regs.clk, .regW .clk od]
      ret := .done } ∧
    exec (.setIos code .pushPull power hz) s = .next { s with
      regs := { s.regs with ctl := ctl, clk := c3 }
      h := { s.h with busWidth := width, busMode := .pushPull, busClockHz := hz, powerMode := power }
      trace := s.trace ++ [.regR (.stored .ctl) s.regs.ctl, .regW .ctl ctl,
        .regR (.stored .clk) s.regs.clk, .regW .clk c1, .delay s.cfg.tSettle, .regW .clk c2,
        .regW .clk c3, .delay s.cfg.tSettle]
      ret := .done }

/-- The words of the push-pull branch (R243, R102): the clock is disabled while the divider changes, and
every other bit stays, under any layout. -/
def Obligations.ClockGatedWhileDividerChanges : Prop :=
  ∀ (l : Layout) (w : Word) (d : Nat), l.ok = true → d ≤ DIV_MAX →
    let c1 := gateClock l w
    let c2 := withDiv l c1 d
    let c3 := ungateClock l c2
    clkenOf l c1 = false ∧ divOf l c1 = divOf l w ∧
    clkenOf l c2 = false ∧ divOf l c2 = d ∧
    clkenOf l c3 = true ∧ divOf l c3 = d ∧
    ∀ p < 32, p ∉ [l.div, l.div + 1, l.div + 2, l.div + 3, l.clken] →
      c1.getLsbD p = w.getLsbD p ∧ c2.getLsbD p = w.getLsbD p ∧ c3.getLsbD p = w.getLsbD p

/-- R246: on the power-up transition SET_IOS does what it does for another power mode, then INITCK, and
records UP. -/
def Obligations.SetIosPowerUpPulsesClock : Prop :=
  ∀ (s : State) (code : Nat) (mode : BusMode) (hz : Nat),
    s.fault = none → s.h.attached = true → s.h.phase = .idle → code ≤ 1 → s.h.powerMode ≠ .up →
    ∃ u v, exec (.setIos code mode .off hz) s = .next u ∧ exec .initck u = .next v ∧
      exec (.setIos code mode .up hz) s = .next { v with h := { v.h with powerMode := .up } }

/-- R245: INITCK writes the command word with only its own bit, then reads ST0 until RSPDNE or the bound,
and changes nothing else. -/
def Obligations.InitckPulsesAndPolls : Prop :=
  ∀ s : State, s.fault = none →
    let l := s.cfg.layout
    let w := bit l.initck ^^^ l.low.cmd
    ∃ n r, let draws := envDraws .st0 n s.env
      1 ≤ n ∧ n ≤ s.cfg.initckPollMax ∧
      (∀ v ∈ draws.1.dropLast, eventAt l v l.rspdne = false) ∧
      (n = s.cfg.initckPollMax ∨ ∃ v, draws.1.getLast? = some v ∧ eventAt l v l.rspdne = true) ∧
      exec .initck s = .next { s with
        regs := { s.regs with cmd := w }
        trace := s.trace ++ [.regW .cmd w]
          ++ draws.1.map (Event.regR (.drawn .st0))
        env := draws.2
        ret := r }

/-! ### Submission -/

/-- R171: BUSY_CHECK reads ST1 until BUSY is 0 or the bound; stuck only if every one of the reads allowed
showed BUSY. -/
def Obligations.BusyCheckBoundedPoll : Prop :=
  ∀ s : State, s.fault = none →
    ∃ n stuck, let draws := envDraws .st1 n s.env
      1 ≤ n ∧ n ≤ s.cfg.busyPollMax ∧
      (∀ v ∈ draws.1.dropLast, busyOf s.cfg.layout v = true) ∧
      (stuck = true → n = s.cfg.busyPollMax) ∧
      (∃ v, draws.1.getLast? = some v ∧ busyOf s.cfg.layout v = stuck) ∧
      exec .busyCheck s = .next { s with
        trace := s.trace ++ draws.1.map (Event.regR (.drawn .st1))
        env := draws.2
        ret := .busy stuck }

/-- R172: a request that finds the card busy for the whole window completes at once with a timeout; the
busy reads and the Completion are all it does. -/
def Obligations.RequestBusyStuck : Prop :=
  ∀ (s : State) (req : BusRequest),
    s.fault = none → s.h.attached = true → s.h.phase = .idle → requestValid req = true →
    let draws := envDraws .st1 s.cfg.busyPollMax s.env
    (∀ v ∈ draws.1, busyOf s.cfg.layout v = true) →
    ∃ r, exec (.request req) s = .next { s with
      trace := s.trace ++ draws.1.map (Event.regR (.drawn .st1)) ++
        [.completion {
          id := req.id, cmdResp := ⟨0, 0, 0, 0⟩, cmdError := .timeout,
          stopResp := ⟨0, 0, 0, 0⟩, stopError := .none, dataError := .none, bytesXfered := 0 }]
      env := draws.2
      ret := r }

/-- R170: an admitted REQUEST whose busy check is clear is that check, then PREPARE with the request as
`Q` and DMA not in use, then CMD_START for the main command. -/
def Obligations.RequestRunsItsParts : Prop :=
  ∀ (s u v : State) (req : BusRequest),
    s.fault = none → s.h.attached = true → s.h.phase = .idle → requestValid req = true →
    exec .busyCheck s = .next u → u.ret = .busy false →
    exec .prepare { u with q := some ⟨req, Result.initial⟩, h := { u.h with doDma := false } } = .next v →
    v.fault = none →
    exec (.request req) s = exec (.cmdStart (some .main)) v

/-- R170, R141, R178: a request with no data phase whose first busy read is clear: the state it leaves,
its command word (R110) and mask (R111). -/
def Obligations.RequestWithoutData : Prop :=
  ∀ (s : State) (req : BusRequest),
    s.fault = none → s.h.attached = true → s.h.phase = .idle → requestValid req = true → req.data = none →
    busyOf s.cfg.layout (drawnWord .st1 s) = false →
    let l := s.cfg.layout
    let w := cmdWord l {
      indx := BitVec.ofNat 6 req.cmd.index, pplen := s.h.busMode == .pushPull,
      bsyexp := req.cmd.busy, rspfmt := req.cmd.resp, dtrw := false, strmtp := false, wdatx := false,
      dmatrig := false }
    let im := (bit l.rspdne ||| bit l.toutrs ||| bit l.crcrs) ^^^ l.low.im
    exec (.request req) s = .next { s with
      regs := { s.regs with blen := 0, nblk := 0, tor := 0xFFFF, arg := req.cmd.arg, cmd := w, im := im }
      h := { s.h with phase := .commandIssued, cmd := some .main, data := false, dataDir := none,
                      doDma := false }
      q := some ⟨req, Result.initial⟩
      trace := s.trace ++ [.regR (.drawn .st1) (drawnWord .st1 s), .regW .blen 0, .regW .nblk 0,
        .regW .tor 0xFFFF, .regW .arg req.cmd.arg, .regW .cmd w, .regW .im im]
      env := envAfterWord .st1 s.env
      ret := .done }

/-! ### PREPARE and its parts -/

/-- R141: PREPARE with no data phase; with one that no DMA can serve (`USE_DMA`, the channels or the total
forbid it, or a segment is misaligned), where the collaborator is not called; and with one that
DMA_SETUP decides. -/
def Obligations.PrepareRunsItsParts : Prop :=
  ∀ (s : State) (q : InFlight), s.fault = none → s.q = some q →
    (q.req.data = none → exec .prepare s = .next { s with
      regs := { s.regs with blen := 0, nblk := 0 }
      h := { s.h with data := false, dataDir := none }
      trace := s.trace ++ [.regW .blen 0, .regW .nblk 0]
      ret := .done }) ∧
    ∀ (d : DataPhase) (g : Seg) (rest : List Seg), q.req.data = some d → d.sg = g :: rest →
      let total := d.blockCount * d.blockSize
      let tod := value16 (min d.timeoutCycles 0xFFFF)
      let f1 := fifoctlFor s d.dir true
      let f2 := fifoctlFor s d.dir false
      let v : State := { s with
        regs := { s.regs with tod := tod, nblk := value16 d.blockCount, blen := value16 d.blockSize,
                              fifoctl := f2 }
        h := { s.h with data := true, dataDir := some d.dir, bytesLeft := total }
        trace := s.trace ++ [.regW .tod tod, .regW .nblk (value16 d.blockCount),
          .regW .blen (value16 d.blockSize), .regW .fifoctl f1, .regW .fifoctl f2]
        ret := .done }
      let dma := s.cfg.useDma = true ∧ s.h.dmaOk = true ∧ total % s.threshold = 0
      (¬ dma ∨ (∃ g ∈ d.sg, g.len % s.threshold ≠ 0) → exec .prepare s = .next { v with
        h := { v.h with sgIdx := 0, bufPtr := g.addr, segLeft := min g.len total } }) ∧
      (dma → ∀ u, exec .dmaSetup v = .next u →
        (u.ret = .setup true → exec .prepare s = .next { u with
          h := { u.h with doDma := true, bytesLeft := 0 }, ret := .done }) ∧
        (u.ret = .setup false → exec .prepare s = exec .pioInit u))

/-- R143: PREPARE selects DMA for a data phase exactly when (a) to (f) hold. -/
def Obligations.DmaSelectionPredicate : Prop :=
  ∀ (s : State) (q : InFlight) (d : DataPhase), s.fault = none → s.q = some q → q.req.data = some d →
    d.sg ≠ [] → s.h.doDma = false →
    ∃ t, exec .prepare s = .next t ∧
      (t.h.doDma = true ↔
        s.cfg.useDma = true ∧ s.h.dmaOk = true ∧ (d.blockCount * d.blockSize) % s.threshold = 0 ∧
        (∀ g ∈ d.sg, g.len % s.threshold = 0) ∧
        ∃ msg, (drawMap d.sg s).1 = some msg ∧ ∀ m ∈ msg, m.len % s.threshold = 0)

/-- R142, R107: FIFO_CFG asserts the FIFO reset with direction and level set, then releases it. -/
def Obligations.FifoCfgSequence : Prop :=
  ∀ (s : State) (dir : Dir), s.fault = none →
    let l := s.cfg.layout
    let low := l.low.fifoctl
    let base := (if dir = .write then bit l.dir else 0) ||| (if s.cfg.threshold = .t32 then bit l.lev else 0)
    ∃ r, exec (.fifoCfg (some dir)) s = .next { s with
      regs := { s.regs with fifoctl := base ^^^ low }
      trace := s.trace ++ [.regW .fifoctl ((bit l.rst ||| base) ^^^ low), .regW .fifoctl (base ^^^ low)]
      ret := r }

/-- R144: DMA_SETUP fails with no call where a segment is misaligned; with one call where the collaborator
fails; with the mapping undone where the mapped list is misaligned; else it programs one descriptor for
each mapped segment, in order, each linked to the next, and starts the channel. -/
def Obligations.DmaSetupProgramsChain : Prop :=
  ∀ (s : State) (q : InFlight) (d : DataPhase) (dir : Dir),
    s.fault = none → s.q = some q → q.req.data = some d → s.h.dataDir = some dir →
    let answer := (drawMap d.sg s).1
    let env := (drawMap d.sg s).2.env
    ((∃ g ∈ d.sg, g.len % s.threshold ≠ 0) → exec .dmaSetup s = .next { s with ret := .setup false }) ∧
    ((∀ g ∈ d.sg, g.len % s.threshold = 0) →
      (answer = none → exec .dmaSetup s = .next { s with
        trace := s.trace ++ [.dmaMap d.sg dir none], env := env, ret := .setup false }) ∧
      ∀ msg, answer = some msg →
        ((∃ m ∈ msg, m.len % s.threshold ≠ 0) → exec .dmaSetup s = .next { s with
          trace := s.trace ++ [.dmaMap d.sg dir (some msg), .dmaUnmap d.sg dir], env := env
          ret := .setup false }) ∧
        ((∀ m ∈ msg, m.len % s.threshold = 0) → ∃ chain : List Desc, chain.length = msg.length ∧
          (∀ (k : Nat) (m : Seg), msg[k]? = some m → chain[k]? = some (match dir with
            | .write => { s.dma.tmplWrite with
                          srcAddr := m.addr, elemCount := m.len / 4,
                          link := if k + 1 < msg.length then some (k + 1) else none }
            | .read => { s.dma.tmplRead with
                          dstAddr := m.addr, elemCount := m.len / 4,
                          link := if k + 1 < msg.length then some (k + 1) else none })) ∧
          exec .dmaSetup s = .next { s with
            trace := s.trace ++ [.dmaMap d.sg dir (some msg)] ++ progEvents (s.dma.chan dir) 0 chain
              ++ [.dmaStart (s.dma.chan dir)]
            dma := { s.dma with desc := chain }
            h := { s.h with msg := msg }
            env := env
            ret := .setup true }))

/-- R147: PIO_INIT puts the cursor at the first segment, clamped to the bytes left, and touches nothing
else. -/
def Obligations.PioInitCursor : Prop :=
  decodeTableWord 5 0x14 = some .pioInit ∧
  ∀ (s : State) (q : InFlight) (d : DataPhase) (g : Seg) (rest : List Seg),
    s.fault = none → s.q = some q → q.req.data = some d → d.sg = g :: rest →
    ∃ r, exec .pioInit s = .next { s with
      h := { s.h with sgIdx := 0, bufPtr := g.addr, segLeft := min g.len s.h.bytesLeft }, ret := r }

/-! ### PIO_XFER -/

/-- R160, R161, R75: one call of a WRITE moves `min(n, seg_left)` bytes from host memory into the FIFO, in
ascending address order at one width, and counts them; memory stays as it is. -/
def Obligations.PioXferWriteMoves : Prop :=
  ∀ (s : State) (n : Nat) (q : InFlight) (d : DataPhase),
    s.fault = none → s.q = some q → q.req.data = some d → s.h.dataDir = some .write →
    1 ≤ n → 0 < s.h.segLeft → s.h.bufPtr + s.h.segLeft ≤ 2 ^ 32 →
    let m := min n s.h.segLeft
    let p := s.h.bufPtr
    let w := if p % 4 = 0 ∧ m % 4 = 0 then Width.word else if p % 2 = 0 ∧ m % 2 = 0 then .half else .byte
    exec (.pioXfer n) s = .next { s with
      h := { s.h with bufPtr := p + m, segLeft := s.h.segLeft - m, bytesLeft := s.h.bytesLeft - m }
      trace := s.trace ++ writeEvents s.mem w (m / w.bytes) p
      ret := .done }

/-- R160, R161, R74: one call of a READ moves `min(n, seg_left)` bytes drawn from the FIFO to host memory,
in ascending address order at one width, and counts them. -/
def Obligations.PioXferReadMoves : Prop :=
  ∀ (s : State) (n : Nat) (q : InFlight) (d : DataPhase),
    s.fault = none → s.q = some q → q.req.data = some d → s.h.dataDir = some .read →
    1 ≤ n → 0 < s.h.segLeft → s.h.bufPtr + s.h.segLeft ≤ 2 ^ 32 →
    let m := min n s.h.segLeft
    let p := s.h.bufPtr
    let w := if p % 4 = 0 ∧ m % 4 = 0 then Width.word else if p % 2 = 0 ∧ m % 2 = 0 then .half else .byte
    let draws := fifoDraws (m / w.bytes) s.env
    exec (.pioXfer n) s = .next { s with
      h := { s.h with bufPtr := p + m, segLeft := s.h.segLeft - m, bytesLeft := s.h.bytesLeft - m }
      mem := readMemory w draws.1 p s.mem
      trace := s.trace ++ readEvents w draws.1 p
      env := draws.2
      ret := .done } ∧
    ∀ a, a < p ∨ p + m ≤ a → Memory.get (readMemory w draws.1 p s.mem) a = Memory.get s.mem a

/-- R160, R276: a call that finds the segment exhausted goes on from the next one, clamped to the bytes
left; with none left and bytes outstanding it raises the fault before any access, and leaves every other
piece of state as it was. -/
def Obligations.PioXferSegmentEnd : Prop :=
  ∀ (s : State) (n : Nat) (q : InFlight) (d : DataPhase) (dir : Dir),
    s.fault = none → s.q = some q → q.req.data = some d → s.h.dataDir = some dir →
    1 ≤ n → s.h.segLeft = 0 → 0 < s.h.bytesLeft →
    (∀ g, d.sg[s.h.sgIdx + 1]? = some g → 1 ≤ g.len →
      exec (.pioXfer n) s = exec (.pioXfer n) { s with h := { s.h with
        sgIdx := s.h.sgIdx + 1, bufPtr := g.addr, segLeft := min g.len s.h.bytesLeft } }) ∧
    (d.sg.length ≤ s.h.sgIdx + 1 →
      ∃ r, exec (.pioXfer n) s = .next { s with fault := some .pioCursorExhausted, ret := r })

/-- R162, R75: for a data phase whose list is long enough and lies in memory, any sequence of calls from
the start of the cursor ends with no fault and the cursor inside the list. For a WRITE it puts into the
FIFO exactly the first bytes of the concatenated segments, as many as the counter says; for a READ the
bytes drawn from the FIFO, as many as the counter says, land in order at the addresses of the concatenated
segments, and nowhere else. -/
def Obligations.PioWalkStreamsTheBuffer : Prop :=
  ∀ (s : State) (q : InFlight) (d : DataPhase) (dir : Dir) (ns : List Nat),
    s.fault = none → s.q = some q → q.req.data = some d → dataValid d = true →
    dataTotal d ≤ totalLength d.sg → s.h.dataDir = some dir → s.h.bytesLeft = dataTotal d →
    (∀ n ∈ ns, 1 ≤ n) →
    ∃ u t, exec .pioInit s = .next u ∧ pioWalk ns u = .next t ∧ t.fault = none ∧
      t.h.sgIdx < d.sg.length ∧ t.h.bytesLeft ≤ dataTotal d ∧
      (dir = .write → t.mem = s.mem ∧
        fifoStream (newEvents s t) = (segmentBytes s.mem d.sg).take (dataTotal d - t.h.bytesLeft)) ∧
      (dir = .read →
        (drawnStream (newEvents s t)).length = dataTotal d - t.h.bytesLeft ∧
        t.mem = storeStream (segmentAddrs d.sg) (drawnStream (newEvents s t)) s.mem)

/-- R74: a load is the bytes with the lowest address in bits 7:0; a store puts bits 7:0 at the lowest
address and leaves every other byte alone. -/
def Obligations.HostMemoryLittleEndian : Prop :=
  ∀ (m : Memory) (a : Nat) (w : Width) (v : Word), m.wf = true →
    (Memory.readLE m a w.bytes).toNat =
      ((List.range w.bytes).map fun k => 256 ^ k * (Memory.get m (a + k)).toNat).sum ∧
    (∀ k < w.bytes, Memory.get (Memory.writeLE m a w.bytes v) (a + k) = (v >>> (8 * k)).setWidth 8) ∧
    (∀ c, c < a ∨ a + w.bytes ≤ c → Memory.get (Memory.writeLE m a w.bytes v) c = Memory.get m c)

/-! ### CMD_START -/

/-- R178, R179, R181: CMD_START with nothing to pre-load: TOR, ARG, CMD, IM in that order, and the phase. -/
def Obligations.CmdStartIssuesCommand : Prop :=
  ∀ (s : State) (slot : Slot) (q : InFlight) (c : Command),
    s.fault = none → s.q = some q → (slot = .main ∧ c = q.req.cmd ∨ slot = .stop ∧ q.req.stop = some c) →
    (s.h.data = false ∨ s.h.doDma = true ∨ s.h.dataDir ≠ some .write) →
    let w := commandWord q c s
    exec (.cmdStart (some slot)) s = .next { s with
      regs := { s.regs with tor := 0xFFFF, arg := c.arg, cmd := w, im := armedMask s }
      h := { s.h with cmd := some slot, phase := if slot = .main then .commandIssued else .stopIssued }
      trace := s.trace ++ [.regW .tor 0xFFFF, .regW .arg c.arg, .regW .cmd w, .regW .im (armedMask s)]
      ret := .done }

/-- R180, R178: for a PIO write, one threshold of data at most goes into the FIFO before CMD is written. -/
def Obligations.CmdStartPreloadsPioWrite : Prop :=
  ∀ (s : State) (slot : Slot) (q : InFlight) (c : Command) (d : DataPhase),
    s.fault = none → s.q = some q → (slot = .main ∧ c = q.req.cmd ∨ slot = .stop ∧ q.req.stop = some c) →
    s.h.data = true → s.h.doDma = false → s.h.dataDir = some .write → q.req.data = some d →
    0 < s.h.segLeft → s.h.bufPtr + s.h.segLeft ≤ 2 ^ 32 →
    let w := commandWord q c s
    let m := min s.threshold s.h.segLeft
    let wd := widthFor s.h.bufPtr m
    exec (.cmdStart (some slot)) s = .next { s with
      regs := { s.regs with tor := 0xFFFF, arg := c.arg, cmd := w, im := armedMask s }
      h := { s.h with
        cmd := some slot, phase := if slot = .main then .commandIssued else .stopIssued
        bufPtr := s.h.bufPtr + m, segLeft := s.h.segLeft - m, bytesLeft := s.h.bytesLeft - m }
      trace := s.trace ++ [.regW .tor 0xFFFF] ++ writeEvents s.mem wd (m / wd.bytes) s.h.bufPtr
        ++ [.regW .arg c.arg, .regW .cmd w, .regW .im (armedMask s)]
      ret := .done }

/-! ### The interrupt path -/

/-- R191: with nothing in flight, and so in phase Idle under the invariant, an interrupt reads ST0, clears
the mask, and does nothing else, whatever it reads. Two things are the model's choice: the 0 written to IM
is a 0 in its fields (entry 5), and the flags of IRQ are stored (entry 18). -/
def Obligations.IrqSpuriousMasksAll : Prop :=
  ∀ s : State, s.fault = none → s.h.attached = true →
    (s.h.cmd = none ∧ s.h.data = false ∨ EngineConsistent s ∧ s.h.phase = .idle) →
    let off : Word := 0 ^^^ s.cfg.layout.low.im
    ∃ r, exec .irq s = .next { s with
      regs := { s.regs with im := off }
      trace := s.trace ++ [.regR (.drawn .st0) (drawnWord .st0 s), .regW .im off]
      env := envAfterWord .st0 s.env
      irq := IrqLocal.clear
      ret := r }

/-- R190, R192 to R200, R203, R204, R114: with a command or a data phase in flight an interrupt is, in this
order, the read of ST0, the FIFO service loop, each classification rule whose event the combined status
shows, one reset pulse if a rule asked for it, CMD_END if a rule ended the command, XFER_END if a rule ended
the data phase and nothing completed it before; each part runs as its own row does (the rows present the
combined status, entry 18, which gathers events and not raw bits, entry 5), and the fault of a part ends the
interrupt there. The flags are gone at the end (R60; that they are stored is the model's, entry 18). -/
def Obligations.IrqRunsItsParts : Prop :=
  ∀ s : State, s.fault = none → s.h.attached = true → s.h.cmd ≠ none ∨ s.h.data = true →
    let l := s.cfg.layout
    let v := drawnWord .st0 s
    let entered : State := { s with
      trace := s.trace ++ [.regR (.drawn .st0) v]
      env := envAfterWord .st0 s.env
      irq := { IrqLocal.clear with s := v, q := v }
      ret := .done }
    let seen (p : Nat) (row : Word → Instr) : State → Answer :=
      execIf (fun u => eventAt l u.irq.q p) fun u => row u.irq.q
    exec .irq s = irqLeave (
      andThen (if eventAt l v l.dxrdy then exec (.stDxrdy v) entered else
        if eventAt l v l.drrdy then exec (.stDrrdy v) entered else .next entered) fun u =>
      andThen (seen l.datdne .stDatdne u) fun u =>
      andThen (seen l.toutrd .stToutrd u) fun u =>
      andThen (if eventAt l u.irq.q l.crcwr then exec (.stCrcwr u.irq.q) u else seen l.crcrd .stCrcrd u) fun u =>
      andThen (seen l.toutrs .stToutrs u) fun u =>
      andThen (seen l.crcrs .stCrcrs u) fun u =>
      andThen (seen l.rspdne .stRspdne u) fun u =>
      andThen (execIf (·.irq.needReset) (fun _ => .softReset) u) fun u =>
      andThen (execIf (·.irq.endCmd) (fun _ => .cmdEnd) u) fun u =>
      andThen (execIf (fun u => u.irq.endXfer && u.h.data && !u.irq.completed) (fun _ => .xferEnd) u) fun u =>
      .next { u with ret := .interrupt true })

/-- R199, R200, R203, R220, R226: an interrupt that reports command-done for a short-response command with
no data phase completes the request; a command CRC error reported with it is surfaced, after one reset
pulse and before the response is read, exactly when the bus clock is at or below HS_CRC_HZ. The model's
choice: the 0 written to IM is a 0 in its fields (entry 5), and the flags of IRQ are stored (entry 18). -/
def Obligations.IrqEndsCommand : Prop :=
  ∀ (s : State) (q : InFlight) (slot : Slot) (c : Command),
    s.cfg.layout.ok = true → s.fault = none → s.h.attached = true → s.h.cmd = some slot →
    s.h.data = false → s.q = some q → q.command slot = some c → c.resp = .shortCrc ∨ c.resp = .shortNoCrc →
    let l := s.cfg.layout
    let v := drawnWord .st0 s
    let e1 := envAfterWord .st0 s.env
    let r := drawnWord .rsp3 { s with env := e1 }
    eventAt l v l.rspdne = true → eventAt l v l.toutrs = false →
    let surfaced := eventAt l v l.crcrs = true ∧ s.h.busClockHz ≤ s.cfg.hsCrcHz
    let asserted := assertResets l s.regs.ctl
    let released := releaseResets l s.regs.ctl
    let off : Word := 0 ^^^ l.low.im
    let old := q.result.response slot
    let result := if surfaced then q.result.setError slot .crc else q.result
    let done := InFlight.record { q with result := result.setResponse slot { old with w0 := r } }
    exec .irq s = .next { s with
      regs := { s.regs with im := off, ctl := if surfaced then released else s.regs.ctl }
      h := { s.h with cmd := none, data := false, phase := .idle }
      q := none
      trace := s.trace ++ [.regR (.drawn .st0) v] ++ (if surfaced then
          [.regR (.stored .ctl) s.regs.ctl, .regW .ctl asserted, .delay s.cfg.tReset, .regW .ctl released]
        else []) ++ [.regR (.drawn .rsp3) r, .regW .im off, .completion done]
      env := envAfterWord .rsp3 e1
      irq := IrqLocal.clear
      ret := .interrupt true }

/-- Row ST_DATDNE, R195 (the row presents a status word, entry 18): with no data phase nothing; with no
residual to drain the flag and the whole total counted; with a residual PIO read one call that drains it
first. -/
def Obligations.StatusDataDone : Prop :=
  ∀ (s : State) (w : Word), s.cfg.layout.ok = true → s.fault = none →
    let word := withEvent s.cfg.layout w s.cfg.layout.datdne
    let p : State := { s with irq := { s.irq with s := word, q := word }, ret := .done }
    (s.h.data = false → exec (.stDatdne w) s = .next p) ∧
    ∀ (q : InFlight) (d : DataPhase), s.h.data = true → s.q = some q → q.req.data = some d →
      let q' := { q with result := { q.result with bytesXfered := q.result.bytesXfered + dataTotal d } }
      let residual := s.h.doDma = false ∧ s.h.dataDir = some .read ∧ 0 < s.h.bytesLeft ∧
        s.h.bytesLeft < s.threshold
      (¬ residual → exec (.stDatdne w) s = .next { p with
        q := some q', irq := { p.irq with endXfer := true } }) ∧
      (residual → ∀ u, exec (.pioXfer s.h.bytesLeft) p = .next u → u.fault = none →
        exec (.stDatdne w) s = .next { u with q := some q', irq := { u.irq with endXfer := true } })

/-- Rows ST_TOUTRD, ST_CRCWR, ST_CRCRD, R196 and R197: with no data phase nothing; else the data error,
the end of the data phase and the reset asked for. The byte in DRSP is read exactly when the write bit is
set, and the sentinel makes the error a timeout. -/
def Obligations.StatusDataErrors : Prop :=
  ∀ (s : State) (w : Word), s.cfg.layout.ok = true → s.fault = none →
    let l := s.cfg.layout
    let seen (p : Nat) : State := { s with
      irq := { s.irq with s := withEvent l w p, q := withEvent l w p }, ret := .done }
    (s.h.data = false → exec (.stToutrd w) s = .next (seen l.toutrd) ∧
      exec (.stCrcwr w) s = .next (seen l.crcwr) ∧ exec (.stCrcrd w) s = .next (seen l.crcrd)) ∧
    ∀ q : InFlight, s.h.data = true → s.q = some q →
      let ended (p : Nat) (k : ErrorKind) : State := { seen p with
        q := some { q with result := { q.result with dataError := k } }
        irq := { (seen p).irq with endXfer := true, needReset := true } }
      let b := drawnWord .drsp s
      let kind : ErrorKind := if b.setWidth 8 = s.cfg.drspSentinel then .timeout else .crc
      let wrote (p : Nat) : State := { ended p kind with
        trace := s.trace ++ [.regR (.drawn .drsp) b], env := envAfterWord .drsp s.env }
      exec (.stToutrd w) s = .next (ended l.toutrd .timeout) ∧
      exec (.stCrcwr w) s = .next (wrote l.crcwr) ∧
      (eventAt l w l.crcwr = false → exec (.stCrcrd w) s = .next (ended l.crcrd .crc)) ∧
      (eventAt l w l.crcwr = true → exec (.stCrcrd w) s = .next (wrote l.crcrd))

/-- Rows ST_TOUTRS, ST_CRCRS, ST_RSPDNE, R198 to R200: with no command in flight nothing; a command timeout
ends the data phase where one is attached and the command otherwise; a CRC error counts at or below
HS_CRC_HZ only; command-done ends the command and sets no error. -/
def Obligations.StatusCommandEvents : Prop :=
  ∀ (s : State) (w : Word), s.cfg.layout.ok = true → s.fault = none →
    let l := s.cfg.layout
    let seen (p : Nat) : State := { s with
      irq := { s.irq with s := withEvent l w p, q := withEvent l w p }, ret := .done }
    (s.h.cmd = none → exec (.stToutrs w) s = .next (seen l.toutrs) ∧
      exec (.stCrcrs w) s = .next (seen l.crcrs) ∧ exec (.stRspdne w) s = .next (seen l.rspdne)) ∧
    ∀ (q : InFlight) (slot : Slot), s.h.cmd = some slot → s.q = some q →
      let failed (k : ErrorKind) := some { q with result := match slot with
        | .main => { q.result with cmdError := k }
        | .stop => { q.result with stopError := k } }
      (s.h.data = true → exec (.stToutrs w) s = .next { seen l.toutrs with
        q := failed .timeout, irq := { (seen l.toutrs).irq with endXfer := true, needReset := true } }) ∧
      (s.h.data = false → exec (.stToutrs w) s = .next { seen l.toutrs with
        q := failed .timeout, irq := { (seen l.toutrs).irq with endCmd := true, needReset := true } }) ∧
      (s.h.busClockHz ≤ s.cfg.hsCrcHz → exec (.stCrcrs w) s = .next { seen l.crcrs with
        q := failed .crc, irq := { (seen l.crcrs).irq with endCmd := true, needReset := true } }) ∧
      (s.cfg.hsCrcHz < s.h.busClockHz → exec (.stCrcrs w) s = .next (seen l.crcrs)) ∧
      exec (.stRspdne w) s = .next { seen l.rspdne with irq := { (seen l.rspdne).irq with endCmd := true } }

/-- Rows ST_DXRDY, ST_DRRDY, R192: with no PIO bytes left nothing; else one threshold at most is moved in
the direction of the data phase, whichever bit it is, and ST0 is read again; where the new word shows no
FIFO-ready bit or no byte is left the loop is over. Where it shows one and bytes are left the row goes on
as the row of the new word does from there, and so turn by turn, its combined status being that of all
words seen (of their events where a bit is active low, entry 5). The last clause is the last chunk of a transfer: it moves all that is left, and the row
completes. -/
def Obligations.StatusFifoReady : Prop :=
  ∀ (s : State) (w : Word) (i : Instr) (pos : Nat), s.cfg.layout.ok = true → s.fault = none →
    (i = .stDxrdy w ∧ pos = s.cfg.layout.dxrdy ∨ i = .stDrrdy w ∧ pos = s.cfg.layout.drrdy) →
    let l := s.cfg.layout
    let word := withEvent l w pos
    let p : State := { s with irq := { s.irq with s := word, q := word }, ret := .done }
    (s.h.bytesLeft = 0 ∨ s.h.data = false ∨ s.h.doDma = true → exec i s = .next p) ∧
    (0 < s.h.bytesLeft → s.h.data = true → s.h.doDma = false →
      ∀ u, exec (.pioXfer s.threshold) p = .next u → u.fault = none →
        let v := drawnWord .st0 u
        (u.h.bytesLeft = 0 ∨
          eventAt l v l.dxrdy = false ∧ eventAt l v l.drrdy = false) →
        exec i s = .next { u with
          trace := u.trace ++ [.regR (.drawn .st0) v]
          env := envAfterWord .st0 u.env
          irq := { u.irq with s := v, q := bothEvents l word v } }) ∧
    (0 < s.h.bytesLeft → s.h.data = true → s.h.doDma = false →
      ∀ u, exec (.pioXfer s.threshold) p = .next u → u.fault = none → 0 < u.h.bytesLeft →
        let v := drawnWord .st0 u
        ∀ j t, (eventAt l v l.dxrdy = true ∧ j = .stDxrdy v ∨ eventAt l v l.drrdy = true ∧ j = .stDrrdy v) →
          exec j { u with
            trace := u.trace ++ [.regR (.drawn .st0) v]
            env := envAfterWord .st0 u.env } = .next t →
          exec i s = .next { t with irq := { t.irq with q := bothEvents l word t.irq.q } }) ∧
    (∀ (q : InFlight) (d : DataPhase) (dir : Dir), s.h.data = true → s.h.doDma = false →
      s.q = some q → q.req.data = some d → s.h.dataDir = some dir → 0 < s.h.segLeft →
      s.h.segLeft = s.h.bytesLeft → s.h.bytesLeft ≤ s.threshold → s.h.bufPtr + s.h.segLeft ≤ 2 ^ 32 →
      ∃ u, exec (.pioXfer s.threshold) p = .next u ∧ u.fault = none ∧ u.h.bytesLeft = 0 ∧
        exec i s = .next { u with
          trace := u.trace ++ [.regR (.drawn .st0) (drawnWord .st0 u)]
          env := envAfterWord .st0 u.env
          irq := { u.irq with s := drawnWord .st0 u, q := bothEvents l word (drawnWord .st0 u) } })

/-- R206: DMA_ERR marks a DMA transfer in flight failed, and does nothing else; with none in flight it has
no effect. -/
def Obligations.DmaErrMarksTransfer : Prop :=
  ∀ s : State, s.fault = none →
    (s.h.data = false ∨ s.h.doDma = false → ∃ r, exec .dmaErr s = .next { s with ret := r }) ∧
    ∀ q, s.h.data = true → s.h.doDma = true → s.q = some q →
      ∃ r, exec .dmaErr s = .next { s with
        q := some { q with result := { q.result with dataError := .dma } }, ret := r }

/-- R202: the soft-reset pulse asserts both reset bits, waits, and leaves both 0 with every other bit of
CTL as it was. -/
def Obligations.SoftResetPulse : Prop :=
  decodeTableWord 5 0x18 = some .softReset ∧
  ∀ s : State, s.fault = none →
    let both := bit s.cfg.layout.cmdrst ||| bit s.cfg.layout.datrst
    let low := s.cfg.layout.low.ctl
    let v := s.regs.ctl ^^^ low
    ∃ r, exec .softReset s = .next { s with
      regs := { s.regs with ctl := (v &&& ~~~both) ^^^ low }
      trace := s.trace ++ [.regR (.stored .ctl) s.regs.ctl, .regW .ctl ((v ||| both) ^^^ low), .delay s.cfg.tReset,
        .regW .ctl ((v &&& ~~~both) ^^^ low)]
      ret := r }

/-! ### Completion -/

/-- R221: the response latch, class by class: four draws for a long response, one for a short one, none
for a command with no response. -/
def Obligations.ResponseLatch : Prop :=
  ∀ (c : Command) (dst : Response) (s : State),
    (c.resp = .none → latch c dst s = (dst, s)) ∧
    (c.resp = .shortCrc ∨ c.resp = .shortNoCrc →
      let r := drawnWord .rsp3 s
      latch c dst s = ({ dst with w0 := r }, { s with
        trace := s.trace ++ [.regR (.drawn .rsp3) r], env := envAfterWord .rsp3 s.env })) ∧
    (c.resp = .longCrc →
      let r0 := drawnWord .rsp0 s
      let e0 := envAfterWord .rsp0 s.env
      let r1 := drawnWord .rsp1 { s with env := e0 }
      let e1 := envAfterWord .rsp1 e0
      let r2 := drawnWord .rsp2 { s with env := e1 }
      let e2 := envAfterWord .rsp2 e1
      let r3 := drawnWord .rsp3 { s with env := e2 }
      latch c dst s = (⟨r3, r2, r1, r0⟩, { s with
        trace := s.trace ++ [.regR (.drawn .rsp0) r0, .regR (.drawn .rsp1) r1, .regR (.drawn .rsp2) r2,
          .regR (.drawn .rsp3) r3]
        env := envAfterWord .rsp3 e2 }))

/-- R220, R222: CMD_END latches the response, then goes on to the data phase where one is attached and the
command has no error, and otherwise tears it down and completes. The model's choice: the 0 written to IM is
a 0 in its fields (entry 5), and the flag `completed` is stored (entry 18). -/
def Obligations.CmdEndOutcomes : Prop :=
  ∀ (s : State) (q : InFlight) (slot : Slot) (c : Command),
    s.fault = none → s.q = some q → s.h.cmd = some slot →
    (slot = .main ∧ c = q.req.cmd ∨ slot = .stop ∧ q.req.stop = some c) →
    let r := latch c (match slot with | .main => q.result.cmdResp | .stop => q.result.stopResp) s
    let err := match slot with | .main => q.result.cmdError | .stop => q.result.stopError
    let q' := { q with result := match slot with
      | .main => { q.result with cmdResp := r.1 }
      | .stop => { q.result with stopResp := r.1 } }
    let off : Word := 0 ^^^ s.cfg.layout.low.im
    let done (h : HostState) (es : List Event) : State := { s with
      h := h, q := none, regs := { s.regs with im := off }
      trace := r.2.trace ++ es ++ [.regW .im off, .completion q'.record]
      env := r.2.env, irq := { s.irq with completed := true }, ret := .done }
    (s.h.data = false → exec .cmdEnd s = .next (done { s.h with cmd := none, phase := .idle } [])) ∧
    (s.h.data = true → err = .none → exec .cmdEnd s = .next { s with
      h := { s.h with cmd := none, phase := .dataInFlight }, q := some q'
      trace := r.2.trace, env := r.2.env, ret := .done }) ∧
    (s.h.data = true → err ≠ .none →
      let h := { s.h with cmd := none, phase := .idle, data := false, doDma := false, dataDir := none, msg := [] }
      (s.h.doDma = false → exec .cmdEnd s = .next (done h [])) ∧
      ∀ d dir, s.h.doDma = true → q.req.data = some d → s.h.dataDir = some dir →
        exec .cmdEnd s = .next (done h [.dmaStop (s.dma.chan dir), .dmaClean (s.dma.chan dir),
          .dmaUnmap d.sg dir]))

/-- R223: DATA_TEARDOWN releases the DMA resources where DMA is in use and clears the data phase. -/
def Obligations.DataTeardownReleases : Prop :=
  decodeTableWord 5 0x1A = some .dataTeardown ∧
  ∀ s : State, s.fault = none →
    let h := { s.h with data := false, doDma := false, dataDir := none, msg := [] }
    (s.h.doDma = false → ∃ r, exec .dataTeardown s = .next { s with h := h, ret := r }) ∧
    ∀ q d dir, s.h.doDma = true → s.q = some q → q.req.data = some d → s.h.dataDir = some dir →
      ∃ r, exec .dataTeardown s = .next { s with
        h := h
        trace := s.trace ++ [.dmaStop (s.dma.chan dir), .dmaClean (s.dma.chan dir), .dmaUnmap d.sg dir]
        ret := r }

/-- R224: XFER_END tears the data phase down; then it completes the request where it carries no stop
command or its main command has an error, and starts the stop command otherwise, whatever the data error.
The model's choice: the words written to IM are words of its fields (entry 5), and the flag `completed` is
stored (entry 18). -/
def Obligations.XferEndDecidesStop : Prop :=
  ∀ (s : State) (q : InFlight) (dma : List Event), s.fault = none → s.q = some q →
    (s.h.doDma = false ∧ dma = [] ∨ s.h.doDma = true ∧ ∃ d dir, q.req.data = some d ∧
      s.h.dataDir = some dir ∧
      dma = [.dmaStop (s.dma.chan dir), .dmaClean (s.dma.chan dir), .dmaUnmap d.sg dir]) →
    let h := { s.h with data := false, doDma := false, dataDir := none, msg := [] }
    let l := s.cfg.layout
    let off : Word := 0 ^^^ l.low.im
    (q.req.stop = none ∨ q.result.cmdError ≠ .none → exec .xferEnd s = .next { s with
      h := { h with cmd := none, phase := .idle }
      q := none
      regs := { s.regs with im := off }
      trace := s.trace ++ dma ++ [.regW .im off, .completion q.record]
      irq := { s.irq with completed := true }
      ret := .done }) ∧
    ∀ c, q.req.stop = some c → q.result.cmdError = .none →
      let w := cmdWord l {
        indx := BitVec.ofNat 6 c.index, pplen := s.h.busMode == .pushPull,
        bsyexp := c.busy, rspfmt := c.resp, dtrw := false, strmtp := false, wdatx := false,
        dmatrig := false }
      let im := (bit l.rspdne ||| bit l.toutrs ||| bit l.crcrs) ^^^ l.low.im
      exec .xferEnd s = .next { s with
        h := { h with cmd := some .stop, phase := .stopIssued }
        regs := { s.regs with tor := 0xFFFF, arg := c.arg, cmd := w, im := im }
        trace := s.trace ++ dma ++ [.regW .tor 0xFFFF, .regW .arg c.arg, .regW .cmd w, .regW .im im]
        ret := .done }

/-- R226: COMPLETE clears the engine's state, then the mask, and the Completion is the last event. The
model's choice: the 0 written to IM is a 0 in its fields, so the word is `0 ^^^ low.im` (entry 5), and the
flag `completed` is stored in the state (entry 18). -/
def Obligations.CompleteDelivers : Prop :=
  decodeTableWord 5 0x1C = some .complete ∧
  ∀ (s : State) (q : InFlight), s.fault = none → s.q = some q →
    let off : Word := 0 ^^^ s.cfg.layout.low.im
    ∃ r, exec .complete s = .next { s with
      h := { s.h with cmd := none, data := false, phase := .idle }
      q := none
      regs := { s.regs with im := off }
      irq := { s.irq with completed := true }
      trace := s.trace ++ [.regW .im off, .completion {
        id := q.req.id, cmdResp := q.result.cmdResp,
        cmdError := q.result.cmdError, stopResp := q.result.stopResp, stopError := q.result.stopError,
        dataError := q.result.dataError, bytesXfered := q.result.bytesXfered }]
      ret := r }

/-! ### The host boundary -/

/-- R255: ATTACH with the drawn rate and, where USE_DMA, the two channel answers: every field of `H`, `Q`
and the DMA program, and every event; no register is written (R256). The templates are those of R56; that
the fields a transfer substitutes hold 0 and NONE in them is the model's choice (entry 22), and that
`D.desc` is emptied is R62's (entry 21). -/
def Obligations.AttachInitialises : Prop :=
  ∀ s : State, s.fault = none → s.h.attached = false →
    let rate := drawRate s
    let a := drawChannel rate.2
    let b := drawChannel a.2
    let c := s.cfg
    let t := c.threshold.bytes
    let tr : Desc := ⟨c.regBase + c.layout.off.drr, .fixed, 0, .incr, 4, t / 4, 0, none⟩
    let tw : Desc := ⟨0, .incr, c.regBase + c.layout.off.dxr, .fixed, 4, t / 4, 0, none⟩
    let h (ok : Bool) : HostState := {
      attached := true, phase := .idle, cmd := none, data := false,
      dataDir := none, doDma := false, sgIdx := 0, bufPtr := 0, segLeft := 0, bytesLeft := 0,
      busMode := .openDrain, busWidth := .w1, busClockHz := 0, powerMode := .off, refClockHz := rate.1,
      dmaOk := ok, msg := [] }
    rate.1 ≠ 0 →
    (c.useDma = false → exec .attach s = .next { s with
      h := h false, q := none, dma := ⟨tr, tw, none, none, []⟩
      trace := s.trace ++ [.clkEnable, .clkRate rate.1]
      env := rate.2.env, ret := .done }) ∧
    (c.useDma = true → exec .attach s = .next { s with
      h := h (a.1.isSome && b.1.isSome), q := none
      dma := if a.1.isSome ∧ b.1.isSome then ⟨tr, tw, a.1, b.1, []⟩ else ⟨tr, tw, none, none, []⟩
      trace := s.trace ++ [.clkEnable, .clkRate rate.1, .dmaRequest .read a.1, .dmaRequest .write b.1]
        ++ (if a.1.isSome ∧ b.1 = none then [.dmaFree .read] else [])
        ++ (if b.1.isSome ∧ a.1 = none then [.dmaFree .write] else [])
      env := b.2.env, ret := .done })

/-- R258: DETACH gives the channels back where they are held, disables the clock and detaches; it touches
no register. -/
def Obligations.DetachReleases : Prop :=
  ∀ s : State, s.fault = none → s.h.attached = true → s.h.phase = .idle →
    (s.h.dmaOk = true → exec .detach s = .next { s with
      h := { s.h with attached := false, dmaOk := false }
      dma := { s.dma with chanRead := none, chanWrite := none }
      trace := s.trace ++ [.dmaFree .read, .dmaFree .write, .clkDisable]
      ret := .done }) ∧
    (s.h.dmaOk = false → exec .detach s = .next { s with
      h := { s.h with attached := false }, trace := s.trace ++ [.clkDisable], ret := .done })

/-- R260, R261: the two queries forward the board collaborator's answer, in every phase, and change
nothing. -/
def Obligations.BoardQueriesForward : Prop :=
  ∀ s : State, s.fault = none → s.h.attached = true →
    exec .getCd s = .next { s with
      trace := s.trace ++ [.boardCd (drawCd s).1], env := (drawCd s).2.env, ret := .answer (drawCd s).1 } ∧
    exec .getRo s = .next { s with
      trace := s.trace ++ [.boardRo (drawRo s).1], env := (drawRo s).2.env, ret := .answer (drawRo s).1 }

/-! ### Register words -/

/-- The six register-word rows each write their word whole to their register and touch nothing else (R12,
R26, R72; that a row is such a write is the model's, entry 19). -/
def Obligations.RegisterWordRows : Prop :=
  ∀ s : State, s.fault = none →
    let l := s.cfg.layout
    (∀ f : CmdFields, exec (.cmdWord f) s = .next { s with
      regs := { s.regs with cmd := cmdWord l f }
      trace := s.trace ++ [.regW .cmd (cmdWord l f)], ret := .done }) ∧
    exec .initckWord s = .next { s with
      regs := { s.regs with cmd := bit l.initck ^^^ l.low.cmd }
      trace := s.trace ++ [.regW .cmd (bit l.initck ^^^ l.low.cmd)], ret := .done } ∧
    (∀ f : StatusBits, exec (.imWord f) s = .next { s with
      regs := { s.regs with im := maskWord l f }
      trace := s.trace ++ [.regW .im (maskWord l f)], ret := .done }) ∧
    (∀ f : FifoFields, exec (.fifoctlWord f) s = .next { s with
      regs := { s.regs with fifoctl := fifoWord l f }
      trace := s.trace ++ [.regW .fifoctl (fifoWord l f)], ret := .done }) ∧
    (∀ w : Word, exec (.ctlWord w) s = .next { s with
      regs := { s.regs with ctl := w }
      trace := s.trace ++ [.regW .ctl w], ret := .done }) ∧
    (∀ w : Word, exec (.clkWord w) s = .next { s with
      regs := { s.regs with clk := w }
      trace := s.trace ++ [.regW .clk w], ret := .done })
end

