-- ==== Sys2Proof/Laws/Decode.lean ====
section
/-! SUPPORT. Reading back what the encoder wrote: the field readers one by one. -/

namespace Sys2Proof

/-- A reader reads a field back and leaves the rest. -/
theorem getLE_putLE {k : Nat} : ∀ {n : Nat} (rest : List Byte), n < 256 ^ k →
    getLE k (putLE k n ++ rest) = .ok (n, rest) := by
  induction k with
  | zero =>
    intro n rest h
    have : n = 0 := by simpa using h
    subst this
    rfl
  | succ k ih =>
    intro n rest h
    have h1 : n / 256 < 256 ^ k := by
      rw [pow_succ] at h
      exact Nat.div_lt_of_lt_mul (by omega)
    simp only [putLE, List.cons_append, getLE, ih rest h1, BitVec.toNat_ofNat]
    congr 2
    omega

theorem getNat_putNat {n : Nat} (h : fitsNat n = true) (rest : List Byte) :
    getNat (putNat n ++ rest) = .ok (n, rest) := by
  refine getLE_putLE rest ?_
  have := of_decide_eq_true h
  norm_num at this ⊢
  exact this

theorem getWord_putWord (w : Word) (rest : List Byte) :
    getWord (putWord w ++ rest) = .ok (w, rest) := by
  have h : w.toNat < 256 ^ 4 := by have := w.isLt; norm_num at this ⊢; exact this
  simp [getWord, Reader.bind, putWord, getLE_putLE rest h, Reader.pure]

theorem getCode_putLE {α : Type} {f : Nat → Option α} {n : Nat} {a : α} (h : n < 256) (hf : f n = some a)
    (rest : List Byte) : getCode f (putLE 1 n ++ rest) = .ok (a, rest) := by
  simp [getCode, Reader.bind, getLE_putLE (k := 1) rest (by simpa using h), hf, Reader.pure]

theorem getBool_putBool (b : Bool) (rest : List Byte) : getBool (putBool b ++ rest) = .ok (b, rest) := by
  cases b
  · exact getCode_putLE (f := boolOfCode) (n := 0) (by decide) rfl rest
  · exact getCode_putLE (f := boolOfCode) (n := 1) (by decide) rfl rest

/-- A bound reader reads the first field, then goes on with the rest. -/
theorem Reader.bind_ok {α β : Type} {p : Reader α} {f : α → Reader β} {bs rest : List Byte} {a : α}
    (h : p bs = .ok (a, rest)) : (p.bind f) bs = f a rest := by simp [Reader.bind, h]

theorem getOption_putOption {α : Type} {p : Reader α} {f : α → List Byte} {o : Option α}
    (h : ∀ a, o = some a → ∀ rest, p (f a ++ rest) = .ok (a, rest)) (rest : List Byte) :
    getOption p (putOption f o ++ rest) = .ok (o, rest) := by
  cases o with
  | none => simp [getOption, putOption, Reader.bind_ok (getBool_putBool false rest), Reader.pure]
  | some a =>
    simp only [getOption, putOption, List.append_assoc]
    rw [Reader.bind_ok (getBool_putBool true _)]
    simp [Reader.bind_ok (h a rfl rest), Reader.pure]

theorem getMany_putMany {α : Type} {p : Reader α} {f : α → List Byte} {as : List α}
    (h : ∀ a ∈ as, ∀ rest, p (f a ++ rest) = .ok (a, rest)) (rest : List Byte) :
    getMany p as.length (putMany f as ++ rest) = .ok (as, rest) := by
  induction as with
  | nil => rfl
  | cons a as ih =>
    simp only [List.length_cons, getMany, putMany, List.append_assoc]
    rw [Reader.bind_ok (h a (by simp) _), Reader.bind_ok (ih fun b hb => h b (by simp [hb]))]
    rfl

end Sys2Proof
end

