-- ==== Sys2Proof/Laws/Flags.lean ====
section
/-! SUPPORT. Laws of the polarity of named fields (spec/93 U4): a register's word and the word of its
fields determine each other, and what an update of the fields shows. -/

namespace Sys2Proof.Machine

/-- The word of the fields of the word of the fields is the word. -/
@[simp] theorem active_active (low w : Word) : active low (active low w) = w := by
  simp [active]

/-- With no bit active low the two words are the same. -/
@[simp] theorem active_none (w : Word) : active 0 w = w := by simp [active]

/-- A bit of the word of the fields. -/
@[simp] theorem active_getLsbD (low w : Word) (p : Nat) :
    (active low w).getLsbD p = (w.getLsbD p ^^ low.getLsbD p) := by simp [active]

/-- The fields of an updated word are the update of its fields. -/
@[simp] theorem active_updateActive (low : Word) (f : Word → Word) (w : Word) :
    active low (updateActive low f w) = f (active low w) := by simp [updateActive]

/-- An event that was seen is there. -/
theorem eventAt_withEvent_self (l : Layout) (w : Word) {p : Nat} (hp : p < 32) :
    eventAt l (withEvent l w p) p = true := by
  simp only [eventAt, withEvent, active_updateActive]
  simp [bit, hp]

/-- Seeing an event at one position shows nothing at another. -/
theorem eventAt_withEvent_ne (l : Layout) (w : Word) {p p' : Nat} (h : p' ≠ p) :
    eventAt l (withEvent l w p) p' = eventAt l w p' := by
  simp only [eventAt, withEvent, active_updateActive, BitVec.getLsbD_or]
  simp [bit]
  intro _ _
  omega

/-- A word that already shows an event is not changed by seeing it again. -/
theorem withEvent_of_eventAt (l : Layout) {w : Word} {p : Nat} (h : eventAt l w p = true) :
    withEvent l w p = w := by
  have h' : active l.low.st0 w ||| bit p = active l.low.st0 w := by
    ext i hi
    by_cases hip : i = p
    · subst hip
      simp only [eventAt] at h
      simp [← BitVec.getLsbD_eq_getElem, h]
    · have : (bit p).getLsbD i = false := by simp [bit]; omega
      simp [← BitVec.getLsbD_eq_getElem, this]
  simp [withEvent, updateActive, h']

/-- The events of both words are those either shows. -/
@[simp] theorem eventAt_bothEvents (l : Layout) (q s : Word) (p : Nat) :
    eventAt l (bothEvents l q s) p = (eventAt l q p || eventAt l s p) := by
  simp only [eventAt, bothEvents, active_updateActive, BitVec.getLsbD_or]

/-- Gathering events does not depend on how they are grouped. -/
theorem bothEvents_assoc (l : Layout) (a b c : Word) :
    bothEvents l (bothEvents l a b) c = bothEvents l a (bothEvents l b c) := by
  simp only [bothEvents, updateActive, active_active, BitVec.or_assoc]

end Sys2Proof.Machine
end

