-- ==== Sys2Proof/Laws/Memory.lean ====
section
/-! SUPPORT. Laws of host memory: read after write, and that every write keeps the canonical form. -/

namespace Sys2Proof.Machine

/-- What a canonical memory from `lo` on says of its entries. -/
theorem Memory.wfFrom_cons (lo a : Nat) (b : Byte) (m : Memory) :
    Memory.wfFrom lo ((a, b) :: m) = true ↔
      lo ≤ a ∧ a < 2 ^ ADDR_WIDTH ∧ b ≠ unlistedByte ∧ Memory.wfFrom (a + 1) m = true := by
  simp [Memory.wfFrom, and_assoc]

/-- A canonical memory from `lo` on is one from any lower address on. -/
theorem Memory.wfFrom_mono {lo lo' : Nat} {m : Memory} (h : lo' ≤ lo) (hm : Memory.wfFrom lo m = true) :
    Memory.wfFrom lo' m = true := by
  cases m with
  | nil => rfl
  | cons e m =>
    rw [Memory.wfFrom_cons] at hm ⊢
    exact ⟨h.trans hm.1, hm.2⟩

/-- Below its first address a canonical memory lists nothing. -/
theorem Memory.get_below {m : Memory} : ∀ {lo a : Nat}, Memory.wfFrom lo m = true → a < lo →
    Memory.get m a = unlistedByte := by
  induction m with
  | nil => intros; rfl
  | cons e m ih =>
    intro lo a h ha
    rw [Memory.wfFrom_cons] at h
    have hne : a ≠ e.1 := by omega
    simp only [Memory.get, hne, if_false]
    exact ih h.2.2.2 (by omega)

/-- A write leaves every other byte alone. -/
@[simp] theorem Memory.get_set_ne {m : Memory} {a c : Nat} {b : Byte} (h : c ≠ a) :
    Memory.get (Memory.set m a b) c = Memory.get m c := by
  induction m with
  | nil => by_cases hb : b = unlistedByte <;> simp [Memory.set, Memory.get, hb, h]
  | cons e m ih =>
    by_cases h1 : a < e.1
    · by_cases hb : b = unlistedByte <;> simp [Memory.set, Memory.get, h1, hb, h]
    · by_cases h2 : a = e.1
      · subst h2
        by_cases hb : b = unlistedByte <;> simp [Memory.set, Memory.get, hb, h]
      · simp [Memory.set, Memory.get, h1, h2, ih]

/-- A read after a write to the same byte gives the value written. -/
theorem Memory.get_set_same {m : Memory} : ∀ {lo : Nat} {a : Nat} {b : Byte},
    Memory.wfFrom lo m = true → Memory.get (Memory.set m a b) a = b := by
  induction m with
  | nil => intro lo a b _; by_cases hb : b = unlistedByte <;> simp [Memory.set, Memory.get, hb]
  | cons e m ih =>
    intro lo a b h
    have hc := (Memory.wfFrom_cons lo e.1 e.2 m).mp h
    by_cases h1 : a < e.1
    · by_cases hb : b = unlistedByte
      · have hne : a ≠ e.1 := by omega
        simp [Memory.set, Memory.get, h1, hb, hne, Memory.get_below hc.2.2.2 (by omega : a < e.1 + 1)]
      · simp [Memory.set, Memory.get, h1, hb]
    · by_cases h2 : a = e.1
      · subst h2
        by_cases hb : b = unlistedByte
        · simp [Memory.set, hb, Memory.get_below hc.2.2.2 (Nat.lt_succ_self e.1)]
        · simp [Memory.set, Memory.get, hb]
      · simp [Memory.set, Memory.get, h1, h2, ih hc.2.2.2]

/-- A write inside the address space keeps the canonical form. -/
theorem Memory.set_wfFrom {m : Memory} : ∀ {lo a : Nat} {b : Byte},
    Memory.wfFrom lo m = true → lo ≤ a → a < 2 ^ ADDR_WIDTH → Memory.wfFrom lo (Memory.set m a b) = true := by
  induction m with
  | nil =>
    intro lo a b _ h1 h2
    by_cases hb : b = unlistedByte
    · simp [Memory.set, hb, Memory.wfFrom]
    · simp only [Memory.set, hb, if_false, Memory.wfFrom_cons]
      exact ⟨h1, h2, hb, rfl⟩
  | cons e m ih =>
    intro lo a b h h1 h2
    have hc := (Memory.wfFrom_cons lo e.1 e.2 m).mp h
    by_cases h3 : a < e.1
    · by_cases hb : b = unlistedByte
      · simpa [Memory.set, h3, hb] using h
      · simp only [Memory.set, h3, if_true, hb, if_false, Memory.wfFrom_cons]
        exact ⟨h1, h2, hb, by omega, hc.2.1, hc.2.2⟩
    · by_cases h4 : a = e.1
      · subst h4
        by_cases hb : b = unlistedByte
        · simpa [Memory.set, hb] using Memory.wfFrom_mono (by omega : lo ≤ e.1 + 1) hc.2.2.2
        · simp only [Memory.set, lt_irrefl, if_true, if_false, hb, Memory.wfFrom_cons]
          exact ⟨h1, h2, hb, hc.2.2.2⟩
      · simp only [Memory.set, h3, h4, if_false, Memory.wfFrom_cons]
        exact ⟨hc.1, hc.2.1, hc.2.2.1, ih hc.2.2.2 (by omega) h2⟩

/-- `Memory.set` keeps the canonical form. -/
theorem Memory.set_wf {m : Memory} {a : Nat} {b : Byte} (h : m.wf = true) (ha : a < 2 ^ ADDR_WIDTH) :
    (Memory.set m a b).wf = true := Memory.set_wfFrom h (Nat.zero_le a) ha

/-- A store of `k` bytes inside the address space keeps the canonical form. -/
theorem Memory.writeLE_wf {k : Nat} : ∀ {m : Memory} {a : Nat} {v : Word},
    m.wf = true → a + k ≤ 2 ^ ADDR_WIDTH → (Memory.writeLE m a k v).wf = true := by
  induction k with
  | zero => intro m a v h _; exact h
  | succ k ih => intro m a v h ha; exact ih (Memory.set_wf h (by omega)) (by omega)

/-- A store of `k` bytes at `a` leaves every byte outside them alone. -/
theorem Memory.writeLE_get_outside {k : Nat} : ∀ {m : Memory} {a c : Nat} {v : Word},
    (c < a ∨ a + k ≤ c) → Memory.get (Memory.writeLE m a k v) c = Memory.get m c := by
  induction k with
  | zero => intros; rfl
  | succ k ih =>
    intro m a c v h
    rw [Memory.writeLE, ih (by omega), Memory.get_set_ne (by omega)]

/-- A load of `k` bytes reads only those bytes. -/
theorem Memory.readLE_congr {k : Nat} : ∀ {m m' : Memory} {a : Nat},
    (∀ c, a ≤ c → c < a + k → Memory.get m c = Memory.get m' c) →
    Memory.readLE m a k = Memory.readLE m' a k := by
  induction k with
  | zero => intros; rfl
  | succ k ih =>
    intro m m' a h
    rw [Memory.readLE, Memory.readLE, h a (by omega) (by omega), ih fun c h1 h2 => h c (by omega) (by omega)]

/-- Two canonical memories that read the same are the same. -/
theorem Memory.ext_of_wfFrom {m : Memory} : ∀ {m' : Memory} {lo lo' : Nat},
    Memory.wfFrom lo m = true → Memory.wfFrom lo' m' = true →
    (∀ a, Memory.get m a = Memory.get m' a) → m = m' := by
  induction m with
  | nil =>
    intro m' lo lo' _ h' hg
    cases m' with
    | nil => rfl
    | cons e m' =>
      have hc := (Memory.wfFrom_cons lo' e.1 e.2 m').mp h'
      exact absurd (by simpa [Memory.get] using (hg e.1).symm) hc.2.2.1
  | cons e m ih =>
    intro m' lo lo' h h' hg
    have hc := (Memory.wfFrom_cons lo e.1 e.2 m).mp h
    cases m' with
    | nil => exact absurd (by simpa [Memory.get] using hg e.1) hc.2.2.1
    | cons e' m' =>
      have hc' := (Memory.wfFrom_cons lo' e'.1 e'.2 m').mp h'
      rcases lt_trichotomy e.1 e'.1 with hlt | heq | hgt
      · have := hg e.1
        simp only [Memory.get, if_true, hlt.ne, if_false] at this
        exact absurd (this.trans (Memory.get_below hc'.2.2.2 (by omega))) hc.2.2.1
      · have h2 : e.2 = e'.2 := by simpa [Memory.get, heq] using hg e.1
        have hrest : m = m' := by
          refine ih hc.2.2.2 hc'.2.2.2 fun a => ?_
          by_cases ha : a = e.1
          · rw [ha, Memory.get_below hc.2.2.2 (Nat.lt_succ_self _),
              Memory.get_below hc'.2.2.2 (by omega)]
          · have := hg a
            simpa [Memory.get, ha, heq ▸ ha] using this
        exact List.cons_eq_cons.mpr ⟨Prod.ext heq h2, hrest⟩
      · have := hg e'.1
        simp only [Memory.get, if_true, hgt.ne, if_false] at this
        exact absurd (this.symm.trans (Memory.get_below hc.2.2.2 (by omega))) hc'.2.2.1

/-- The memory of the machine right after reset is canonical. -/
theorem hardwareReset_mem_wf (cfg : Config) (image : Regs) :
    (State.hardwareReset cfg image).mem.wf = true := rfl

end Sys2Proof.Machine
end

