-- ==== Sys2Proof/Laws/Ops.lean ====
section
/-! SUPPORT. What the sequencing operations answer: `andThen`, the two opening tests, the use of the
request in flight; what a draw takes from its script. -/

namespace Sys2Proof.Machine

/-! ### Sequencing -/

@[simp] theorem andThen_fault (r : Fault) (f : State → Answer) : andThen (.fault r) f = .fault r := rfl

@[simp] theorem andThen_refused (r : Refusal) (f : State → Answer) :
    andThen (.refused r) f = .refused r := rfl

/-- After a step that raised no fault the operation goes on. -/
theorem andThen_next {s : State} (h : s.fault = none) (f : State → Answer) :
    andThen (.next s) f = f s := by simp [andThen, h]

/-- After a step that raised the fault the operation is abandoned. -/
theorem andThen_halted {s : State} {k : StickyFault} (h : s.fault = some k) (f : State → Answer) :
    andThen (.next s) f = .next s := by simp [andThen, h]

/-- Everything `andThen` can do: the first part raised the fault and the state stays there, or the second
part ran from where the first ended. -/
theorem andThen_eq_next {o : Answer} {f : State → Answer} {t : State} (h : andThen o f = .next t) :
    ∃ u, o = .next u ∧ ((u.fault ≠ none ∧ t = u) ∨ (u.fault = none ∧ f u = .next t)) := by
  cases o with
  | next u =>
    refine ⟨u, rfl, ?_⟩
    cases hu : u.fault with
    | none => exact .inr ⟨rfl, by simpa [andThen, hu] using h⟩
    | some k =>
      refine .inl ⟨by simp, ?_⟩
      simpa [andThen, hu] using h.symm
  | fault r => cases h
  | refused r => cases h

/-! ### The opening tests (R277) -/

/-- With the fault set the body does not run (R59). -/
theorem operation_faulted {s : State} {k : StickyFault} (h : s.fault = some k) (f : State → Answer) :
    operation s f = .next { s with ret := .refused .faulted } := by simp [operation, h, refuse]

/-- With no fault the body runs. -/
theorem operation_running {s : State} (h : s.fault = none) (f : State → Answer) :
    operation s f = f { s with ret := .done } := by simp [operation, h]

/-- Everything the first test can do. -/
theorem operation_eq_next {s t : State} {f : State → Answer} (h : operation s f = .next t) :
    (s.fault ≠ none ∧ t = { s with ret := .refused .faulted }) ∨
    (s.fault = none ∧ f { s with ret := .done } = .next t) := by
  by_cases hf : s.fault = none
  · rw [operation_running hf] at h
    exact .inr ⟨hf, h⟩
  · obtain ⟨k, hk⟩ := Option.ne_none_iff_exists'.mp hf
    rw [operation_faulted hk] at h
    cases h
    exact .inl ⟨hf, rfl⟩

@[simp] theorem whenAttached_true {s : State} (h : s.h.attached = true) (f : State → Answer) :
    whenAttached s f = f s := by simp [whenAttached, h]

@[simp] theorem whenAttached_false {s : State} (h : s.h.attached = false) (f : State → Answer) :
    whenAttached s f = .next { s with ret := .refused .notAttached } := by simp [whenAttached, h, refuse]

/-- Everything the second test can do. -/
theorem whenAttached_eq_next {s t : State} {f : State → Answer} (h : whenAttached s f = .next t) :
    (s.h.attached = false ∧ t = { s with ret := .refused .notAttached }) ∨
    (s.h.attached = true ∧ f s = .next t) := by
  cases ha : s.h.attached with
  | false =>
    rw [whenAttached_false ha] at h
    exact .inl ⟨rfl, by cases h; rfl⟩
  | true => exact .inr ⟨rfl, by rwa [whenAttached_true ha] at h⟩

/-! ### The request in flight -/

theorem withQ_some {s : State} {q : InFlight} (h : s.q = some q) (f : InFlight → Answer) :
    withQ s f = f q := by simp [withQ, h]

theorem withData_some {s : State} {q : InFlight} {d : DataPhase} (h : s.q = some q)
    (hd : q.req.data = some d) (f : InFlight → DataPhase → Answer) : withData s f = f q d := by
  simp [withData, withQ, h, hd]

theorem withDir_some {s : State} {dir : Dir} (h : s.h.dataDir = some dir) (f : Dir → Answer) :
    withDir s f = f dir := by simp [withDir, h]

/-- Everything the use of `Q` can do. -/
theorem withQ_eq_next {s t : State} {f : InFlight → Answer} (h : withQ s f = .next t) :
    ∃ q, s.q = some q ∧ f q = .next t := by
  cases hq : s.q with
  | none => simp [withQ, hq] at h
  | some q => exact ⟨q, rfl, by rwa [withQ_some hq] at h⟩

/-- Everything the use of `Q.data` can do. -/
theorem withData_eq_next {s t : State} {f : InFlight → DataPhase → Answer} (h : withData s f = .next t) :
    ∃ q d, s.q = some q ∧ q.req.data = some d ∧ f q d = .next t := by
  obtain ⟨q, hq, h⟩ := withQ_eq_next h
  cases hd : q.req.data with
  | none => simp [hd] at h
  | some d => exact ⟨q, d, hq, hd, by simpa [hd] using h⟩

/-- Everything the use of `H.data_dir` can do. -/
theorem withDir_eq_next {s t : State} {f : Dir → Answer} (h : withDir s f = .next t) :
    ∃ dir, s.h.dataDir = some dir ∧ f dir = .next t := by
  cases hd : s.h.dataDir with
  | none => simp [withDir, hd] at h
  | some dir => exact ⟨dir, rfl, by rwa [withDir_some hd] at h⟩

/-! ### Draws (R27) -/

@[simp] theorem drawFrom_cons {α : Type} (free : Nat → α) (v : α) (rest : List α) (n : Nat) :
    drawFrom free (v :: rest) n = (v, rest, n) := rfl

@[simp] theorem drawFrom_nil {α : Type} (free : Nat → α) (n : Nat) :
    drawFrom free [] n = (free n, [], n + 1) := rfl

/-- A script's head is what the next read of its register draws. -/
theorem drawnWord_cons {r : DrawnReg} {s : State} {w : Word} {ws : List Word}
    (h : s.env.words r = w :: ws) : drawnWord r s = w := by simp [drawnWord, h]

/-- The answer of DmaMap obeys the law of R88. -/
theorem drawMap_lawful {sg msg : List Seg} {s : State} (h : (drawMap sg s).1 = some msg) :
    msg ≠ [] ∧ totalLength msg = totalLength sg := by
  have key : ∀ r : Option (List Seg), lawfulOrFail sg r = some msg →
      msg ≠ [] ∧ totalLength msg = totalLength sg := by
    intro r hr
    cases r with
    | none => simp [lawfulOrFail] at hr
    | some l =>
      by_cases hl : lawfulMap sg l = true
      · simp only [lawfulOrFail, hl, if_true, Option.some.injEq] at hr
        subst hr
        simpa [lawfulMap] using hl
      · simp [lawfulOrFail, hl] at hr
  simp only [drawMap, MapAnswer.result] at h
  split at h
  · cases h
  · exact key _ h
  · exact key _ h

/-- The drawn rate is positive unless a script queued a zero (R255). -/
theorem drawRate_pos {s : State} (h : ∀ r ∈ s.env.clkRate, r ≠ 0) : (drawRate s).1 ≠ 0 := by
  cases hs : s.env.clkRate with
  | nil => simp [drawRate, hs]
  | cons r rest => simpa [drawRate, hs] using h r (by simp [hs])

/-! ### Registers (R26) -/

@[simp] theorem Regs.get_set_same (b : Regs) (r : StoredReg) (v : Word) : (b.set r v).get r = v := by
  cases r <;> rfl

/-- No write to one register changes the stored value of another (R26). -/
theorem Regs.get_set_ne (b : Regs) {r r' : StoredReg} (v : Word) (h : r' ≠ r) :
    (b.set r v).get r' = b.get r' := by
  cases r <;> cases r' <;> first | rfl | exact absurd rfl h

end Sys2Proof.Machine
end

