-- ==== Sys2Proof/Laws/State.lean ====
section
/-! SUPPORT. One lemma per field of State per update: what each named operation leaves of each field. -/

namespace Sys2Proof.Machine

/-! `returning`: only the answer changes. -/

@[simp] theorem returning_regs (r : Ret) (s : State) : (returning r s).regs = s.regs := rfl
@[simp] theorem returning_h (r : Ret) (s : State) : (returning r s).h = s.h := rfl
@[simp] theorem returning_q (r : Ret) (s : State) : (returning r s).q = s.q := rfl
@[simp] theorem returning_dma (r : Ret) (s : State) : (returning r s).dma = s.dma := rfl
@[simp] theorem returning_mem (r : Ret) (s : State) : (returning r s).mem = s.mem := rfl
@[simp] theorem returning_trace (r : Ret) (s : State) : (returning r s).trace = s.trace := rfl
@[simp] theorem returning_fault (r : Ret) (s : State) : (returning r s).fault = s.fault := rfl
@[simp] theorem returning_irq (r : Ret) (s : State) : (returning r s).irq = s.irq := rfl
@[simp] theorem returning_cfg (r : Ret) (s : State) : (returning r s).cfg = s.cfg := rfl
@[simp] theorem returning_env (r : Ret) (s : State) : (returning r s).env = s.env := rfl
@[simp] theorem returning_pending (r : Ret) (s : State) : (returning r s).pending = s.pending := rfl
@[simp] theorem returning_ret (r : Ret) (s : State) : (returning r s).ret = r := rfl

/-! `emit`: only the trace grows. -/

@[simp] theorem emit_regs (e : Event) (s : State) : (emit e s).regs = s.regs := rfl
@[simp] theorem emit_h (e : Event) (s : State) : (emit e s).h = s.h := rfl
@[simp] theorem emit_q (e : Event) (s : State) : (emit e s).q = s.q := rfl
@[simp] theorem emit_dma (e : Event) (s : State) : (emit e s).dma = s.dma := rfl
@[simp] theorem emit_mem (e : Event) (s : State) : (emit e s).mem = s.mem := rfl
@[simp] theorem emit_trace (e : Event) (s : State) : (emit e s).trace = s.trace ++ [e] := rfl
@[simp] theorem emit_fault (e : Event) (s : State) : (emit e s).fault = s.fault := rfl
@[simp] theorem emit_irq (e : Event) (s : State) : (emit e s).irq = s.irq := rfl
@[simp] theorem emit_cfg (e : Event) (s : State) : (emit e s).cfg = s.cfg := rfl
@[simp] theorem emit_env (e : Event) (s : State) : (emit e s).env = s.env := rfl
@[simp] theorem emit_pending (e : Event) (s : State) : (emit e s).pending = s.pending := rfl
@[simp] theorem emit_ret (e : Event) (s : State) : (emit e s).ret = s.ret := rfl

/-! `delay` is an event and nothing else (R320). -/

@[simp] theorem delay_regs (d : Nat) (s : State) : (delay d s).regs = s.regs := rfl
@[simp] theorem delay_h (d : Nat) (s : State) : (delay d s).h = s.h := rfl
@[simp] theorem delay_q (d : Nat) (s : State) : (delay d s).q = s.q := rfl
@[simp] theorem delay_dma (d : Nat) (s : State) : (delay d s).dma = s.dma := rfl
@[simp] theorem delay_mem (d : Nat) (s : State) : (delay d s).mem = s.mem := rfl
@[simp] theorem delay_trace (d : Nat) (s : State) : (delay d s).trace = s.trace ++ [.delay d] := rfl
@[simp] theorem delay_fault (d : Nat) (s : State) : (delay d s).fault = s.fault := rfl
@[simp] theorem delay_irq (d : Nat) (s : State) : (delay d s).irq = s.irq := rfl
@[simp] theorem delay_cfg (d : Nat) (s : State) : (delay d s).cfg = s.cfg := rfl
@[simp] theorem delay_env (d : Nat) (s : State) : (delay d s).env = s.env := rfl
@[simp] theorem delay_pending (d : Nat) (s : State) : (delay d s).pending = s.pending := rfl
@[simp] theorem delay_ret (d : Nat) (s : State) : (delay d s).ret = s.ret := rfl

/-! Reading a stored register changes the trace alone. -/

@[simp] theorem regRead_regs (r : StoredReg) (s : State) : ((regRead r s).2).regs = s.regs := rfl
@[simp] theorem regRead_h (r : StoredReg) (s : State) : ((regRead r s).2).h = s.h := rfl
@[simp] theorem regRead_q (r : StoredReg) (s : State) : ((regRead r s).2).q = s.q := rfl
@[simp] theorem regRead_dma (r : StoredReg) (s : State) : ((regRead r s).2).dma = s.dma := rfl
@[simp] theorem regRead_mem (r : StoredReg) (s : State) : ((regRead r s).2).mem = s.mem := rfl
@[simp] theorem regRead_trace (r : StoredReg) (s : State) : ((regRead r s).2).trace = s.trace ++ [.regR (.stored r) (s.regs.get r)] := rfl
@[simp] theorem regRead_fault (r : StoredReg) (s : State) : ((regRead r s).2).fault = s.fault := rfl
@[simp] theorem regRead_irq (r : StoredReg) (s : State) : ((regRead r s).2).irq = s.irq := rfl
@[simp] theorem regRead_cfg (r : StoredReg) (s : State) : ((regRead r s).2).cfg = s.cfg := rfl
@[simp] theorem regRead_env (r : StoredReg) (s : State) : ((regRead r s).2).env = s.env := rfl
@[simp] theorem regRead_pending (r : StoredReg) (s : State) : ((regRead r s).2).pending = s.pending := rfl
@[simp] theorem regRead_ret (r : StoredReg) (s : State) : ((regRead r s).2).ret = s.ret := rfl

/-! Writing a register changes it and the trace. -/

@[simp] theorem regWrite_regs (r : StoredReg) (v : Word) (s : State) : (regWrite r v s).regs = s.regs.set r v := rfl
@[simp] theorem regWrite_h (r : StoredReg) (v : Word) (s : State) : (regWrite r v s).h = s.h := rfl
@[simp] theorem regWrite_q (r : StoredReg) (v : Word) (s : State) : (regWrite r v s).q = s.q := rfl
@[simp] theorem regWrite_dma (r : StoredReg) (v : Word) (s : State) : (regWrite r v s).dma = s.dma := rfl
@[simp] theorem regWrite_mem (r : StoredReg) (v : Word) (s : State) : (regWrite r v s).mem = s.mem := rfl
@[simp] theorem regWrite_trace (r : StoredReg) (v : Word) (s : State) : (regWrite r v s).trace = s.trace ++ [.regW r v] := rfl
@[simp] theorem regWrite_fault (r : StoredReg) (v : Word) (s : State) : (regWrite r v s).fault = s.fault := rfl
@[simp] theorem regWrite_irq (r : StoredReg) (v : Word) (s : State) : (regWrite r v s).irq = s.irq := rfl
@[simp] theorem regWrite_cfg (r : StoredReg) (v : Word) (s : State) : (regWrite r v s).cfg = s.cfg := rfl
@[simp] theorem regWrite_env (r : StoredReg) (v : Word) (s : State) : (regWrite r v s).env = s.env := rfl
@[simp] theorem regWrite_pending (r : StoredReg) (v : Word) (s : State) : (regWrite r v s).pending = s.pending := rfl
@[simp] theorem regWrite_ret (r : StoredReg) (v : Word) (s : State) : (regWrite r v s).ret = s.ret := rfl

/-! Reading an environment register draws. -/

@[simp] theorem regDraw_regs (r : DrawnReg) (s : State) : ((regDraw r s).2).regs = s.regs := rfl
@[simp] theorem regDraw_h (r : DrawnReg) (s : State) : ((regDraw r s).2).h = s.h := rfl
@[simp] theorem regDraw_q (r : DrawnReg) (s : State) : ((regDraw r s).2).q = s.q := rfl
@[simp] theorem regDraw_dma (r : DrawnReg) (s : State) : ((regDraw r s).2).dma = s.dma := rfl
@[simp] theorem regDraw_mem (r : DrawnReg) (s : State) : ((regDraw r s).2).mem = s.mem := rfl
@[simp] theorem regDraw_trace (r : DrawnReg) (s : State) : ((regDraw r s).2).trace = s.trace ++ [.regR (.drawn r) (drawnWord r s)] := rfl
@[simp] theorem regDraw_fault (r : DrawnReg) (s : State) : ((regDraw r s).2).fault = s.fault := rfl
@[simp] theorem regDraw_irq (r : DrawnReg) (s : State) : ((regDraw r s).2).irq = s.irq := rfl
@[simp] theorem regDraw_cfg (r : DrawnReg) (s : State) : ((regDraw r s).2).cfg = s.cfg := rfl
@[simp] theorem regDraw_env (r : DrawnReg) (s : State) : ((regDraw r s).2).env = envAfterWord r s.env := rfl
@[simp] theorem regDraw_pending (r : DrawnReg) (s : State) : ((regDraw r s).2).pending = s.pending := rfl
@[simp] theorem regDraw_ret (r : DrawnReg) (s : State) : ((regDraw r s).2).ret = s.ret := rfl

/-! `drawRate` changes the environment script alone. -/

@[simp] theorem drawRate_regs (s : State) : ((drawRate s).2).regs = s.regs := rfl
@[simp] theorem drawRate_h (s : State) : ((drawRate s).2).h = s.h := rfl
@[simp] theorem drawRate_q (s : State) : ((drawRate s).2).q = s.q := rfl
@[simp] theorem drawRate_dma (s : State) : ((drawRate s).2).dma = s.dma := rfl
@[simp] theorem drawRate_mem (s : State) : ((drawRate s).2).mem = s.mem := rfl
@[simp] theorem drawRate_trace (s : State) : ((drawRate s).2).trace = s.trace := rfl
@[simp] theorem drawRate_fault (s : State) : ((drawRate s).2).fault = s.fault := rfl
@[simp] theorem drawRate_irq (s : State) : ((drawRate s).2).irq = s.irq := rfl
@[simp] theorem drawRate_cfg (s : State) : ((drawRate s).2).cfg = s.cfg := rfl
@[simp] theorem drawRate_pending (s : State) : ((drawRate s).2).pending = s.pending := rfl
@[simp] theorem drawRate_ret (s : State) : ((drawRate s).2).ret = s.ret := rfl

/-! `drawChannel` changes the environment script alone. -/

@[simp] theorem drawChannel_regs (s : State) : ((drawChannel s).2).regs = s.regs := rfl
@[simp] theorem drawChannel_h (s : State) : ((drawChannel s).2).h = s.h := rfl
@[simp] theorem drawChannel_q (s : State) : ((drawChannel s).2).q = s.q := rfl
@[simp] theorem drawChannel_dma (s : State) : ((drawChannel s).2).dma = s.dma := rfl
@[simp] theorem drawChannel_mem (s : State) : ((drawChannel s).2).mem = s.mem := rfl
@[simp] theorem drawChannel_trace (s : State) : ((drawChannel s).2).trace = s.trace := rfl
@[simp] theorem drawChannel_fault (s : State) : ((drawChannel s).2).fault = s.fault := rfl
@[simp] theorem drawChannel_irq (s : State) : ((drawChannel s).2).irq = s.irq := rfl
@[simp] theorem drawChannel_cfg (s : State) : ((drawChannel s).2).cfg = s.cfg := rfl
@[simp] theorem drawChannel_pending (s : State) : ((drawChannel s).2).pending = s.pending := rfl
@[simp] theorem drawChannel_ret (s : State) : ((drawChannel s).2).ret = s.ret := rfl

/-! `drawCd` changes the environment script alone. -/

@[simp] theorem drawCd_regs (s : State) : ((drawCd s).2).regs = s.regs := rfl
@[simp] theorem drawCd_h (s : State) : ((drawCd s).2).h = s.h := rfl
@[simp] theorem drawCd_q (s : State) : ((drawCd s).2).q = s.q := rfl
@[simp] theorem drawCd_dma (s : State) : ((drawCd s).2).dma = s.dma := rfl
@[simp] theorem drawCd_mem (s : State) : ((drawCd s).2).mem = s.mem := rfl
@[simp] theorem drawCd_trace (s : State) : ((drawCd s).2).trace = s.trace := rfl
@[simp] theorem drawCd_fault (s : State) : ((drawCd s).2).fault = s.fault := rfl
@[simp] theorem drawCd_irq (s : State) : ((drawCd s).2).irq = s.irq := rfl
@[simp] theorem drawCd_cfg (s : State) : ((drawCd s).2).cfg = s.cfg := rfl
@[simp] theorem drawCd_pending (s : State) : ((drawCd s).2).pending = s.pending := rfl
@[simp] theorem drawCd_ret (s : State) : ((drawCd s).2).ret = s.ret := rfl

/-! `drawRo` changes the environment script alone. -/

@[simp] theorem drawRo_regs (s : State) : ((drawRo s).2).regs = s.regs := rfl
@[simp] theorem drawRo_h (s : State) : ((drawRo s).2).h = s.h := rfl
@[simp] theorem drawRo_q (s : State) : ((drawRo s).2).q = s.q := rfl
@[simp] theorem drawRo_dma (s : State) : ((drawRo s).2).dma = s.dma := rfl
@[simp] theorem drawRo_mem (s : State) : ((drawRo s).2).mem = s.mem := rfl
@[simp] theorem drawRo_trace (s : State) : ((drawRo s).2).trace = s.trace := rfl
@[simp] theorem drawRo_fault (s : State) : ((drawRo s).2).fault = s.fault := rfl
@[simp] theorem drawRo_irq (s : State) : ((drawRo s).2).irq = s.irq := rfl
@[simp] theorem drawRo_cfg (s : State) : ((drawRo s).2).cfg = s.cfg := rfl
@[simp] theorem drawRo_pending (s : State) : ((drawRo s).2).pending = s.pending := rfl
@[simp] theorem drawRo_ret (s : State) : ((drawRo s).2).ret = s.ret := rfl

/-! `drawMap` changes the environment script alone. -/

@[simp] theorem drawMap_regs (sg : List Seg) (s : State) : ((drawMap sg s).2).regs = s.regs := rfl
@[simp] theorem drawMap_h (sg : List Seg) (s : State) : ((drawMap sg s).2).h = s.h := rfl
@[simp] theorem drawMap_q (sg : List Seg) (s : State) : ((drawMap sg s).2).q = s.q := rfl
@[simp] theorem drawMap_dma (sg : List Seg) (s : State) : ((drawMap sg s).2).dma = s.dma := rfl
@[simp] theorem drawMap_mem (sg : List Seg) (s : State) : ((drawMap sg s).2).mem = s.mem := rfl
@[simp] theorem drawMap_trace (sg : List Seg) (s : State) : ((drawMap sg s).2).trace = s.trace := rfl
@[simp] theorem drawMap_fault (sg : List Seg) (s : State) : ((drawMap sg s).2).fault = s.fault := rfl
@[simp] theorem drawMap_irq (sg : List Seg) (s : State) : ((drawMap sg s).2).irq = s.irq := rfl
@[simp] theorem drawMap_cfg (sg : List Seg) (s : State) : ((drawMap sg s).2).cfg = s.cfg := rfl
@[simp] theorem drawMap_pending (sg : List Seg) (s : State) : ((drawMap sg s).2).pending = s.pending := rfl
@[simp] theorem drawMap_ret (sg : List Seg) (s : State) : ((drawMap sg s).2).ret = s.ret := rfl

/-! A FIFO read draws. -/

@[simp] theorem fifoRead_regs (w : Width) (s : State) : ((fifoRead w s).2).regs = s.regs := rfl
@[simp] theorem fifoRead_h (w : Width) (s : State) : ((fifoRead w s).2).h = s.h := rfl
@[simp] theorem fifoRead_q (w : Width) (s : State) : ((fifoRead w s).2).q = s.q := rfl
@[simp] theorem fifoRead_dma (w : Width) (s : State) : ((fifoRead w s).2).dma = s.dma := rfl
@[simp] theorem fifoRead_mem (w : Width) (s : State) : ((fifoRead w s).2).mem = s.mem := rfl
@[simp] theorem fifoRead_trace (w : Width) (s : State) : ((fifoRead w s).2).trace = s.trace ++ [.fifoR w (fifoRead w s).1] := rfl
@[simp] theorem fifoRead_fault (w : Width) (s : State) : ((fifoRead w s).2).fault = s.fault := rfl
@[simp] theorem fifoRead_irq (w : Width) (s : State) : ((fifoRead w s).2).irq = s.irq := rfl
@[simp] theorem fifoRead_cfg (w : Width) (s : State) : ((fifoRead w s).2).cfg = s.cfg := rfl
@[simp] theorem fifoRead_pending (w : Width) (s : State) : ((fifoRead w s).2).pending = s.pending := rfl
@[simp] theorem fifoRead_ret (w : Width) (s : State) : ((fifoRead w s).2).ret = s.ret := rfl

/-! A FIFO write shows in the trace alone. -/

@[simp] theorem fifoWrite_regs (w : Width) (v : Word) (s : State) : (fifoWrite w v s).regs = s.regs := rfl
@[simp] theorem fifoWrite_h (w : Width) (v : Word) (s : State) : (fifoWrite w v s).h = s.h := rfl
@[simp] theorem fifoWrite_q (w : Width) (v : Word) (s : State) : (fifoWrite w v s).q = s.q := rfl
@[simp] theorem fifoWrite_dma (w : Width) (v : Word) (s : State) : (fifoWrite w v s).dma = s.dma := rfl
@[simp] theorem fifoWrite_mem (w : Width) (v : Word) (s : State) : (fifoWrite w v s).mem = s.mem := rfl
@[simp] theorem fifoWrite_trace (w : Width) (v : Word) (s : State) : (fifoWrite w v s).trace = s.trace ++ [.fifoW w v] := rfl
@[simp] theorem fifoWrite_fault (w : Width) (v : Word) (s : State) : (fifoWrite w v s).fault = s.fault := rfl
@[simp] theorem fifoWrite_irq (w : Width) (v : Word) (s : State) : (fifoWrite w v s).irq = s.irq := rfl
@[simp] theorem fifoWrite_cfg (w : Width) (v : Word) (s : State) : (fifoWrite w v s).cfg = s.cfg := rfl
@[simp] theorem fifoWrite_env (w : Width) (v : Word) (s : State) : (fifoWrite w v s).env = s.env := rfl
@[simp] theorem fifoWrite_pending (w : Width) (v : Word) (s : State) : (fifoWrite w v s).pending = s.pending := rfl
@[simp] theorem fifoWrite_ret (w : Width) (v : Word) (s : State) : (fifoWrite w v s).ret = s.ret := rfl

/-! A memory read changes the trace alone. -/

@[simp] theorem memRead_regs (a : Nat) (w : Width) (s : State) : ((memRead a w s).2).regs = s.regs := rfl
@[simp] theorem memRead_h (a : Nat) (w : Width) (s : State) : ((memRead a w s).2).h = s.h := rfl
@[simp] theorem memRead_q (a : Nat) (w : Width) (s : State) : ((memRead a w s).2).q = s.q := rfl
@[simp] theorem memRead_dma (a : Nat) (w : Width) (s : State) : ((memRead a w s).2).dma = s.dma := rfl
@[simp] theorem memRead_mem (a : Nat) (w : Width) (s : State) : ((memRead a w s).2).mem = s.mem := rfl
@[simp] theorem memRead_trace (a : Nat) (w : Width) (s : State) : ((memRead a w s).2).trace = s.trace ++ [.memR a w (memRead a w s).1] := rfl
@[simp] theorem memRead_fault (a : Nat) (w : Width) (s : State) : ((memRead a w s).2).fault = s.fault := rfl
@[simp] theorem memRead_irq (a : Nat) (w : Width) (s : State) : ((memRead a w s).2).irq = s.irq := rfl
@[simp] theorem memRead_cfg (a : Nat) (w : Width) (s : State) : ((memRead a w s).2).cfg = s.cfg := rfl
@[simp] theorem memRead_env (a : Nat) (w : Width) (s : State) : ((memRead a w s).2).env = s.env := rfl
@[simp] theorem memRead_pending (a : Nat) (w : Width) (s : State) : ((memRead a w s).2).pending = s.pending := rfl
@[simp] theorem memRead_ret (a : Nat) (w : Width) (s : State) : ((memRead a w s).2).ret = s.ret := rfl

/-! A memory write changes memory and the trace. -/

@[simp] theorem memWrite_regs (a : Nat) (w : Width) (v : Word) (s : State) : (memWrite a w v s).regs = s.regs := rfl
@[simp] theorem memWrite_h (a : Nat) (w : Width) (v : Word) (s : State) : (memWrite a w v s).h = s.h := rfl
@[simp] theorem memWrite_q (a : Nat) (w : Width) (v : Word) (s : State) : (memWrite a w v s).q = s.q := rfl
@[simp] theorem memWrite_dma (a : Nat) (w : Width) (v : Word) (s : State) : (memWrite a w v s).dma = s.dma := rfl
@[simp] theorem memWrite_mem (a : Nat) (w : Width) (v : Word) (s : State) : (memWrite a w v s).mem = Memory.writeLE s.mem a w.bytes v := rfl
@[simp] theorem memWrite_trace (a : Nat) (w : Width) (v : Word) (s : State) : (memWrite a w v s).trace = s.trace ++ [.memW a w v] := rfl
@[simp] theorem memWrite_fault (a : Nat) (w : Width) (v : Word) (s : State) : (memWrite a w v s).fault = s.fault := rfl
@[simp] theorem memWrite_irq (a : Nat) (w : Width) (v : Word) (s : State) : (memWrite a w v s).irq = s.irq := rfl
@[simp] theorem memWrite_cfg (a : Nat) (w : Width) (v : Word) (s : State) : (memWrite a w v s).cfg = s.cfg := rfl
@[simp] theorem memWrite_env (a : Nat) (w : Width) (v : Word) (s : State) : (memWrite a w v s).env = s.env := rfl
@[simp] theorem memWrite_pending (a : Nat) (w : Width) (v : Word) (s : State) : (memWrite a w v s).pending = s.pending := rfl
@[simp] theorem memWrite_ret (a : Nat) (w : Width) (v : Word) (s : State) : (memWrite a w v s).ret = s.ret := rfl

/-! `setResult` changes the request in flight alone. -/

@[simp] theorem setResult_regs (q : InFlight) (r : Result) (s : State) : (setResult q r s).regs = s.regs := rfl
@[simp] theorem setResult_h (q : InFlight) (r : Result) (s : State) : (setResult q r s).h = s.h := rfl
@[simp] theorem setResult_q (q : InFlight) (r : Result) (s : State) : (setResult q r s).q = some { q with result := r } := rfl
@[simp] theorem setResult_dma (q : InFlight) (r : Result) (s : State) : (setResult q r s).dma = s.dma := rfl
@[simp] theorem setResult_mem (q : InFlight) (r : Result) (s : State) : (setResult q r s).mem = s.mem := rfl
@[simp] theorem setResult_trace (q : InFlight) (r : Result) (s : State) : (setResult q r s).trace = s.trace := rfl
@[simp] theorem setResult_fault (q : InFlight) (r : Result) (s : State) : (setResult q r s).fault = s.fault := rfl
@[simp] theorem setResult_irq (q : InFlight) (r : Result) (s : State) : (setResult q r s).irq = s.irq := rfl
@[simp] theorem setResult_cfg (q : InFlight) (r : Result) (s : State) : (setResult q r s).cfg = s.cfg := rfl
@[simp] theorem setResult_env (q : InFlight) (r : Result) (s : State) : (setResult q r s).env = s.env := rfl
@[simp] theorem setResult_pending (q : InFlight) (r : Result) (s : State) : (setResult q r s).pending = s.pending := rfl
@[simp] theorem setResult_ret (q : InFlight) (r : Result) (s : State) : (setResult q r s).ret = s.ret := rfl

/-! `raiseEndXfer` sets one flag. -/

@[simp] theorem raiseEndXfer_regs (s : State) : (raiseEndXfer s).regs = s.regs := rfl
@[simp] theorem raiseEndXfer_h (s : State) : (raiseEndXfer s).h = s.h := rfl
@[simp] theorem raiseEndXfer_q (s : State) : (raiseEndXfer s).q = s.q := rfl
@[simp] theorem raiseEndXfer_dma (s : State) : (raiseEndXfer s).dma = s.dma := rfl
@[simp] theorem raiseEndXfer_mem (s : State) : (raiseEndXfer s).mem = s.mem := rfl
@[simp] theorem raiseEndXfer_trace (s : State) : (raiseEndXfer s).trace = s.trace := rfl
@[simp] theorem raiseEndXfer_fault (s : State) : (raiseEndXfer s).fault = s.fault := rfl
@[simp] theorem raiseEndXfer_irq (s : State) : (raiseEndXfer s).irq = { s.irq with endXfer := true } := rfl
@[simp] theorem raiseEndXfer_cfg (s : State) : (raiseEndXfer s).cfg = s.cfg := rfl
@[simp] theorem raiseEndXfer_env (s : State) : (raiseEndXfer s).env = s.env := rfl
@[simp] theorem raiseEndXfer_pending (s : State) : (raiseEndXfer s).pending = s.pending := rfl
@[simp] theorem raiseEndXfer_ret (s : State) : (raiseEndXfer s).ret = s.ret := rfl

/-! `raiseEndCmd` sets one flag. -/

@[simp] theorem raiseEndCmd_regs (s : State) : (raiseEndCmd s).regs = s.regs := rfl
@[simp] theorem raiseEndCmd_h (s : State) : (raiseEndCmd s).h = s.h := rfl
@[simp] theorem raiseEndCmd_q (s : State) : (raiseEndCmd s).q = s.q := rfl
@[simp] theorem raiseEndCmd_dma (s : State) : (raiseEndCmd s).dma = s.dma := rfl
@[simp] theorem raiseEndCmd_mem (s : State) : (raiseEndCmd s).mem = s.mem := rfl
@[simp] theorem raiseEndCmd_trace (s : State) : (raiseEndCmd s).trace = s.trace := rfl
@[simp] theorem raiseEndCmd_fault (s : State) : (raiseEndCmd s).fault = s.fault := rfl
@[simp] theorem raiseEndCmd_irq (s : State) : (raiseEndCmd s).irq = { s.irq with endCmd := true } := rfl
@[simp] theorem raiseEndCmd_cfg (s : State) : (raiseEndCmd s).cfg = s.cfg := rfl
@[simp] theorem raiseEndCmd_env (s : State) : (raiseEndCmd s).env = s.env := rfl
@[simp] theorem raiseEndCmd_pending (s : State) : (raiseEndCmd s).pending = s.pending := rfl
@[simp] theorem raiseEndCmd_ret (s : State) : (raiseEndCmd s).ret = s.ret := rfl

/-! `raiseNeedReset` sets one flag. -/

@[simp] theorem raiseNeedReset_regs (s : State) : (raiseNeedReset s).regs = s.regs := rfl
@[simp] theorem raiseNeedReset_h (s : State) : (raiseNeedReset s).h = s.h := rfl
@[simp] theorem raiseNeedReset_q (s : State) : (raiseNeedReset s).q = s.q := rfl
@[simp] theorem raiseNeedReset_dma (s : State) : (raiseNeedReset s).dma = s.dma := rfl
@[simp] theorem raiseNeedReset_mem (s : State) : (raiseNeedReset s).mem = s.mem := rfl
@[simp] theorem raiseNeedReset_trace (s : State) : (raiseNeedReset s).trace = s.trace := rfl
@[simp] theorem raiseNeedReset_fault (s : State) : (raiseNeedReset s).fault = s.fault := rfl
@[simp] theorem raiseNeedReset_irq (s : State) : (raiseNeedReset s).irq = { s.irq with needReset := true } := rfl
@[simp] theorem raiseNeedReset_cfg (s : State) : (raiseNeedReset s).cfg = s.cfg := rfl
@[simp] theorem raiseNeedReset_env (s : State) : (raiseNeedReset s).env = s.env := rfl
@[simp] theorem raiseNeedReset_pending (s : State) : (raiseNeedReset s).pending = s.pending := rfl
@[simp] theorem raiseNeedReset_ret (s : State) : (raiseNeedReset s).ret = s.ret := rfl

/-! `dequeue` changes the queue alone. -/

@[simp] theorem dequeue_regs (rest : List Message) (s : State) : (dequeue rest s).regs = s.regs := rfl
@[simp] theorem dequeue_h (rest : List Message) (s : State) : (dequeue rest s).h = s.h := rfl
@[simp] theorem dequeue_q (rest : List Message) (s : State) : (dequeue rest s).q = s.q := rfl
@[simp] theorem dequeue_dma (rest : List Message) (s : State) : (dequeue rest s).dma = s.dma := rfl
@[simp] theorem dequeue_mem (rest : List Message) (s : State) : (dequeue rest s).mem = s.mem := rfl
@[simp] theorem dequeue_trace (rest : List Message) (s : State) : (dequeue rest s).trace = s.trace := rfl
@[simp] theorem dequeue_fault (rest : List Message) (s : State) : (dequeue rest s).fault = s.fault := rfl
@[simp] theorem dequeue_irq (rest : List Message) (s : State) : (dequeue rest s).irq = s.irq := rfl
@[simp] theorem dequeue_cfg (rest : List Message) (s : State) : (dequeue rest s).cfg = s.cfg := rfl
@[simp] theorem dequeue_env (rest : List Message) (s : State) : (dequeue rest s).env = s.env := rfl
@[simp] theorem dequeue_pending (rest : List Message) (s : State) : (dequeue rest s).pending = rest := rfl
@[simp] theorem dequeue_ret (rest : List Message) (s : State) : (dequeue rest s).ret = s.ret := rfl

/-! `enqueueFirst` changes the queue alone. -/

@[simp] theorem enqueueFirst_regs (m : Message) (s : State) : (enqueueFirst m s).regs = s.regs := rfl
@[simp] theorem enqueueFirst_h (m : Message) (s : State) : (enqueueFirst m s).h = s.h := rfl
@[simp] theorem enqueueFirst_q (m : Message) (s : State) : (enqueueFirst m s).q = s.q := rfl
@[simp] theorem enqueueFirst_dma (m : Message) (s : State) : (enqueueFirst m s).dma = s.dma := rfl
@[simp] theorem enqueueFirst_mem (m : Message) (s : State) : (enqueueFirst m s).mem = s.mem := rfl
@[simp] theorem enqueueFirst_trace (m : Message) (s : State) : (enqueueFirst m s).trace = s.trace := rfl
@[simp] theorem enqueueFirst_fault (m : Message) (s : State) : (enqueueFirst m s).fault = s.fault := rfl
@[simp] theorem enqueueFirst_irq (m : Message) (s : State) : (enqueueFirst m s).irq = s.irq := rfl
@[simp] theorem enqueueFirst_cfg (m : Message) (s : State) : (enqueueFirst m s).cfg = s.cfg := rfl
@[simp] theorem enqueueFirst_env (m : Message) (s : State) : (enqueueFirst m s).env = s.env := rfl
@[simp] theorem enqueueFirst_pending (m : Message) (s : State) : (enqueueFirst m s).pending = m :: s.pending := rfl
@[simp] theorem enqueueFirst_ret (m : Message) (s : State) : (enqueueFirst m s).ret = s.ret := rfl

/-! `pioCount` changes the cursor alone. -/

@[simp] theorem pioCount_regs (m : Nat) (s : State) : (pioCount m s).regs = s.regs := rfl
@[simp] theorem pioCount_h (m : Nat) (s : State) : (pioCount m s).h = { s.h with bufPtr := s.h.bufPtr + m, segLeft := s.h.segLeft - m, bytesLeft := s.h.bytesLeft - m } := rfl
@[simp] theorem pioCount_q (m : Nat) (s : State) : (pioCount m s).q = s.q := rfl
@[simp] theorem pioCount_dma (m : Nat) (s : State) : (pioCount m s).dma = s.dma := rfl
@[simp] theorem pioCount_mem (m : Nat) (s : State) : (pioCount m s).mem = s.mem := rfl
@[simp] theorem pioCount_trace (m : Nat) (s : State) : (pioCount m s).trace = s.trace := rfl
@[simp] theorem pioCount_fault (m : Nat) (s : State) : (pioCount m s).fault = s.fault := rfl
@[simp] theorem pioCount_irq (m : Nat) (s : State) : (pioCount m s).irq = s.irq := rfl
@[simp] theorem pioCount_cfg (m : Nat) (s : State) : (pioCount m s).cfg = s.cfg := rfl
@[simp] theorem pioCount_env (m : Nat) (s : State) : (pioCount m s).env = s.env := rfl
@[simp] theorem pioCount_pending (m : Nat) (s : State) : (pioCount m s).pending = s.pending := rfl
@[simp] theorem pioCount_ret (m : Nat) (s : State) : (pioCount m s).ret = s.ret := rfl

/-! `accumulate` changes the combined status alone. -/

@[simp] theorem accumulate_regs (s : State) : (accumulate s).regs = s.regs := rfl
@[simp] theorem accumulate_h (s : State) : (accumulate s).h = s.h := rfl
@[simp] theorem accumulate_q (s : State) : (accumulate s).q = s.q := rfl
@[simp] theorem accumulate_dma (s : State) : (accumulate s).dma = s.dma := rfl
@[simp] theorem accumulate_mem (s : State) : (accumulate s).mem = s.mem := rfl
@[simp] theorem accumulate_trace (s : State) : (accumulate s).trace = s.trace := rfl
@[simp] theorem accumulate_fault (s : State) : (accumulate s).fault = s.fault := rfl
@[simp] theorem accumulate_irq (s : State) : (accumulate s).irq = { s.irq with q := bothEvents s.cfg.layout s.irq.q s.irq.s } := rfl
@[simp] theorem accumulate_cfg (s : State) : (accumulate s).cfg = s.cfg := rfl
@[simp] theorem accumulate_env (s : State) : (accumulate s).env = s.env := rfl
@[simp] theorem accumulate_pending (s : State) : (accumulate s).pending = s.pending := rfl
@[simp] theorem accumulate_ret (s : State) : (accumulate s).ret = s.ret := rfl

/-! `readStatus` is one draw from ST0. -/

@[simp] theorem readStatus_regs (s : State) : (readStatus s).regs = s.regs := rfl
@[simp] theorem readStatus_h (s : State) : (readStatus s).h = s.h := rfl
@[simp] theorem readStatus_q (s : State) : (readStatus s).q = s.q := rfl
@[simp] theorem readStatus_dma (s : State) : (readStatus s).dma = s.dma := rfl
@[simp] theorem readStatus_mem (s : State) : (readStatus s).mem = s.mem := rfl
@[simp] theorem readStatus_trace (s : State) : (readStatus s).trace = s.trace ++ [.regR (.drawn .st0) (drawnWord .st0 s)] := rfl
@[simp] theorem readStatus_fault (s : State) : (readStatus s).fault = s.fault := rfl
@[simp] theorem readStatus_irq (s : State) : (readStatus s).irq = { s.irq with s := drawnWord .st0 s } := rfl
@[simp] theorem readStatus_cfg (s : State) : (readStatus s).cfg = s.cfg := rfl
@[simp] theorem readStatus_env (s : State) : (readStatus s).env = envAfterWord .st0 s.env := rfl
@[simp] theorem readStatus_pending (s : State) : (readStatus s).pending = s.pending := rfl
@[simp] theorem readStatus_ret (s : State) : (readStatus s).ret = s.ret := rfl

/-! `presentStatus` changes the two status words alone. -/

@[simp] theorem presentStatus_regs (w : Word) (p : Nat) (s : State) : (presentStatus w p s).regs = s.regs := rfl
@[simp] theorem presentStatus_h (w : Word) (p : Nat) (s : State) : (presentStatus w p s).h = s.h := rfl
@[simp] theorem presentStatus_q (w : Word) (p : Nat) (s : State) : (presentStatus w p s).q = s.q := rfl
@[simp] theorem presentStatus_dma (w : Word) (p : Nat) (s : State) : (presentStatus w p s).dma = s.dma := rfl
@[simp] theorem presentStatus_mem (w : Word) (p : Nat) (s : State) : (presentStatus w p s).mem = s.mem := rfl
@[simp] theorem presentStatus_trace (w : Word) (p : Nat) (s : State) : (presentStatus w p s).trace = s.trace := rfl
@[simp] theorem presentStatus_fault (w : Word) (p : Nat) (s : State) : (presentStatus w p s).fault = s.fault := rfl
@[simp] theorem presentStatus_irq (w : Word) (p : Nat) (s : State) : (presentStatus w p s).irq = { s.irq with s := withEvent s.cfg.layout w p, q := withEvent s.cfg.layout w p } := rfl
@[simp] theorem presentStatus_cfg (w : Word) (p : Nat) (s : State) : (presentStatus w p s).cfg = s.cfg := rfl
@[simp] theorem presentStatus_env (w : Word) (p : Nat) (s : State) : (presentStatus w p s).env = s.env := rfl
@[simp] theorem presentStatus_pending (w : Word) (p : Nat) (s : State) : (presentStatus w p s).pending = s.pending := rfl
@[simp] theorem presentStatus_ret (w : Word) (p : Nat) (s : State) : (presentStatus w p s).ret = s.ret := rfl

/-! `clearRequest` (R226). -/

@[simp] theorem clearRequest_regs (s : State) : (clearRequest s).regs = s.regs := rfl
@[simp] theorem clearRequest_h (s : State) : (clearRequest s).h = { s.h with cmd := none, data := false, phase := .idle } := rfl
@[simp] theorem clearRequest_q (s : State) : (clearRequest s).q = none := rfl
@[simp] theorem clearRequest_dma (s : State) : (clearRequest s).dma = s.dma := rfl
@[simp] theorem clearRequest_mem (s : State) : (clearRequest s).mem = s.mem := rfl
@[simp] theorem clearRequest_trace (s : State) : (clearRequest s).trace = s.trace := rfl
@[simp] theorem clearRequest_fault (s : State) : (clearRequest s).fault = s.fault := rfl
@[simp] theorem clearRequest_irq (s : State) : (clearRequest s).irq = s.irq := rfl
@[simp] theorem clearRequest_cfg (s : State) : (clearRequest s).cfg = s.cfg := rfl
@[simp] theorem clearRequest_env (s : State) : (clearRequest s).env = s.env := rfl
@[simp] theorem clearRequest_pending (s : State) : (clearRequest s).pending = s.pending := rfl
@[simp] theorem clearRequest_ret (s : State) : (clearRequest s).ret = s.ret := rfl

/-! `completeRequest` (R226). -/

@[simp] theorem completeRequest_regs (q : InFlight) (s : State) : (completeRequest q s).regs = s.regs.set .im (noInterrupts s.cfg.layout) := rfl
@[simp] theorem completeRequest_h (q : InFlight) (s : State) : (completeRequest q s).h = { s.h with cmd := none, data := false, phase := .idle } := rfl
@[simp] theorem completeRequest_q (q : InFlight) (s : State) : (completeRequest q s).q = none := rfl
@[simp] theorem completeRequest_dma (q : InFlight) (s : State) : (completeRequest q s).dma = s.dma := rfl
@[simp] theorem completeRequest_mem (q : InFlight) (s : State) : (completeRequest q s).mem = s.mem := rfl
@[simp] theorem completeRequest_trace (q : InFlight) (s : State) : (completeRequest q s).trace = s.trace ++ [.regW .im (noInterrupts s.cfg.layout)] ++ [.completion q.record] := rfl
@[simp] theorem completeRequest_fault (q : InFlight) (s : State) : (completeRequest q s).fault = s.fault := rfl
@[simp] theorem completeRequest_irq (q : InFlight) (s : State) : (completeRequest q s).irq = { s.irq with completed := true } := rfl
@[simp] theorem completeRequest_cfg (q : InFlight) (s : State) : (completeRequest q s).cfg = s.cfg := rfl
@[simp] theorem completeRequest_env (q : InFlight) (s : State) : (completeRequest q s).env = s.env := rfl
@[simp] theorem completeRequest_pending (q : InFlight) (s : State) : (completeRequest q s).pending = s.pending := rfl
@[simp] theorem completeRequest_ret (q : InFlight) (s : State) : (completeRequest q s).ret = s.ret := rfl

/-! `clearData` (R223). -/

@[simp] theorem clearData_regs (s : State) : (clearData s).regs = s.regs := rfl
@[simp] theorem clearData_h (s : State) : (clearData s).h = { s.h with data := false, doDma := false, dataDir := none, msg := [] } := rfl
@[simp] theorem clearData_q (s : State) : (clearData s).q = s.q := rfl
@[simp] theorem clearData_dma (s : State) : (clearData s).dma = s.dma := rfl
@[simp] theorem clearData_mem (s : State) : (clearData s).mem = s.mem := rfl
@[simp] theorem clearData_trace (s : State) : (clearData s).trace = s.trace := rfl
@[simp] theorem clearData_fault (s : State) : (clearData s).fault = s.fault := rfl
@[simp] theorem clearData_irq (s : State) : (clearData s).irq = s.irq := rfl
@[simp] theorem clearData_cfg (s : State) : (clearData s).cfg = s.cfg := rfl
@[simp] theorem clearData_env (s : State) : (clearData s).env = s.env := rfl
@[simp] theorem clearData_pending (s : State) : (clearData s).pending = s.pending := rfl
@[simp] theorem clearData_ret (s : State) : (clearData s).ret = s.ret := rfl

/-! `releaseDma` (R223). -/

@[simp] theorem releaseDma_regs (d : DataPhase) (dir : Dir) (s : State) : (releaseDma d dir s).regs = s.regs := rfl
@[simp] theorem releaseDma_h (d : DataPhase) (dir : Dir) (s : State) : (releaseDma d dir s).h = s.h := rfl
@[simp] theorem releaseDma_q (d : DataPhase) (dir : Dir) (s : State) : (releaseDma d dir s).q = s.q := rfl
@[simp] theorem releaseDma_dma (d : DataPhase) (dir : Dir) (s : State) : (releaseDma d dir s).dma = s.dma := rfl
@[simp] theorem releaseDma_mem (d : DataPhase) (dir : Dir) (s : State) : (releaseDma d dir s).mem = s.mem := rfl
@[simp] theorem releaseDma_trace (d : DataPhase) (dir : Dir) (s : State) : (releaseDma d dir s).trace = s.trace ++ [.dmaStop (s.dma.chan dir)] ++ [.dmaClean (s.dma.chan dir)] ++ [.dmaUnmap d.sg dir] := rfl
@[simp] theorem releaseDma_fault (d : DataPhase) (dir : Dir) (s : State) : (releaseDma d dir s).fault = s.fault := rfl
@[simp] theorem releaseDma_irq (d : DataPhase) (dir : Dir) (s : State) : (releaseDma d dir s).irq = s.irq := rfl
@[simp] theorem releaseDma_cfg (d : DataPhase) (dir : Dir) (s : State) : (releaseDma d dir s).cfg = s.cfg := rfl
@[simp] theorem releaseDma_env (d : DataPhase) (dir : Dir) (s : State) : (releaseDma d dir s).env = s.env := rfl
@[simp] theorem releaseDma_pending (d : DataPhase) (dir : Dir) (s : State) : (releaseDma d dir s).pending = s.pending := rfl
@[simp] theorem releaseDma_ret (d : DataPhase) (dir : Dir) (s : State) : (releaseDma d dir s).ret = s.ret := rfl

/-! `selectDma` (R141). -/

@[simp] theorem selectDma_regs (s : State) : (selectDma s).regs = s.regs := rfl
@[simp] theorem selectDma_h (s : State) : (selectDma s).h = { s.h with doDma := true, bytesLeft := 0 } := rfl
@[simp] theorem selectDma_q (s : State) : (selectDma s).q = s.q := rfl
@[simp] theorem selectDma_dma (s : State) : (selectDma s).dma = s.dma := rfl
@[simp] theorem selectDma_mem (s : State) : (selectDma s).mem = s.mem := rfl
@[simp] theorem selectDma_trace (s : State) : (selectDma s).trace = s.trace := rfl
@[simp] theorem selectDma_fault (s : State) : (selectDma s).fault = s.fault := rfl
@[simp] theorem selectDma_irq (s : State) : (selectDma s).irq = s.irq := rfl
@[simp] theorem selectDma_cfg (s : State) : (selectDma s).cfg = s.cfg := rfl
@[simp] theorem selectDma_env (s : State) : (selectDma s).env = s.env := rfl
@[simp] theorem selectDma_pending (s : State) : (selectDma s).pending = s.pending := rfl
@[simp] theorem selectDma_ret (s : State) : (selectDma s).ret = s.ret := rfl

/-! `fifoCfg` (R142). -/

@[simp] theorem fifoCfg_h (dir : Dir) (s : State) : (fifoCfg dir s).h = s.h := rfl
@[simp] theorem fifoCfg_q (dir : Dir) (s : State) : (fifoCfg dir s).q = s.q := rfl
@[simp] theorem fifoCfg_dma (dir : Dir) (s : State) : (fifoCfg dir s).dma = s.dma := rfl
@[simp] theorem fifoCfg_mem (dir : Dir) (s : State) : (fifoCfg dir s).mem = s.mem := rfl
@[simp] theorem fifoCfg_trace (dir : Dir) (s : State) : (fifoCfg dir s).trace = s.trace ++ [.regW .fifoctl (fifoctlFor s dir true)] ++ [.regW .fifoctl (fifoctlFor s dir false)] := rfl
@[simp] theorem fifoCfg_fault (dir : Dir) (s : State) : (fifoCfg dir s).fault = s.fault := rfl
@[simp] theorem fifoCfg_irq (dir : Dir) (s : State) : (fifoCfg dir s).irq = s.irq := rfl
@[simp] theorem fifoCfg_cfg (dir : Dir) (s : State) : (fifoCfg dir s).cfg = s.cfg := rfl
@[simp] theorem fifoCfg_env (dir : Dir) (s : State) : (fifoCfg dir s).env = s.env := rfl
@[simp] theorem fifoCfg_pending (dir : Dir) (s : State) : (fifoCfg dir s).pending = s.pending := rfl
@[simp] theorem fifoCfg_ret (dir : Dir) (s : State) : (fifoCfg dir s).ret = s.ret := rfl

/-! `prepareNoData` (R141). -/

@[simp] theorem prepareNoData_regs (s : State) : (prepareNoData s).regs = (s.regs.set .blen 0).set .nblk 0 := rfl
@[simp] theorem prepareNoData_h (s : State) : (prepareNoData s).h = { s.h with data := false, dataDir := none } := rfl
@[simp] theorem prepareNoData_q (s : State) : (prepareNoData s).q = s.q := rfl
@[simp] theorem prepareNoData_dma (s : State) : (prepareNoData s).dma = s.dma := rfl
@[simp] theorem prepareNoData_mem (s : State) : (prepareNoData s).mem = s.mem := rfl
@[simp] theorem prepareNoData_trace (s : State) : (prepareNoData s).trace = s.trace ++ [.regW .blen 0] ++ [.regW .nblk 0] := rfl
@[simp] theorem prepareNoData_fault (s : State) : (prepareNoData s).fault = s.fault := rfl
@[simp] theorem prepareNoData_irq (s : State) : (prepareNoData s).irq = s.irq := rfl
@[simp] theorem prepareNoData_cfg (s : State) : (prepareNoData s).cfg = s.cfg := rfl
@[simp] theorem prepareNoData_env (s : State) : (prepareNoData s).env = s.env := rfl
@[simp] theorem prepareNoData_pending (s : State) : (prepareNoData s).pending = s.pending := rfl
@[simp] theorem prepareNoData_ret (s : State) : (prepareNoData s).ret = s.ret := rfl

/-! `prepareRegisters` (R141). -/

@[simp] theorem prepareRegisters_h (d : DataPhase) (s : State) : (prepareRegisters d s).h = { s.h with data := true, dataDir := some d.dir, bytesLeft := dataTotal d } := rfl
@[simp] theorem prepareRegisters_q (d : DataPhase) (s : State) : (prepareRegisters d s).q = s.q := rfl
@[simp] theorem prepareRegisters_dma (d : DataPhase) (s : State) : (prepareRegisters d s).dma = s.dma := rfl
@[simp] theorem prepareRegisters_mem (d : DataPhase) (s : State) : (prepareRegisters d s).mem = s.mem := rfl
@[simp] theorem prepareRegisters_fault (d : DataPhase) (s : State) : (prepareRegisters d s).fault = s.fault := rfl
@[simp] theorem prepareRegisters_irq (d : DataPhase) (s : State) : (prepareRegisters d s).irq = s.irq := rfl
@[simp] theorem prepareRegisters_cfg (d : DataPhase) (s : State) : (prepareRegisters d s).cfg = s.cfg := rfl
@[simp] theorem prepareRegisters_env (d : DataPhase) (s : State) : (prepareRegisters d s).env = s.env := rfl
@[simp] theorem prepareRegisters_pending (d : DataPhase) (s : State) : (prepareRegisters d s).pending = s.pending := rfl
@[simp] theorem prepareRegisters_ret (d : DataPhase) (s : State) : (prepareRegisters d s).ret = s.ret := rfl

/-! `busyStuck` emits a Completion and no more (R172). -/

@[simp] theorem busyStuck_regs (req : BusRequest) (s : State) : (busyStuck req s).regs = s.regs := rfl
@[simp] theorem busyStuck_h (req : BusRequest) (s : State) : (busyStuck req s).h = s.h := rfl
@[simp] theorem busyStuck_q (req : BusRequest) (s : State) : (busyStuck req s).q = s.q := rfl
@[simp] theorem busyStuck_dma (req : BusRequest) (s : State) : (busyStuck req s).dma = s.dma := rfl
@[simp] theorem busyStuck_mem (req : BusRequest) (s : State) : (busyStuck req s).mem = s.mem := rfl
@[simp] theorem busyStuck_fault (req : BusRequest) (s : State) : (busyStuck req s).fault = s.fault := rfl
@[simp] theorem busyStuck_irq (req : BusRequest) (s : State) : (busyStuck req s).irq = s.irq := rfl
@[simp] theorem busyStuck_cfg (req : BusRequest) (s : State) : (busyStuck req s).cfg = s.cfg := rfl
@[simp] theorem busyStuck_env (req : BusRequest) (s : State) : (busyStuck req s).env = s.env := rfl
@[simp] theorem busyStuck_pending (req : BusRequest) (s : State) : (busyStuck req s).pending = s.pending := rfl
@[simp] theorem busyStuck_ret (req : BusRequest) (s : State) : (busyStuck req s).ret = s.ret := rfl

/-! `issue` (R178, R181). -/

@[simp] theorem issue_regs (slot : Slot) (arg w im : Word) (s : State) : (issue slot arg w im s).regs = ((s.regs.set .arg arg).set .cmd w).set .im im := rfl
@[simp] theorem issue_h (slot : Slot) (arg w im : Word) (s : State) : (issue slot arg w im s).h = { s.h with phase := phaseOfSlot slot } := rfl
@[simp] theorem issue_q (slot : Slot) (arg w im : Word) (s : State) : (issue slot arg w im s).q = s.q := rfl
@[simp] theorem issue_dma (slot : Slot) (arg w im : Word) (s : State) : (issue slot arg w im s).dma = s.dma := rfl
@[simp] theorem issue_mem (slot : Slot) (arg w im : Word) (s : State) : (issue slot arg w im s).mem = s.mem := rfl
@[simp] theorem issue_trace (slot : Slot) (arg w im : Word) (s : State) : (issue slot arg w im s).trace = s.trace ++ [.regW .arg arg] ++ [.regW .cmd w] ++ [.regW .im im] := rfl
@[simp] theorem issue_fault (slot : Slot) (arg w im : Word) (s : State) : (issue slot arg w im s).fault = s.fault := rfl
@[simp] theorem issue_irq (slot : Slot) (arg w im : Word) (s : State) : (issue slot arg w im s).irq = s.irq := rfl
@[simp] theorem issue_cfg (slot : Slot) (arg w im : Word) (s : State) : (issue slot arg w im s).cfg = s.cfg := rfl
@[simp] theorem issue_env (slot : Slot) (arg w im : Word) (s : State) : (issue slot arg w im s).env = s.env := rfl
@[simp] theorem issue_pending (slot : Slot) (arg w im : Word) (s : State) : (issue slot arg w im s).pending = s.pending := rfl
@[simp] theorem issue_ret (slot : Slot) (arg w im : Word) (s : State) : (issue slot arg w im s).ret = s.ret := rfl

/-! `softReset` changes CTL and the trace alone (R202). -/

@[simp] theorem softReset_h (s : State) : (softReset s).h = s.h := rfl
@[simp] theorem softReset_q (s : State) : (softReset s).q = s.q := rfl
@[simp] theorem softReset_dma (s : State) : (softReset s).dma = s.dma := rfl
@[simp] theorem softReset_mem (s : State) : (softReset s).mem = s.mem := rfl
@[simp] theorem softReset_fault (s : State) : (softReset s).fault = s.fault := rfl
@[simp] theorem softReset_irq (s : State) : (softReset s).irq = s.irq := rfl
@[simp] theorem softReset_cfg (s : State) : (softReset s).cfg = s.cfg := rfl
@[simp] theorem softReset_env (s : State) : (softReset s).env = s.env := rfl
@[simp] theorem softReset_pending (s : State) : (softReset s).pending = s.pending := rfl
@[simp] theorem softReset_ret (s : State) : (softReset s).ret = s.ret := rfl

/-! `setWidth` (R241). -/

@[simp] theorem setWidth_h (width : BusWidth) (s : State) : (setWidth width s).h = { s.h with busWidth := width } := rfl
@[simp] theorem setWidth_q (width : BusWidth) (s : State) : (setWidth width s).q = s.q := rfl
@[simp] theorem setWidth_dma (width : BusWidth) (s : State) : (setWidth width s).dma = s.dma := rfl
@[simp] theorem setWidth_mem (width : BusWidth) (s : State) : (setWidth width s).mem = s.mem := rfl
@[simp] theorem setWidth_fault (width : BusWidth) (s : State) : (setWidth width s).fault = s.fault := rfl
@[simp] theorem setWidth_irq (width : BusWidth) (s : State) : (setWidth width s).irq = s.irq := rfl
@[simp] theorem setWidth_cfg (width : BusWidth) (s : State) : (setWidth width s).cfg = s.cfg := rfl
@[simp] theorem setWidth_env (width : BusWidth) (s : State) : (setWidth width s).env = s.env := rfl
@[simp] theorem setWidth_pending (width : BusWidth) (s : State) : (setWidth width s).pending = s.pending := rfl
@[simp] theorem setWidth_ret (width : BusWidth) (s : State) : (setWidth width s).ret = s.ret := rfl

/-! `setClockOpenDrain` changes CLK and the trace alone (R242). -/

@[simp] theorem setClockOpenDrain_h (s : State) : (setClockOpenDrain s).h = s.h := rfl
@[simp] theorem setClockOpenDrain_q (s : State) : (setClockOpenDrain s).q = s.q := rfl
@[simp] theorem setClockOpenDrain_dma (s : State) : (setClockOpenDrain s).dma = s.dma := rfl
@[simp] theorem setClockOpenDrain_mem (s : State) : (setClockOpenDrain s).mem = s.mem := rfl
@[simp] theorem setClockOpenDrain_fault (s : State) : (setClockOpenDrain s).fault = s.fault := rfl
@[simp] theorem setClockOpenDrain_irq (s : State) : (setClockOpenDrain s).irq = s.irq := rfl
@[simp] theorem setClockOpenDrain_cfg (s : State) : (setClockOpenDrain s).cfg = s.cfg := rfl
@[simp] theorem setClockOpenDrain_env (s : State) : (setClockOpenDrain s).env = s.env := rfl
@[simp] theorem setClockOpenDrain_pending (s : State) : (setClockOpenDrain s).pending = s.pending := rfl
@[simp] theorem setClockOpenDrain_ret (s : State) : (setClockOpenDrain s).ret = s.ret := rfl

/-! `setClockPushPull` changes CLK and the trace alone (R243). -/

@[simp] theorem setClockPushPull_h (hz : Nat) (s : State) : (setClockPushPull hz s).h = s.h := rfl
@[simp] theorem setClockPushPull_q (hz : Nat) (s : State) : (setClockPushPull hz s).q = s.q := rfl
@[simp] theorem setClockPushPull_dma (hz : Nat) (s : State) : (setClockPushPull hz s).dma = s.dma := rfl
@[simp] theorem setClockPushPull_mem (hz : Nat) (s : State) : (setClockPushPull hz s).mem = s.mem := rfl
@[simp] theorem setClockPushPull_fault (hz : Nat) (s : State) : (setClockPushPull hz s).fault = s.fault := rfl
@[simp] theorem setClockPushPull_irq (hz : Nat) (s : State) : (setClockPushPull hz s).irq = s.irq := rfl
@[simp] theorem setClockPushPull_cfg (hz : Nat) (s : State) : (setClockPushPull hz s).cfg = s.cfg := rfl
@[simp] theorem setClockPushPull_env (hz : Nat) (s : State) : (setClockPushPull hz s).env = s.env := rfl
@[simp] theorem setClockPushPull_pending (hz : Nat) (s : State) : (setClockPushPull hz s).pending = s.pending := rfl
@[simp] theorem setClockPushPull_ret (hz : Nat) (s : State) : (setClockPushPull hz s).ret = s.ret := rfl

/-! `dropIrq` drops the transient state (R60). -/

@[simp] theorem dropIrq_regs (s : State) : (dropIrq s).regs = s.regs := rfl
@[simp] theorem dropIrq_h (s : State) : (dropIrq s).h = s.h := rfl
@[simp] theorem dropIrq_q (s : State) : (dropIrq s).q = s.q := rfl
@[simp] theorem dropIrq_dma (s : State) : (dropIrq s).dma = s.dma := rfl
@[simp] theorem dropIrq_mem (s : State) : (dropIrq s).mem = s.mem := rfl
@[simp] theorem dropIrq_trace (s : State) : (dropIrq s).trace = s.trace := rfl
@[simp] theorem dropIrq_fault (s : State) : (dropIrq s).fault = s.fault := rfl
@[simp] theorem dropIrq_irq (s : State) : (dropIrq s).irq = IrqLocal.clear := rfl
@[simp] theorem dropIrq_cfg (s : State) : (dropIrq s).cfg = s.cfg := rfl
@[simp] theorem dropIrq_env (s : State) : (dropIrq s).env = s.env := rfl
@[simp] theorem dropIrq_pending (s : State) : (dropIrq s).pending = s.pending := rfl
@[simp] theorem dropIrq_ret (s : State) : (dropIrq s).ret = s.ret := rfl

/-! `irqEnter` is one draw from ST0 (R190). -/

@[simp] theorem irqEnter_regs (s : State) : (irqEnter s).regs = s.regs := rfl
@[simp] theorem irqEnter_h (s : State) : (irqEnter s).h = s.h := rfl
@[simp] theorem irqEnter_q (s : State) : (irqEnter s).q = s.q := rfl
@[simp] theorem irqEnter_dma (s : State) : (irqEnter s).dma = s.dma := rfl
@[simp] theorem irqEnter_mem (s : State) : (irqEnter s).mem = s.mem := rfl
@[simp] theorem irqEnter_trace (s : State) : (irqEnter s).trace = s.trace ++ [.regR (.drawn .st0) (drawnWord .st0 s)] := rfl
@[simp] theorem irqEnter_fault (s : State) : (irqEnter s).fault = s.fault := rfl
@[simp] theorem irqEnter_cfg (s : State) : (irqEnter s).cfg = s.cfg := rfl
@[simp] theorem irqEnter_env (s : State) : (irqEnter s).env = envAfterWord .st0 s.env := rfl
@[simp] theorem irqEnter_pending (s : State) : (irqEnter s).pending = s.pending := rfl
@[simp] theorem irqEnter_ret (s : State) : (irqEnter s).ret = s.ret := rfl

/-! `irqSpurious` (R191). -/

@[simp] theorem irqSpurious_regs (s : State) : (irqSpurious s).regs = s.regs.set .im (noInterrupts s.cfg.layout) := rfl
@[simp] theorem irqSpurious_h (s : State) : (irqSpurious s).h = s.h := rfl
@[simp] theorem irqSpurious_q (s : State) : (irqSpurious s).q = s.q := rfl
@[simp] theorem irqSpurious_dma (s : State) : (irqSpurious s).dma = s.dma := rfl
@[simp] theorem irqSpurious_mem (s : State) : (irqSpurious s).mem = s.mem := rfl
@[simp] theorem irqSpurious_trace (s : State) : (irqSpurious s).trace = s.trace ++ [.regW .im (noInterrupts s.cfg.layout)] := rfl
@[simp] theorem irqSpurious_fault (s : State) : (irqSpurious s).fault = s.fault := rfl
@[simp] theorem irqSpurious_irq (s : State) : (irqSpurious s).irq = s.irq := rfl
@[simp] theorem irqSpurious_cfg (s : State) : (irqSpurious s).cfg = s.cfg := rfl
@[simp] theorem irqSpurious_env (s : State) : (irqSpurious s).env = s.env := rfl
@[simp] theorem irqSpurious_pending (s : State) : (irqSpurious s).pending = s.pending := rfl
@[simp] theorem irqSpurious_ret (s : State) : (irqSpurious s).ret = .interrupt false := rfl

/-! `freshSession` (R255, R62). -/

@[simp] theorem freshSession_regs (s : State) : (freshSession s).regs = s.regs := rfl
@[simp] theorem freshSession_h (s : State) : (freshSession s).h = { HostState.reset with attached := true, refClockHz := s.h.refClockHz, dmaOk := s.h.dmaOk } := rfl
@[simp] theorem freshSession_q (s : State) : (freshSession s).q = none := rfl
@[simp] theorem freshSession_dma (s : State) : (freshSession s).dma = { s.dma with tmplRead := templateRead s.cfg, tmplWrite := templateWrite s.cfg, desc := [] } := rfl
@[simp] theorem freshSession_mem (s : State) : (freshSession s).mem = s.mem := rfl
@[simp] theorem freshSession_trace (s : State) : (freshSession s).trace = s.trace := rfl
@[simp] theorem freshSession_fault (s : State) : (freshSession s).fault = s.fault := rfl
@[simp] theorem freshSession_irq (s : State) : (freshSession s).irq = s.irq := rfl
@[simp] theorem freshSession_cfg (s : State) : (freshSession s).cfg = s.cfg := rfl
@[simp] theorem freshSession_env (s : State) : (freshSession s).env = s.env := rfl
@[simp] theorem freshSession_pending (s : State) : (freshSession s).pending = s.pending := rfl
@[simp] theorem freshSession_ret (s : State) : (freshSession s).ret = s.ret := rfl

/-! `freeChannels` (R258). -/

@[simp] theorem freeChannels_regs (s : State) : (freeChannels s).regs = s.regs := rfl
@[simp] theorem freeChannels_h (s : State) : (freeChannels s).h = { s.h with dmaOk := false } := rfl
@[simp] theorem freeChannels_q (s : State) : (freeChannels s).q = s.q := rfl
@[simp] theorem freeChannels_dma (s : State) : (freeChannels s).dma = { s.dma with chanRead := none, chanWrite := none } := rfl
@[simp] theorem freeChannels_mem (s : State) : (freeChannels s).mem = s.mem := rfl
@[simp] theorem freeChannels_trace (s : State) : (freeChannels s).trace = s.trace ++ [.dmaFree .read] ++ [.dmaFree .write] := rfl
@[simp] theorem freeChannels_fault (s : State) : (freeChannels s).fault = s.fault := rfl
@[simp] theorem freeChannels_irq (s : State) : (freeChannels s).irq = s.irq := rfl
@[simp] theorem freeChannels_cfg (s : State) : (freeChannels s).cfg = s.cfg := rfl
@[simp] theorem freeChannels_env (s : State) : (freeChannels s).env = s.env := rfl
@[simp] theorem freeChannels_pending (s : State) : (freeChannels s).pending = s.pending := rfl
@[simp] theorem freeChannels_ret (s : State) : (freeChannels s).ret = s.ret := rfl

end Sys2Proof.Machine
end

