-- ==== Sys2Proof/Laws/Pio.lean ====
section
/-! SUPPORT. Everything the PIO walker can do (R160): one inversion lemma per operation. -/

namespace Sys2Proof.Machine

/-! ### The width (R161) -/

theorem Width.bytes_pos (w : Width) : 0 < w.bytes := by cases w <;> decide

/-- The width divides the pointer and the length it was chosen for (R76, R160). -/
theorem widthFor_dvd (p m : Nat) : p % (widthFor p m).bytes = 0 ∧ m % (widthFor p m).bytes = 0 := by
  unfold widthFor
  split_ifs with h1 h2
  · exact h1
  · exact h2
  · exact ⟨Nat.mod_one p, Nat.mod_one m⟩

/-- As many accesses as fit the chunk move exactly the chunk. -/
theorem widthFor_exact (p m : Nat) : m / (widthFor p m).bytes * (widthFor p m).bytes = m :=
  Nat.div_mul_cancel (Nat.dvd_of_mod_eq_zero (widthFor_dvd p m).2)

/-! ### One access pair -/

/-- Everything one access pair can do: a load and a FIFO write, or a FIFO read and a store. -/
theorem pioAccess_eq_next {dir : Dir} {w : Width} {a : Nat} {s t : State}
    (h : pioAccess dir w a s = .next t) :
    a + w.bytes ≤ 2 ^ ADDR_WIDTH ∧
    ((dir = .write ∧ t = fifoWrite w (memRead a w s).1 (memRead a w s).2) ∨
     (dir = .read ∧ t = memWrite a w (fifoRead w s).1 (fifoRead w s).2)) := by
  unfold pioAccess at h
  split at h
  · rename_i ha
    refine ⟨of_decide_eq_true ha, ?_⟩
    cases dir with
    | write => exact .inl ⟨rfl, by cases h; rfl⟩
    | read => exact .inr ⟨rfl, by cases h; rfl⟩
  · cases h

/-- An access pair inside the address space is made. -/
theorem pioAccess_next {dir : Dir} {w : Width} {a : Nat} {s : State} (h : a + w.bytes ≤ 2 ^ ADDR_WIDTH) :
    ∃ t, pioAccess dir w a s = .next t := by
  cases dir <;> simp [pioAccess, inHostMemory, h]

/-- An access pair changes memory, the trace and the draws alone. -/
theorem pioAccess_frame {dir : Dir} {w : Width} {a : Nat} {s t : State}
    (h : pioAccess dir w a s = .next t) :
    t = { s with mem := t.mem, trace := t.trace, env := t.env } := by
  rcases (pioAccess_eq_next h).2 with ⟨_, rfl⟩ | ⟨_, rfl⟩ <;> rfl

/-- An access pair leaves the bytes outside it alone, and all of them where it loads. -/
theorem pioAccess_mem {dir : Dir} {w : Width} {a : Nat} {s t : State} (h : pioAccess dir w a s = .next t)
    {c : Nat} (hc : dir = .write ∨ c < a ∨ a + w.bytes ≤ c) :
    Memory.get t.mem c = Memory.get s.mem c := by
  rcases (pioAccess_eq_next h).2 with ⟨_, rfl⟩ | ⟨hd, rfl⟩
  · rfl
  · rcases hc with hc | hc
    · rw [hc] at hd; cases hd
    · simpa using Memory.writeLE_get_outside hc

/-- An access pair keeps the canonical form. -/
theorem pioAccess_wf {dir : Dir} {w : Width} {a : Nat} {s t : State} (h : pioAccess dir w a s = .next t)
    (hm : s.mem.wf = true) : t.mem.wf = true := by
  obtain ⟨ha, ⟨_, rfl⟩ | ⟨_, rfl⟩⟩ := pioAccess_eq_next h
  · exact hm
  · simpa using Memory.writeLE_wf hm ha

/-- An access pair appends to the trace. -/
theorem pioAccess_trace {dir : Dir} {w : Width} {a : Nat} {s t : State}
    (h : pioAccess dir w a s = .next t) : ∃ es, t.trace = s.trace ++ es := by
  rcases (pioAccess_eq_next h).2 with ⟨_, rfl⟩ | ⟨_, rfl⟩ <;> exact ⟨_, by simp; rfl⟩

/-! ### A run of access pairs -/

/-- A step of the loop, taken apart. -/
theorem pioAccesses_succ {dir : Dir} {w : Width} {n a : Nat} {s t : State} (hf : s.fault = none)
    (h : pioAccesses dir w (n + 1) a s = .next t) :
    ∃ u, pioAccess dir w a s = .next u ∧ u.fault = none ∧
      pioAccesses dir w n (a + w.bytes) u = .next t := by
  obtain ⟨u, hu, ⟨hbad, _⟩ | ⟨hok, hr⟩⟩ := andThen_eq_next h
  · refine absurd ?_ hbad
    rw [pioAccess_frame hu]
    exact hf
  · exact ⟨u, hu, hok, hr⟩

/-- A run of access pairs changes memory, the trace and the draws alone. -/
theorem pioAccesses_frame {dir : Dir} {w : Width} {n : Nat} : ∀ {a : Nat} {s t : State}, s.fault = none →
    pioAccesses dir w n a s = .next t → t = { s with mem := t.mem, trace := t.trace, env := t.env } := by
  induction n with
  | zero => intro a s t _ h; cases h; rfl
  | succ n ih =>
    intro a s t hf h
    obtain ⟨u, hu, hok, hr⟩ := pioAccesses_succ hf h
    rw [ih hok hr, pioAccess_frame hu]

/-- A run of access pairs inside the address space is made. -/
theorem pioAccesses_next {dir : Dir} {w : Width} {n : Nat} : ∀ {a : Nat} {s : State}, s.fault = none →
    a + n * w.bytes ≤ 2 ^ ADDR_WIDTH → ∃ t, pioAccesses dir w n a s = .next t := by
  induction n with
  | zero => intro a s _ _; exact ⟨s, rfl⟩
  | succ n ih =>
    intro a s hf h
    rw [Nat.succ_mul] at h
    obtain ⟨u, hu⟩ := pioAccess_next (dir := dir) (w := w) (a := a) (s := s) (by omega)
    have hok : u.fault = none := by rw [pioAccess_frame hu]; exact hf
    obtain ⟨t, ht⟩ := ih (a := a + w.bytes) hok (by omega)
    exact ⟨t, by rw [pioAccesses, hu, andThen_next hok]; exact ht⟩

/-- A run of access pairs leaves the bytes outside it alone, and all of them where it loads. -/
theorem pioAccesses_mem {dir : Dir} {w : Width} {n : Nat} : ∀ {a : Nat} {s t : State}, s.fault = none →
    pioAccesses dir w n a s = .next t → ∀ {c : Nat}, (dir = .write ∨ c < a ∨ a + n * w.bytes ≤ c) →
    Memory.get t.mem c = Memory.get s.mem c := by
  induction n with
  | zero => intro a s t _ h c _; cases h; rfl
  | succ n ih =>
    intro a s t hf h c hc
    obtain ⟨u, hu, hok, hr⟩ := pioAccesses_succ hf h
    rw [Nat.succ_mul] at hc
    rw [ih hok hr (hc.imp_right fun h => h.imp (by omega) (by omega)),
      pioAccess_mem hu (hc.imp_right fun h => h.imp id (by omega))]

/-- A run of access pairs keeps the canonical form. -/
theorem pioAccesses_wf {dir : Dir} {w : Width} {n : Nat} : ∀ {a : Nat} {s t : State}, s.fault = none →
    pioAccesses dir w n a s = .next t → s.mem.wf = true → t.mem.wf = true := by
  induction n with
  | zero => intro a s t _ h hm; cases h; exact hm
  | succ n ih =>
    intro a s t hf h hm
    obtain ⟨u, hu, hok, hr⟩ := pioAccesses_succ hf h
    exact ih hok hr (pioAccess_wf hu hm)

/-- A run of access pairs appends to the trace. -/
theorem pioAccesses_trace {dir : Dir} {w : Width} {n : Nat} : ∀ {a : Nat} {s t : State}, s.fault = none →
    pioAccesses dir w n a s = .next t → ∃ es, t.trace = s.trace ++ es := by
  induction n with
  | zero => intro a s t _ h; cases h; exact ⟨[], by simp⟩
  | succ n ih =>
    intro a s t hf h
    obtain ⟨u, hu, hok, hr⟩ := pioAccesses_succ hf h
    obtain ⟨e1, h1⟩ := pioAccess_trace hu
    obtain ⟨e2, h2⟩ := ih hok hr
    exact ⟨e1 ++ e2, by rw [h2, h1, List.append_assoc]⟩

/-! ### One call -/

/-- Everything the advance can do: stay in the segment, go to the next one, or raise the fault. -/
theorem pioAdvance_eq_next {d : DataPhase} {s t : State} (h : pioAdvance d s = .next t) :
    (s.h.segLeft ≠ 0 ∧ t = s) ∨
    (s.h.segLeft = 0 ∧ 0 < s.h.bytesLeft ∧ d.sg.length ≤ s.h.sgIdx + 1 ∧
      t = { s with fault := some .pioCursorExhausted, ret := .halted }) ∨
    (s.h.segLeft = 0 ∧ ∃ g, d.sg[s.h.sgIdx + 1]? = some g ∧
      t = { s with h := { s.h with sgIdx := s.h.sgIdx + 1, bufPtr := g.addr,
                                   segLeft := min g.len s.h.bytesLeft } }) := by
  unfold pioAdvance at h
  split_ifs at h with h0 h1
  · exact .inr (.inl ⟨h0, h1.1, h1.2, by cases h; rfl⟩)
  · split at h
    · rename_i g hg
      exact .inr (.inr ⟨h0, g, hg, by cases h; rfl⟩)
    · cases h
  · exact .inl ⟨h0, by cases h; rfl⟩

/-- Everything the movement can do: the accesses at one width, then the counters (R160). -/
theorem pioMove_eq_next {dir : Dir} {n : Nat} {s t : State} (hf : s.fault = none)
    (h : pioMove dir n s = .next t) :
    ∃ u, pioAccesses dir (widthFor s.h.bufPtr (pioChunk n s))
        (pioChunk n s / (widthFor s.h.bufPtr (pioChunk n s)).bytes) s.h.bufPtr s = .next u ∧
      t = pioCount (pioChunk n s) u := by
  obtain ⟨u, hu, ⟨hbad, _⟩ | ⟨_, hr⟩⟩ := andThen_eq_next h
  · refine absurd ?_ hbad
    rw [pioAccesses_frame hf hu]
    exact hf
  · exact ⟨u, hu, by cases hr; rfl⟩

/-- The movement succeeds where the chunk lies inside the address space. -/
theorem pioMove_next {dir : Dir} {n : Nat} {s : State} (hf : s.fault = none)
    (h : s.h.bufPtr + pioChunk n s ≤ 2 ^ ADDR_WIDTH) : ∃ t, pioMove dir n s = .next t := by
  obtain ⟨u, hu⟩ := pioAccesses_next (dir := dir) (w := widthFor s.h.bufPtr (pioChunk n s))
    (n := pioChunk n s / (widthFor s.h.bufPtr (pioChunk n s)).bytes) (a := s.h.bufPtr) hf
    (by rw [widthFor_exact]; exact h)
  have hok : u.fault = none := by rw [pioAccesses_frame hf hu]; exact hf
  exact ⟨_, by rw [pioMove, hu, andThen_next hok]⟩

/-- The movement changes the cursor, memory, the trace and the draws alone. -/
theorem pioMove_frame {dir : Dir} {n : Nat} {s t : State} (hf : s.fault = none)
    (h : pioMove dir n s = .next t) :
    t = { s with
      h := { s.h with bufPtr := s.h.bufPtr + pioChunk n s, segLeft := s.h.segLeft - pioChunk n s,
                      bytesLeft := s.h.bytesLeft - pioChunk n s }
      mem := t.mem, trace := t.trace, env := t.env } := by
  obtain ⟨u, hu, rfl⟩ := pioMove_eq_next hf h
  rw [pioAccesses_frame hf hu]
  rfl

/-- Everything one call can do: the fault, or the segment chosen and the chunk moved (R160). -/
theorem pioXfer_eq_next {n : Nat} {s t : State} (hf : s.fault = none) (h : pioXfer n s = .next t) :
    ∃ q d dir, s.q = some q ∧ q.req.data = some d ∧ s.h.dataDir = some dir ∧
      ((s.h.segLeft = 0 ∧ 0 < s.h.bytesLeft ∧ d.sg.length ≤ s.h.sgIdx + 1 ∧
          t = { s with fault := some .pioCursorExhausted, ret := .halted }) ∨
       ∃ u, pioAdvance d s = .next u ∧ u.fault = none ∧ pioMove dir n u = .next t) := by
  obtain ⟨q, d, hq, hd, h⟩ := withData_eq_next h
  obtain ⟨dir, hdir, h⟩ := withDir_eq_next h
  refine ⟨q, d, dir, hq, hd, hdir, ?_⟩
  obtain ⟨u, hu, ⟨hbad, rfl⟩ | ⟨hok, hr⟩⟩ := andThen_eq_next h
  · rcases pioAdvance_eq_next hu with ⟨_, rfl⟩ | ⟨h0, h1, h2, rfl⟩ | ⟨_, g, _, rfl⟩
    · exact absurd hf hbad
    · exact .inl ⟨h0, h1, h2, rfl⟩
    · exact absurd hf hbad
  · exact .inr ⟨u, hu, hok, hr⟩

/-- One call changes the cursor, memory, the trace and the draws, or raises the fault and answers so. -/
theorem pioXfer_frame {n : Nat} {s t : State} (hf : s.fault = none) (h : pioXfer n s = .next t) :
    t = { s with fault := some .pioCursorExhausted, ret := .halted } ∨
    t = { s with
      h := { s.h with sgIdx := t.h.sgIdx, bufPtr := t.h.bufPtr, segLeft := t.h.segLeft,
                      bytesLeft := t.h.bytesLeft }
      mem := t.mem, trace := t.trace, env := t.env } := by
  obtain ⟨q, d, dir, hq, hd, hdir, ⟨_, _, _, rfl⟩ | ⟨u, hu, hok, hm⟩⟩ := pioXfer_eq_next hf h
  · exact .inl rfl
  · right
    have h2 := pioMove_frame hok hm
    rcases pioAdvance_eq_next hu with ⟨_, rfl⟩ | ⟨_, _, _, rfl⟩ | ⟨_, g, _, rfl⟩
    · rw [h2]
    · simp at hok
    · rw [h2]

/-- One call keeps the canonical form of memory. -/
theorem pioXfer_wf {n : Nat} {s t : State} (hf : s.fault = none) (h : pioXfer n s = .next t)
    (hm : s.mem.wf = true) : t.mem.wf = true := by
  obtain ⟨q, d, dir, hq, hd, hdir, ⟨_, _, _, rfl⟩ | ⟨u, hu, hok, hmv⟩⟩ := pioXfer_eq_next hf h
  · exact hm
  · have hu' : u.mem.wf = true := by
      rcases pioAdvance_eq_next hu with ⟨_, rfl⟩ | ⟨_, _, _, rfl⟩ | ⟨_, g, _, rfl⟩ <;> exact hm
    obtain ⟨v, hv, rfl⟩ := pioMove_eq_next hok hmv
    have := pioAccesses_wf hok hv hu'
    exact this

end Sys2Proof.Machine
end

