-- ==== Sys2Proof/Laws/Transfer.lean ====
section
/-! SUPPORT. Everything the transfer strategy selector and the issue of a command can do (R141 to R147,
R171, R178): one inversion lemma per operation. -/

namespace Sys2Proof.Machine

/-! ### DMA_SETUP -/

/-- Programming a chain appends its events and changes nothing else. -/
theorem programChain_eq (ch : Option Nat) (es : List Desc) : ∀ (i : Nat) (s : State),
    programChain ch i es s = { s with trace := s.trace ++ progEvents ch i es } := by
  induction es with
  | nil => intro i s; simp [programChain, progEvents]
  | cons e rest ih => intro i s; simp [programChain, progEvents, ih, emit]

/-- Programming and starting the channel, field by field (R144). -/
theorem dmaProgram_eq (dir : Dir) (msg : List Seg) (s : State) :
    dmaProgram dir msg s =
      { s with
        trace := s.trace ++ progEvents (s.dma.chan dir) 0 (descChain (s.dma.tmpl dir) dir 0 msg)
          ++ [.dmaStart (s.dma.chan dir)]
        dma := { s.dma with desc := descChain (s.dma.tmpl dir) dir 0 msg }
        h := { s.h with msg := msg } } := by
  simp [dmaProgram, programChain_eq, emit]

/-- Everything DMA_SETUP can do (R144). -/
theorem dmaSetup_cases (d : DataPhase) (dir : Dir) (s : State) :
    (allAligned s.threshold d.sg = false ∧ dmaSetup d dir s = (false, s)) ∨
    (allAligned s.threshold d.sg = true ∧ (drawMap d.sg s).1 = none ∧
      dmaSetup d dir s = (false, emit (.dmaMap d.sg dir none) (drawMap d.sg s).2)) ∨
    (allAligned s.threshold d.sg = true ∧ ∃ msg, (drawMap d.sg s).1 = some msg ∧
      ((allAligned s.threshold msg = false ∧ dmaSetup d dir s =
          (false, emit (.dmaUnmap d.sg dir) (emit (.dmaMap d.sg dir (some msg)) (drawMap d.sg s).2))) ∨
       (allAligned s.threshold msg = true ∧ dmaSetup d dir s =
          (true, dmaProgram dir msg (emit (.dmaMap d.sg dir (some msg)) (drawMap d.sg s).2))))) := by
  cases h : allAligned s.threshold d.sg with
  | false => exact .inl ⟨rfl, by simp [dmaSetup, h]⟩
  | true =>
    right
    cases hr : (drawMap d.sg s).1 with
    | none => exact .inl ⟨rfl, rfl, by simp [dmaSetup, h, hr]⟩
    | some msg =>
      refine .inr ⟨rfl, msg, rfl, ?_⟩
      cases hm : allAligned s.threshold msg with
      | false => exact .inl ⟨rfl, by simp [dmaSetup, h, hr, hm]⟩
      | true => exact .inr ⟨rfl, by simp [dmaSetup, h, hr, hm]⟩

/-- DMA_SETUP changes the mapped list, the chain, the trace and the draws alone. -/
theorem dmaSetup_frame (d : DataPhase) (dir : Dir) (s : State) :
    (dmaSetup d dir s).2 = { s with
      h := { s.h with msg := (dmaSetup d dir s).2.h.msg }
      dma := { s.dma with desc := (dmaSetup d dir s).2.dma.desc }
      trace := (dmaSetup d dir s).2.trace, env := (dmaSetup d dir s).2.env } := by
  rcases dmaSetup_cases d dir s with ⟨_, h⟩ | ⟨_, _, h⟩ | ⟨_, msg, _, ⟨_, h⟩ | ⟨_, h⟩⟩ <;> rw [h]
  · rfl
  · rfl
  · simp only [dmaProgram_eq]
    rfl

/-! ### PREPARE -/

/-- Everything PIO_INIT can do (R147). -/
theorem pioInit_eq_next {d : DataPhase} {s t : State} (h : pioInit d s = .next t) :
    ∃ g rest, d.sg = g :: rest ∧
      t = { s with h := { s.h with sgIdx := 0, bufPtr := g.addr, segLeft := min g.len s.h.bytesLeft } } := by
  unfold pioInit at h
  split at h
  · cases h
  · rename_i g rest hg
    exact ⟨g, rest, hg, by cases h; rfl⟩

/-- Everything the choice of strategy can do: DMA where every condition of R143 holds, PIO otherwise. -/
theorem prepareStrategy_eq_next {d : DataPhase} {s t : State} (h : prepareStrategy d s = .next t) :
    (dmaEligible d s = true ∧ (dmaSetup d d.dir s).1 = true ∧ t = selectDma (dmaSetup d d.dir s).2) ∨
    (dmaEligible d s = true ∧ (dmaSetup d d.dir s).1 = false ∧
      pioInit d (dmaSetup d d.dir s).2 = .next t) ∨
    (dmaEligible d s = false ∧ pioInit d s = .next t) := by
  unfold prepareStrategy at h
  cases he : dmaEligible d s with
  | false => exact .inr (.inr ⟨rfl, by simpa [he] using h⟩)
  | true =>
    cases hs : (dmaSetup d d.dir s).1 with
    | false => exact .inr (.inl ⟨rfl, rfl, by simpa [he, hs] using h⟩)
    | true => exact .inl ⟨rfl, rfl, by simpa [he, hs] using h.symm⟩

/-- Everything PREPARE can do (R141). -/
theorem prepare_eq_next {s t : State} (h : prepare s = .next t) :
    ∃ q, s.q = some q ∧ ((q.req.data = none ∧ t = prepareNoData s) ∨
      ∃ d, q.req.data = some d ∧ prepareStrategy d (prepareRegisters d s) = .next t) := by
  obtain ⟨q, hq, h⟩ := withQ_eq_next h
  refine ⟨q, hq, ?_⟩
  cases hd : q.req.data with
  | none => exact .inl ⟨rfl, by simpa [hd] using h.symm⟩
  | some d => exact .inr ⟨d, rfl, by simpa [hd] using h⟩

/-! ### BUSY_CHECK and CMD_START -/

/-- The poll changes the trace and the draws alone (R171). -/
theorem busyPoll_frame : ∀ (n : Nat) (s : State),
    (busyPoll n s).2 = { s with trace := (busyPoll n s).2.trace, env := (busyPoll n s).2.env }
  | 0, _ => rfl
  | n + 1, s => by
    unfold busyPoll
    cases hb : busyOf s.cfg.layout (regDraw .st1 s).1 with
    | false => simp [hb]; rfl
    | true =>
      simp only [hb, if_true]
      rw [busyPoll_frame n (regDraw .st1 s).2]
      rfl

/-- Everything CMD_START can do (R178): the slot recorded and TOR written, the pre-load where one is due,
then the three writes and the phase. -/
theorem cmdStart_eq_next {slot : Slot} {s t : State} (hf : s.fault = none)
    (h : cmdStart slot s = .next t) :
    ∃ q c, s.q = some q ∧ q.command slot = some c ∧
      let v := { s with h := { s.h with cmd := some slot } }
      let u := regWrite .tor (value16 CTO_MAX) v
      ((preloads u = false ∧ t = issue slot c.arg (commandWord q c v) (armedMask u) u) ∨
       (preloads u = true ∧ ∃ x, pioXfer u.threshold u = .next x ∧
         ((x.fault ≠ none ∧ t = x) ∨
          (x.fault = none ∧ t = issue slot c.arg (commandWord q c v) (armedMask u) x)))) := by
  obtain ⟨q, hq, h⟩ := withQ_eq_next h
  cases hc : q.command slot with
  | none => simp [hc] at h
  | some c =>
    refine ⟨q, c, hq, hc, ?_⟩
    simp only [hc] at h
    obtain ⟨x, hx, hr⟩ := andThen_eq_next h
    cases hp : preloads (regWrite .tor (value16 CTO_MAX) { s with h := { s.h with cmd := some slot } }) with
    | false =>
      simp only [hp, Bool.false_eq_true, if_false] at hx
      cases hx
      rcases hr with ⟨hbad, _⟩ | ⟨_, hr⟩
      · exact absurd hf hbad
      · exact .inl ⟨hp, by cases hr; rfl⟩
    | true =>
      simp only [hp, if_true] at hx
      refine .inr ⟨hp, x, hx, hr.imp_right fun hr => ⟨hr.1, by cases hr.2; rfl⟩⟩

end Sys2Proof.Machine
end

