-- ==== Sys2Proof/Laws/Interrupt.lean ====
section
/-! SUPPORT. Everything the enders, the classification rules, the service loop and the bounded polls can
do (R192 to R204, R220 to R226, R245): one inversion lemma per operation. -/

namespace Sys2Proof.Machine

/-! ### COMPLETE, DATA_TEARDOWN -/

/-- Everything COMPLETE can do (R226). -/
theorem complete_eq_next {s t : State} (h : complete s = .next t) :
    ∃ q, s.q = some q ∧ t = completeRequest q s := by
  obtain ⟨q, hq, h⟩ := withQ_eq_next h
  exact ⟨q, hq, by cases h; rfl⟩

/-- Everything DATA_TEARDOWN can do (R223). -/
theorem dataTeardown_eq_next {s t : State} (h : dataTeardown s = .next t) :
    (s.h.doDma = false ∧ t = clearData s) ∨
    (s.h.doDma = true ∧ ∃ q d dir, s.q = some q ∧ q.req.data = some d ∧ s.h.dataDir = some dir ∧
      t = clearData (releaseDma d dir s)) := by
  unfold dataTeardown at h
  split_ifs at h with hd
  · obtain ⟨q, d, hq, hqd, h⟩ := withData_eq_next h
    obtain ⟨dir, hdir, h⟩ := withDir_eq_next h
    exact .inr ⟨hd, q, d, dir, hq, hqd, hdir, by cases h; rfl⟩
  · exact .inl ⟨by simpa using hd, by cases h; rfl⟩

/-- The teardown clears the in-flight data phase and may append to the trace; nothing else. -/
theorem dataTeardown_frame {s t : State} (h : dataTeardown s = .next t) :
    t = { s with h := { s.h with data := false, doDma := false, dataDir := none, msg := [] }
                 trace := t.trace } := by
  rcases dataTeardown_eq_next h with ⟨_, rfl⟩ | ⟨_, q, d, dir, _, _, _, rfl⟩ <;> rfl

/-! ### CMD_END -/

/-- The latch changes the trace and the draws alone (R221). -/
theorem latch_frame (c : Command) (dst : Response) (s : State) :
    (latch c dst s).2 = { s with trace := (latch c dst s).2.trace, env := (latch c dst s).2.env } := by
  unfold latch
  cases c.resp <;> rfl

/-- Everything the end of CMD_END can do (R220, R222). -/
theorem finishCommand_eq_next {q : InFlight} {slot : Slot} {s t : State} (hf : s.fault = none)
    (h : finishCommand q slot s = .next t) :
    (s.h.data = true ∧ q.result.error slot = .none ∧
      t = { s with h := { s.h with phase := .dataInFlight } }) ∨
    (s.h.data = true ∧ q.result.error slot ≠ .none ∧
      ∃ u, dataTeardown s = .next u ∧ complete u = .next t) ∨
    (s.h.data = false ∧ complete s = .next t) := by
  unfold finishCommand at h
  cases hd : s.h.data with
  | false => exact .inr (.inr ⟨rfl, by simpa [hd] using h⟩)
  | true =>
    by_cases he : q.result.error slot = .none
    · exact .inl ⟨rfl, he, by simpa [hd, he] using h.symm⟩
    · have hne : (q.result.error slot == ErrorKind.none) = false := by simpa using he
      simp only [hd, hne, Bool.and_false, Bool.false_eq_true, if_false, if_true] at h
      obtain ⟨u, hu, ⟨hbad, _⟩ | ⟨_, hr⟩⟩ := andThen_eq_next h
      · refine absurd ?_ hbad
        rw [dataTeardown_frame hu]
        exact hf
      · exact .inr (.inl ⟨rfl, he, u, hu, hr⟩)

/-- Everything CMD_END can do (R220). -/
theorem cmdEnd_eq_next {s t : State} (h : cmdEnd s = .next t) :
    ∃ q slot c, s.q = some q ∧ s.h.cmd = some slot ∧ q.command slot = some c ∧
      finishCommand q slot (latchInto q slot c s) = .next t := by
  obtain ⟨q, hq, h⟩ := withQ_eq_next h
  cases hs : s.h.cmd with
  | none => simp [hs] at h
  | some slot =>
    cases hc : q.command slot with
    | none => simp [hs, hc] at h
    | some c => exact ⟨q, slot, c, hq, rfl, hc, by simpa [hs, hc] using h⟩

/-! ### XFER_END -/

/-- Everything XFER_END can do (R224): the teardown, then the completion or the stop command. -/
theorem xferEnd_eq_next {s t : State} (hf : s.fault = none) (h : xferEnd s = .next t) :
    ∃ u q, dataTeardown s = .next u ∧ s.q = some q ∧
      (((q.req.stop = none ∨ q.result.cmdError ≠ .none) ∧ complete u = .next t) ∨
       (q.req.stop ≠ none ∧ q.result.cmdError = .none ∧ cmdStart .stop u = .next t)) := by
  obtain ⟨u, hu, ⟨hbad, _⟩ | ⟨_, hr⟩⟩ := andThen_eq_next h
  · refine absurd ?_ hbad
    rw [dataTeardown_frame hu]
    exact hf
  · obtain ⟨q, hq, hr⟩ := withQ_eq_next hr
    have hq' : s.q = some q := by rw [dataTeardown_frame hu] at hq; exact hq
    refine ⟨u, q, hu, hq', ?_⟩
    split_ifs at hr with hc
    · exact .inl ⟨by simpa using hc, hr⟩
    · simp only [Bool.or_eq_true, not_or] at hc
      exact .inr ⟨by simpa using hc.1, by simpa using hc.2, hr⟩

/-! ### The classification rules -/

/-- Everything rule 1 can do (R195). -/
theorem ruleDataDone_eq_next {s t : State} (h : ruleDataDone s = .next t) :
    ((s.combined.datdne && s.h.data) = false ∧ t = s) ∨
    ((s.combined.datdne && s.h.data) = true ∧
      ∃ u, (if residualDue s then pioXfer s.h.bytesLeft s else .next s) = .next u ∧
        ((u.fault ≠ none ∧ t = u) ∨
         (u.fault = none ∧ ∃ q d, u.q = some q ∧ q.req.data = some d ∧
           t = setResult q { q.result with bytesXfered := q.result.bytesXfered + dataTotal d }
             (raiseEndXfer u)))) := by
  unfold ruleDataDone at h
  cases hc : (s.combined.datdne && s.h.data) with
  | false => exact .inl ⟨rfl, by simpa [hc] using h.symm⟩
  | true =>
    simp only [hc, if_true] at h
    obtain ⟨u, hu, hr⟩ := andThen_eq_next h
    refine .inr ⟨rfl, u, hu, hr.imp_right fun hr => ⟨hr.1, ?_⟩⟩
    obtain ⟨q, d, hq, hd, hr⟩ := withData_eq_next hr.2
    exact ⟨q, d, hq, hd, by cases hr; rfl⟩

/-- Everything rule 2 can do (R196). -/
theorem ruleDataTimeout_eq_next {s t : State} (h : ruleDataTimeout s = .next t) :
    ((s.combined.toutrd && s.h.data) = false ∧ t = s) ∨
    ((s.combined.toutrd && s.h.data) = true ∧ ∃ q, s.q = some q ∧
      t = raiseNeedReset (raiseEndXfer (setResult q { q.result with dataError := .timeout } s))) := by
  unfold ruleDataTimeout at h
  cases hc : (s.combined.toutrd && s.h.data) with
  | false => exact .inl ⟨rfl, by simpa [hc] using h.symm⟩
  | true =>
    simp only [hc, if_true] at h
    obtain ⟨q, hq, h⟩ := withQ_eq_next h
    exact .inr ⟨rfl, q, hq, by cases h; rfl⟩

/-- The kind rule 3 surfaces reads DRSP where the write bit is set, and changes the trace and the draws
alone (R197). -/
theorem dataCrcKind_frame (s : State) :
    (dataCrcKind s).2 = { s with trace := (dataCrcKind s).2.trace, env := (dataCrcKind s).2.env } := by
  unfold dataCrcKind
  split_ifs <;> rfl

/-- Everything rule 3 can do (R197). -/
theorem ruleDataCrc_eq_next {s t : State} (h : ruleDataCrc s = .next t) :
    (((s.combined.crcwr || s.combined.crcrd) && s.h.data) = false ∧ t = s) ∨
    (((s.combined.crcwr || s.combined.crcrd) && s.h.data) = true ∧ ∃ q, s.q = some q ∧
      t = raiseNeedReset (raiseEndXfer
        (setResult q { q.result with dataError := (dataCrcKind s).1 } (dataCrcKind s).2))) := by
  unfold ruleDataCrc at h
  cases hc : ((s.combined.crcwr || s.combined.crcrd) && s.h.data) with
  | false => exact .inl ⟨rfl, by simpa [hc] using h.symm⟩
  | true =>
    simp only [hc, if_true] at h
    obtain ⟨q, hq, h⟩ := withQ_eq_next h
    exact .inr ⟨rfl, q, hq, by cases h; rfl⟩

/-- Everything rule 4 can do (R198). -/
theorem ruleCommandTimeout_eq_next {s t : State} (h : ruleCommandTimeout s = .next t) :
    ((s.h.cmd = none ∨ s.combined.toutrs = false) ∧ t = s) ∨
    (s.combined.toutrs = true ∧ ∃ slot q, s.h.cmd = some slot ∧ s.q = some q ∧
      t = raiseNeedReset (if s.h.data
        then raiseEndXfer (setResult q (q.result.setError slot .timeout) s)
        else raiseEndCmd (setResult q (q.result.setError slot .timeout) s))) := by
  unfold ruleCommandTimeout at h
  cases hs : s.h.cmd with
  | none => exact .inl ⟨.inl rfl, by simpa [hs] using h.symm⟩
  | some slot =>
    simp only [hs] at h
    cases hc : s.combined.toutrs with
    | false => exact .inl ⟨.inr rfl, by simpa [hc] using h.symm⟩
    | true =>
      simp only [hc, if_true] at h
      obtain ⟨q, hq, h⟩ := withQ_eq_next h
      exact .inr ⟨rfl, slot, q, rfl, hq, by cases h; rfl⟩

/-- Everything rule 5 can do (R199). -/
theorem ruleCommandCrc_eq_next {s t : State} (h : ruleCommandCrc s = .next t) :
    ((s.h.cmd = none ∨ s.combined.crcrs = false ∨ s.cfg.hsCrcHz < s.h.busClockHz) ∧ t = s) ∨
    (s.combined.crcrs = true ∧ s.h.busClockHz ≤ s.cfg.hsCrcHz ∧ ∃ slot q, s.h.cmd = some slot ∧
      s.q = some q ∧
      t = raiseNeedReset (raiseEndCmd (setResult q (q.result.setError slot .crc) s))) := by
  unfold ruleCommandCrc at h
  cases hs : s.h.cmd with
  | none => exact .inl ⟨.inl rfl, by simpa [hs] using h.symm⟩
  | some slot =>
    simp only [hs] at h
    cases hc : s.combined.crcrs with
    | false => exact .inl ⟨.inr (.inl rfl), by simpa [hc] using h.symm⟩
    | true =>
      by_cases hz : s.h.busClockHz ≤ s.cfg.hsCrcHz
      · simp only [hc, hz, decide_true, Bool.and_self, if_true] at h
        obtain ⟨q, hq, h⟩ := withQ_eq_next h
        exact .inr ⟨rfl, hz, slot, q, rfl, hq, by cases h; rfl⟩
      · exact .inl ⟨.inr (.inr (Nat.lt_of_not_le hz)), by simpa [hc, hz] using h.symm⟩

/-- Everything rule 6 can do (R200). -/
theorem ruleCommandDone_eq (s : State) :
    ruleCommandDone s = .next (if s.combined.rspdne && s.h.cmd.isSome then raiseEndCmd s else s) := by
  unfold ruleCommandDone
  split_ifs <;> rfl

/-! ### The operation -/

/-- The end of IRQ drops the transient state of a next state and nothing else (R60). -/
theorem irqLeave_eq_next {o : Answer} {t : State} (h : irqLeave o = .next t) :
    ∃ u, o = .next u ∧ t = dropIrq u := by
  cases o with
  | next u => exact ⟨u, rfl, by cases h; rfl⟩
  | fault r => cases h
  | refused r => cases h

/-- Everything the body of IRQ can do (R190, R191). -/
theorem irqBody_eq_next {s t : State} (h : irqBody s = .next t) :
    (nothingInFlight (irqEnter s) = true ∧ t = dropIrq (irqSpurious (irqEnter s))) ∨
    (nothingInFlight (irqEnter s) = false ∧ ∃ u, irqHandle (irqEnter s) = .next u ∧ t = dropIrq u) := by
  unfold irqBody at h
  obtain ⟨u, hu, rfl⟩ := irqLeave_eq_next h
  cases hn : nothingInFlight (irqEnter s) with
  | true => exact .inl ⟨rfl, by simp only [hn, if_true] at hu; cases hu; rfl⟩
  | false => exact .inr ⟨rfl, u, by simpa [hn] using hu, rfl⟩

/-- An ST0 row that presents the word it already sees, its event shown, changes neither status word but
to that word (entry 18). -/
theorem presentStatus_of_eventAt {s : State} {w : Word} {p : Nat}
    (h : eventAt s.cfg.layout w p = true) :
    presentStatus w p s = { s with irq := { s.irq with s := w, q := w } } := by
  simp only [presentStatus, withEvent_of_eventAt _ h]

/-! ### The service loop and the bounded polls -/

/-- Everything one turn of the service loop can do (R192). -/
theorem serviceLoop_succ {fuel : Nat} {s t : State} (h : serviceLoop (fuel + 1) s = .next t) :
    (serviceDue s = false ∧ t = s) ∨
    (serviceDue s = true ∧ ∃ u, pioXfer s.threshold s = .next u ∧
      ((u.fault ≠ none ∧ t = u) ∨
       (u.fault = none ∧ serviceLoop fuel (accumulate (readStatus u)) = .next t))) := by
  unfold serviceLoop at h
  cases hd : serviceDue s with
  | false => exact .inl ⟨rfl, by simpa [hd] using h.symm⟩
  | true =>
    simp only [hd, if_true] at h
    exact .inr ⟨rfl, andThen_eq_next h⟩

/-- The service loop keeps the canonical form of memory. -/
theorem serviceLoop_wf : ∀ (fuel : Nat) {s t : State}, s.fault = none →
    serviceLoop fuel s = .next t → s.mem.wf = true → t.mem.wf = true
  | 0, s, t, _, h, hm => by cases h; exact hm
  | fuel + 1, s, t, hf, h, hm => by
    rcases serviceLoop_succ h with ⟨_, rfl⟩ | ⟨_, u, hu, ⟨_, rfl⟩ | ⟨hok, hr⟩⟩
    · exact hm
    · exact pioXfer_wf hf hu hm
    · exact serviceLoop_wf fuel (by simpa using hok) hr (by simpa using pioXfer_wf hf hu hm)

/-- The poll of INITCK changes the trace and the draws alone (R245). -/
theorem initckPoll_frame : ∀ (n : Nat) (s : State),
    initckPoll n s = { s with trace := (initckPoll n s).trace, env := (initckPoll n s).env }
  | 0, _ => rfl
  | n + 1, s => by
    unfold initckPoll
    cases hb : (statusOf s.cfg.layout (regDraw .st0 s).1).rspdne with
    | true => simp [hb]; rfl
    | false =>
      simp only [hb, Bool.false_eq_true, if_false]
      rw [initckPoll_frame n (regDraw .st0 s).2]
      rfl

end Sys2Proof.Machine
end

