-- ==== Sys2Proof/Laws/PerInstr.lean ====
section
/-! SUPPORT. Per instruction: where its message says which row of spec/opcode_table.json it is. -/

namespace Sys2Proof.Laws

/-- The selector code of R112, or for a word format the place of its row in the table. -/
def rowByte : Instr → Nat
  | .attach => 0
  | .detach => 1
  | .setIos _ _ _ _ => 2
  | .request _ => 3
  | .getCd => 4
  | .getRo => 5
  | .irq => 6
  | .dmaErr => 7
  | .divsolve _ _ => 16
  | .prepare => 17
  | .fifoCfg _ => 18
  | .dmaSetup => 19
  | .pioInit => 20
  | .pioXfer _ => 21
  | .busyCheck => 22
  | .cmdStart _ => 23
  | .softReset => 24
  | .cmdEnd => 25
  | .dataTeardown => 26
  | .xferEnd => 27
  | .complete => 28
  | .initck => 29
  | .cmdWord _ => 22
  | .initckWord => 23
  | .stDatdne _ => 24
  | .stToutrd _ => 25
  | .stCrcwr _ => 26
  | .stCrcrd _ => 27
  | .stToutrs _ => 28
  | .stCrcrs _ => 29
  | .stRspdne _ => 30
  | .stDxrdy _ => 31
  | .stDrrdy _ => 32
  | .imWord _ => 33
  | .fifoctlWord _ => 34
  | .ctlWord _ => 35
  | .clkWord _ => 36

/-- A selector message begins with its code; a word message is four bytes and then its format tag. -/
def RowByte.Statement (i : Instr) : Prop :=
  match portOf i with
  | .selector => (encode i).head? = some (BitVec.ofNat 8 (rowByte i))
  | .word => (encode i).length = 5 ∧ (encode i).getLast? = some (BitVec.ofNat 8 (rowByte i))

theorem RowByte.attach : RowByte.Statement .attach := rfl
theorem RowByte.detach : RowByte.Statement .detach := rfl
theorem RowByte.setIos (width : Nat) (mode : BusMode) (power : PowerMode) (clockHz : Nat) : RowByte.Statement (.setIos width mode power clockHz) := rfl
theorem RowByte.request (req : BusRequest) : RowByte.Statement (.request req) := rfl
theorem RowByte.getCd : RowByte.Statement .getCd := rfl
theorem RowByte.getRo : RowByte.Statement .getRo := rfl
theorem RowByte.irq : RowByte.Statement .irq := rfl
theorem RowByte.dmaErr : RowByte.Statement .dmaErr := rfl
theorem RowByte.divsolve (r f : Nat) : RowByte.Statement (.divsolve r f) := rfl
theorem RowByte.prepare : RowByte.Statement .prepare := rfl
theorem RowByte.fifoCfg (dir : Option Dir) : RowByte.Statement (.fifoCfg dir) := rfl
theorem RowByte.dmaSetup : RowByte.Statement .dmaSetup := rfl
theorem RowByte.pioInit : RowByte.Statement .pioInit := rfl
theorem RowByte.pioXfer (n : Nat) : RowByte.Statement (.pioXfer n) := rfl
theorem RowByte.busyCheck : RowByte.Statement .busyCheck := rfl
theorem RowByte.cmdStart (slot : Option Slot) : RowByte.Statement (.cmdStart slot) := rfl
theorem RowByte.softReset : RowByte.Statement .softReset := rfl
theorem RowByte.cmdEnd : RowByte.Statement .cmdEnd := rfl
theorem RowByte.dataTeardown : RowByte.Statement .dataTeardown := rfl
theorem RowByte.xferEnd : RowByte.Statement .xferEnd := rfl
theorem RowByte.complete : RowByte.Statement .complete := rfl
theorem RowByte.initck : RowByte.Statement .initck := rfl
theorem RowByte.cmdWord (f : CmdFields) : RowByte.Statement (.cmdWord f) := ⟨rfl, rfl⟩
theorem RowByte.initckWord : RowByte.Statement .initckWord := ⟨rfl, rfl⟩
theorem RowByte.stDatdne (w : Word) : RowByte.Statement (.stDatdne w) := ⟨rfl, rfl⟩
theorem RowByte.stToutrd (w : Word) : RowByte.Statement (.stToutrd w) := ⟨rfl, rfl⟩
theorem RowByte.stCrcwr (w : Word) : RowByte.Statement (.stCrcwr w) := ⟨rfl, rfl⟩
theorem RowByte.stCrcrd (w : Word) : RowByte.Statement (.stCrcrd w) := ⟨rfl, rfl⟩
theorem RowByte.stToutrs (w : Word) : RowByte.Statement (.stToutrs w) := ⟨rfl, rfl⟩
theorem RowByte.stCrcrs (w : Word) : RowByte.Statement (.stCrcrs w) := ⟨rfl, rfl⟩
theorem RowByte.stRspdne (w : Word) : RowByte.Statement (.stRspdne w) := ⟨rfl, rfl⟩
theorem RowByte.stDxrdy (w : Word) : RowByte.Statement (.stDxrdy w) := ⟨rfl, rfl⟩
theorem RowByte.stDrrdy (w : Word) : RowByte.Statement (.stDrrdy w) := ⟨rfl, rfl⟩
theorem RowByte.imWord (f : StatusBits) : RowByte.Statement (.imWord f) := ⟨rfl, rfl⟩
theorem RowByte.fifoctlWord (f : FifoFields) : RowByte.Statement (.fifoctlWord f) := ⟨rfl, rfl⟩
theorem RowByte.ctlWord (w : Word) : RowByte.Statement (.ctlWord w) := ⟨rfl, rfl⟩
theorem RowByte.clkWord (w : Word) : RowByte.Statement (.clkWord w) := ⟨rfl, rfl⟩

end Sys2Proof.Laws
end

