-- ==== Sys2Proof/Laws/Step.lean ====
section
/-! SUPPORT. Everything a step can do (R84, R115, R289): one inversion lemma. -/

namespace Sys2Proof.Machine

/-- A step that answers a next state found an empty queue, an operation, or bytes that name none. -/
theorem step_eq_next {s t : State} (h : step s = .next t) :
    (s.pending = [] ∧ t = s) ∨
    ∃ m rest, s.pending = m :: rest ∧
      ((∃ i tail, decode m.port m.bytes = .ok (i, tail) ∧ exec i (dequeue rest s) = .next t) ∨
       (∃ e, decode m.port m.bytes = .error e ∧ t = returning (.undecodable e) (dequeue rest s))) := by
  unfold step fetch at h
  cases hp : s.pending with
  | nil => exact .inl ⟨rfl, by simpa [hp] using h.symm⟩
  | cons m rest =>
    refine .inr ⟨m, rest, rfl, ?_⟩
    cases hd : decode m.port m.bytes with
    | ok r => exact .inl ⟨r.1, r.2, rfl, by simpa [hp, hd] using h⟩
    | error e =>
      refine .inr ⟨e, rfl, ?_⟩
      simp only [hp, hd, turnAway] at h
      cases h
      rfl

end Sys2Proof.Machine
end

