-- ==== Sys2Proof/Tests/Slice0.lean ====
section
/-! SUPPORT. The model's own tests: refusals of WellFormed and Decode, the decoding of one hand-written
word per constructor, single steps taken from the spec's worked examples, and for every statement with
hypotheses a state that meets them. -/

namespace Sys2Proof.Tests

open Sys2Proof Sys2Proof.Machine

/-! ### WellFormed: each check refuses -/

/-- A natural too large for its field. -/
def huge : Nat := 2 ^ 64

theorem test_wf_setIos_width : Instr.wf (.setIos 256 .openDrain .off 0) = false := by decide
theorem test_wf_setIos_clock : Instr.wf (.setIos 0 .openDrain .off huge) = false := by decide
theorem test_wf_request_id : Instr.wf (.request ⟨huge, ⟨0, 0, .none, false⟩, none, none⟩) = false := by decide
theorem test_wf_request_index : Instr.wf (.request ⟨0, ⟨huge, 0, .none, false⟩, none, none⟩) = false := by decide
theorem test_wf_request_stop :
    Instr.wf (.request ⟨0, ⟨0, 0, .none, false⟩, none, some ⟨huge, 0, .none, false⟩⟩) = false := by decide
theorem test_wf_data_size : DataPhase.fits ⟨.read, huge, 1, [], 0, false⟩ = false := by decide
theorem test_wf_data_count : DataPhase.fits ⟨.read, 1, huge, [], 0, false⟩ = false := by decide
theorem test_wf_data_timeout : DataPhase.fits ⟨.read, 1, 1, [], huge, false⟩ = false := by decide
theorem test_wf_seg_addr : DataPhase.fits ⟨.read, 1, 1, [⟨huge, 1⟩], 0, false⟩ = false := by decide
theorem test_wf_seg_len : DataPhase.fits ⟨.read, 1, 1, [⟨0, huge⟩], 0, false⟩ = false := by decide
theorem test_wf_divsolve_zero : Instr.wf (.divsolve 0 1) = false := by decide
theorem test_wf_divsolve_rate : Instr.wf (.divsolve (huge + 1) 1) = false := by decide
theorem test_wf_divsolve_request : Instr.wf (.divsolve 1 huge) = false := by decide
theorem test_wf_fifoCfg_none : Instr.wf (.fifoCfg none) = false := by decide
theorem test_wf_pioXfer_zero : Instr.wf (.pioXfer 0) = false := by decide
theorem test_wf_pioXfer_large : Instr.wf (.pioXfer (huge + 1)) = false := by decide
theorem test_wf_cmdStart_none : Instr.wf (.cmdStart none) = false := by decide
theorem test_wf_stDatdne : Instr.wf (.stDatdne 0xFFFFFFFE) = false := by decide
theorem test_wf_stToutrd : Instr.wf (.stToutrd 0xFFFFFFF7) = false := by decide
theorem test_wf_stCrcwr : Instr.wf (.stCrcwr 0xFFFFFFDF) = false := by decide
theorem test_wf_stCrcrd : Instr.wf (.stCrcrd 0xFFFFFFBF) = false := by decide
theorem test_wf_stToutrs : Instr.wf (.stToutrs 0xFFFFFFEF) = false := by decide
theorem test_wf_stCrcrs : Instr.wf (.stCrcrs 0xFFFFFF7F) = false := by decide
theorem test_wf_stRspdne : Instr.wf (.stRspdne 0xFFFFFFFB) = false := by decide
theorem test_wf_stDxrdy : Instr.wf (.stDxrdy 0xFFFFFDFF) = false := by decide
theorem test_wf_stDrrdy : Instr.wf (.stDrrdy 0xFFFFFBFF) = false := by decide

/-! ### Decode: refusals by name -/

theorem test_decode_unassigned : decode .selector [0x1E] = .error (.unassignedSelector 0x1E) := by decide
theorem test_decode_truncated : decode .selector [0x17] = .error .truncated := by decide
theorem test_decode_badCode : decode .selector [0x12, 3] = .error (.badOperandCode 3) := by decide
theorem test_decode_cmd_reserved : decode .word [0x40, 0, 0, 0, 22] = .error .reservedBits := by decide
theorem test_decode_im_reserved : decode .word [0x02, 0, 0, 0, 33] = .error .reservedBits := by decide
theorem test_decode_row_clear : decode .word [0, 0, 0, 0, 24] = .error .rowBitClear := by decide
theorem test_decode_format : decode .word [0, 0, 0, 0, 37] = .error (.unknownFormat 37) := by decide

/-! ### Decode: one word per constructor, from R112, R104, R103, R107, R101, R102 -/

theorem test_decode_attach : decodeTableWord 5 0b00000 = some .attach := by decide
theorem test_decode_detach : decodeTableWord 5 0b00001 = some .detach := by decide
theorem test_decode_getCd : decodeTableWord 5 0b00100 = some .getCd := by decide
theorem test_decode_getRo : decodeTableWord 5 0b00101 = some .getRo := by decide
theorem test_decode_irq : decodeTableWord 5 0b00110 = some .irq := by decide
theorem test_decode_dmaErr : decodeTableWord 5 0b00111 = some .dmaErr := by decide
theorem test_decode_prepare : decodeTableWord 5 0b10001 = some .prepare := by decide
theorem test_decode_dmaSetup : decodeTableWord 5 0b10011 = some .dmaSetup := by decide
theorem test_decode_pioInit : decodeTableWord 5 0b10100 = some .pioInit := by decide
theorem test_decode_busyCheck : decodeTableWord 5 0b10110 = some .busyCheck := by decide
theorem test_decode_softReset : decodeTableWord 5 0b11000 = some .softReset := by decide
theorem test_decode_cmdEnd : decodeTableWord 5 0b11001 = some .cmdEnd := by decide
theorem test_decode_dataTeardown : decodeTableWord 5 0b11010 = some .dataTeardown := by decide
theorem test_decode_xferEnd : decodeTableWord 5 0b11011 = some .xferEnd := by decide
theorem test_decode_complete : decodeTableWord 5 0b11100 = some .complete := by decide
theorem test_decode_initck : decodeTableWord 5 0b11101 = some .initck := by decide
theorem test_decode_setIos :
    decode .selector [0b00010, 1, 1, 2, 0x40, 0x78, 0x7D, 0x01, 0, 0, 0, 0] =
      .ok (.setIos 1 .pushPull .on 25000000, []) := by decide
theorem test_decode_request :
    decode .selector ([0b00011, 7, 0, 0, 0, 0, 0, 0, 0] ++ [24, 0, 0, 0, 0, 0, 0, 0, 0x00, 0x01, 0, 0, 1, 0]
      ++ [1, 2, 64, 0, 0, 0, 0, 0, 0, 0, 1, 0, 0, 0, 0, 0, 0, 0] ++ [1, 0, 0, 0, 0, 0, 0, 0]
      ++ [0x00, 0x10, 0, 0, 0, 0, 0, 0, 64, 0, 0, 0, 0, 0, 0, 0] ++ [9, 0, 0, 0, 0, 0, 0, 0, 0] ++ [0]) =
      .ok (.request ⟨7, ⟨24, 0x100, .shortCrc, false⟩,
        some ⟨.write, 64, 1, [⟨0x1000, 64⟩], 9, false⟩, none⟩, []) := by decide
theorem test_decode_divsolve :
    decode .selector [0b10000, 9, 0, 0, 0, 0, 0, 0, 0, 3, 0, 0, 0, 0, 0, 0, 0] = .ok (.divsolve 10 3, []) := by decide
theorem test_decode_fifoCfg : decode .selector [0b10010, 2] = .ok (.fifoCfg (some .write), []) := by decide
theorem test_decode_pioXfer :
    decode .selector [0b10101, 31, 0, 0, 0, 0, 0, 0, 0] = .ok (.pioXfer 32, []) := by decide
theorem test_decode_cmdStart : decode .selector [0b10111, 2] = .ok (.cmdStart (some .stop), []) := by decide
theorem test_decode_cmdWord : decodeTableWord 32 0b00000000000000010011101110010001 =
    some (.cmdWord { indx := 17, pplen := true, bsyexp := true, rspfmt := .shortCrc, dtrw := true,
                     strmtp := true, wdatx := true, dmatrig := true }) := by decide
theorem test_decode_cmdWord_formats :
    ([[0, 4, 0, 0, 22], [0, 6, 0, 0, 22]].map fun b => decode .word b) =
    [.ok (.cmdWord ⟨0, false, false, .longCrc, false, false, false, false⟩, []),
     .ok (.cmdWord ⟨0, false, false, .shortNoCrc, false, false, false, false⟩, [])] := by decide
/-- A word that is no command word is the first row of the table it matches (entry 3). -/
theorem test_decode_untagged : ([0x41, 0x440, 0x80008000].map fun w => decodeTableWord 32 w) =
    [some (.stDatdne 0x41), some (.stCrcrd 0x440), some (.ctlWord 0x80008000)] := by decide
theorem test_decode_initckWord :
    decodeTableWord 32 0b00000000000000000100000000000000 = some .initckWord := by decide
theorem test_decode_stDatdne : decodeTableWord 32 0b00000000000000000000000000000001 = some (.stDatdne 0x1) := by decide
theorem test_decode_stToutrd : decodeTableWord 32 0b00000000000000000000000000001000 = some (.stToutrd 0x8) := by decide
theorem test_decode_stCrcwr : decodeTableWord 32 0b00000000000000000000000000100000 = some (.stCrcwr 0x20) := by decide
theorem test_decode_stCrcrd : decodeTableWord 32 0b00000000000000000000000001000000 = some (.stCrcrd 0x40) := by decide
theorem test_decode_stToutrs : decodeTableWord 32 0b00000000000000000000000000010000 = some (.stToutrs 0x10) := by decide
theorem test_decode_stCrcrs : decodeTableWord 32 0b00000000000000000000000010000000 = some (.stCrcrs 0x80) := by decide
theorem test_decode_stRspdne : decodeTableWord 32 0b00000000000000000000000000000100 = some (.stRspdne 0x4) := by decide
theorem test_decode_stDxrdy : decodeTableWord 32 0b00000000000000000000001000000000 = some (.stDxrdy 0x200) := by decide
theorem test_decode_stDrrdy : decodeTableWord 32 0b00000000000000000000010000000000 = some (.stDrrdy 0x400) := by decide
theorem test_decode_imWord : decode .word [0b11011101, 0b00000100, 0, 0, 33] =
    .ok (.imWord { datdne := true, rspdne := true, toutrd := true, toutrs := true, crcwr := false,
                   crcrd := true, crcrs := true, dxrdy := false, drrdy := true }, []) := by decide
theorem test_decode_fifoctlWord :
    decode .word [0b00000101, 0, 0, 0, 34] = .ok (.fifoctlWord ⟨true, false, true⟩, []) := by decide
theorem test_decode_ctlWord : decode .word [0x07, 0, 0, 0x80, 35] = .ok (.ctlWord 0x80000007, []) := by decide
theorem test_decode_clkWord : decode .word [0x0F, 0x01, 0, 0, 36] = .ok (.clkWord 0x10F, []) := by decide

/-! ### States for the steps -/

/-- An attached engine, idle, at 48 MHz, both channels held. -/
def idle : State := { State.reset with
  h := { HostState.reset with attached := true, refClockHz := 48000000, dmaOk := true }
  dma := ⟨templateRead Config.default, templateWrite Config.default, some 1, some 2, []⟩ }

/-- The default layout with CMDRST, the event and the enable of RSPDNE and INITCK active low. -/
def activeLow : Layout := { Layout.default with
  low := { Layout.default.low with ctl := 0x2, st0 := 0x4, im := 0x4, cmd := 0x4000 } }

/-- A request with no data. -/
def plain : BusRequest := ⟨7, ⟨13, 0x100, .shortCrc, false⟩, none, none⟩

/-- A request with a data phase of one block and one segment at 0x1000. -/
def block (dir : Dir) (size : Nat) : BusRequest :=
  ⟨8, ⟨24, 0x100, .shortCrc, false⟩, some ⟨dir, size, 1, [⟨0x1000, size⟩], 5, false⟩, none⟩

/-- The same with a stop command. -/
def blockStop (dir : Dir) (size : Nat) : BusRequest :=
  { block dir size with stop := some ⟨12, 0, .shortCrc, true⟩ }

/-- The command of a request is in flight and nothing else. -/
def command (req : BusRequest) : State := { idle with
  q := some ⟨req, Result.initial⟩
  h := { idle.h with phase := .commandIssued, cmd := some .main } }

/-- A PIO data phase is in flight, `left` bytes of its one segment to go, its command ended. -/
def pio (req : BusRequest) (dir : Dir) (at' left : Nat) : State := { idle with
  q := some ⟨req, Result.initial⟩
  regs := { idle.regs with fifoctl := fifoctlFor idle dir false }
  h := { idle.h with phase := .dataInFlight, data := true, dataDir := some dir, bufPtr := at',
                     segLeft := left, bytesLeft := left } }

/-- A DMA data phase is in flight. -/
def dma (req : BusRequest) (dir : Dir) : State := { idle with
  q := some ⟨req, Result.initial⟩
  regs := { idle.regs with fifoctl := fifoctlFor idle dir false }
  h := { idle.h with phase := .dataInFlight, data := true, dataDir := some dir, doDma := true } }

/-- Draws for the status word. -/
def seen (ws : List Word) (s : State) : State := { s with env := { s.env with st0 := ws } }

/-- Draws for the busy word. -/
def busy (ws : List Word) (s : State) : State := { s with env := { s.env with st1 := ws } }

/-- The trace of an answer. -/
def events (o : Answer) : List Event :=
  match o with
  | .next t => t.trace
  | .fault _ => []
  | .refused _ => []

/-- A property of the next state of an answer. -/
def leaves {α : Type} (f : State → α) (o : Answer) : Option α :=
  match o with
  | .next t => some (f t)
  | .fault _ => none
  | .refused _ => none

/-! ### Single steps, from the worked examples of the spec -/

/-- R255, example. -/
theorem test_attach : events (exec .attach { State.reset with
      env := { EnvScript.empty with clkRate := [48000000], dmaReq := [some 1, some 2] } }) =
    [.clkEnable, .clkRate 48000000, .dmaRequest .read (some 1), .dmaRequest .write (some 2)] := by decide

/-- R255: one channel fails, the other is given back. -/
theorem test_attach_partial : events (exec .attach { State.reset with
      env := { EnvScript.empty with clkRate := [5], dmaReq := [none, some 2] } }) =
    [.clkEnable, .clkRate 5, .dmaRequest .read none, .dmaRequest .write (some 2), .dmaFree .write] := by decide

/-- A scripted rate of 0 has no meaning (spec/93 U15). -/
theorem test_attach_rate_zero :
    leaves State.h (exec .attach { State.reset with env := { EnvScript.empty with clkRate := [0] } }) = none := by
  decide

/-- R258, example. -/
theorem test_detach : events (exec .detach idle) = [.dmaFree .read, .dmaFree .write, .clkDisable] := by decide

/-- R249 (b): 25 MHz from 48 MHz, CLK = 0xF. -/
theorem test_setIos_pushPull : events (exec (.setIos 1 .pushPull .on 25000000)
      { idle with regs := { idle.regs with clk := 0xF } }) =
    [.regR (.stored .ctl) 0x0, .regW .ctl 0x4, .regR (.stored .clk) 0xF, .regW .clk 0xF, .delay 0,
     .regW .clk 0x0, .regW .clk 0x100, .delay 0] := by decide

/-- R249 (a): open drain with power-up; the second poll sees command-done (R245, example). -/
theorem test_setIos_powerUp : events (exec (.setIos 0 .openDrain .up 400000) (seen [0x000, 0x004] idle)) =
    [.regR (.stored .ctl) 0x0, .regW .ctl 0x0, .regR (.stored .clk) 0x0, .regW .clk 0xF,
     .regW .cmd 0x4000, .regR (.drawn .st0) 0x000, .regR (.drawn .st0) 0x004] := by decide

/-- R178, example: the command word 0x2A98, the mask 0x2B5 and the registers of a PIO write; the pre-load
leaves 32 of 64 bytes. -/
theorem test_request_pio_write :
    leaves (fun t => ([t.regs.cmd, t.regs.im, t.regs.nblk, t.regs.blen], [t.h.bytesLeft, t.h.bufPtr]))
      (exec (.request (block .write 64)) (busy [0]
        { idle with h := { idle.h with busMode := .pushPull, dmaOk := false } })) =
    some ([0x2A98, 0x2B5, 1, 64], [32, 0x1020]) := by decide

/-- R172: stuck through the whole window. -/
theorem test_request_busy_stuck : events (exec (.request plain) (busy [1, 1, 1] idle)) =
    [.regR (.drawn .st1) 1, .regR (.drawn .st1) 1, .regR (.drawn .st1) 1,
     .completion ⟨7, ⟨0, 0, 0, 0⟩, .timeout, ⟨0, 0, 0, 0⟩, .none, .none, 0⟩] := by decide

/-- R141, last example. -/
theorem test_prepare_no_data : events (exec .prepare (command plain)) =
    [.regW .blen 0, .regW .nblk 0] := by decide

/-- R142, example: T = 32, WRITE. -/
theorem test_fifoCfg : events (exec (.fifoCfg (some .write)) idle) =
    [.regW .fifoctl 0x7, .regW .fifoctl 0x6] := by decide

/-- R144, example: two mapped segments, the first linked to the second. -/
theorem test_dmaSetup :
    leaves (fun t => (t.dma.desc.map fun d => (d.dstAddr, d.elemCount, d.link), t.trace.length))
      (exec .dmaSetup { dma (block .read 64) .read with
        q := some ⟨⟨8, ⟨18, 0, .shortCrc, false⟩,
          some ⟨.read, 64, 2, [⟨0x1000, 64⟩, ⟨0x2000, 64⟩], 5, false⟩, none⟩, Result.initial⟩
        env := { EnvScript.empty with dmaMap := [.identity] } }) =
    some ([(0x1000, 16, some 1), (0x2000, 16, none)], 4) := by decide

/-- R147, example: a first segment longer than the total is clamped. -/
theorem test_pioInit : leaves (fun t => (t.h.sgIdx, t.h.bufPtr, t.h.segLeft))
      (exec .pioInit { pio (block .read 64) .read 0 64 with
        q := some ⟨{ block .read 64 with data := some ⟨.read, 64, 1, [⟨0x1000, 100⟩], 5, false⟩ },
          Result.initial⟩ }) = some (0, 0x1000, 64) := by decide

/-- R164: the width of a call. -/
theorem test_widths : [widthFor 0x1000 32, widthFor 0x1002 32, widthFor 0x1001 32, widthFor 0x1000 6,
    widthFor 0x1000 5, widthFor 0x1004 8] = [.word, .half, .byte, .half, .byte, .word] := by decide

/-- R160: two half-word reads land little-endian (R74). -/
theorem test_pioXfer_read : leaves (fun t => (t.mem, t.h.bufPtr, t.h.segLeft, t.h.bytesLeft))
      (exec (.pioXfer 4) { pio (block .read 64) .read 0x1002 60 with
        env := { EnvScript.empty with drr := [0xFFFF2211, 0x4433] } }) =
    some ([(0x1002, 0x11), (0x1003, 0x22), (0x1004, 0x33), (0x1005, 0x44)], 0x1006, 56, 56) := by decide

/-- R276: the list runs out with bytes left. -/
theorem test_pioXfer_fault : leaves (fun t => (t.fault, t.ret, t.trace))
      (exec (.pioXfer 32) { pio (block .read 64) .read 0x1040 0 with
        h := { (pio (block .read 64) .read 0x1040 0).h with bytesLeft := 8 } }) =
    some (some .pioCursorExhausted, .halted, []) := by decide

/-- R171, example. -/
theorem test_busyCheck : leaves (fun t => (t.ret, t.trace.length))
    (exec .busyCheck (busy [1, 1, 0] idle)) = some (.busy false, 3) := by decide

/-- R224, example: the stop command's mask is 0x094. -/
theorem test_xferEnd_stop : leaves (fun t => (t.regs.im, t.h.phase, t.h.cmd, t.trace.length))
    (exec .xferEnd (dma (blockStop .read 64) .read)) = some (0x094, .stopIssued, some .stop, 7) := by decide

/-- R202, example. -/
theorem test_softReset : events (exec .softReset { idle with regs := { idle.regs with ctl := 0x4 } }) =
    [.regR (.stored .ctl) 0x4, .regW .ctl 0x7, .delay 0, .regW .ctl 0x4] := by decide

/-- R202 under a layout whose CMDRST is active low (spec/93 U4): bit 1 is cleared, then set. -/
theorem test_softReset_active_low : events (exec .softReset { idle with
      regs := { idle.regs with ctl := 0x6 }
      cfg := { Config.default with layout := activeLow } }) =
    [.regR (.stored .ctl) 0x6, .regW .ctl 0x5, .delay 0, .regW .ctl 0x6] := by decide

/-- R191 under a layout whose enable of RSPDNE is active low: no enable is 0x4. -/
theorem test_irq_spurious_active_low : leaves (·.regs.im) (exec .irq { idle with
      cfg := { Config.default with layout := activeLow } }) = some 0x4 := by decide

/-- R221, example. -/
theorem test_latch_long : (latch ⟨2, 0, .longCrc, false⟩ Response.zero { idle with
      env := { EnvScript.empty with rsp0 := [0x11111111], rsp1 := [0x22222222], rsp2 := [0x33333333],
                                    rsp3 := [0x44444444] } }).1 =
    ⟨0x44444444, 0x33333333, 0x22222222, 0x11111111⟩ := by decide

/-- R223, example. -/
theorem test_dataTeardown : events (exec .dataTeardown (dma (block .read 64) .read)) =
    [.dmaStop (some 1), .dmaClean (some 1), .dmaUnmap [⟨0x1000, 64⟩] .read] := by decide

/-- R206, example: a DMA error, then data-done: the Completion carries DMA and the whole total. -/
theorem test_dmaErr_then_irq : (match exec .dmaErr (seen [0x001] (dma (block .read 64) .read)) with
      | .next s => leaves (fun t => t.trace.getLast?) (exec .irq s)
      | .fault _ => none
      | .refused _ => none) =
    some (some (.completion ⟨8, ⟨0, 0, 0, 0⟩, .none, ⟨0, 0, 0, 0⟩, .none, .dma, 64⟩)) := by decide

/-- R195, example: a PIO read of 40 bytes, 8 left at data-done, drained and counted. -/
theorem test_irq_residual : leaves (fun t => (t.h.bytesLeft, t.h.phase, t.trace.getLast?))
      (exec .irq { pio (block .read 40) .read 0x1020 8 with
        env := { EnvScript.empty with st0 := [0x001], drr := [1, 2] } }) =
    some (0, .idle, some (.completion ⟨8, ⟨0, 0, 0, 0⟩, .none, ⟨0, 0, 0, 0⟩, .none, .none, 40⟩)) := by decide

/-- R199, example: the same status word at and above HS_CRC_HZ. -/
theorem test_irq_crc_clock : ([25000000, 50000000].map fun hz => leaves (fun t => t.trace.getLast?)
      (exec .irq { command plain with
        h := { (command plain).h with busClockHz := hz }
        env := { EnvScript.empty with st0 := [0x084], rsp3 := [0x900] } })) =
    [some (some (.completion ⟨7, ⟨0x900, 0, 0, 0⟩, .crc, ⟨0, 0, 0, 0⟩, .none, .none, 0⟩)),
     some (some (.completion ⟨7, ⟨0x900, 0, 0, 0⟩, .none, ⟨0, 0, 0, 0⟩, .none, .none, 0⟩))] := by decide

/-- R197, examples: the sentinel makes a write CRC error a timeout; another byte does not. -/
theorem test_stCrcwr : ([0x9F, 0x0B].map fun b => leaves (fun t => t.q.map (·.result.dataError))
      (exec (.stCrcwr 0x020) { pio (block .write 64) .write 0x1000 64 with
        env := { EnvScript.empty with drsp := [b] } })) =
    [some (some .timeout), some (some .crc)] := by decide

/-- R114: rules run in order on one word; rule 3 overwrites rule 2 (R201). -/
theorem test_irq_crc_over_timeout : leaves (fun t => t.trace.getLast?)
      (exec .irq (seen [0x048] (dma (block .read 64) .read))) =
    some (some (.completion ⟨8, ⟨0, 0, 0, 0⟩, .none, ⟨0, 0, 0, 0⟩, .none, .crc, 0⟩)) := by decide

/-- R137: corners of the divider. -/
theorem test_divsolve_corners : [divsolve 5 5, divsolve 6 3, divsolve 7 3, divsolve 33 1, divsolve 5 0,
    divsolve 1 1, divsolve 100000000 16666666] = [0, 0, 1, 15, 15, 0, 3] := by decide

/-- R260, example. -/
theorem test_getCd : leaves (fun t => (t.trace, t.ret))
    (exec .getCd { idle with env := { EnvScript.empty with cd := [true] } }) =
    some ([.boardCd true], .answer true) := by decide

/-- R261, example. -/
theorem test_getRo : leaves (fun t => (t.trace, t.ret))
    (exec .getRo { idle with env := { EnvScript.empty with ro := [false] } }) =
    some ([.boardRo false], .answer false) := by decide

/-- A row queued by `withFetchWord` is the next step. -/
theorem test_withFetchWord : leaves (fun t => (t.trace, t.pending))
    (step (idle.withFetchWord 5 0x18)) =
    some ([.regR (.stored .ctl) 0, .regW .ctl 3, .delay 0, .regW .ctl 0], []) := by decide

/-- Bytes that name no operation are turned away (R115). -/
theorem test_step_undecodable : leaves (fun t => (t.ret, t.pending))
    (step { idle with pending := [⟨.selector, [0x1E]⟩] }) =
    some (.undecodable (.unassignedSelector 0x1E), []) := by decide

/-! ### Witnesses: for every statement with hypotheses, a state and operands that meet them -/

/-- The invariant of an idle engine. -/
theorem idle_inv : EngineInv idle where
  consistent _ := {
    phase := ⟨rfl, rfl, rfl⟩
    attached := fun _ => rfl
    noData := fun _ => ⟨rfl, rfl⟩
    request := fun _ h => by cases h
    cursor := fun _ h => by cases h
    fifo := fun h => by cases h
    dmaNoPio := fun h => by cases h
    channels := fun _ => ⟨rfl, rfl⟩
    refClock := by decide
    bytes := by decide }
  queue := fun _ h => by cases h

/-- The invariant with a PIO read in flight, FIFO-ready drawn and then data-done. -/
def pioRead : State := { pio (block .read 64) .read 0x1020 32 with
  env := { EnvScript.empty with st0 := [0x400, 0x001], drr := [1, 2, 3, 4, 5, 6, 7, 8] } }

theorem pioRead_inv : EngineInv pioRead where
  consistent _ := {
    phase := ⟨rfl, rfl, rfl⟩
    attached := fun _ => rfl
    noData := fun h => by cases h
    request := fun q h => by cases h; exact ⟨by decide, rfl, rfl, fun _ => ⟨rfl, rfl⟩, .inl rfl⟩
    cursor := fun q h d hd _ _ => by cases h; cases hd; exact ⟨by decide, by decide, by decide, by decide⟩
    fifo := fun _ dir h => by cases h; rfl
    dmaNoPio := fun h => by cases h
    channels := fun _ => ⟨rfl, rfl⟩
    refClock := by decide
    bytes := by decide }
  queue := fun _ h => by cases h

/-- A DMA read in flight whose data phase ends, with no stop command. -/
def dmaRead : State := seen [0x001] (dma (block .read 64) .read)

theorem dmaRead_inv : EngineInv dmaRead where
  consistent _ := {
    phase := ⟨rfl, rfl, rfl⟩
    attached := fun _ => rfl
    noData := fun h => by cases h
    request := fun q h => by cases h; exact ⟨by decide, rfl, rfl, fun _ => ⟨rfl, rfl⟩, .inl rfl⟩
    cursor := fun q h d hd _ hdma => by cases hdma
    fifo := fun _ dir h => by cases h; rfl
    dmaNoPio := fun _ => ⟨rfl, rfl⟩
    channels := fun _ => ⟨rfl, rfl⟩
    refClock := by decide
    bytes := by decide }
  queue := fun _ h => by cases h

/-- The idle engine with room for an admitted request: the busy word is clear. -/
def ready : State := busy [0] { idle with h := { idle.h with dmaOk := false } }

theorem ready_inv : EngineInv ready where
  consistent _ := {
    phase := ⟨rfl, rfl, rfl⟩
    attached := fun _ => rfl
    noData := fun _ => ⟨rfl, rfl⟩
    request := fun _ h => by cases h
    cursor := fun _ h => by cases h
    fifo := fun h => by cases h
    dmaNoPio := fun h => by cases h
    channels := fun h => by cases h
    refClock := by decide
    bytes := by decide }
  queue := fun _ h => by cases h

/-- The engine with the fault set. -/
def halted : State := { idle with fault := some .pioCursorExhausted }

theorem witness_DecodeEncodeRoundTrip : Instr.wf (.request (blockStop .read 64)) = true := by decide
theorem witness_TableWordsDecode : ∀ b ∈ [(0x08 : Byte), 0x0F, 0x1E, 0x1F],
    (0x08 ≤ b.toNat ∧ b.toNat ≤ 0x0F) ∨ (0x1E ≤ b.toNat ∧ b.toNat ≤ 0x1F) := by decide
/-- The highest command index, with no data and in a PIO write that pre-loads. -/
theorem witness_CommandWordAssembly : ∀ b ∈ [false, true],
    let q : InFlight := ⟨{ (if b then block .write 64 else plain) with cmd := ⟨63, 0, .none, true⟩ },
      Result.initial⟩
    let s := { (if b then pio q.req .write 0x1000 64 else idle) with q := some q }
    s.cfg.layout.ok = true ∧ s.fault = none ∧ q.req.cmd.index ≤ 63 ∧ s.h.doDma = false ∧
    s.h.data = b ∧ leaves State.fault (exec (.cmdStart (some .main)) s) = some none := by decide
theorem witness_layout_active_low : activeLow.ok = true := by decide
/-- spec/90 C4: CMDRST and DATRST one bit is a layout; WIDTH4 on a reset bit is none. -/
theorem witness_layout_one_reset_bit : ({ Layout.default with datrst := 1 } : Layout).ok = true ∧
    ({ Layout.default with width4 := 1 } : Layout).ok = false := by decide
theorem witness_ArmedMaskUnion : ∀ s ∈ [command plain, dmaRead, pioRead],
    s.fault = none ∧ s.cfg.layout = Layout.default ∧
    leaves State.fault (exec (.cmdStart (some .main)) s) = some none := by decide
theorem witness_StepRunsDecodedInstruction_idle : idle.pending = [] := rfl
theorem witness_StepRunsDecodedInstruction : (idle.withFetchWord 5 0x06).pending = tableMessage 5 0x06 :: [] ∧
    decode (tableMessage 5 0x06).port (tableMessage 5 0x06).bytes = .ok (.irq, tablePadding) := by decide
theorem witness_StepRunsDecodedInstruction_undecodable :
    decode .selector [0x1E] = .error (.unassignedSelector 0x1E) := by decide
theorem witness_QueuedInstructionRuns : Instr.wf (.pioXfer 1) = true := by decide
theorem witness_ExecKeepsConfigQueueTraceFault :
    (∃ t, exec .irq pioRead = .next t) ∧ (∃ t, exec .irq halted = .next t) ∧ halted.fault ≠ none :=
  ⟨⟨_, rfl⟩, ⟨_, rfl⟩, by decide⟩
theorem witness_StoredStateFollowsTrace : ∃ t, exec .irq pioRead = .next t := ⟨_, rfl⟩
theorem witness_StepKeepsMemoryCanonical :
    let s := State.withFetchWord { pioRead with mem := [(3, 7)] } 5 0x06
    s.mem.wf = true ∧ ∃ t, step s = .next t := ⟨by decide, _, rfl⟩
theorem witness_StepKeepsEngineInvariant : EngineInv (pioRead.withFetchWord 5 0x06) ∧
    ∃ t, step (pioRead.withFetchWord 5 0x06) = .next t :=
  ⟨⟨fun h => { pioRead_inv.consistent h with }, by decide⟩, _, rfl⟩
theorem witness_OutsideOperationsAlwaysAnswer : outside .irq = true ∧ EngineInv pioRead := ⟨rfl, pioRead_inv⟩
theorem witness_OutsideOperationsAlwaysAnswer_attach : outside .attach = true ∧ EngineInv idle ∧
    ∀ r ∈ idle.env.clkRate, r ≠ 0 := ⟨rfl, idle_inv, by decide⟩
theorem witness_PhaseTransitionGraph : outside .irq = true ∧ EngineInv dmaRead ∧
    ∃ t, exec .irq dmaRead = .next t ∧ dmaRead.h.phase = .dataInFlight ∧ t.h.phase = .idle :=
  ⟨rfl, dmaRead_inv, _, rfl, rfl, rfl⟩
theorem witness_PhaseTransitionGraph_request : outside (.request plain) = true ∧ EngineInv ready ∧
    ∃ t, exec (.request plain) ready = .next t ∧ t.h.phase = .commandIssued := ⟨rfl, ready_inv, _, rfl, rfl⟩
theorem witness_CompletionEndsTheRequest : outside .irq = true ∧ EngineInv dmaRead ∧ dmaRead.h.doDma = true ∧
    ∃ t, exec .irq dmaRead = .next t ∧ (newEvents dmaRead t).any isCompletion = true :=
  ⟨rfl, dmaRead_inv, rfl, _, rfl, by decide⟩
theorem witness_HostMemoryConfined : outside .irq = true ∧ EngineInv pioRead ∧
    ∃ t, exec .irq pioRead = .next t ∧ t.mem ≠ pioRead.mem := ⟨rfl, pioRead_inv, _, rfl, by decide⟩
theorem witness_HostMemoryConfined_request : outside (.request (block .write 64)) = true ∧ EngineInv ready ∧
    ∃ t, exec (.request (block .write 64)) ready = .next t := ⟨rfl, ready_inv, _, rfl⟩
theorem witness_FifoDirectionMatchesAccess_read : ∃ t e post, exec .irq pioRead = .next t ∧
    newEvents pioRead t = [e] ++ Event.fifoR .word 1 :: post := ⟨_, _, _, rfl, rfl⟩
theorem witness_FifoDirectionMatchesAccess_write : ∃ t pre post,
    exec (.request (block .write 64)) ready = .next t ∧
    newEvents ready t = pre ++ Event.fifoW .word 0 :: post :=
  ⟨_, [_, _, _, _, _, _, _, _], _, rfl, rfl⟩
theorem witness_OnePulsePerInterrupt : EngineInv pioRead ∧ ∃ t, exec .irq pioRead = .next t :=
  ⟨pioRead_inv, _, rfl⟩
theorem witness_RefusalsHaveNoEffect : halted.fault ≠ none ∧
    (State.reset.fault = none ∧ State.reset.h.attached = false) ∧
    (idle.fault = none ∧ idle.h.attached = true ∧ idle.h.phase = .idle) ∧
    (pioRead.fault = none ∧ pioRead.h.attached = true ∧ pioRead.h.phase ≠ .idle) ∧
    requestValid { plain with cmd := ⟨64, 0, .none, false⟩ } = false := by decide
theorem witness_DivsolveLeastDivider : 0 < 48000000 ∧ idle.fault = none := by decide
theorem witness_DivsolveSearchAgrees : 0 < 48000000 ∧ 0 < 20000000 ∧ 48000000 > 2 * 20000000 := by decide
theorem witness_DivsolveEffectiveFrequency : 0 < divsolve 48000000 20000000 ∧
    48000000 ≤ 2 * (DIV_MAX + 1) * 20000000 := by decide
theorem witness_DivsolveMaximumSpeed : 48000000 ≤ 2 * 24000000 := by decide
theorem witness_SetIosWidthAndClock : idle.fault = none ∧ idle.h.attached = true ∧ idle.h.phase = .idle ∧
    (1 = 0 ∧ BusWidth.w4 = .w1 ∨ 1 = 1 ∧ BusWidth.w4 = .w4) ∧ (PowerMode.on = .up → idle.h.powerMode = .up) := by
  decide
theorem witness_ClockGatedWhileDividerChanges : Layout.default.ok = true ∧ 15 ≤ DIV_MAX := by decide
theorem witness_SetIosPowerUpPulsesClock : idle.fault = none ∧ idle.h.attached = true ∧
    idle.h.phase = .idle ∧ 1 ≤ 1 ∧ idle.h.powerMode ≠ .up := by decide
theorem witness_fault_free : idle.fault = none := rfl
theorem witness_RequestBusyStuck :
    (envDraws .st1 Config.default.busyPollMax { EnvScript.empty with st1 := [1, 1, 1] }).1 = [1, 1, 1] ∧
    busyOf Config.default.layout 1 = true ∧ (busy [1, 1, 1] idle).cfg = Config.default ∧
    (busy [1, 1, 1] idle).env = { EnvScript.empty with st1 := [1, 1, 1] } := ⟨rfl, rfl, rfl, rfl⟩
theorem witness_admitted : idle.h.attached = true ∧ idle.h.phase = .idle ∧ requestValid plain = true ∧
    requestValid (blockStop .write 64) = true := by decide
theorem witness_RequestRunsItsParts : ∃ u v, exec .busyCheck ready = .next u ∧ u.ret = .busy false ∧
    exec .prepare { u with q := some ⟨block .write 64, Result.initial⟩
                           h := { u.h with doDma := false } } = .next v ∧ v.fault = none :=
  ⟨_, _, rfl, rfl, rfl, rfl⟩
theorem witness_RequestWithoutData : plain.data = none ∧
    busyOf ready.cfg.layout (drawnWord .st1 ready) = false := by decide
theorem witness_PrepareRunsItsParts_plain : (command plain).q = some ⟨plain, Result.initial⟩ ∧
    plain.data = none := by decide
/-- Conditions (a) to (c) hold and DMA_SETUP answers, once each way. -/
theorem witness_PrepareRunsItsParts_dma : ∀ a ∈ [MapAnswer.identity, .fail],
    let s := { command (block .read 64) with env := { EnvScript.empty with dmaMap := [a] } }
    s.cfg.useDma = true ∧ s.h.dmaOk = true ∧ (64 * 1) % s.threshold = 0 ∧
    leaves State.ret (exec .dmaSetup { s with h := { s.h with data := true, dataDir := some .read } }) =
      some (.setup (a == .identity)) := by decide
theorem witness_PrepareRunsItsParts_pio : (command (block .read 40)).h.dmaOk = true ∧
    ¬ (1 * 40) % (command (block .read 40)).threshold = 0 := by decide
theorem witness_DmaSelectionPredicate : (command (block .read 64)).fault = none ∧
    (command (block .read 64)).q = some ⟨block .read 64, Result.initial⟩ ∧
    (block .read 64).data = some ⟨.read, 64, 1, [⟨0x1000, 64⟩], 5, false⟩ ∧
    (command (block .read 64)).h.doDma = false := by decide
theorem witness_DmaSetupProgramsChain : (dma (block .read 64) .read).h.dataDir = some .read ∧
    (∀ g ∈ [(⟨0x1000, 64⟩ : Seg)], g.len % idle.threshold = 0) ∧
    (∃ g ∈ [(⟨0x1000, 31⟩ : Seg)], g.len % idle.threshold ≠ 0) := by decide
/-- The three answers: none, a misaligned list, an aligned one. -/
theorem witness_DmaSetupProgramsChain_answers :
    ([MapAnswer.fail, .list [⟨0, 33⟩, ⟨64, 31⟩], .list [⟨0, 32⟩, ⟨64, 32⟩]].map fun a =>
      (drawMap [⟨0x1000, 64⟩] { idle with env := { EnvScript.empty with dmaMap := [a] } }).1) =
    [none, some [⟨0, 33⟩, ⟨64, 31⟩], some [⟨0, 32⟩, ⟨64, 32⟩]] := by decide
theorem witness_PioInitCursor : (pio (block .read 64) .read 0 64).fault = none ∧
    (pio (block .read 64) .read 0 64).q = some ⟨block .read 64, Result.initial⟩ := by decide
theorem witness_PioXferWriteMoves : let s := pio (block .write 64) .write (2 ^ 32 - 64) 64
    s.fault = none ∧ s.q = some ⟨block .write 64, Result.initial⟩ ∧ s.h.dataDir = some .write ∧ 1 ≤ 1 ∧
    0 < s.h.segLeft ∧ s.h.bufPtr + s.h.segLeft ≤ 2 ^ 32 := by decide
theorem witness_PioXferReadMoves : let s := pio (block .read 64) .read 0x1000 1
    s.fault = none ∧ s.q = some ⟨block .read 64, Result.initial⟩ ∧ s.h.dataDir = some .read ∧ 1 ≤ 1 ∧
    0 < s.h.segLeft ∧ s.h.bufPtr + s.h.segLeft ≤ 2 ^ 32 := by decide
/-- The segment is exhausted with bytes left: a next segment, and none. -/
theorem witness_PioXferSegmentEnd : let s := { pio (block .read 64) .read 0x1040 0 with
      h := { (pio (block .read 64) .read 0x1040 0).h with bytesLeft := 1 } }
    s.fault = none ∧ s.h.dataDir = some .read ∧ s.h.segLeft = 0 ∧ 0 < s.h.bytesLeft ∧
    [(⟨0x1000, 64⟩ : Seg), ⟨0x2000, 1⟩][s.h.sgIdx + 1]? = some ⟨0x2000, 1⟩ ∧
    [(⟨0x1000, 64⟩ : Seg)].length ≤ s.h.sgIdx + 1 := by decide
theorem witness_PioWalkStreamsTheBuffer : let s := pio (block .write 64) .write 0 64
    dataValid ⟨.write, 64, 1, [⟨0x1000, 64⟩], 5, false⟩ = true ∧
    dataTotal ⟨.write, 64, 1, [⟨0x1000, 64⟩], 5, false⟩ ≤ totalLength [⟨0x1000, 64⟩] ∧
    s.h.dataDir = some .write ∧ s.h.bytesLeft = 64 ∧ ∀ n ∈ [1, 40, 32], 1 ≤ n := by decide
/-- The same for a READ, over two segments at the top of memory. -/
theorem witness_PioWalkStreamsTheBuffer_read :
    let d : DataPhase := ⟨.read, 3, 1, [⟨2 ^ 32 - 2, 2⟩, ⟨0, 1⟩], 5, false⟩
    let s := pio { block .read 3 with data := some d } .read 0 3
    dataValid d = true ∧ dataTotal d ≤ totalLength d.sg ∧ s.h.dataDir = some .read ∧
    s.h.bytesLeft = dataTotal d := by decide
theorem witness_HostMemoryLittleEndian : Memory.wf [(2, 7), (2 ^ 32 - 1, 1)] = true := by decide
theorem witness_CmdStartIssuesCommand : (command plain).q = some ⟨plain, Result.initial⟩ ∧
    (command plain).h.data = false ∧ dmaRead.h.doDma = true ∧ pioRead.h.dataDir ≠ some .write ∧
    (blockStop .read 64).stop = some ⟨12, 0, .shortCrc, true⟩ := by decide
theorem witness_CmdStartPreloadsPioWrite : let s := pio (blockStop .write 64) .write (2 ^ 32 - 64) 64
    s.q = some ⟨blockStop .write 64, Result.initial⟩ ∧ s.h.data = true ∧ s.h.doDma = false ∧
    s.h.dataDir = some .write ∧ 0 < s.h.segLeft ∧ s.h.bufPtr + s.h.segLeft ≤ 2 ^ 32 := by decide
theorem witness_IrqSpuriousMasksAll : idle.fault = none ∧ idle.h.attached = true ∧ idle.h.cmd = none ∧
    idle.h.data = false ∧ EngineConsistent idle ∧ idle.h.phase = .idle :=
  ⟨rfl, rfl, rfl, rfl, idle_inv.consistent rfl, rfl⟩
/-- A command alone, a data phase alone, and both, with events of every kind; the interrupt answers. -/
theorem witness_IrqRunsItsParts : ∀ s ∈ [seen [0x0B4] (command plain), dmaRead, pioRead,
      seen [0x06D] { dmaRead with h := { dmaRead.h with cmd := some .main, phase := .commandIssued } }],
    s.fault = none ∧ s.h.attached = true ∧ (s.h.cmd ≠ none ∨ s.h.data = true) ∧
    leaves State.fault (exec .irq s) = some none := by decide
/-- The CRC error surfaced and not, at the boundary of HS_CRC_HZ. -/
theorem witness_IrqEndsCommand : ∀ hz ∈ [25000000, 25000001],
    let s := seen [0x084] { command plain with h := { (command plain).h with busClockHz := hz } }
    s.cfg.layout.ok = true ∧ s.fault = none ∧ s.h.attached = true ∧ s.h.cmd = some .main ∧
    s.h.data = false ∧ s.q = some ⟨plain, Result.initial⟩ ∧
    eventAt s.cfg.layout (drawnWord .st0 s) s.cfg.layout.rspdne = true ∧
    eventAt s.cfg.layout (drawnWord .st0 s) s.cfg.layout.toutrs = false := by decide
theorem witness_StatusDataDone : idle.h.data = false ∧ dmaRead.h.data = true ∧ dmaRead.h.doDma = true ∧
    idle.cfg.layout.ok = true := by decide
/-- A residual of 1 byte and of one less than the threshold; the drain answers. -/
theorem witness_StatusDataDone_residual : ∀ left ∈ [1, 31],
    let s := { pio (block .read 64) .read 0x1000 left with
      env := { EnvScript.empty with drr := List.replicate 31 5 } }
    s.h.doDma = false ∧ s.h.dataDir = some .read ∧ 0 < s.h.bytesLeft ∧ s.h.bytesLeft < s.threshold ∧
    leaves State.fault (exec (.pioXfer s.h.bytesLeft) s) = some none := by decide
theorem witness_StatusDataErrors : idle.h.data = false ∧ pioRead.h.data = true ∧
    pioRead.q = some ⟨block .read 64, Result.initial⟩ ∧ eventAt pioRead.cfg.layout 0x00 5 = false ∧
    eventAt pioRead.cfg.layout 0x20 5 = true := by decide
theorem witness_StatusCommandEvents : idle.h.cmd = none ∧ (command plain).h.cmd = some .main ∧
    (command plain).h.data = false ∧ pioRead.h.data = true ∧
    (command plain).h.busClockHz ≤ (command plain).cfg.hsCrcHz ∧ idle.cfg.hsCrcHz < 25000001 := by decide
/-- A second turn: the new word shows a FIFO-ready bit and one byte is left, in a second segment; the row
goes on as the row of that word and moves it. -/
theorem witness_StatusFifoReady_turn :
    let d : DataPhase := ⟨.read, 65, 1, [⟨0x1000, 64⟩, ⟨0x2000, 1⟩], 5, false⟩
    let s := { pio { block .read 65 with data := some d } .read 0x1020 32 with
      h := { (pio { block .read 65 with data := some d } .read 0x1020 32).h with bytesLeft := 33 }
      env := { EnvScript.empty with st0 := [0x200, 0x001], drr := List.replicate 9 5 } }
    leaves (fun u => (u.fault, u.h.bytesLeft, eventAt s.cfg.layout (drawnWord .st0 u) s.cfg.layout.dxrdy))
      (exec (.pioXfer s.threshold) s) = some (none, 1, true) ∧
    leaves (fun t => (t.fault, t.h.bytesLeft, t.irq.q)) (exec (.stDrrdy 0x400) s) = some (none, 0, 0x601) := by
  decide
/-- The last chunk: one byte, and a whole threshold, at the top of the address space. -/
theorem witness_StatusFifoReady_last : ∀ left ∈ [1, 32],
    let s := pio (block .write 64) .write (2 ^ 32 - left) left
    s.h.data = true ∧ s.h.doDma = false ∧ s.q = some ⟨block .write 64, Result.initial⟩ ∧
    s.h.dataDir = some .write ∧ 0 < s.h.segLeft ∧ s.h.segLeft = s.h.bytesLeft ∧
    s.h.bytesLeft ≤ s.threshold ∧ s.h.bufPtr + s.h.segLeft ≤ 2 ^ 32 := by decide
theorem witness_StatusFifoReady : idle.h.bytesLeft = 0 ∧ 0 < pioRead.h.bytesLeft ∧ pioRead.h.data = true ∧
    pioRead.h.doDma = false ∧ leaves (fun u => (u.fault, u.h.bytesLeft))
      (exec (.pioXfer pioRead.threshold) pioRead) = some (none, 0) := by decide
theorem witness_DmaErrMarksTransfer : idle.h.data = false ∧ dmaRead.h.data = true ∧ dmaRead.h.doDma = true ∧
    dmaRead.q = some ⟨block .read 64, Result.initial⟩ := by decide
/-- Each class of response, and the three ends of CMD_END. -/
theorem witness_ResponseLatch : [Resp.none, .shortCrc, .shortNoCrc, .longCrc].map (fun r =>
    (⟨1, 0, r, false⟩ : Command).resp) = [.none, .shortCrc, .shortNoCrc, .longCrc] := by decide
theorem witness_CmdEndOutcomes : let r := { Result.initial with cmdError := ErrorKind.crc }
    (command plain).q = some ⟨plain, Result.initial⟩ ∧ (command plain).h.cmd = some .main ∧
    (command plain).h.data = false ∧ (command plain).fault = none ∧ Result.initial.cmdError = .none ∧
    r.cmdError ≠ .none ∧ pioRead.h.doDma = false ∧ pioRead.h.data = true ∧ dmaRead.h.doDma = true ∧
    dmaRead.h.dataDir = some .read := by decide
theorem witness_DataTeardownReleases : idle.h.doDma = false ∧ dmaRead.h.doDma = true ∧
    dmaRead.q = some ⟨block .read 64, Result.initial⟩ ∧ dmaRead.h.dataDir = some .read := by decide
theorem witness_XferEndDecidesStop : (block .read 64).stop = none ∧
    (blockStop .read 64).stop = some ⟨12, 0, .shortCrc, true⟩ ∧ Result.initial.cmdError = .none := by decide
theorem witness_CompleteDelivers : pioRead.q = some ⟨block .read 64, Result.initial⟩ ∧
    pioRead.fault = none := by decide
theorem witness_AttachInitialises : ∀ use ∈ [true, false],
    let s := { State.reset with cfg := { Config.default with useDma := use }
                                env := { EnvScript.empty with clkRate := [1] } }
    s.fault = none ∧ s.h.attached = false ∧ (drawRate s).1 ≠ 0 ∧ s.cfg.useDma = use := by decide
theorem witness_BoardQueriesForward : idle.fault = none ∧ idle.h.attached = true := ⟨rfl, rfl⟩
theorem witness_DetachReleases : idle.h.attached = true ∧ idle.h.phase = .idle ∧ idle.h.dmaOk = true ∧
    ready.h.dmaOk = false := by decide

end Sys2Proof.Tests
end

section
/-! PROOF. COMPLETE (R226) and the register-word rows (R12, R26, R72): the whole next state of a completed
request and of a whole-word write, and the two obligations that follow (O55, O59). -/

namespace Sys2Proof.Machine

/-! ### Words of fields under the polarity of the layout (entry 5) -/

theorem noInterrupts_eq (l : Layout) : noInterrupts l = 0 ^^^ l.low.im := rfl

theorem initckWord_eq (l : Layout) : initckWord l = bit l.initck ^^^ l.low.cmd := rfl

/-! ### COMPLETE -/

/-- The next state of a completed request, every field at once: the `completeRequest_*` laws give it field
by field. -/
theorem completeRequest_eq (q : InFlight) (s : State) : completeRequest q s = { s with
    h := { s.h with cmd := none, data := false, phase := .idle }
    q := none
    regs := { s.regs with im := 0 ^^^ s.cfg.layout.low.im }
    irq := { s.irq with completed := true }
    trace := s.trace ++ [.regW .im (0 ^^^ s.cfg.layout.low.im), .completion q.record] } := by
  have htrace : (completeRequest q s).trace =
      s.trace ++ [.regW .im (0 ^^^ s.cfg.layout.low.im), .completion q.record] := by
    rw [completeRequest_trace, noInterrupts_eq, List.append_assoc, List.singleton_append]
  rw [← htrace]
  rfl

/-- With no fault and a request in flight, COMPLETE is `completeRequest` of that request. -/
theorem exec_complete_running {s : State} {q : InFlight} (hf : s.fault = none) (hq : s.q = some q) :
    exec .complete s = .next (completeRequest q { s with ret := .done }) := by
  change operation s complete = _
  rw [operation_running hf]
  exact withQ_some hq _

/-- Settles O55: COMPLETE is `completeRequest`, whose whole next state is `completeRequest_eq`; the answer
is `done`. -/
theorem completeDelivers : Obligations.CompleteDelivers := by
  refine ⟨by decide, fun s q hf hq => ⟨.done, ?_⟩⟩
  rw [exec_complete_running hf hq, completeRequest_eq]
  rfl

/-! ### The register-word rows -/

/-- One whole-word write as an operation, with no fault: the register, the event and the answer change and
nothing else. The word may be one of the configured layout. -/
theorem operation_regWrite {s : State} (hf : s.fault = none) (r : StoredReg) (w : Layout → Word) :
    operation s (fun s => .next (regWrite r (w s.cfg.layout) s)) = .next { s with
      regs := s.regs.set r (w s.cfg.layout)
      trace := s.trace ++ [.regW r (w s.cfg.layout)]
      ret := .done } :=
  operation_running hf _

theorem exec_cmdWord (f : CmdFields) (s : State) :
    exec (.cmdWord f) s = operation s fun s => .next (regWrite .cmd (cmdWord s.cfg.layout f) s) := rfl

theorem exec_initckWord (s : State) :
    exec .initckWord s = operation s fun s => .next (regWrite .cmd (initckWord s.cfg.layout) s) := rfl

theorem exec_imWord (f : StatusBits) (s : State) :
    exec (.imWord f) s = operation s fun s => .next (regWrite .im (maskWord s.cfg.layout f) s) := rfl

theorem exec_fifoctlWord (f : FifoFields) (s : State) :
    exec (.fifoctlWord f) s = operation s fun s => .next (regWrite .fifoctl (fifoWord s.cfg.layout f) s) := rfl

theorem exec_ctlWord (w : Word) (s : State) :
    exec (.ctlWord w) s = operation s fun s => .next (regWrite .ctl w s) := rfl

theorem exec_clkWord (w : Word) (s : State) :
    exec (.clkWord w) s = operation s fun s => .next (regWrite .clk w s) := rfl

/-- Settles O59, row by row: each row is `operation_regWrite` at its register and its word. -/
theorem registerWordRows : Obligations.RegisterWordRows := by
  intro s hf l
  refine ⟨fun f => ?cmd, ?initck, fun f => ?im, fun f => ?fifoctl, fun w => ?ctl, fun w => ?clk⟩
  case cmd => exact (exec_cmdWord f s).trans (operation_regWrite hf .cmd (cmdWord · f))
  case initck =>
    rw [← initckWord_eq]
    exact (exec_initckWord s).trans (operation_regWrite hf .cmd initckWord)
  case im => exact (exec_imWord f s).trans (operation_regWrite hf .im (maskWord · f))
  case fifoctl => exact (exec_fifoctlWord f s).trans (operation_regWrite hf .fifoctl (fifoWord · f))
  case ctl => exact (exec_ctlWord w s).trans (operation_regWrite hf .ctl fun _ => w)
  case clk => exact (exec_clkWord w s).trans (operation_regWrite hf .clk fun _ => w)

end Sys2Proof.Machine
end

section
/-! PROOF. What every operation keeps (R20, R26, R58, R59, R74, R84): one relation between the states
before and after, which holds of each primitive and is carried through sequencing to every instruction
(O7, O8). -/

namespace Sys2Proof.Machine

/-! ### The relation -/

theorem replayRegs_append (es fs : List Event) (b : Regs) :
    replayRegs b (es ++ fs) = replayRegs (replayRegs b es) fs := by
  induction es generalizing b with
  | nil => rfl
  | cons e es ih => cases e <;> exact ih _

theorem replayMem_append (es fs : List Event) (m : Memory) :
    replayMem m (es ++ fs) = replayMem (replayMem m es) fs := by
  induction es generalizing m with
  | nil => rfl
  | cons e es ih => cases e <;> exact ih _

/-- `t` comes after `s` in one operation: the trace grew by events whose writes account for every change of
the stored registers and of host memory, the configuration and the queue stand, and a fault stays. -/
structure Follows (s t : State) : Prop where
  cfg : t.cfg = s.cfg
  pending : t.pending = s.pending
  fault : s.fault ≠ none → t.fault = s.fault
  log : ∃ es, t.trace = s.trace ++ es ∧ t.regs = replayRegs s.regs es ∧ t.mem = replayMem s.mem es

theorem Follows.trans {s u t : State} (h : Follows s u) (h' : Follows u t) : Follows s t where
  cfg := h'.cfg.trans h.cfg
  pending := h'.pending.trans h.pending
  fault hs := (h'.fault (by rwa [h.fault hs])).trans (h.fault hs)
  log := by
    obtain ⟨es, htrace, hregs, hmem⟩ := h.log
    obtain ⟨fs, htrace', hregs', hmem'⟩ := h'.log
    refine ⟨es ++ fs, ?_, ?_, ?_⟩
    · rw [htrace', htrace, List.append_assoc]
    · rw [hregs', hregs, replayRegs_append]
    · rw [hmem', hmem, replayMem_append]

/-- A change of fields the trace does not record. -/
theorem Follows.silent {s t : State}
    (h : t = { s with h := t.h, q := t.q, dma := t.dma, irq := t.irq, env := t.env, ret := t.ret }) :
    Follows s t := by
  rw [h]
  exact ⟨rfl, rfl, fun _ => rfl, [], by simp, rfl, rfl⟩

theorem Follows.refl (s : State) : Follows s s := .silent rfl

/-- The events that store nothing: all but the register and memory writes. -/
def storesNothing : Event → Bool
  | .regW _ _ => false
  | .memW _ _ _ => false
  | _ => true

/-- The new events of a state that follows another account for its registers and its memory. -/
theorem Follows.newEvents {s t : State} (h : Follows s t) :
    t.regs = replayRegs s.regs (newEvents s t) ∧ t.mem = replayMem s.mem (newEvents s t) := by
  obtain ⟨es, htrace, hregs, hmem⟩ := h.log
  have hnew : Machine.newEvents s t = es := by simp [Machine.newEvents, htrace]
  rw [hnew]
  exact ⟨hregs, hmem⟩

/-! ### The primitives (R12) -/

theorem follows_emit {e : Event} (he : storesNothing e = true) (s : State) : Follows s (emit e s) where
  cfg := rfl
  pending := rfl
  fault _ := rfl
  log := by
    refine ⟨[e], rfl, ?_⟩
    cases e with
    | regW r v => cases he
    | memW a w v => cases he
    | _ => exact ⟨rfl, rfl⟩

theorem follows_returning (r : Ret) (s : State) : Follows s (returning r s) := .silent rfl

theorem follows_regRead (r : StoredReg) (s : State) : Follows s (regRead r s).2 := follows_emit rfl s

theorem follows_regWrite (r : StoredReg) (v : Word) (s : State) : Follows s (regWrite r v s) where
  cfg := rfl
  pending := rfl
  fault _ := rfl
  log := ⟨[.regW r v], rfl, rfl, rfl⟩

theorem follows_memWrite (a : Nat) (w : Width) (v : Word) (s : State) : Follows s (memWrite a w v s) where
  cfg := rfl
  pending := rfl
  fault _ := rfl
  log := ⟨[.memW a w v], rfl, rfl, rfl⟩

theorem follows_regDraw (r : DrawnReg) (s : State) : Follows s (regDraw r s).2 :=
  .trans (.silent rfl) (follows_emit rfl _)

theorem follows_fifoRead (w : Width) (s : State) : Follows s (fifoRead w s).2 :=
  .trans (.silent rfl) (follows_emit rfl _)

/-- The sticky fault has one value, so that raising it again changes nothing of it (R59). -/
theorem follows_raiseFault {s t : State}
    (h : t = { s with fault := some .pioCursorExhausted, ret := .halted }) : Follows s t := by
  subst h
  refine ⟨rfl, rfl, fun hs => ?_, [], by simp, rfl, rfl⟩
  obtain ⟨k, hk⟩ := Option.ne_none_iff_exists'.mp hs
  rw [hk]

/-! ### Sequencing -/

/-- Whatever next state `f` answers follows the state it started from. -/
def Traced (f : State → Answer) : Prop := ∀ s t, f s = .next t → Follows s t

theorem Traced.next {g : State → State} (h : ∀ s, Follows s (g s)) : Traced fun s => .next (g s) := by
  intro s t ht
  cases ht
  exact h s

theorem Traced.fault (r : Fault) : Traced fun _ => .fault r := fun _ _ h => nomatch h

theorem Traced.refused (r : Refusal) : Traced fun _ => .refused r := fun _ _ h => nomatch h

theorem Traced.refuse (k : RefuseKind) : Traced (refuse k) := .next fun _ => .silent rfl

theorem follows_andThen {o : Answer} {f : State → Answer} {s t : State}
    (ho : ∀ u, o = .next u → Follows s u) (hf : Traced f) (h : andThen o f = .next t) : Follows s t := by
  obtain ⟨u, hu, ⟨_, rfl⟩ | ⟨_, ht⟩⟩ := andThen_eq_next h
  · exact ho t hu
  · exact (ho u hu).trans (hf u t ht)

theorem Traced.andThen {f g : State → Answer} (hf : Traced f) (hg : Traced g) :
    Traced fun s => andThen (f s) g := fun s _ => follows_andThen (hf s) hg

theorem Traced.ite {c : State → Prop} [∀ s, Decidable (c s)] {f g : State → Answer} (hf : Traced f)
    (hg : Traced g) : Traced fun s => if c s then f s else g s := by
  intro s t h
  dsimp only at h
  split_ifs at h
  · exact hf s t h
  · exact hg s t h

theorem Traced.operation {f : State → Answer} (hf : Traced f) : Traced (operation · f) := by
  intro s t h
  rcases operation_eq_next h with ⟨_, rfl⟩ | ⟨_, ht⟩
  · exact .silent rfl
  · exact .trans (.silent rfl) (hf _ t ht)

theorem Traced.whenAttached {f : State → Answer} (hf : Traced f) : Traced (whenAttached · f) := by
  intro s t h
  rcases whenAttached_eq_next h with ⟨_, rfl⟩ | ⟨_, ht⟩
  · exact .silent rfl
  · exact hf s t ht

theorem Traced.withQ {f : InFlight → State → Answer} (hf : ∀ q, Traced (f q)) :
    Traced fun s => withQ s fun q => f q s := by
  intro s t h
  obtain ⟨q, _, ht⟩ := withQ_eq_next h
  exact hf q s t ht

theorem Traced.withData {f : InFlight → DataPhase → State → Answer} (hf : ∀ q d, Traced (f q d)) :
    Traced fun s => withData s fun q d => f q d s := by
  intro s t h
  obtain ⟨q, d, _, _, ht⟩ := withData_eq_next h
  exact hf q d s t ht

theorem Traced.withDir {f : Dir → State → Answer} (hf : ∀ dir, Traced (f dir)) :
    Traced fun s => withDir s fun dir => f dir s := by
  intro s t h
  obtain ⟨dir, _, ht⟩ := withDir_eq_next h
  exact hf dir s t ht

/-! ### The PIO walker (R160) -/

theorem traced_pioAccess (dir : Dir) (w : Width) (a : Nat) : Traced (pioAccess dir w a) := by
  intro s t h
  rcases (pioAccess_eq_next h).2 with ⟨_, rfl⟩ | ⟨_, rfl⟩
  · exact (follows_emit rfl s).trans (follows_emit rfl _)
  · exact (follows_fifoRead w s).trans (follows_memWrite a w _ _)

theorem traced_pioAccesses (dir : Dir) (w : Width) : ∀ n a, Traced (pioAccesses dir w n a)
  | 0, _ => .next .refl
  | n + 1, a => (traced_pioAccess dir w a).andThen (traced_pioAccesses dir w n (a + w.bytes))

theorem traced_pioAdvance (d : DataPhase) : Traced (pioAdvance d) := by
  intro s t h
  rcases pioAdvance_eq_next h with ⟨_, rfl⟩ | ⟨_, _, _, ht⟩ | ⟨_, g, _, rfl⟩
  · exact .refl t
  · exact follows_raiseFault ht
  · exact .silent rfl

theorem traced_pioMove (dir : Dir) (n : Nat) : Traced (pioMove dir n) := fun s =>
  (traced_pioAccesses dir _ _ _).andThen (.next fun _ => .silent rfl) s

theorem traced_pioXfer (n : Nat) : Traced (pioXfer n) :=
  .withData fun _ d => .withDir fun dir => (traced_pioAdvance d).andThen (traced_pioMove dir n)

/-! ### Submission (R141, R144, R171, R178) -/

theorem follows_busyPoll : ∀ (n : Nat) (s : State), Follows s (busyPoll n s).2
  | 0, s => .refl s
  | n + 1, s => by
    unfold busyPoll
    dsimp only
    split_ifs
    · exact (follows_regDraw .st1 s).trans (follows_busyPoll n _)
    · exact follows_regDraw .st1 s

theorem follows_busyCheck (s : State) : Follows s (busyCheck s).2 := follows_busyPoll _ s

theorem follows_fifoCfg (dir : Dir) (s : State) : Follows s (fifoCfg dir s) :=
  (follows_regWrite _ _ s).trans (follows_regWrite _ _ _)

theorem follows_programChain (ch : Option Nat) (es : List Desc) :
    ∀ (i : Nat) (s : State), Follows s (programChain ch i es s) := by
  induction es with
  | nil => exact fun _ => .refl
  | cons e rest ih => exact fun i s => (follows_emit rfl s).trans (ih (i + 1) _)

theorem follows_dmaProgram (dir : Dir) (msg : List Seg) (s : State) : Follows s (dmaProgram dir msg s) :=
  (follows_programChain _ _ 0 s).trans <| (follows_emit (e := .dmaStart _) rfl _).trans (.silent rfl)

theorem follows_dmaSetup (d : DataPhase) (dir : Dir) (s : State) : Follows s (dmaSetup d dir s).2 := by
  have hmap (r : Option (List Seg)) : Follows s (emit (.dmaMap d.sg dir r) (drawMap d.sg s).2) :=
    .trans (.silent rfl) (follows_emit rfl _)
  rcases dmaSetup_cases d dir s with ⟨_, h⟩ | ⟨_, _, h⟩ | ⟨_, msg, _, ⟨_, h⟩ | ⟨_, h⟩⟩ <;> rw [h]
  · exact .refl s
  · exact hmap _
  · exact (hmap _).trans (follows_emit rfl _)
  · exact (hmap _).trans (follows_dmaProgram dir msg _)

theorem traced_pioInit (d : DataPhase) : Traced (pioInit d) := by
  intro s t h
  obtain ⟨g, rest, _, rfl⟩ := pioInit_eq_next h
  exact .silent rfl

theorem follows_prepareNoData (s : State) : Follows s (prepareNoData s) :=
  .trans (.silent rfl) <| (follows_regWrite .blen 0 _).trans (follows_regWrite .nblk 0 _)

theorem follows_prepareRegisters (d : DataPhase) (s : State) : Follows s (prepareRegisters d s) :=
  .trans (.silent rfl) <| (follows_regWrite .tod _ _).trans <| (follows_regWrite .nblk _ _).trans <|
    (follows_regWrite .blen _ _).trans <| .trans (.silent rfl) <| (follows_fifoCfg d.dir _).trans (.silent rfl)

theorem traced_prepareStrategy (d : DataPhase) : Traced (prepareStrategy d) := by
  intro s t h
  rcases prepareStrategy_eq_next h with ⟨_, _, rfl⟩ | ⟨_, _, h⟩ | ⟨_, h⟩
  · exact (follows_dmaSetup d d.dir s).trans (.silent rfl)
  · exact (follows_dmaSetup d d.dir s).trans (traced_pioInit d _ t h)
  · exact traced_pioInit d s t h

theorem traced_prepare : Traced prepare := by
  intro s t h
  obtain ⟨q, _, ⟨_, rfl⟩ | ⟨d, _, h⟩⟩ := prepare_eq_next h
  · exact follows_prepareNoData s
  · exact (follows_prepareRegisters d s).trans (traced_prepareStrategy d _ t h)

theorem follows_issue (slot : Slot) (arg w im : Word) (s : State) : Follows s (issue slot arg w im s) :=
  (follows_regWrite .arg arg s).trans <| (follows_regWrite .cmd w _).trans <|
    (follows_regWrite .im im _).trans (.silent rfl)

theorem traced_cmdStart (slot : Slot) : Traced (cmdStart slot) := by
  refine .withQ fun q => ?_
  cases q.command slot with
  | none => exact .fault _
  | some c =>
    intro s t h
    have hstart : Follows s (regWrite .tor (value16 CTO_MAX) { s with h := { s.h with cmd := some slot } }) :=
      .trans (.silent rfl) (follows_regWrite .tor _ _)
    have hpreload : Traced fun u => if preloads u then pioXfer u.threshold u else .next u :=
      .ite (fun u => traced_pioXfer _ u) (.next .refl)
    exact hstart.trans (follows_andThen (hpreload _) (.next fun u => follows_issue slot c.arg _ _ u) h)

theorem traced_submit (req : BusRequest) : Traced (submit req) := fun s _ h =>
  .trans (.silent rfl) <| follows_andThen
    (traced_prepare { s with q := some (accepted req), h := { s.h with doDma := false } })
    (traced_cmdStart .main) h

theorem traced_requestAdmitted (req : BusRequest) : Traced (requestAdmitted req) := by
  intro s t h
  unfold requestAdmitted at h
  dsimp only at h
  have hbusy := follows_busyCheck s
  split_ifs at h
  · cases h
    exact hbusy.trans (follows_emit rfl _)
  · exact hbusy.trans (traced_submit req _ t h)

/-! ### The host boundary and bus timing (R240, R245, R255, R258) -/

theorem follows_settleChannels (a b : Option Nat) (s : State) : Follows s (settleChannels a b s) := by
  cases a <;> cases b
  · exact .refl s
  · exact follows_emit rfl s
  · exact follows_emit rfl s
  · exact .silent rfl

theorem follows_requestChannels (s : State) : Follows s (requestChannels s) :=
  .trans (.silent rfl) <| (follows_emit (e := .dmaRequest .read _) rfl _).trans <| .trans (.silent rfl) <|
    (follows_emit (e := .dmaRequest .write _) rfl _).trans (follows_settleChannels _ _ _)

theorem follows_attachAt (rate : Nat) (s : State) : Follows s (attachAt rate s) := by
  have hsession (u : State) :
      Follows u (freshSession (if u.cfg.useDma then requestChannels u else u)) := by
    refine .trans ?_ (.silent rfl)
    split_ifs
    · exact follows_requestChannels u
    · exact .refl u
  exact (follows_emit (e := .clkRate rate) rfl s).trans <| .trans (.silent rfl) (hsession _)

theorem traced_attachAdmitted : Traced attachAdmitted := by
  intro s t h
  unfold attachAdmitted at h
  dsimp only at h
  split_ifs at h
  cases h
  exact (follows_emit (e := .clkEnable) rfl s).trans <| .trans (.silent rfl) (follows_attachAt _ _)

theorem follows_freeChannels (s : State) : Follows s (freeChannels s) :=
  (follows_emit (e := .dmaFree .read) rfl s).trans <|
    (follows_emit (e := .dmaFree .write) rfl _).trans (.silent rfl)

theorem follows_detachAdmitted (s : State) : Follows s (detachAdmitted s) := by
  have hfree : Follows s (if s.h.dmaOk then freeChannels s else s) := by
    split_ifs
    · exact follows_freeChannels s
    · exact .refl s
  exact hfree.trans <| (follows_emit (e := .clkDisable) rfl _).trans (.silent rfl)

theorem follows_initckPoll : ∀ (n : Nat) (s : State), Follows s (initckPoll n s)
  | 0, s => .refl s
  | n + 1, s => by
    unfold initckPoll
    dsimp only
    split_ifs
    · exact follows_regDraw .st0 s
    · exact (follows_regDraw .st0 s).trans (follows_initckPoll n _)

theorem follows_initck (s : State) : Follows s (initck s) :=
  (follows_regWrite .cmd _ s).trans (follows_initckPoll _ _)

theorem follows_setWidth (width : BusWidth) (s : State) : Follows s (setWidth width s) :=
  (follows_regRead .ctl s).trans <| (follows_regWrite .ctl _ _).trans (.silent rfl)

theorem follows_setClockPushPull (hz : Nat) (s : State) : Follows s (setClockPushPull hz s) :=
  (follows_regRead .clk s).trans <| (follows_regWrite .clk _ _).trans <|
    (follows_emit (e := .delay _) rfl _).trans <| (follows_regWrite .clk _ _).trans <|
    (follows_regWrite .clk _ _).trans (follows_emit (e := .delay _) rfl _)

theorem follows_setClock (mode : BusMode) (hz : Nat) (s : State) : Follows s (setClock mode hz s) := by
  cases mode with
  | openDrain => exact (follows_regRead .clk s).trans <| (follows_regWrite .clk _ _).trans (.silent rfl)
  | pushPull => exact (follows_setClockPushPull hz s).trans (.silent rfl)

theorem follows_setPower (power : PowerMode) (s : State) : Follows s (setPower power s) := by
  unfold setPower
  refine .trans ?_ (.silent rfl)
  split_ifs
  · exact follows_initck s
  · exact .refl s

theorem follows_setIosAdmitted (width : BusWidth) (mode : BusMode) (power : PowerMode) (hz : Nat) (s : State) :
    Follows s (setIosAdmitted width mode power hz s) :=
  (follows_setWidth width s).trans <| (follows_setClock mode hz _).trans (follows_setPower power _)

/-! ### Ending and completing (R220 to R226) -/

theorem follows_completeRequest (q : InFlight) (s : State) : Follows s (completeRequest q s) :=
  .trans (.silent rfl) <| (follows_regWrite .im _ _).trans <| .trans (.silent rfl) (follows_emit rfl _)

theorem traced_complete : Traced complete := .withQ fun q => .next (follows_completeRequest q)

theorem follows_releaseDma (d : DataPhase) (dir : Dir) (s : State) : Follows s (releaseDma d dir s) :=
  (follows_emit (e := .dmaStop _) rfl s).trans <| (follows_emit (e := .dmaClean _) rfl _).trans
    (follows_emit (e := .dmaUnmap _ _) rfl _)

theorem traced_dataTeardown : Traced dataTeardown := by
  intro s t h
  rcases dataTeardown_eq_next h with ⟨_, rfl⟩ | ⟨_, q, d, dir, _, _, _, rfl⟩
  · exact .silent rfl
  · exact (follows_releaseDma d dir s).trans (.silent rfl)

theorem follows_latch (c : Command) (dst : Response) (s : State) : Follows s (latch c dst s).2 := by
  unfold latch
  cases c.resp with
  | none => exact .refl s
  | shortCrc => exact follows_regDraw .rsp3 s
  | shortNoCrc => exact follows_regDraw .rsp3 s
  | longCrc =>
    exact (follows_regDraw .rsp0 s).trans <| (follows_regDraw .rsp1 _).trans <|
      (follows_regDraw .rsp2 _).trans (follows_regDraw .rsp3 _)

theorem follows_latchInto (q : InFlight) (slot : Slot) (c : Command) (s : State) :
    Follows s (latchInto q slot c s) :=
  .trans (.silent rfl) <| (follows_latch c _ _).trans (.silent rfl)

theorem traced_finishCommand (q : InFlight) (slot : Slot) : Traced (finishCommand q slot) :=
  .ite (c := fun s => (s.h.data && q.result.error slot == .none) = true) (.next fun _ => .silent rfl)
    (.ite (traced_dataTeardown.andThen traced_complete) traced_complete)

theorem traced_cmdEnd : Traced cmdEnd := by
  intro s t h
  obtain ⟨q, slot, c, _, _, _, h⟩ := cmdEnd_eq_next h
  exact (follows_latchInto q slot c s).trans (traced_finishCommand q slot _ t h)

theorem traced_stopOrComplete : Traced stopOrComplete :=
  .withQ fun q => .ite (c := fun _ => (q.req.stop.isNone || q.result.cmdError != .none) = true)
    traced_complete (traced_cmdStart .stop)

theorem traced_xferEnd : Traced xferEnd := traced_dataTeardown.andThen traced_stopOrComplete

/-! ### The interrupt path (R190 to R206) -/

theorem follows_softReset (s : State) : Follows s (softReset s) :=
  (follows_regRead .ctl s).trans <| (follows_regWrite .ctl _ _).trans <|
    (follows_emit (e := .delay _) rfl _).trans (follows_regWrite .ctl _ _)

theorem follows_readStatus (s : State) : Follows s (readStatus s) :=
  (follows_regDraw .st0 s).trans (.silent rfl)

theorem traced_serviceLoop : ∀ fuel, Traced (serviceLoop fuel)
  | 0 => .next .refl
  | fuel + 1 => by
    intro s t h
    have hread (u : State) : Follows u (accumulate (readStatus u)) :=
      (follows_readStatus u).trans (.silent rfl)
    rcases serviceLoop_succ h with ⟨_, rfl⟩ | ⟨_, u, hu, ⟨_, rfl⟩ | ⟨_, ht⟩⟩
    · exact .refl t
    · exact traced_pioXfer _ s t hu
    · exact (traced_pioXfer _ s u hu).trans <| (hread u).trans (traced_serviceLoop fuel _ t ht)

theorem traced_fifoService : Traced fifoService := fun s => traced_serviceLoop _ s

theorem traced_ruleDataDone : Traced ruleDataDone :=
  .ite (.andThen (.ite (fun s => traced_pioXfer _ s) (.next .refl))
    (.withData fun _ _ => .next fun _ => .silent rfl)) (.next .refl)

theorem traced_ruleDataTimeout : Traced ruleDataTimeout :=
  .ite (.withQ fun _ => .next fun _ => .silent rfl) (.next .refl)

theorem follows_dataCrcKind (s : State) : Follows s (dataCrcKind s).2 := by
  unfold dataCrcKind
  split_ifs
  · exact follows_regDraw .drsp s
  · exact .refl s

theorem traced_ruleDataCrc : Traced ruleDataCrc :=
  .ite (.withQ fun _ => .next fun s => (follows_dataCrcKind s).trans (.silent rfl)) (.next .refl)

theorem traced_ruleCommandTimeout : Traced ruleCommandTimeout := by
  intro s t h
  rcases ruleCommandTimeout_eq_next h with ⟨_, rfl⟩ | ⟨_, slot, q, _, _, rfl⟩
  · exact .refl t
  · split_ifs <;> exact .silent rfl

theorem traced_ruleCommandCrc : Traced ruleCommandCrc := by
  intro s t h
  rcases ruleCommandCrc_eq_next h with ⟨_, rfl⟩ | ⟨_, _, slot, q, _, _, rfl⟩
  · exact .refl t
  · exact .silent rfl

theorem traced_ruleCommandDone : Traced ruleCommandDone := .ite (.next fun _ => .silent rfl) (.next .refl)

theorem traced_classify : Traced classify :=
  traced_ruleDataDone.andThen <| traced_ruleDataTimeout.andThen <| traced_ruleDataCrc.andThen <|
    traced_ruleCommandTimeout.andThen <| traced_ruleCommandCrc.andThen traced_ruleCommandDone

theorem follows_resetIfNeeded (s : State) : Follows s (resetIfNeeded s) := by
  unfold resetIfNeeded
  split_ifs
  · exact follows_softReset s
  · exact .refl s

theorem traced_endingStage : Traced endingStage :=
  .andThen (.ite traced_cmdEnd (.next .refl)) (.ite traced_xferEnd (.next .refl))

theorem traced_irqHandle : Traced irqHandle :=
  traced_fifoService.andThen <| traced_classify.andThen <|
    .andThen (fun s t h => (follows_resetIfNeeded s).trans (traced_endingStage _ t h))
      (.next fun _ => .silent rfl)

theorem traced_irqBody : Traced irqBody := by
  intro s t h
  have henter : Follows s (irqEnter s) := .trans (.silent rfl) <| (follows_readStatus _).trans (.silent rfl)
  rcases irqBody_eq_next h with ⟨_, rfl⟩ | ⟨_, u, hu, rfl⟩
  · exact henter.trans <| (follows_regWrite .im _ _).trans (.silent rfl)
  · exact henter.trans <| (traced_irqHandle _ u hu).trans (.silent rfl)

/-! ### Every instruction -/

theorem traced_dmaErrBody : Traced dmaErrBody :=
  .ite (.withQ fun _ => .next fun _ => .silent rfl) (.next .refl)

/-- An ST0 row presents its word and runs its rule (entry 18). -/
theorem traced_presented {rule : State → Answer} (hr : Traced rule) (w : Word) (p : Config → Nat) :
    Traced fun s => operation s fun s => rule (presentStatus w (p s.cfg) s) :=
  .operation fun _ t h => .trans (.silent rfl) (hr _ t h)

/-- Every instruction leads to a state that follows the one it began in. -/
theorem exec_traced (i : Instr) : Traced (exec i) := by
  cases i with
  | attach => exact .operation (.ite (c := fun s => s.h.attached = true) (.refuse _) traced_attachAdmitted)
  | detach => exact .operation (.whenAttached (.ite (.next follows_detachAdmitted) (.refuse _)))
  | setIos width mode power hz =>
    refine .operation (.whenAttached (.ite ?_ (.refuse _)))
    cases widthOfCode width with
    | none => exact .refuse _
    | some width => exact .next (follows_setIosAdmitted width mode power hz)
  | request req =>
    exact .operation (.whenAttached (.ite
      (.ite (c := fun _ => requestValid req = true) (traced_requestAdmitted req) (.refuse _)) (.refuse _)))
  | getCd =>
    exact .operation (.whenAttached (.next fun _ =>
      .trans (.silent rfl) <| (follows_emit (e := .boardCd _) rfl _).trans (.silent rfl)))
  | getRo =>
    exact .operation (.whenAttached (.next fun _ =>
      .trans (.silent rfl) <| (follows_emit (e := .boardRo _) rfl _).trans (.silent rfl)))
  | irq => exact .operation (.whenAttached traced_irqBody)
  | dmaErr => exact .operation traced_dmaErrBody
  | divsolve r f => exact .operation (.ite (c := fun _ => r = 0) (.refused _) (.next fun _ => .silent rfl))
  | prepare => exact .operation traced_prepare
  | fifoCfg dir =>
    cases dir with
    | none => exact .operation (.refused _)
    | some dir => exact .operation (.next (follows_fifoCfg dir))
  | dmaSetup =>
    exact .operation (.withData fun _ d => .withDir fun dir => .next fun s =>
      (follows_dmaSetup d dir s).trans (follows_returning (.setup (dmaSetup d dir s).1) _))
  | pioInit => exact .operation (.withData fun _ d => traced_pioInit d)
  | pioXfer n => exact .operation (.ite (c := fun _ => n = 0) (.refused _) (traced_pioXfer n))
  | busyCheck => exact .operation (.next fun s =>
      (follows_busyCheck s).trans (follows_returning (.busy (busyCheck s).1) _))
  | cmdStart slot =>
    cases slot with
    | none => exact .operation (.refused _)
    | some slot => exact .operation (traced_cmdStart slot)
  | softReset => exact .operation (.next follows_softReset)
  | cmdEnd => exact .operation traced_cmdEnd
  | dataTeardown => exact .operation traced_dataTeardown
  | xferEnd => exact .operation traced_xferEnd
  | complete => exact .operation traced_complete
  | initck => exact .operation (.next follows_initck)
  | cmdWord f => exact .operation (.next fun s => follows_regWrite .cmd (cmdWord s.cfg.layout f) s)
  | initckWord => exact .operation (.next fun s => follows_regWrite .cmd (initckWord s.cfg.layout) s)
  | stDatdne w => exact traced_presented traced_ruleDataDone w (·.layout.datdne)
  | stToutrd w => exact traced_presented traced_ruleDataTimeout w (·.layout.toutrd)
  | stCrcwr w => exact traced_presented traced_ruleDataCrc w (·.layout.crcwr)
  | stCrcrd w => exact traced_presented traced_ruleDataCrc w (·.layout.crcrd)
  | stToutrs w => exact traced_presented traced_ruleCommandTimeout w (·.layout.toutrs)
  | stCrcrs w => exact traced_presented traced_ruleCommandCrc w (·.layout.crcrs)
  | stRspdne w => exact traced_presented traced_ruleCommandDone w (·.layout.rspdne)
  | stDxrdy w => exact traced_presented traced_fifoService w (·.layout.dxrdy)
  | stDrrdy w => exact traced_presented traced_fifoService w (·.layout.drrdy)
  | imWord f => exact .operation (.next fun s => follows_regWrite .im (maskWord s.cfg.layout f) s)
  | fifoctlWord f => exact .operation (.next fun s => follows_regWrite .fifoctl (fifoWord s.cfg.layout f) s)
  | ctlWord w => exact .operation (.next fun s => follows_regWrite .ctl w s)
  | clkWord w => exact .operation (.next fun s => follows_regWrite .clk w s)

/-- Settles O8: the events `Follows` gives account for the registers and for memory. -/
theorem storedStateFollowsTrace : Obligations.StoredStateFollowsTrace :=
  fun i s t h => (exec_traced i s t h).newEvents

/-- Settles O7: four parts of `Follows`. -/
theorem execKeepsConfigQueueTraceFault : Obligations.ExecKeepsConfigQueueTraceFault := by
  intro i s t h
  have hfollows := exec_traced i s t h
  obtain ⟨es, htrace, _⟩ := hfollows.log
  exact ⟨hfollows.cfg, hfollows.pending, ⟨es, htrace.symm⟩, hfollows.fault⟩

end Sys2Proof.Machine
end

section
/-! PROOF. The refusals of R277 (O18), ATTACH from the drawn rate and channels on (O56), and the spurious
interrupt (O43). -/

namespace Sys2Proof.Machine

/-! ### Refusals (R277) -/

/-- Every row begins with the test of the sticky fault (R59). -/
theorem exec_faulted {s : State} {k : StickyFault} (hk : s.fault = some k) (i : Instr) :
    exec i s = .next { s with ret := .refused .faulted } := by
  cases i <;> dsimp only [exec] <;> exact operation_faulted hk _

/-- A row that needs an attached engine is refused without one. -/
theorem operation_detached {s : State} (hf : s.fault = none) (ha : s.h.attached = false)
    (body : State → Answer) :
    operation s (whenAttached · body) = .next { s with ret := .refused .notAttached } := by
  rw [operation_running hf]
  exact whenAttached_false (s := { s with ret := .done }) ha body

/-- A row that needs an attached engine runs with one. -/
theorem operation_attached {s : State} (hf : s.fault = none) (ha : s.h.attached = true)
    (body : State → Answer) :
    operation s (whenAttached · body) = body { s with ret := .done } := by
  rw [operation_running hf]
  exact whenAttached_true (s := { s with ret := .done }) ha body

theorem widthOfCode_of_ge {w : Nat} (h0 : w ≠ 0) (h1 : w ≠ 1) : widthOfCode w = none := by
  match w with
  | 0 => exact absurd rfl h0
  | 1 => exact absurd rfl h1
  | _ + 2 => rfl

theorem exec_setIos_attached {s : State} (hf : s.fault = none) (ha : s.h.attached = true) (w : Nat)
    (m : BusMode) (p : PowerMode) (hz : Nat) :
    exec (.setIos w m p hz) s = if s.h.phase = .idle then
        match widthOfCode w with
        | some width => .next (setIosAdmitted width m p hz { s with ret := .done })
        | none => .next { s with ret := .refused .unsupportedWidth }
      else .next { s with ret := .refused .iosWhileBusy } :=
  operation_attached hf ha _

theorem exec_request_attached {s : State} (hf : s.fault = none) (ha : s.h.attached = true)
    (req : BusRequest) :
    exec (.request req) s = if s.h.phase = .idle then
        if requestValid req then requestAdmitted req { s with ret := .done }
        else .next { s with ret := .refused .malformedRequest }
      else .next { s with ret := .refused .requestWhileBusy } :=
  operation_attached hf ha _

theorem exec_detach_attached {s : State} (hf : s.fault = none) (ha : s.h.attached = true) :
    exec .detach s = if s.h.phase = .idle then .next (detachAdmitted { s with ret := .done })
      else .next { s with ret := .refused .detachWhileBusy } :=
  operation_attached hf ha _

theorem exec_attach_running {s : State} (hf : s.fault = none) :
    exec .attach s = if s.h.attached then .next { s with ret := .refused .alreadyAttached }
      else attachAdmitted { s with ret := .done } := by
  change execAttach s = _
  exact operation_running hf _

/-- Settles O18, test by test in the order of each operation. -/
theorem refusalsHaveNoEffect : Obligations.RefusalsHaveNoEffect := by
  refine ⟨?faulted, ?detached, fun s hf ha => (exec_attach_running hf).trans (if_pos ha), ?busy, ?idle⟩
  case faulted =>
    intro i s hf
    obtain ⟨k, hk⟩ := Option.ne_none_iff_exists'.mp hf
    exact exec_faulted hk i
  case detached =>
    rintro i s hf ha (rfl | ⟨w, m, p, hz, rfl⟩ | ⟨req, rfl⟩ | rfl | rfl | rfl) <;>
      exact operation_detached hf ha _
  case busy =>
    intro s hf ha hp
    refine ⟨?_, fun w m p hz => ?_, fun req => ?_⟩
    · rw [exec_detach_attached hf ha, if_neg hp]
    · rw [exec_setIos_attached hf ha, if_neg hp]
    · rw [exec_request_attached hf ha, if_neg hp]
  case idle =>
    intro s hf ha hp
    refine ⟨fun w m p hz h0 h1 => ?_, fun req hreq => ?_⟩
    · rw [exec_setIos_attached hf ha, if_pos hp, widthOfCode_of_ge h0 h1]
    · rw [exec_request_attached hf ha, if_pos hp, hreq]
      rfl

/-! ### ATTACH (R255) -/

/-- The state in which ATTACH asks for its channels: the rate is drawn and no channel is held. -/
def rated (s : State) : State :=
  { s with
    h := { s.h with refClockHz := (drawRate s).1, dmaOk := false }
    dma := { s.dma with chanRead := none, chanWrite := none }
    trace := s.trace ++ [.clkEnable] ++ [.clkRate (drawRate s).1]
    env := (drawRate s).2.env
    ret := .done }

theorem exec_attach_detached {s : State} (hf : s.fault = none) (ha : s.h.attached = false)
    (hr : (drawRate s).1 ≠ 0) :
    exec .attach s = .next (freshSession (if s.cfg.useDma then requestChannels (rated s) else rated s)) := by
  rw [exec_attach_running hf, if_neg (by simp [ha])]
  exact if_neg hr

/-- The two channel answers are drawn one after the other, whatever the first was. -/
theorem requestChannels_rated (s : State) :
    let a := drawChannel (drawRate s).2
    let b := drawChannel a.2
    requestChannels (rated s) = settleChannels a.1 b.1 { rated s with
      trace := (rated s).trace ++ [.dmaRequest .read a.1] ++ [.dmaRequest .write b.1], env := b.2.env } := rfl

/-- Settles O56: without DMA the session is fresh at once; with it the pair of channels is kept, or what was
granted of it is freed, answer by answer. -/
theorem attachInitialises : Obligations.AttachInitialises := by
  intro s hf ha rate a b c t tr tw h hrate
  rw [exec_attach_detached hf ha hrate]
  refine ⟨fun hdma => ?_, fun hdma => ?_⟩
  · rw [if_neg (by simp [show s.cfg.useDma = false from hdma])]
    simp only [rated, List.append_assoc, List.cons_append, List.nil_append]
    rfl
  · rw [if_pos hdma, show requestChannels (rated s) = settleChannels a.1 b.1 _ from requestChannels_rated s]
    cases a.1 <;> cases b.1 <;>
      simp only [rated, settleChannels, emit, List.append_assoc, List.cons_append, List.nil_append] <;> rfl

/-! ### The spurious interrupt (R191) -/

/-- The whole next state of a spurious interrupt, the laws of `irqEnter` and `irqSpurious` at once. -/
theorem irqBody_spurious {s : State} (hn : nothingInFlight s = true) :
    irqBody s = .next { s with
      regs := { s.regs with im := 0 ^^^ s.cfg.layout.low.im }
      trace := s.trace ++ [.regR (.drawn .st0) (drawnWord .st0 s), .regW .im (0 ^^^ s.cfg.layout.low.im)]
      env := envAfterWord .st0 s.env
      irq := IrqLocal.clear
      ret := .interrupt false } := by
  have htrace : (irqSpurious (irqEnter s)).trace = s.trace ++
      [.regR (.drawn .st0) (drawnWord .st0 s), .regW .im (0 ^^^ s.cfg.layout.low.im)] := by
    rw [irqSpurious_trace, irqEnter_trace, irqEnter_cfg, noInterrupts_eq, List.append_assoc,
      List.singleton_append]
  have hentered : nothingInFlight (irqEnter s) = true := hn
  rw [← htrace, irqBody, hentered]
  rfl

/-- Settles O43: nothing is in flight, by R42 where only the phase is known. -/
theorem irqSpuriousMasksAll : Obligations.IrqSpuriousMasksAll := by
  intro s hf ha hidle off
  obtain ⟨hcmd, hdata⟩ : s.h.cmd = none ∧ s.h.data = false := by
    refine hidle.elim id fun ⟨hcons, hphase⟩ => ?_
    have htable := hcons.phase
    simp only [PhaseTable, hphase] at htable
    exact ⟨htable.1, htable.2.1⟩
  have hirq : exec .irq s = irqBody { s with ret := .done } := operation_attached hf ha _
  exact ⟨.interrupt false, hirq.trans (irqBody_spurious (by simp [nothingInFlight, hcmd, hdata]))⟩

end Sys2Proof.Machine
end

section
/-! PROOF. The invariant between operations (R36, R42, R43, R47, R57) through every outside operation (O10),
and at hardware reset (O11). The invariant is taken apart into what holds of the data phase (`DataSound`),
of an idle engine (`IdleSound`), of a request in flight (`FlightSound`) and of its results; an interrupt
breaks the last part alone, and mends it in its ending stage. -/

namespace Sys2Proof.Machine

/-! ### The parts of the invariant -/

/-- What the invariant reads of a state but the phase, the slot, the request and `attached`. -/
def dataView (s : State) :=
  ((s.h.data, s.h.dataDir, s.h.doDma, s.h.sgIdx, s.h.bufPtr, s.h.segLeft, s.h.bytesLeft),
    (s.h.dmaOk, s.h.refClockHz, s.regs.fifoctl, s.dma.chanRead, s.dma.chanWrite, s.cfg))

theorem data_eq_of_dataView {s t : State} (h : dataView t = dataView s) : t.h.data = s.h.data :=
  congrArg (·.1.1) h

/-- The data phase, the channels and the rate under a request with this data phase (R36, R43, R47, R57). -/
structure DataSound (s : State) (data : Option DataPhase) : Prop where
  noData : s.h.data = false → s.h.dataDir = none ∧ s.h.doDma = false
  dir : s.h.data = true → s.h.dataDir = data.map (·.dir)
  cursor : ∀ d, data = some d → s.h.data = true → s.h.doDma = false → CursorInList s d
  fifo : s.h.data = true → ∀ dir, s.h.dataDir = some dir → s.regs.fifoctl = fifoctlFor s dir false
  dmaNoPio : s.h.doDma = true → s.h.bytesLeft = 0 ∧ s.h.dmaOk = true
  channels : s.h.dmaOk = true → s.dma.chanRead.isSome ∧ s.dma.chanWrite.isSome
  refClock : s.h.refClockHz > 0
  bytes : s.h.bytesLeft ≤ BLKSZ_MAX * NBLK_MAX

/-- `DataSound` reads nothing but `dataView`. -/
theorem DataSound.congr {s t : State} {data : Option DataPhase} (hs : DataSound s data)
    (hv : dataView t = dataView s) : DataSound t data := by
  simp only [dataView, Prod.mk.injEq] at hv
  obtain ⟨⟨hdata, hdir, hdma, hidx, hptr, hseg, hleft⟩, hok, hrate, hfifo, hread, hwrite, hcfg⟩ := hv
  constructor
  · simpa only [hdata, hdir, hdma] using hs.noData
  · simpa only [hdata, hdir] using hs.dir
  · simpa only [CursorInList, hdata, hdma, hidx, hptr, hseg, hleft] using hs.cursor
  · simpa only [fifoctlFor, hdata, hdir, hfifo, hcfg] using hs.fifo
  · simpa only [hdma, hleft, hok] using hs.dmaNoPio
  · simpa only [hok, hread, hwrite] using hs.channels
  · simpa only [hrate] using hs.refClock
  · simpa only [hleft] using hs.bytes

/-- With no data phase in flight only the channels and the rate are left, whatever the request has. -/
theorem DataSound.withoutData {s : State} {data : Option DataPhase} (hd : s.h.data = false)
    (hdir : s.h.dataDir = none ∧ s.h.doDma = false)
    (hchannels : s.h.dmaOk = true → s.dma.chanRead.isSome ∧ s.dma.chanWrite.isSome)
    (hclock : s.h.refClockHz > 0) (hbytes : s.h.bytesLeft ≤ BLKSZ_MAX * NBLK_MAX) : DataSound s data where
  noData _ := hdir
  dir h := absurd (hd.symm.trans h) Bool.false_ne_true
  cursor _ _ h := absurd (hd.symm.trans h) Bool.false_ne_true
  fifo h := absurd (hd.symm.trans h) Bool.false_ne_true
  dmaNoPio h := absurd (hdir.2.symm.trans h) Bool.false_ne_true
  channels := hchannels
  refClock := hclock
  bytes := hbytes

/-- With no data phase in flight it does not matter which one the request has. -/
theorem DataSound.of_noData {s : State} {data data' : Option DataPhase} (hs : DataSound s data)
    (hd : s.h.data = false) : DataSound s data' :=
  .withoutData hd (hs.noData hd) hs.channels hs.refClock hs.bytes

/-- The row of R42 for a phase in which a request is in flight. -/
def flightTable (phase : Phase) (cmd : Option Slot) (data : Bool) (req : BusRequest) : Prop :=
  match phase with
  | .idle => False
  | .commandIssued => cmd = some .main ∧ data = req.data.isSome
  | .dataInFlight => cmd = none ∧ data = true ∧ req.data.isSome = true
  | .stopIssued => cmd = some .stop ∧ data = false ∧ req.stop.isSome = true

theorem phaseTable_iff_flightTable {s : State} {q : InFlight} (hq : s.q = some q) :
    PhaseTable s ↔ flightTable s.h.phase s.h.cmd s.h.data q.req := by
  cases hp : s.h.phase <;> simp [PhaseTable, flightTable, hp, hq]

/-- With a data phase and a command in flight the command is the main one. -/
theorem flightTable.slot_eq_main {phase : Phase} {slot : Slot} {req : BusRequest}
    (h : flightTable phase (some slot) true req) : slot = .main ∧ req.data.isSome = true := by
  cases phase <;> simp_all [flightTable]

/-- A running engine with no request. -/
structure IdleSound (s : State) : Prop where
  running : s.fault = none
  phase : s.h.phase = .idle
  cmd : s.h.cmd = none
  data : s.h.data = false
  request : s.q = none
  sound : DataSound s none

theorem IdleSound.congr {s t : State} (hs : IdleSound s)
    (hv : (t.fault, t.h.phase, t.h.cmd, t.q, dataView t) = (s.fault, s.h.phase, s.h.cmd, s.q, dataView s)) :
    IdleSound t := by
  simp only [Prod.mk.injEq] at hv
  obtain ⟨hfault, hphase, hcmd, hq, hview⟩ := hv
  exact ⟨hfault.trans hs.running, hphase.trans hs.phase, hcmd.trans hs.cmd,
    (data_eq_of_dataView hview).trans hs.data, hq.trans hs.request, hs.sound.congr hview⟩

/-- A running engine with the request `q` in flight, its results aside. -/
structure FlightSound (s : State) (q : InFlight) : Prop where
  running : s.fault = none
  request : s.q = some q
  valid : requestValid q.req = true
  attached : s.h.attached = true
  table : flightTable s.h.phase s.h.cmd s.h.data q.req
  sound : DataSound s q.req.data

theorem FlightSound.congr {s t : State} {q q' : InFlight} (hs : FlightSound s q) (hq : t.q = some q')
    (hreq : q'.req = q.req)
    (hv : (t.fault, t.h.attached, t.h.phase, t.h.cmd, dataView t) =
      (s.fault, s.h.attached, s.h.phase, s.h.cmd, dataView s)) : FlightSound t q' := by
  simp only [Prod.mk.injEq] at hv
  obtain ⟨hfault, hattached, hphase, hcmd, hview⟩ := hv
  refine ⟨hfault.trans hs.running, hq, hreq ▸ hs.valid, hattached.trans hs.attached, ?_, ?_⟩
  · rw [hphase, hcmd, data_eq_of_dataView hview, hreq]
    exact hs.table
  · rw [hreq]
    exact hs.sound.congr hview

/-- The results of a request between operations: no command error yet (R285), and nothing counted while its
data phase runs, nothing or the total after (R227). -/
structure ResultSettled (s : State) (q : InFlight) : Prop where
  cmdError : q.result.cmdError = .none
  stopError : q.result.stopError = .none
  counting : s.h.data = true → q.result.bytesXfered = 0
  counted : q.result.bytesXfered = 0 ∨ q.req.data.any (fun d => q.result.bytesXfered == dataTotal d)

theorem IdleSound.consistent {s : State} (hs : IdleSound s) : EngineConsistent s where
  phase := by simp only [PhaseTable, hs.phase]; exact ⟨hs.cmd, hs.data, hs.request⟩
  attached h := absurd hs.phase h
  noData := hs.sound.noData
  request q hq := by rw [hs.request] at hq; cases hq
  cursor q hq := by rw [hs.request] at hq; cases hq
  fifo := hs.sound.fifo
  dmaNoPio := hs.sound.dmaNoPio
  channels := hs.sound.channels
  refClock := hs.sound.refClock
  bytes := hs.sound.bytes

theorem FlightSound.consistent {s : State} {q : InFlight} (hs : FlightSound s q) (hr : ResultSettled s q) :
    EngineConsistent s where
  phase := (phaseTable_iff_flightTable hs.request).mpr hs.table
  attached _ := hs.attached
  noData := hs.sound.noData
  request q' hq := by
    obtain rfl : q = q' := Option.some.inj (hs.request.symm.trans hq)
    exact ⟨hs.valid, hr.cmdError, hr.stopError, fun h => ⟨hs.sound.dir h, hr.counting h⟩, hr.counted⟩
  cursor q' hq := by
    obtain rfl : q = q' := Option.some.inj (hs.request.symm.trans hq)
    exact hs.sound.cursor
  fifo := hs.sound.fifo
  dmaNoPio := hs.sound.dmaNoPio
  channels := hs.sound.channels
  refClock := hs.sound.refClock
  bytes := hs.sound.bytes

/-- A consistent engine with a request in flight, taken apart. -/
theorem EngineConsistent.flight {s : State} {q : InFlight} (hs : EngineConsistent s) (hf : s.fault = none)
    (hq : s.q = some q) : FlightSound s q ∧ ResultSettled s q := by
  obtain ⟨hvalid, hcmd, hstop, hdata, hcounted⟩ := hs.request q hq
  have htable := (phaseTable_iff_flightTable hq).mp hs.phase
  refine ⟨⟨hf, hq, hvalid, hs.attached ?_, htable, ?_⟩, ⟨hcmd, hstop, fun h => (hdata h).2, hcounted⟩⟩
  · intro hidle
    rw [hidle] at htable
    exact htable
  · exact ⟨hs.noData, fun h => (hdata h).1, hs.cursor q hq, hs.fifo, hs.dmaNoPio, hs.channels, hs.refClock,
      hs.bytes⟩

/-- A consistent engine in phase Idle, taken apart. -/
theorem EngineConsistent.idle {s : State} (hs : EngineConsistent s) (hf : s.fault = none)
    (hp : s.h.phase = .idle) : IdleSound s := by
  have htable := hs.phase
  simp only [PhaseTable, hp] at htable
  obtain ⟨hcmd, hdata, hq⟩ := htable
  exact ⟨hf, hp, hcmd, hdata, hq, .withoutData hdata (hs.noData hdata) hs.channels hs.refClock hs.bytes⟩

/-- A consistent engine is in phase Idle exactly where it has no request. -/
theorem EngineConsistent.idle_of_noRequest {s : State} (hs : EngineConsistent s) (hq : s.q = none) :
    s.h.phase = .idle := by
  have htable := hs.phase
  cases hp : s.h.phase <;> simp_all [PhaseTable]

/-- The invariant reads nothing but these fields. -/
theorem EngineConsistent.congr {s t : State} (hs : EngineConsistent s) (hf : s.fault = none)
    (hv : (t.fault, t.h.attached, t.h.phase, t.h.cmd, t.q, dataView t) =
      (s.fault, s.h.attached, s.h.phase, s.h.cmd, s.q, dataView s)) : EngineConsistent t := by
  simp only [Prod.mk.injEq] at hv
  obtain ⟨hfault, hattached, hphase, hcmd, hq, hview⟩ := hv
  cases hreq : s.q with
  | none =>
    refine ((hs.idle hf (hs.idle_of_noRequest hreq)).congr ?_).consistent
    rw [hfault, hphase, hcmd, hq, hview]
  | some q =>
    obtain ⟨hflight, hresult⟩ := hs.flight hf hreq
    refine (hflight.congr (hq.trans hreq) rfl ?_).consistent
      ⟨hresult.cmdError, hresult.stopError, ?_, hresult.counted⟩
    · rw [hfault, hattached, hphase, hcmd, hview]
    · rw [data_eq_of_dataView hview]
      exact hresult.counting

/-- A part after which the operation went on. -/
theorem andThen_running {o : Answer} {f : State → Answer} {t : State} (h : andThen o f = .next t)
    (ht : t.fault = none) : ∃ u, o = .next u ∧ u.fault = none ∧ f u = .next t := by
  obtain ⟨u, hu, ⟨hbad, rfl⟩ | ⟨hok, hr⟩⟩ := andThen_eq_next h
  · exact absurd ht hbad
  · exact ⟨u, hu, hok, hr⟩

/-! ### The cursor (R43, R160) -/

theorem cursorInList_iff {s : State} {d : DataPhase} : CursorInList s d ↔
    s.h.segLeft ≤ s.h.bytesLeft ∧ s.h.bytesLeft ≤ dataTotal d ∧
    ∃ g, d.sg[s.h.sgIdx]? = some g ∧ g.addr ≤ s.h.bufPtr ∧ s.h.bufPtr + s.h.segLeft ≤ g.addr + g.len := by
  cases hg : d.sg[s.h.sgIdx]? <;> simp [CursorInList, hg]

theorem pioMove_cursor {dir : Dir} {n : Nat} {s t : State} {d : DataPhase} (hf : s.fault = none)
    (hc : CursorInList s d) (h : pioMove dir n s = .next t) :
    CursorInList t d ∧ t.h.bytesLeft ≤ s.h.bytesLeft := by
  have hchunk : pioChunk n s ≤ s.h.segLeft := Nat.min_le_right _ _
  obtain ⟨hseg, htotal, g, hg, hlow, hhigh⟩ := cursorInList_iff.mp hc
  have ht := congrArg State.h (pioMove_frame hf h)
  rw [cursorInList_iff, ht]
  exact ⟨⟨Nat.sub_le_sub_right hseg _, by dsimp only; omega, g, hg, by dsimp only; omega,
    by dsimp only; omega⟩, Nat.sub_le _ _⟩

theorem pioXfer_cursor {n : Nat} {s t : State} {q : InFlight} {d : DataPhase} (hf : s.fault = none)
    (hq : s.q = some q) (hd : q.req.data = some d) (hc : CursorInList s d) (h : pioXfer n s = .next t)
    (ht : t.fault = none) : CursorInList t d ∧ t.h.bytesLeft ≤ s.h.bytesLeft := by
  obtain ⟨q', d', dir, hq', hd', _, ⟨_, _, _, rfl⟩ | ⟨u, hu, hok, hm⟩⟩ := pioXfer_eq_next hf h
  · cases ht
  obtain rfl : q = q' := Option.some.inj (hq.symm.trans hq')
  obtain rfl : d = d' := Option.some.inj (hd.symm.trans hd')
  rcases pioAdvance_eq_next hu with ⟨_, rfl⟩ | ⟨_, _, _, rfl⟩ | ⟨_, g, hg, hu'⟩
  · exact pioMove_cursor hf hc hm
  · cases hok
  · have hcursor : CursorInList u d := by
      rw [cursorInList_iff, hu']
      exact ⟨Nat.min_le_right _ _, hc.2.1, g, hg, le_rfl, Nat.add_le_add_left (Nat.min_le_left _ _) _⟩
    have hleft : u.h.bytesLeft = s.h.bytesLeft := by rw [hu']
    exact hleft ▸ pioMove_cursor hok hcursor hm

/-- What a PIO call that raised no fault leaves of the control state. -/
theorem pioXfer_control {n : Nat} {s t : State} (hf : s.fault = none) (h : pioXfer n s = .next t)
    (ht : t.fault = none) :
    (t.h.attached, t.h.phase, t.h.cmd, t.h.data, t.h.dataDir, t.h.doDma, t.h.dmaOk, t.h.refClockHz) =
      (s.h.attached, s.h.phase, s.h.cmd, s.h.data, s.h.dataDir, s.h.doDma, s.h.dmaOk, s.h.refClockHz) ∧
    (t.regs, t.q, t.dma, t.irq, t.cfg) = (s.regs, s.q, s.dma, s.irq, s.cfg) := by
  rcases pioXfer_frame hf h with rfl | hframe
  · cases ht
  · rw [hframe]
    exact ⟨rfl, rfl⟩

/-- A PIO call that raised no fault keeps the data phase sound. -/
theorem pioXfer_sound {n : Nat} {s t : State} {q : InFlight} (hf : s.fault = none) (hq : s.q = some q)
    (hs : DataSound s q.req.data) (hdata : s.h.data = true) (hdma : s.h.doDma = false)
    (h : pioXfer n s = .next t) (ht : t.fault = none) : DataSound t q.req.data := by
  obtain ⟨q', d, _, hq', hd, _⟩ := pioXfer_eq_next hf h
  obtain rfl : q = q' := Option.some.inj (hq.symm.trans hq')
  obtain ⟨hcursor, hleft⟩ := pioXfer_cursor hf hq hd (hs.cursor d hd hdata hdma) h ht
  obtain ⟨hh, hrest⟩ := pioXfer_control hf h ht
  simp only [Prod.mk.injEq] at hh hrest
  obtain ⟨_, _, _, hdata', hdir', hdma', hok', hrate'⟩ := hh
  obtain ⟨hregs', _, hchan', _, hcfg'⟩ := hrest
  constructor
  · simpa only [hdata', hdir', hdma'] using hs.noData
  · simpa only [hdata', hdir'] using hs.dir
  · intro d' hd' _ _
    obtain rfl : d = d' := Option.some.inj (hd.symm.trans hd')
    exact hcursor
  · simpa only [fifoctlFor, hdata', hdir', hregs', hcfg'] using hs.fifo
  · intro hbad
    exact absurd (hdma.symm.trans (hdma'.symm.trans hbad)) Bool.false_ne_true
  · simpa only [hok', hchan'] using hs.channels
  · simpa only [hrate'] using hs.refClock
  · exact hleft.trans hs.bytes

/-! ### CMD_START (R178) -/

theorem pioActive_iff {s : State} : s.pioActive = true ↔ s.h.data = true ∧ s.h.doDma = false := by
  simp [State.pioActive]

theorem pioActive_of_preloads {s : State} (h : preloads s = true) : s.pioActive = true := by
  simp only [preloads, Bool.and_eq_true] at h
  exact h.1

/-- CMD_START that raised no fault keeps the data phase sound and puts the slot in flight. -/
theorem cmdStart_sound {slot : Slot} {s t : State} {q : InFlight} (hf : s.fault = none) (hq : s.q = some q)
    (hs : DataSound s q.req.data) (h : cmdStart slot s = .next t) (ht : t.fault = none) :
    DataSound t q.req.data ∧ t.q = some q ∧
    (t.h.attached, t.h.phase, t.h.cmd, t.h.data) =
      (s.h.attached, phaseOfSlot slot, some slot, s.h.data) := by
  obtain ⟨q', c, hq', _, h⟩ := cmdStart_eq_next hf h
  obtain rfl : q = q' := Option.some.inj (hq.symm.trans hq')
  set u := regWrite .tor (value16 CTO_MAX) { s with h := { s.h with cmd := some slot } }
  have hu : DataSound u q.req.data := hs.congr rfl
  rcases h with ⟨_, rfl⟩ | ⟨hpre, x, hx, ⟨hbad, rfl⟩ | ⟨hok, rfl⟩⟩
  · exact ⟨hu.congr rfl, hq, rfl⟩
  · exact absurd ht hbad
  · obtain ⟨hdata, hdma⟩ := pioActive_iff.mp (pioActive_of_preloads hpre)
    have hsound := pioXfer_sound (s := u) hf hq hu hdata hdma hx hok
    obtain ⟨hh, hrest⟩ := pioXfer_control (s := u) hf hx hok
    simp only [Prod.mk.injEq] at hh hrest
    refine ⟨hsound.congr rfl, hrest.2.1.trans hq, ?_⟩
    simp only [issue_h, hh]
    rfl

/-! ### REQUEST (R141, R170) -/

theorem dataTotal_le {d : DataPhase} (h : dataValid d = true) : dataTotal d ≤ BLKSZ_MAX * NBLK_MAX := by
  simp only [dataValid, Bool.and_eq_true, decide_eq_true_eq] at h
  obtain ⟨⟨⟨⟨⟨_, hsize⟩, _⟩, hcount⟩, _⟩, _⟩ := h
  rw [dataTotal, Nat.mul_comm]
  exact Nat.mul_le_mul hsize hcount

theorem dataValid_of_requestValid {req : BusRequest} {d : DataPhase} (h : requestValid req = true)
    (hd : req.data = some d) : dataValid d = true := by
  simp only [requestValid, hd, Bool.and_eq_true] at h
  exact h.1.2

/-- What PREPARE has set up for a data phase when it chooses the strategy (R141). -/
structure Prepared (s : State) (d : DataPhase) : Prop where
  data : s.h.data = true
  dir : s.h.dataDir = some d.dir
  left : s.h.bytesLeft = dataTotal d
  total : dataTotal d ≤ BLKSZ_MAX * NBLK_MAX
  fifo : s.regs.fifoctl = fifoctlFor s d.dir false
  channels : s.h.dmaOk = true → s.dma.chanRead.isSome ∧ s.dma.chanWrite.isSome
  refClock : s.h.refClockHz > 0

/-- PIO is chosen: the cursor at the first segment (R147). -/
theorem Prepared.pioInit {s t : State} {d : DataPhase} (hs : Prepared s d) (hdma : s.h.doDma = false)
    (h : pioInit d s = .next t) : DataSound t (some d) := by
  obtain ⟨g, rest, hsg, rfl⟩ := pioInit_eq_next h
  refine ⟨fun hd => absurd (hs.data.symm.trans hd) Bool.false_ne_true.symm, fun _ => hs.dir, ?_, ?_, ?_,
    hs.channels, hs.refClock, hs.left.trans_le hs.total⟩
  · intro d' hd' _ _
    obtain rfl : d = d' := Option.some.inj hd'
    rw [cursorInList_iff]
    exact ⟨Nat.min_le_right _ _, hs.left.le, g, by simp [hsg], le_rfl,
      Nat.add_le_add_left (Nat.min_le_left _ _) _⟩
  · intro _ dir hdir
    obtain rfl : d.dir = dir := Option.some.inj (hs.dir.symm.trans hdir)
    exact hs.fifo
  · intro hbad
    exact absurd (hdma.symm.trans hbad) Bool.false_ne_true

/-- DMA is chosen: no byte is left to PIO (R141). -/
theorem Prepared.selectDma {s : State} {d : DataPhase} (hs : Prepared s d) (hok : s.h.dmaOk = true) :
    DataSound (selectDma s) (some d) where
  noData hd := absurd (hs.data.symm.trans hd) Bool.false_ne_true.symm
  dir _ := hs.dir
  cursor _ _ _ hdma := by cases hdma
  fifo _ dir hdir := by
    obtain rfl : d.dir = dir := Option.some.inj (hs.dir.symm.trans hdir)
    exact hs.fifo
  dmaNoPio _ := ⟨rfl, hok⟩
  channels := hs.channels
  refClock := hs.refClock
  bytes := Nat.zero_le _

theorem Prepared.dmaSetup {s : State} {d : DataPhase} (hs : Prepared s d) (dir : Dir) :
    Prepared (dmaSetup d dir s).2 d := by
  rw [dmaSetup_frame]
  exact ⟨hs.data, hs.dir, hs.left, hs.total, hs.fifo, hs.channels, hs.refClock⟩

/-- The choice of strategy establishes the data phase and touches nothing of the request (R141, R143). -/
theorem Prepared.strategy {s t : State} {d : DataPhase} (hs : Prepared s d) (hdma : s.h.doDma = false)
    (h : prepareStrategy d s = .next t) : DataSound t (some d) ∧
    (t.fault, t.q, t.h.attached, t.h.data) = (s.fault, s.q, s.h.attached, s.h.data) := by
  have hsetup := dmaSetup_frame d d.dir s
  rcases prepareStrategy_eq_next h with ⟨hel, _, rfl⟩ | ⟨_, _, h⟩ | ⟨_, h⟩
  · have hok : s.h.dmaOk = true := by
      simp only [dmaEligible, Bool.and_eq_true] at hel
      exact hel.1.2
    refine ⟨(hs.dmaSetup d.dir).selectDma ?_, ?_⟩
    · rw [hsetup]
      exact hok
    · rw [hsetup]
      rfl
  · refine ⟨(hs.dmaSetup d.dir).pioInit ?_ h, ?_⟩
    · rw [hsetup]
      exact hdma
    · obtain ⟨g, rest, _, rfl⟩ := pioInit_eq_next h
      rw [hsetup]
  · refine ⟨hs.pioInit hdma h, ?_⟩
    obtain ⟨g, rest, _, rfl⟩ := pioInit_eq_next h
    rfl

/-- PREPARE of a valid request from an engine with no data phase (R141). -/
theorem prepare_sound {s t : State} {q : InFlight} (hq : s.q = some q) (hvalid : requestValid q.req = true)
    (hs : DataSound s none) (hd : s.h.data = false) (h : prepare s = .next t) :
    DataSound t q.req.data ∧
    (t.fault, t.q, t.h.attached, t.h.data) = (s.fault, s.q, s.h.attached, q.req.data.isSome) := by
  obtain ⟨hdir, hdma⟩ := hs.noData hd
  obtain ⟨q', hq', h⟩ := prepare_eq_next h
  obtain rfl : q = q' := Option.some.inj (hq.symm.trans hq')
  rcases h with ⟨hnone, rfl⟩ | ⟨d, hsome, h⟩
  · rw [hnone]
    refine ⟨hs.congr ?_, rfl⟩
    simp [dataView, Regs.set, hd, hdir]
  · have hprep : Prepared (prepareRegisters d s) d := ⟨rfl, rfl, rfl,
      dataTotal_le (dataValid_of_requestValid hvalid hsome), rfl, hs.channels, hs.refClock⟩
    rw [hsome]
    exact hprep.strategy hdma h

/-- A submitted request is in flight with its results settled (R170). -/
theorem submit_consistent {req : BusRequest} {s t : State} (hs : IdleSound s) (ha : s.h.attached = true)
    (hvalid : requestValid req = true) (h : submit req s = .next t) (ht : t.fault = none) :
    EngineConsistent t := by
  set v := { s with q := some (accepted req), h := { s.h with doDma := false } } with hv
  have hview : dataView v = dataView s := by simp [dataView, hv, (hs.sound.noData hs.data).2]
  obtain ⟨u, hu, hok, h⟩ := andThen_running h ht
  obtain ⟨hsound, hframe⟩ := prepare_sound (s := v) rfl hvalid (hs.sound.congr hview) hs.data hu
  simp only [Prod.mk.injEq] at hframe
  obtain ⟨_, hq, hattached, hdata⟩ := hframe
  obtain ⟨hsound', hq', hframe'⟩ := cmdStart_sound hok hq hsound h ht
  simp only [Prod.mk.injEq] at hframe'
  obtain ⟨hattached', hphase', hcmd', hdata'⟩ := hframe'
  have hflight : FlightSound t (accepted req) := by
    refine ⟨ht, hq', hvalid, hattached'.trans (hattached.trans ha), ?_, hsound'⟩
    rw [hphase', hcmd', hdata', hdata]
    exact ⟨rfl, rfl⟩
  exact hflight.consistent ⟨rfl, rfl, fun _ => rfl, .inl rfl⟩

theorem requestAdmitted_consistent {req : BusRequest} {s t : State} (hs : IdleSound s)
    (ha : s.h.attached = true) (hvalid : requestValid req = true)
    (h : requestAdmitted req s = .next t) (ht : t.fault = none) : EngineConsistent t := by
  have hframe : (busyCheck s).2 =
      { s with trace := (busyCheck s).2.trace, env := (busyCheck s).2.env } := busyPoll_frame _ s
  have hbusy : IdleSound (busyCheck s).2 := by
    rw [hframe]
    exact hs.congr rfl
  unfold requestAdmitted at h
  dsimp only at h
  split_ifs at h
  · cases h
    exact (hbusy.congr (t := busyStuck req _) rfl).consistent
  · refine submit_consistent hbusy ?_ hvalid h ht
    rw [hframe]
    exact ha

/-! ### COMPLETE, DATA_TEARDOWN (R223, R226) -/

/-- A completion with no data phase in flight leaves the engine idle. -/
theorem complete_idle {s t : State} {data : Option DataPhase} (hf : s.fault = none)
    (hs : DataSound s data) (hd : s.h.data = false) (h : complete s = .next t) : IdleSound t := by
  obtain ⟨q, _, rfl⟩ := complete_eq_next h
  refine ⟨hf, rfl, rfl, rfl, rfl, (hs.of_noData hd).congr ?_⟩
  simp [dataView, Regs.set, hd]

/-- The teardown leaves no data phase and nothing else of the request changed (R223). -/
theorem dataTeardown_sound {s t : State} {data : Option DataPhase} (hs : DataSound s data)
    (h : dataTeardown s = .next t) : DataSound t none ∧
    (t.fault, t.q, t.h.attached, t.h.data) = (s.fault, s.q, s.h.attached, false) := by
  rw [dataTeardown_frame h]
  exact ⟨.withoutData rfl ⟨rfl, rfl⟩ hs.channels hs.refClock hs.bytes, rfl⟩

/-! ### The classification rules (R193 to R200) -/

/-- The results inside an interrupt: an error or a count is there only with the flag that ends its command
or its data phase. -/
structure ResultPending (s : State) (q : InFlight) : Prop where
  notCompleted : s.irq.completed = false
  cmdError : q.result.cmdError ≠ .none →
    s.h.cmd = some .main ∧ (s.irq.endCmd = true ∨ s.irq.endXfer = true ∧ s.h.data = true)
  stopError : q.result.stopError ≠ .none → s.h.cmd = some .stop ∧ s.irq.endCmd = true
  counting : s.h.data = true → q.result.bytesXfered = 0 ∨ s.irq.endXfer = true
  counted : q.result.bytesXfered = 0 ∨ q.req.data.any (fun d => q.result.bytesXfered == dataTotal d)

/-- A request in flight inside an interrupt. -/
def Classified (s : State) : Prop := ∃ q, FlightSound s q ∧ ResultPending s q

/-- Results that were settled are pending whatever the flags, as long as nothing completed. -/
theorem ResultSettled.pending {s t : State} {q : InFlight} (hr : ResultSettled s q)
    (hdata : t.h.data = s.h.data) (hc : t.irq.completed = false) : ResultPending t q where
  notCompleted := hc
  cmdError h := absurd hr.cmdError h
  stopError h := absurd hr.stopError h
  counting h := .inl (hr.counting (hdata.symm.trans h))
  counted := hr.counted

/-- A PIO call in a running data phase that raised no fault keeps the request in flight. -/
theorem FlightSound.pioXfer {n : Nat} {s t : State} {q : InFlight} (hs : FlightSound s q)
    (hdata : s.h.data = true) (hdma : s.h.doDma = false) (h : pioXfer n s = .next t) (ht : t.fault = none) :
    FlightSound t q ∧ t.h.data = s.h.data ∧ t.irq = s.irq := by
  obtain ⟨hh, hrest⟩ := pioXfer_control hs.running h ht
  simp only [Prod.mk.injEq] at hh hrest
  obtain ⟨hattached, hphase, hcmd, hdata', _⟩ := hh
  obtain ⟨_, hq, _, hirq, _⟩ := hrest
  refine ⟨⟨ht, hq.trans hs.request, hs.valid, hattached.trans hs.attached, ?_,
    pioXfer_sound hs.running hs.request hs.sound hdata hdma h ht⟩, hdata', hirq⟩
  rw [hphase, hcmd, hdata']
  exact hs.table

/-- The FIFO service loop keeps the request in flight with its results as they were (R192). -/
theorem serviceLoop_flight {q : InFlight} : ∀ (fuel : Nat) {s t : State}, FlightSound s q →
    s.irq.completed = false → serviceLoop fuel s = .next t → t.fault = none →
    FlightSound t q ∧ t.h.data = s.h.data ∧ t.irq.completed = false
  | 0, s, t, hs, hc, h, _ => by
    cases h
    exact ⟨hs, rfl, hc⟩
  | fuel + 1, s, t, hs, hc, h, ht => by
    rcases serviceLoop_succ h with ⟨_, rfl⟩ | ⟨hdue, u, hu, ⟨hbad, rfl⟩ | ⟨hok, hr⟩⟩
    · exact ⟨hs, rfl, hc⟩
    · exact absurd ht hbad
    · simp only [serviceDue, Bool.and_eq_true] at hdue
      obtain ⟨hdata, hdma⟩ := pioActive_iff.mp hdue.2
      obtain ⟨hflight, hdata', hirq⟩ := hs.pioXfer hdata hdma hu hok
      have hread : FlightSound (accumulate (readStatus u)) q := hflight.congr hflight.request rfl rfl
      obtain ⟨hend, hdata'', hc'⟩ := serviceLoop_flight fuel hread (by simpa [hirq] using hc) hr ht
      exact ⟨hend, hdata''.trans hdata', hc'⟩

/-- Rule 1 turns settled results into pending ones: the count comes with `end_xfer` (R195). -/
theorem ruleDataDone_classified {s t : State} {q : InFlight} (hs : FlightSound s q)
    (hr : ResultSettled s q) (hc : s.irq.completed = false) (h : ruleDataDone s = .next t)
    (ht : t.fault = none) : Classified t := by
  rcases ruleDataDone_eq_next h with ⟨_, rfl⟩ | ⟨hdue, u, hu, ⟨hbad, rfl⟩ | ⟨hok, q', d, hq', hd, rfl⟩⟩
  · exact ⟨q, hs, hr.pending rfl hc⟩
  · exact absurd ht hbad
  · have hdata : s.h.data = true := (Bool.and_eq_true_iff.mp hdue).2
    obtain ⟨hflight, hdata', hc'⟩ : FlightSound u q ∧ u.h.data = s.h.data ∧ u.irq.completed = false := by
      split_ifs at hu with hres
      · have hdma : s.h.doDma = false := by
          simp only [residualDue, Bool.and_eq_true, Bool.not_eq_true'] at hres
          exact hres.1.1.1
        obtain ⟨hflight, hdata', hirq⟩ := hs.pioXfer hdata hdma hu hok
        exact ⟨hflight, hdata', hirq ▸ hc⟩
      · cases hu
        exact ⟨hs, rfl, hc⟩
    obtain rfl : q = q' := Option.some.inj (hflight.request.symm.trans hq')
    refine ⟨_, hflight.congr rfl rfl rfl, hc', ?_, ?_, fun _ => .inr rfl, .inr ?_⟩
    · exact fun hbad => absurd hr.cmdError hbad
    · exact fun hbad => absurd hr.stopError hbad
    · simp [hd, hr.counting hdata]

/-- Rule 2 marks the data phase alone (R196). -/
theorem ruleDataTimeout_classified {s t : State} (hs : Classified s) (h : ruleDataTimeout s = .next t) :
    Classified t := by
  obtain ⟨q, hflight, hr⟩ := hs
  rcases ruleDataTimeout_eq_next h with ⟨_, rfl⟩ | ⟨hdue, q', hq', rfl⟩
  · exact ⟨q, hflight, hr⟩
  · have hdata : s.h.data = true := (Bool.and_eq_true_iff.mp hdue).2
    obtain rfl : q = q' := Option.some.inj (hflight.request.symm.trans hq')
    exact ⟨_, hflight.congr rfl rfl rfl, hr.notCompleted,
      fun hbad => ⟨(hr.cmdError hbad).1, .inr ⟨rfl, hdata⟩⟩, hr.stopError, fun _ => .inr rfl, hr.counted⟩

/-- Rule 3 marks the data phase alone (R197). -/
theorem ruleDataCrc_classified {s t : State} (hs : Classified s) (h : ruleDataCrc s = .next t) :
    Classified t := by
  obtain ⟨q, hflight, hr⟩ := hs
  rcases ruleDataCrc_eq_next h with ⟨_, rfl⟩ | ⟨hdue, q', hq', rfl⟩
  · exact ⟨q, hflight, hr⟩
  · have hdata : s.h.data = true := (Bool.and_eq_true_iff.mp hdue).2
    obtain rfl : q = q' := Option.some.inj (hflight.request.symm.trans hq')
    rw [dataCrcKind_frame]
    exact ⟨_, hflight.congr rfl rfl rfl, hr.notCompleted,
      fun hbad => ⟨(hr.cmdError hbad).1, .inr ⟨rfl, hdata⟩⟩, hr.stopError, fun _ => .inr rfl, hr.counted⟩

/-- An error put on the command in flight, with the flag that ends that command or its data phase. -/
theorem FlightSound.commandError {s t : State} {q : InFlight} {slot : Slot} {k : ErrorKind}
    (hs : FlightSound s q) (hr : ResultPending s q) (hslot : s.h.cmd = some slot)
    (hq : t.q = some { q with result := q.result.setError slot k })
    (hv : (t.fault, t.h, dataView t) = (s.fault, s.h, dataView s))
    (hc : t.irq.completed = s.irq.completed) (hxfer : s.irq.endXfer = true → t.irq.endXfer = true)
    (hflag : t.irq.endCmd = true ∨ t.irq.endXfer = true ∧ s.h.data = true) : Classified t := by
  simp only [Prod.mk.injEq] at hv
  obtain ⟨hfault, hh, hview⟩ := hv
  refine ⟨_, hs.congr hq rfl (by rw [hfault, hh, hview]), hc.trans hr.notCompleted,
    ?cmdError, ?stopError, ?_, ?_⟩
  case cmdError =>
    intro hbad
    rw [hh]
    cases slot with
    | main => exact ⟨hslot, hflag⟩
    | stop => exact nomatch hslot.symm.trans (hr.cmdError hbad).1
  case stopError =>
    intro hbad
    rw [hh]
    cases slot with
    | main => exact nomatch hslot.symm.trans (hr.stopError hbad).1
    | stop =>
      refine ⟨hslot, hflag.resolve_right fun hdata => ?_⟩
      have htable := hs.table
      rw [hslot, hdata.2] at htable
      exact nomatch htable.slot_eq_main.1
  · intro hdata
    rw [hh] at hdata
    cases slot <;> exact (hr.counting hdata).imp_right hxfer
  · cases slot <;> exact hr.counted

/-- Rule 4 ends the data phase where there is one, and the command otherwise (R198). -/
theorem ruleCommandTimeout_classified {s t : State} (hs : Classified s)
    (h : ruleCommandTimeout s = .next t) : Classified t := by
  obtain ⟨q, hflight, hr⟩ := hs
  rcases ruleCommandTimeout_eq_next h with ⟨_, rfl⟩ | ⟨_, slot, q', hslot, hq', rfl⟩
  · exact ⟨q, hflight, hr⟩
  · obtain rfl : q = q' := Option.some.inj (hflight.request.symm.trans hq')
    split_ifs with hdata
    · exact hflight.commandError hr hslot rfl rfl rfl (fun _ => rfl) (.inr ⟨rfl, hdata⟩)
    · exact hflight.commandError hr hslot rfl rfl rfl id (.inl rfl)

/-- Rule 5 ends the command (R199). -/
theorem ruleCommandCrc_classified {s t : State} (hs : Classified s) (h : ruleCommandCrc s = .next t) :
    Classified t := by
  obtain ⟨q, hflight, hr⟩ := hs
  rcases ruleCommandCrc_eq_next h with ⟨_, rfl⟩ | ⟨_, _, slot, q', hslot, hq', rfl⟩
  · exact ⟨q, hflight, hr⟩
  · obtain rfl : q = q' := Option.some.inj (hflight.request.symm.trans hq')
    exact hflight.commandError hr hslot rfl rfl rfl id (.inl rfl)

/-- Rule 6 ends the command (R200). -/
theorem ruleCommandDone_classified {s t : State} (hs : Classified s) (h : ruleCommandDone s = .next t) :
    Classified t := by
  obtain ⟨q, hflight, hr⟩ := hs
  rw [ruleCommandDone_eq] at h
  cases h
  split_ifs
  · exact ⟨q, hflight.congr hflight.request rfl rfl, hr.notCompleted,
      fun hbad => ⟨(hr.cmdError hbad).1, .inl rfl⟩, fun hbad => ⟨(hr.stopError hbad).1, rfl⟩, hr.counting,
      hr.counted⟩
  · exact ⟨q, hflight, hr⟩

/-- The six rules leave the request in flight with its results pending (R193). -/
theorem classify_classified {s t : State} {q : InFlight} (hs : FlightSound s q) (hr : ResultSettled s q)
    (hc : s.irq.completed = false) (h : classify s = .next t) (ht : t.fault = none) : Classified t := by
  obtain ⟨u1, h1, hok, h⟩ := andThen_running h ht
  obtain ⟨u2, h2, _, h⟩ := andThen_running h ht
  obtain ⟨u3, h3, _, h⟩ := andThen_running h ht
  obtain ⟨u4, h4, _, h⟩ := andThen_running h ht
  obtain ⟨u5, h5, _, h⟩ := andThen_running h ht
  have hdone := ruleDataDone_classified hs hr hc h1 hok
  exact ruleCommandDone_classified (ruleCommandCrc_classified (ruleCommandTimeout_classified
    (ruleDataCrc_classified (ruleDataTimeout_classified hdone h2) h3) h4) h5) h

theorem resetIfNeeded_classified {s : State} (hs : Classified s) : Classified (resetIfNeeded s) := by
  obtain ⟨q, hflight, hr⟩ := hs
  unfold resetIfNeeded
  split_ifs
  · exact ⟨q, hflight.congr hflight.request rfl rfl, hr.notCompleted, hr.cmdError, hr.stopError, hr.counting,
      hr.counted⟩
  · exact ⟨q, hflight, hr⟩

/-! ### The ending stage (R204, R220, R224) -/

/-- The results once the command has been ended or goes on: what is not settled waits for the end of the
data phase. -/
structure ResultClosing (s : State) (q : InFlight) : Prop where
  notCompleted : s.irq.completed = false
  cmdError : q.result.cmdError ≠ .none → s.irq.endXfer = true ∧ s.h.data = true
  stopError : q.result.stopError = .none
  counting : s.h.data = true → q.result.bytesXfered = 0 ∨ s.irq.endXfer = true
  counted : q.result.bytesXfered = 0 ∨ q.req.data.any (fun d => q.result.bytesXfered == dataTotal d)

/-- Where no rule ended the command it has no error but one that ends its data phase. -/
theorem ResultPending.closing {s : State} {q : InFlight} (hr : ResultPending s q)
    (hend : s.irq.endCmd = false) : ResultClosing s q where
  notCompleted := hr.notCompleted
  cmdError hbad := (hr.cmdError hbad).2.resolve_left (by simp [hend])
  stopError := by
    by_contra hbad
    exact Bool.false_ne_true (hend.symm.trans (hr.stopError hbad).2)
  counting := hr.counting
  counted := hr.counted

/-- Where no rule ended the data phase, the results are settled. -/
theorem ResultClosing.settled {s : State} {q : InFlight} (hr : ResultClosing s q)
    (hend : (s.irq.endXfer && s.h.data && !s.irq.completed) = false) : ResultSettled s q := by
  have hno (hxfer : s.irq.endXfer = true) (hdata : s.h.data = true) : False := by
    simp [hxfer, hdata, hr.notCompleted] at hend
  refine ⟨?_, hr.stopError, fun hdata => (hr.counting hdata).resolve_right fun h => hno h hdata, hr.counted⟩
  by_contra hbad
  exact hno (hr.cmdError hbad).1 (hr.cmdError hbad).2

/-- The first half of CMD_END, field by field (R220). -/
theorem latchInto_eq (q : InFlight) (slot : Slot) (c : Command) (s : State) :
    ∃ p : Response, latchInto q slot c s = { s with
      h := { s.h with cmd := none }
      q := some { q with result := q.result.setResponse slot p }
      trace := (latchInto q slot c s).trace, env := (latchInto q slot c s).env } := by
  refine ⟨(latch c (q.result.response slot) { s with h := { s.h with cmd := none } }).1, ?_⟩
  unfold latchInto
  dsimp only
  rw [latch_frame]
  rfl

/-- CMD_END completes the request, or goes on to its data phase (R220, R222). -/
theorem cmdEnd_sound {s t : State} {q : InFlight} (hs : FlightSound s q) (hr : ResultPending s q)
    (h : cmdEnd s = .next t) : IdleSound t ∨ ∃ q', FlightSound t q' ∧ ResultClosing t q' := by
  obtain ⟨q', slot, c, hq', hslot, _, h⟩ := cmdEnd_eq_next h
  obtain rfl : q = q' := Option.some.inj (hs.request.symm.trans hq')
  obtain ⟨p, hlatch⟩ := latchInto_eq q slot c s
  have hrunning : (latchInto q slot c s).fault = none := by
    rw [hlatch]
    exact hs.running
  have hsound : DataSound (latchInto q slot c s) q.req.data := by
    rw [hlatch]
    exact hs.sound.congr rfl
  have hdata : (latchInto q slot c s).h.data = s.h.data := by rw [hlatch]
  rcases finishCommand_eq_next hrunning h with ⟨hd, herr, rfl⟩ | ⟨_, _, u, hu, hcomplete⟩ | ⟨hd, hcomplete⟩
  · right
    have hd' := hdata.symm.trans hd
    have htable := hs.table
    rw [hslot, hd'] at htable
    obtain ⟨rfl, hsome⟩ := htable.slot_eq_main
    rw [hlatch]
    refine ⟨_, ⟨hs.running, rfl, hs.valid, hs.attached, ⟨rfl, hd', hsome⟩, hs.sound.congr rfl⟩,
      hr.notCompleted, fun hbad => absurd herr hbad, ?_, hr.counting, hr.counted⟩
    by_contra hbad
    exact nomatch hslot.symm.trans (hr.stopError hbad).1
  · obtain ⟨hteardown, hframe⟩ := dataTeardown_sound hsound hu
    simp only [Prod.mk.injEq] at hframe
    exact .inl (complete_idle (hframe.1.trans hrunning) hteardown hframe.2.2.2 hcomplete)
  · exact .inl (complete_idle hrunning hsound hd hcomplete)

/-- XFER_END completes the request, or puts its stop command in flight (R224). -/
theorem xferEnd_consistent {s t : State} {q : InFlight} (hs : FlightSound s q) (hr : ResultClosing s q)
    (h : xferEnd s = .next t) (ht : t.fault = none) : EngineConsistent t := by
  obtain ⟨u, q', hu, hq', h⟩ := xferEnd_eq_next hs.running h
  obtain rfl : q = q' := Option.some.inj (hs.request.symm.trans hq')
  obtain ⟨hteardown, hframe⟩ := dataTeardown_sound hs.sound hu
  simp only [Prod.mk.injEq] at hframe
  obtain ⟨hfault, hq, hattached, hdata⟩ := hframe
  rcases h with ⟨_, hcomplete⟩ | ⟨hstop, hcmd, hstart⟩
  · exact (complete_idle (hfault.trans hs.running) hteardown hdata hcomplete).consistent
  · obtain ⟨hsound, hq', hstarted⟩ := cmdStart_sound (hfault.trans hs.running) (hq.trans hs.request)
      (hteardown.of_noData hdata) hstart ht
    simp only [Prod.mk.injEq] at hstarted
    obtain ⟨hattached', hphase', hcmd', hdata'⟩ := hstarted
    have hflight : FlightSound t q := by
      refine ⟨ht, hq', hs.valid, hattached'.trans (hattached.trans hs.attached), ?_, hsound⟩
      rw [hphase', hcmd', hdata', hdata]
      exact ⟨rfl, rfl, Option.isSome_iff_ne_none.mpr hstop⟩
    refine hflight.consistent ⟨hcmd, hr.stopError, fun hbad => ?_, hr.counted⟩
    exact absurd (hdata.symm.trans (hdata'.symm.trans hbad)) Bool.false_ne_true

/-- The ending stage mends the invariant (R204). -/
theorem endingStage_consistent {s t : State} (hs : Classified s) (h : endingStage s = .next t)
    (ht : t.fault = none) : EngineConsistent t := by
  obtain ⟨q, hflight, hr⟩ := hs
  obtain ⟨u, hu, _, h⟩ := andThen_running h ht
  have hclosing : IdleSound u ∨ ∃ q', FlightSound u q' ∧ ResultClosing u q' := by
    split_ifs at hu with hend
    · exact cmdEnd_sound hflight hr hu
    · cases hu
      exact .inr ⟨q, hflight, hr.closing (by simpa using hend)⟩
  rcases hclosing with hidle | ⟨q', hflight', hr'⟩
  · rw [if_neg (by simp [hidle.data])] at h
    cases h
    exact hidle.consistent
  · split_ifs at h with hend
    · exact xferEnd_consistent hflight' hr' h ht
    · cases h
      exact hflight'.consistent (hr'.settled (by simpa using hend))

/-! ### The outside operations (R112) -/

/-- An interrupt keeps the invariant (R190). -/
theorem irqBody_consistent {s t : State} (hs : EngineConsistent s) (hf : s.fault = none)
    (h : irqBody s = .next t) (ht : t.fault = none) : EngineConsistent t := by
  rcases irqBody_eq_next h with ⟨_, rfl⟩ | ⟨hbusy, u, hu, rfl⟩
  · exact hs.congr hf rfl
  · have hu' : u.fault = none := ht
    cases hq : s.q with
    | none =>
      have hidle := hs.idle hf (hs.idle_of_noRequest hq)
      simp [nothingInFlight, hidle.cmd, hidle.data] at hbusy
    | some q =>
      obtain ⟨hflight, hr⟩ := hs.flight hf hq
      have henter : FlightSound (irqEnter s) q := hflight.congr hq rfl rfl
      obtain ⟨v, hv, hvok, h⟩ := andThen_running hu hu'
      obtain ⟨w, hw, hwok, h⟩ := andThen_running h hu'
      obtain ⟨x, hx, hxok, h⟩ := andThen_running h hu'
      cases h
      obtain ⟨hserved, hdata, hc⟩ := serviceLoop_flight _ henter rfl hv hvok
      have hr' : ResultSettled v q :=
        ⟨hr.cmdError, hr.stopError, fun hd => hr.counting (hdata.symm.trans hd), hr.counted⟩
      have hclassified := classify_classified hserved hr' hc hw hwok
      exact (endingStage_consistent (resetIfNeeded_classified hclassified) hx hxok).congr hxok rfl

/-- A DMA error marks the data phase alone (R206). -/
theorem dmaErrBody_consistent {s t : State} (hs : EngineConsistent s) (hf : s.fault = none)
    (h : dmaErrBody s = .next t) : EngineConsistent t := by
  unfold dmaErrBody at h
  split_ifs at h
  · obtain ⟨q, hq, h⟩ := withQ_eq_next h
    obtain ⟨hflight, hr⟩ := hs.flight hf hq
    cases h
    exact FlightSound.consistent (hflight.congr rfl rfl rfl)
      ⟨hr.cmdError, hr.stopError, hr.counting, hr.counted⟩
  · cases h
    exact hs

/-- A fresh session is idle, and holds both channels where it claims them (R255). -/
theorem freshSession_idle {s : State} (hf : s.fault = none) (hclock : s.h.refClockHz > 0)
    (hchan : s.h.dmaOk = true → s.dma.chanRead.isSome ∧ s.dma.chanWrite.isSome) :
    IdleSound (freshSession s) :=
  ⟨hf, rfl, rfl, rfl, rfl, .withoutData rfl ⟨rfl, rfl⟩ hchan hclock (Nat.zero_le _)⟩

/-- The channel requests claim the pair only where both were granted (R255). -/
theorem requestChannels_rated_sound (s : State) :
    (requestChannels (rated s)).fault = s.fault ∧
    (requestChannels (rated s)).h.refClockHz = (drawRate s).1 ∧
    ((requestChannels (rated s)).h.dmaOk = true →
      (requestChannels (rated s)).dma.chanRead.isSome ∧ (requestChannels (rated s)).dma.chanWrite.isSome) := by
  rw [requestChannels_rated s]
  cases (drawChannel (drawRate s).2).1 <;> cases (drawChannel (drawChannel (drawRate s).2).2).1 <;>
    simp [settleChannels, rated]

/-- ATTACH starts a fresh session (R255). -/
theorem attach_consistent {s t : State} (hs : EngineConsistent s) (hf : s.fault = none)
    (h : exec .attach s = .next t) : EngineConsistent t := by
  cases ha : s.h.attached with
  | true =>
    rw [exec_attach_running hf, if_pos ha] at h
    cases h
    exact hs.congr hf rfl
  | false =>
    by_cases hrate : (drawRate s).1 = 0
    · rw [exec_attach_running hf, if_neg (by simp [ha])] at h
      exact nomatch (if_pos hrate).symm.trans h
    · rw [exec_attach_detached hf ha hrate] at h
      cases h
      have hpos : (drawRate s).1 > 0 := Nat.pos_of_ne_zero hrate
      split_ifs
      · obtain ⟨hfault, hclock, hchan⟩ := requestChannels_rated_sound s
        exact (freshSession_idle (hfault.trans hf) (hclock ▸ hpos) hchan).consistent
      · exact (freshSession_idle (s := rated s) hf hpos (absurd · Bool.false_ne_true)).consistent

/-- DETACH gives the channels up with the claim to them (R258). -/
theorem detachAdmitted_idle {s : State} (hs : IdleSound s) : IdleSound (detachAdmitted s) := by
  unfold detachAdmitted
  split_ifs
  · exact ⟨hs.running, hs.phase, hs.cmd, hs.data, hs.request, .withoutData hs.data
      (hs.sound.noData hs.data) (absurd · Bool.false_ne_true) hs.sound.refClock hs.sound.bytes⟩
  · exact hs.congr rfl

theorem initck_idle {s : State} (hs : IdleSound s) : IdleSound (initck s) := by
  rw [initck, initckPoll_frame]
  exact hs.congr rfl

/-- SET_IOS changes the bus alone (R240). -/
theorem setIosAdmitted_idle {s : State} (hs : IdleSound s) (width : BusWidth) (mode : BusMode)
    (power : PowerMode) (hz : Nat) : IdleSound (setIosAdmitted width mode power hz s) := by
  have hwidth : IdleSound (setWidth width s) := hs.congr rfl
  have hclock : IdleSound (setClock mode hz (setWidth width s)) := by
    cases mode <;> exact hwidth.congr rfl
  unfold setIosAdmitted setPower
  dsimp only
  split_ifs
  · exact (initck_idle hclock).congr rfl
  · exact hclock.congr rfl

/-- Every outside operation of a consistent engine leaves it consistent or faulted. -/
theorem exec_consistent {i : Instr} {s t : State} (hi : outside i = true) (hs : EngineConsistent s)
    (hf : s.fault = none) (h : exec i s = .next t) (ht : t.fault = none) : EngineConsistent t := by
  have hrefused (r : Ret) : EngineConsistent { s with ret := r } := hs.congr hf rfl
  have hidle (hp : s.h.phase = .idle) : IdleSound { s with ret := .done } := (hs.idle hf hp).congr rfl
  have hattached (body : State → Answer) (h : operation s (whenAttached · body) = .next t) :
      EngineConsistent t ∨ s.h.attached = true ∧ body { s with ret := .done } = .next t := by
    rcases operation_eq_next h with ⟨_, rfl⟩ | ⟨_, h⟩
    · exact .inl (hrefused _)
    · rcases whenAttached_eq_next h with ⟨_, rfl⟩ | ⟨ha, h⟩
      · exact .inl (hrefused _)
      · exact .inr ⟨ha, h⟩
  cases i with
  | attach => exact attach_consistent hs hf h
  | detach =>
    refine (hattached _ h).elim id fun ⟨_, h⟩ => ?_
    split_ifs at h with hp
    · cases h
      exact (detachAdmitted_idle (hidle hp)).consistent
    · cases h
      exact hrefused _
  | setIos width mode power hz =>
    refine (hattached _ h).elim id fun ⟨_, h⟩ => ?_
    split_ifs at h with hp
    · cases hw : widthOfCode width with
      | none =>
        rw [hw] at h
        cases h
        exact hrefused _
      | some w =>
        rw [hw] at h
        cases h
        exact (setIosAdmitted_idle (hidle hp) w mode power hz).consistent
    · cases h
      exact hrefused _
  | request req =>
    refine (hattached _ h).elim id fun ⟨ha, h⟩ => ?_
    split_ifs at h with hp hvalid
    · exact requestAdmitted_consistent (hidle hp) ha hvalid h ht
    · cases h
      exact hrefused _
    · cases h
      exact hrefused _
  | getCd =>
    refine (hattached _ h).elim id fun ⟨_, h⟩ => ?_
    cases h
    exact hs.congr hf rfl
  | getRo =>
    refine (hattached _ h).elim id fun ⟨_, h⟩ => ?_
    cases h
    exact hs.congr hf rfl
  | irq =>
    refine (hattached _ h).elim id fun ⟨_, h⟩ => ?_
    exact irqBody_consistent (hrefused .done) hf h ht
  | dmaErr =>
    rcases operation_eq_next h with ⟨_, rfl⟩ | ⟨_, h⟩
    · exact hrefused _
    · exact dmaErrBody_consistent (hrefused .done) hf h
  | _ => exact absurd hi Bool.false_ne_true

/-- Settles O10: the queue loses its head, and its other messages are outside operations as before; a fault
that was set stays. -/
theorem stepKeepsEngineInvariant : Obligations.StepKeepsEngineInvariant := by
  intro s t hs h
  rcases step_eq_next h with ⟨_, rfl⟩ | ⟨m, rest, hp, ⟨i, tail, hdec, hexec⟩ | ⟨e, _, rfl⟩⟩
  · exact hs
  · have hqueue : ∀ m' ∈ rest, outsideMessage m' = true :=
      fun m' hm => hs.queue m' (hp ▸ List.mem_cons_of_mem m hm)
    have hfollows := exec_traced i _ t hexec
    have hi : outside i = true := by
      have hm := hs.queue m (hp ▸ List.mem_cons_self)
      simpa only [outsideMessage, hdec] using hm
    refine ⟨fun ht => ?_, hfollows.pending ▸ hqueue⟩
    have hf : s.fault = none := by
      by_contra hbad
      exact hbad ((hfollows.fault hbad).symm.trans ht)
    have hdequeued : EngineConsistent (dequeue rest s) := (hs.consistent hf).congr hf rfl
    exact exec_consistent hi hdequeued hf hexec ht
  · exact ⟨fun hf => (hs.consistent hf).congr hf rfl,
      fun m' hm => hs.queue m' (hp ▸ List.mem_cons_of_mem m hm)⟩

/-! ### Hardware reset (R62) -/

/-- After hardware reset the engine is idle, with no channel and a positive rate. -/
theorem hardwareReset_idle (cfg : Config) (image : Regs) : IdleSound (State.hardwareReset cfg image) where
  running := rfl
  phase := rfl
  cmd := rfl
  data := rfl
  request := rfl
  sound := .withoutData rfl ⟨rfl, rfl⟩ (absurd · Bool.false_ne_true) Nat.one_pos (Nat.zero_le _)

/-- Settles O11: the fields by definition, the invariants by `hardwareReset_idle`. -/
theorem hardwareResetState : Obligations.HardwareResetState := by
  refine ⟨fun cfg image => ?_, Regs.zero, rfl⟩
  have hinv : EngineInv (State.hardwareReset cfg image) :=
    ⟨fun _ => (hardwareReset_idle cfg image).consistent, fun _ h => nomatch h⟩
  exact ⟨rfl, rfl, rfl, rfl, rfl, rfl, rfl, rfl, rfl, rfl, rfl, rfl, rfl, rfl, rfl, rfl, rfl, rfl, rfl, rfl,
    rfl, hinv, hardwareReset_mem_wf cfg image, rfl⟩

end Sys2Proof.Machine
end

section
/-! PROOF. A handled interrupt is the sequence of its rows (R190, R204; O60). A row presents the combined
status as the last status word too and answers `done` (entry 18), and no rule after the service loop reads
either: `forget` takes both away, and every part of the interrupt commutes with it. -/

namespace Sys2Proof.Machine

/-! ### Forgetting the last status word and the answer -/

/-- The state without its last status word, and without its answer unless the fault gave it. -/
def forget (s : State) : State :=
  { s with irq := { s.irq with s := 0 }, ret := if s.fault = none then .done else s.ret }

/-- `forget` in a next state. -/
def forgetIn : Answer → Answer
  | .next s => .next (forget s)
  | .fault r => .fault r
  | .refused r => .refused r

@[simp] theorem forget_regs (s : State) : (forget s).regs = s.regs := rfl
@[simp] theorem forget_h (s : State) : (forget s).h = s.h := rfl
@[simp] theorem forget_q (s : State) : (forget s).q = s.q := rfl
@[simp] theorem forget_fault (s : State) : (forget s).fault = s.fault := rfl
@[simp] theorem forget_cfg (s : State) : (forget s).cfg = s.cfg := rfl
@[simp] theorem forget_combined (s : State) : (forget s).combined = s.combined := rfl
@[simp] theorem forget_irq (s : State) : (forget s).irq = { s.irq with s := 0 } := rfl

/-- The end of IRQ forgets as much of a state that raised the fault. -/
theorem dropIrq_forget {s : State} (h : s.fault ≠ none) : dropIrq (forget s) = dropIrq s := by
  simp [dropIrq, forget, h]

/-- `f` neither reads nor writes what is forgotten: forgetting after it is forgetting before it. -/
def Blind (f : State → Answer) : Prop := ∀ u, u.fault = none → forgetIn (f u) = f (forget u)

theorem Blind.next {g : State → State} (h : ∀ u, forget (g u) = g (forget u)) : Blind fun u => .next (g u) :=
  fun u _ => congrArg Host.Outcome.next (h u)

theorem Blind.self : Blind fun u => .next u := .next fun _ => rfl

theorem Blind.ite {c : State → Prop} [∀ u, Decidable (c u)] {f g : State → Answer}
    (hf : Blind f) (hg : Blind g) (hc : ∀ u, c (forget u) ↔ c u := by exact fun _ => Iff.rfl) :
    Blind fun u => if c u then f u else g u := by
  intro u hu
  dsimp only
  by_cases h : c u
  · rw [if_pos h, if_pos ((hc u).mpr h)]
    exact hf u hu
  · rw [if_neg h, if_neg (h ∘ (hc u).mp)]
    exact hg u hu

theorem Blind.forgetIn_andThen {f : State → Answer} (hf : Blind f) (o : Answer) :
    forgetIn (andThen o f) = andThen (forgetIn o) f := by
  cases o with
  | next v =>
    cases hv : v.fault with
    | none => rw [andThen_next hv, forgetIn, andThen_next (s := forget v) hv, hf v hv]
    | some k => rw [andThen_halted hv, forgetIn, andThen_halted (s := forget v) hv]
  | fault r => rfl
  | refused r => rfl

theorem Blind.andThen {f g : State → Answer} (hf : Blind f) (hg : Blind g) :
    Blind fun u => andThen (f u) g := fun u hu => by
  rw [hg.forgetIn_andThen, hf u hu]

theorem forgetIn_withQ {u : State} {f f' : InFlight → Answer} (h : ∀ q, forgetIn (f q) = f' q) :
    forgetIn (withQ u f) = withQ (forget u) f' := by
  cases hq : u.q with
  | none => simp [withQ, hq, forgetIn]
  | some q =>
    rw [withQ_some hq, withQ_some (s := forget u) hq]
    exact h q

theorem Blind.withQ {f : InFlight → State → Answer} (hf : ∀ q, Blind (f q)) :
    Blind fun u => withQ u fun q => f q u := fun u hu => forgetIn_withQ fun q => hf q u hu

theorem Blind.withData {f : InFlight → DataPhase → State → Answer} (hf : ∀ q d, Blind (f q d)) :
    Blind fun u => withData u fun q d => f q d u := by
  refine .withQ (f := fun q u => match q.req.data with
    | some d => f q d u
    | none => .fault .nullInFlight) fun q => ?_
  cases q.req.data with
  | none => exact fun _ _ => rfl
  | some d => exact hf q d

theorem Blind.withDir {f : Dir → State → Answer} (hf : ∀ dir, Blind (f dir)) :
    Blind fun u => withDir u fun dir => f dir u := by
  intro u hu
  cases hd : u.h.dataDir with
  | none => simp [Machine.withDir, hd, forgetIn]
  | some dir =>
    dsimp only
    rw [withDir_some hd, withDir_some (s := forget u) hd]
    exact hf dir u hu

/-! ### The parts are blind -/

theorem blind_pioAccess (dir : Dir) (w : Width) (a : Nat) : Blind (pioAccess dir w a) := by
  refine .ite ?_ fun _ _ => rfl
  cases dir <;> exact fun _ _ => rfl

theorem blind_pioAccesses (dir : Dir) (w : Width) : ∀ n a, Blind (pioAccesses dir w n a)
  | 0, _ => .self
  | n + 1, a => (blind_pioAccess dir w a).andThen (blind_pioAccesses dir w n (a + w.bytes))

theorem blind_pioAdvance (d : DataPhase) : Blind (pioAdvance d) := by
  refine .ite (.ite (fun _ _ => rfl) ?_) .self
  intro u _
  simp only [forget_h]
  cases d.sg[u.h.sgIdx + 1]? <;> rfl

theorem blind_pioMove (dir : Dir) (n : Nat) : Blind (pioMove dir n) := by
  intro u hu
  have hcount : Blind fun v => .next (pioCount (pioChunk n u) v) := .next fun _ => rfl
  exact (hcount.forgetIn_andThen _).trans (by rw [blind_pioAccesses _ _ _ _ u hu]; rfl)

theorem blind_pioXfer (n : Nat) : Blind (pioXfer n) :=
  .withData fun _ d => .withDir fun dir => (blind_pioAdvance d).andThen (blind_pioMove dir n)

theorem blind_ruleDataDone : Blind ruleDataDone := by
  refine .ite (.andThen ?_ ?_) .self
  · exact .ite (fun u hu => blind_pioXfer u.h.bytesLeft u hu) .self
  · exact .withData fun q d => .next fun _ => rfl

theorem blind_ruleDataTimeout : Blind ruleDataTimeout :=
  .ite (.withQ fun _ => .next fun _ => rfl) .self

theorem dataCrcKind_forget (u : State) :
    dataCrcKind (forget u) = ((dataCrcKind u).1, forget (dataCrcKind u).2) := by
  cases h : u.combined.crcwr <;> simp only [dataCrcKind, forget_combined, h] <;> rfl

theorem blind_ruleDataCrc : Blind ruleDataCrc := by
  refine .ite (.withQ fun q => .next fun u => ?_) .self
  dsimp only
  rw [dataCrcKind_forget]
  rfl

theorem blind_ruleCommandTimeout : Blind ruleCommandTimeout := by
  intro u _
  cases hcmd : u.h.cmd with
  | none => simp only [ruleCommandTimeout, forget_h, hcmd]; rfl
  | some slot =>
    cases hseen : u.combined.toutrs with
    | false => simp only [ruleCommandTimeout, forget_h, forget_combined, hcmd, hseen]; rfl
    | true =>
      simp only [ruleCommandTimeout, forget_h, forget_combined, hcmd, hseen, if_true]
      refine forgetIn_withQ fun q => ?_
      cases hd : u.h.data <;> simp only [setResult, forget_h, hd] <;> rfl

theorem blind_ruleCommandCrc : Blind ruleCommandCrc := by
  intro u _
  cases hcmd : u.h.cmd with
  | none => simp only [ruleCommandCrc, forget_h, hcmd]; rfl
  | some slot =>
    by_cases hseen : (u.combined.crcrs && decide (u.h.busClockHz ≤ u.cfg.hsCrcHz)) = true
    · have hseen' : ((forget u).combined.crcrs &&
          decide ((forget u).h.busClockHz ≤ (forget u).cfg.hsCrcHz)) = true := hseen
      simp only [ruleCommandCrc, hcmd, show (forget u).h.cmd = some slot from hcmd, if_pos hseen, if_pos hseen']
      exact forgetIn_withQ fun q => rfl
    · have hseen' : ¬((forget u).combined.crcrs &&
          decide ((forget u).h.busClockHz ≤ (forget u).cfg.hsCrcHz)) = true := hseen
      simp only [ruleCommandCrc, hcmd, show (forget u).h.cmd = some slot from hcmd, if_neg hseen, if_neg hseen']
      rfl

theorem blind_ruleCommandDone : Blind ruleCommandDone :=
  .ite (.next fun _ => rfl) .self

theorem blind_softReset : Blind fun u => .next (softReset u) := .next fun _ => rfl

theorem blind_complete : Blind complete := .withQ fun _ => .next fun _ => rfl

theorem blind_dataTeardown : Blind dataTeardown :=
  .ite (.withData fun _ d => .withDir fun dir => .next fun _ => rfl)
    (.next fun _ => rfl)

theorem blind_finishCommand (q : InFlight) (slot : Slot) : Blind (finishCommand q slot) :=
  .ite (.next fun _ => rfl)
    (.ite (blind_dataTeardown.andThen blind_complete) blind_complete)

theorem forget_latchInto (q : InFlight) (slot : Slot) (c : Command) (u : State) :
    forget (latchInto q slot c u) = latchInto q slot c (forget u) := by
  unfold latchInto latch
  cases c.resp <;> rfl

theorem blind_cmdEnd : Blind cmdEnd := by
  refine .withQ fun q u hu => ?_
  simp only [forget_h]
  cases u.h.cmd with
  | none => rfl
  | some slot =>
    cases hc : q.command slot with
    | none => simp only [hc]; rfl
    | some c =>
      simp only [hc, ← forget_latchInto]
      obtain ⟨p, hlatch⟩ := latchInto_eq q slot c u
      exact blind_finishCommand q slot _ (by rw [hlatch]; exact hu)

theorem blind_cmdStart (slot : Slot) : Blind (cmdStart slot) := by
  refine .withQ fun q => ?_
  cases q.command slot with
  | none => exact fun _ _ => rfl
  | some c =>
    intro u hu
    have hpreload : Blind fun v => if preloads v then pioXfer v.threshold v else .next v :=
      .ite (fun v hv => blind_pioXfer v.threshold v hv) .self
    have hissue (w im : Word) : Blind fun v => .next (issue slot c.arg w im v) := .next fun _ => rfl
    exact ((hissue _ _).forgetIn_andThen _).trans (congrArg (andThen · _) (hpreload _ hu))

theorem blind_stopOrComplete : Blind stopOrComplete :=
  .withQ fun q => .ite blind_complete (blind_cmdStart .stop)

theorem blind_xferEnd : Blind xferEnd := blind_dataTeardown.andThen blind_stopOrComplete

/-! ### Sequences of parts -/

/-- `g` is the part `f` of an interrupt run as a row, under the layout `l`. -/
def RunsAs (l : Layout) (g f : State → Answer) : Prop :=
  ∀ u, u.fault = none → u.cfg.layout = l → forgetIn (g u) = f (forget u)

/-- What is left of an interrupt ends the same run by `g` as by `f`. -/
def LeavesAs (l : Layout) (g f : State → Answer) : Prop :=
  ∀ u, u.fault = none → u.cfg.layout = l → irqLeave (g u) = irqLeave (f (forget u))

theorem Blind.runsAs {f : State → Answer} (hf : Blind f) (l : Layout) : RunsAs l f f := fun u hu _ => hf u hu

/-- Part after part: a part keeps the configuration, and where it raised the fault the interrupt is over. -/
theorem RunsAs.andThen {l : Layout} {g f g' f' : State → Answer} (h : RunsAs l g f) (hf : Traced f)
    (h' : LeavesAs l g' f') : LeavesAs l (fun u => andThen (g u) g') (fun u => andThen (f u) f') := by
  intro u hu hl
  have hpart := h u hu hl
  dsimp only
  rw [← hpart]
  cases hg : g u with
  | fault r => rfl
  | refused r => rfl
  | next v =>
    rw [hg] at hpart
    cases hv : v.fault with
    | none =>
      have hcfg : v.cfg = u.cfg := (hf _ _ hpart.symm).cfg
      rw [andThen_next hv, forgetIn, andThen_next (s := forget v) hv]
      exact h' v hv (by rw [hcfg, hl])
    | some k =>
      rw [andThen_halted hv, forgetIn, andThen_halted (s := forget v) hv]
      exact congrArg Host.Outcome.next (dropIrq_forget (by simp [hv])).symm

/-- Parts one after another, and then the answer of a handled interrupt. -/
def inOrder : List (State → Answer) → State → Answer
  | [], u => .next (returning (.interrupt true) u)
  | part :: parts, u => andThen (part u) (inOrder parts)

/-- Parts in order end as their rows in order do: the answer does not show what was forgotten. -/
theorem leavesAs_inOrder {l : Layout} {gs fs : List (State → Answer)}
    (h : List.Forall₂ (RunsAs l) gs fs) (ht : ∀ f ∈ fs, Traced f) :
    LeavesAs l (inOrder gs) (inOrder fs) := by
  induction h with
  | nil => exact fun _ _ _ => rfl
  | cons hpart _ ih =>
    obtain ⟨hf, ht⟩ := List.forall_mem_cons.mp ht
    exact hpart.andThen hf (ih ht)

theorem andThen_assoc (o : Answer) (f g : State → Answer) :
    andThen (andThen o f) g = andThen o fun u => andThen (f u) g := by
  cases o with
  | next v =>
    cases hv : v.fault with
    | none => simp only [andThen_next hv]
    | some k => simp only [andThen_halted hv]
  | fault r => rfl
  | refused r => rfl

theorem andThen_congr {o : Answer} {f g : State → Answer} (h : ∀ u, u.fault = none → f u = g u) :
    andThen o f = andThen o g := by
  cases o with
  | next v =>
    cases hv : v.fault with
    | none => rw [andThen_next hv, andThen_next hv, h v hv]
    | some k => rw [andThen_halted hv, andThen_halted hv]
  | fault r => rfl
  | refused r => rfl

/-- The parts of a handled interrupt after the service loop (R193, R203, R204). -/
def interruptParts : List (State → Answer) :=
  [ruleDataDone, ruleDataTimeout, ruleDataCrc, ruleCommandTimeout, ruleCommandCrc, ruleCommandDone,
    fun u => if u.irq.needReset then .next (softReset u) else .next u,
    fun u => if u.irq.endCmd then cmdEnd u else .next u,
    fun u => if u.irq.endXfer && u.h.data && !u.irq.completed then xferEnd u else .next u]

theorem irqHandle_eq_parts (s : State) : irqHandle s = andThen (fifoService s) (inOrder interruptParts) := by
  refine andThen_congr fun u _ => ?_
  have hreset (v : State) (hv : v.fault = none) : andThen (endingStage (resetIfNeeded v))
        (fun s => .next (returning (.interrupt true) s)) =
      andThen (if v.irq.needReset then .next (softReset v) else .next v) fun v =>
        andThen (endingStage v) fun s => .next (returning (.interrupt true) s) := by
    rw [← apply_ite Host.Outcome.next]
    have hrunning : (resetIfNeeded v).fault = none := by
      unfold resetIfNeeded
      split_ifs <;> exact hv
    exact (andThen_next hrunning fun v => andThen (endingStage v) _).symm
  rw [andThen_congr hreset]
  simp only [classify, endingStage, andThen_assoc]
  rfl

/-! ### Each part as its row -/

/-- The row's word is the combined status, and its event is shown: it presents what is there (entry 18). -/
theorem forgetIn_row {rule : State → Answer} (hb : Blind rule) {u : State} (hu : u.fault = none) {p : Nat}
    (he : eventAt u.cfg.layout u.irq.q p = true) :
    forgetIn (operation u fun s => rule (presentStatus u.irq.q p s)) = rule (forget u) := by
  rw [operation_running hu, presentStatus_of_eventAt (s := { u with ret := .done }) he]
  exact (hb { u with irq := { u.irq with s := u.irq.q }, ret := .done } hu).trans
    (congrArg rule (by simp [forget, hu]))

/-- A rule runs as the row of its event, and where the event is not shown it does nothing. -/
theorem runsAs_row {l : Layout} {p : Nat} {row : Word → Instr} {rule : State → Answer} (hb : Blind rule)
    (hrow : ∀ w u, u.cfg.layout = l →
      exec (row w) u = operation u fun s => rule (presentStatus w p s))
    (hquiet : ∀ u, u.cfg.layout = l → eventAt l u.irq.q p = false → rule u = .next u) :
    RunsAs l (execIf (fun u => eventAt l u.irq.q p) fun u => row u.irq.q) rule := by
  intro u hu hl
  unfold execIf
  dsimp only
  split_ifs with he
  · rw [hrow _ u hl]
    exact forgetIn_row hb hu (hl ▸ he)
  · exact (hquiet (forget u) hl (by simpa using he)).symm

/-- A part that is an operation of its own runs as it. -/
theorem runsAs_execIf {l : Layout} {c : State → Bool} {i : Instr} {part : State → Answer} (hb : Blind part)
    (hi : ∀ u, exec i u = operation u part) (hc : ∀ u, c (forget u) = c u) :
    RunsAs l (execIf c fun _ => i) fun u => if c u then part u else .next u := by
  intro u hu _
  unfold execIf
  dsimp only
  rw [hc]
  split_ifs
  · rw [hi, operation_running hu]
    exact (hb { u with ret := .done } hu).trans (congrArg part (by simp [forget, hu]))
  · rfl

/-! A rule whose event the combined status does not show does nothing (R193). -/

theorem ruleDataDone_quiet {u : State} (h : u.combined.datdne = false) : ruleDataDone u = .next u := by
  simp [ruleDataDone, h]

theorem ruleDataTimeout_quiet {u : State} (h : u.combined.toutrd = false) : ruleDataTimeout u = .next u := by
  simp [ruleDataTimeout, h]

theorem ruleDataCrc_quiet {u : State} (hwr : u.combined.crcwr = false) (hrd : u.combined.crcrd = false) :
    ruleDataCrc u = .next u := by simp [ruleDataCrc, hwr, hrd]

theorem ruleCommandTimeout_quiet {u : State} (h : u.combined.toutrs = false) :
    ruleCommandTimeout u = .next u := by
  cases hc : u.h.cmd <;> simp [ruleCommandTimeout, h, hc]

theorem ruleCommandCrc_quiet {u : State} (h : u.combined.crcrs = false) : ruleCommandCrc u = .next u := by
  cases hc : u.h.cmd <;> simp [ruleCommandCrc, h, hc]

theorem ruleCommandDone_quiet {u : State} (h : u.combined.rspdne = false) : ruleCommandDone u = .next u := by
  simp [ruleCommandDone, h]

/-- Rule 3 is the row of whichever of its two events is shown. -/
theorem runsAs_dataCrc (l : Layout) : RunsAs l
    (fun u => if eventAt l u.irq.q l.crcwr then exec (.stCrcwr u.irq.q) u else
      execIf (fun u => eventAt l u.irq.q l.crcrd) (fun u => .stCrcrd u.irq.q) u) ruleDataCrc := by
  intro u hu hl
  subst hl
  dsimp only [execIf]
  split_ifs with hwr hrd
  · exact forgetIn_row blind_ruleDataCrc hu hwr
  · exact forgetIn_row blind_ruleDataCrc hu hrd
  · exact (ruleDataCrc_quiet (u := forget u) (Bool.eq_false_of_not_eq_true hwr)
      (Bool.eq_false_of_not_eq_true hrd)).symm

/-- The same parts, each as its row (entry 18). -/
def interruptRows (l : Layout) : List (State → Answer) :=
  [execIf (fun u => eventAt l u.irq.q l.datdne) fun u => .stDatdne u.irq.q,
    execIf (fun u => eventAt l u.irq.q l.toutrd) fun u => .stToutrd u.irq.q,
    fun u => if eventAt l u.irq.q l.crcwr then exec (.stCrcwr u.irq.q) u else
      execIf (fun u => eventAt l u.irq.q l.crcrd) (fun u => .stCrcrd u.irq.q) u,
    execIf (fun u => eventAt l u.irq.q l.toutrs) fun u => .stToutrs u.irq.q,
    execIf (fun u => eventAt l u.irq.q l.crcrs) fun u => .stCrcrs u.irq.q,
    execIf (fun u => eventAt l u.irq.q l.rspdne) fun u => .stRspdne u.irq.q,
    execIf (·.irq.needReset) fun _ => .softReset,
    execIf (·.irq.endCmd) fun _ => .cmdEnd,
    execIf (fun u => u.irq.endXfer && u.h.data && !u.irq.completed) fun _ => .xferEnd]

theorem interruptParts_traced : ∀ f ∈ interruptParts, Traced f := by
  simp only [interruptParts, List.forall_mem_cons]
  exact ⟨traced_ruleDataDone, traced_ruleDataTimeout, traced_ruleDataCrc, traced_ruleCommandTimeout,
    traced_ruleCommandCrc, traced_ruleCommandDone, .ite (.next follows_softReset) (.next .refl),
    .ite traced_cmdEnd (.next .refl), .ite traced_xferEnd (.next .refl), fun _ h => nomatch h⟩

theorem interruptParts_blind : ∀ f ∈ interruptParts, Blind f := by
  simp only [interruptParts, List.forall_mem_cons]
  exact ⟨blind_ruleDataDone, blind_ruleDataTimeout, blind_ruleDataCrc, blind_ruleCommandTimeout,
    blind_ruleCommandCrc, blind_ruleCommandDone, .ite blind_softReset .self, .ite blind_cmdEnd .self,
    .ite blind_xferEnd .self, fun _ h => nomatch h⟩

/-- Every row runs as its part. -/
theorem interruptRows_runAs (l : Layout) : List.Forall₂ (RunsAs l) (interruptRows l) interruptParts := by
  refine .cons ?datdne <| .cons ?toutrd <| .cons (runsAs_dataCrc l) <| .cons ?toutrs <| .cons ?crcrs <|
    .cons ?rspdne <| .cons ?reset <| .cons ?cmdEnd <| .cons ?xferEnd .nil
  case datdne =>
    exact runsAs_row (row := .stDatdne) blind_ruleDataDone (by rintro w u rfl; rfl)
      (by rintro u rfl h; exact ruleDataDone_quiet h)
  case toutrd =>
    exact runsAs_row (row := .stToutrd) blind_ruleDataTimeout (by rintro w u rfl; rfl)
      (by rintro u rfl h; exact ruleDataTimeout_quiet h)
  case toutrs =>
    exact runsAs_row (row := .stToutrs) blind_ruleCommandTimeout (by rintro w u rfl; rfl)
      (by rintro u rfl h; exact ruleCommandTimeout_quiet h)
  case crcrs =>
    exact runsAs_row (row := .stCrcrs) blind_ruleCommandCrc (by rintro w u rfl; rfl)
      (by rintro u rfl h; exact ruleCommandCrc_quiet h)
  case rspdne =>
    exact runsAs_row (row := .stRspdne) blind_ruleCommandDone (by rintro w u rfl; rfl)
      (by rintro u rfl h; exact ruleCommandDone_quiet h)
  case reset => exact runsAs_execIf blind_softReset (fun _ => rfl) fun _ => rfl
  case cmdEnd => exact runsAs_execIf blind_cmdEnd (fun _ => rfl) fun _ => rfl
  case xferEnd => exact runsAs_execIf blind_xferEnd (fun _ => rfl) fun _ => rfl

/-- The rest of a handled interrupt ends the same by its rows as by its parts. -/
theorem inOrder_rows_eq_parts {l : Layout} {u : State} (hu : u.fault = none) (hl : u.cfg.layout = l) :
    irqLeave (inOrder interruptParts u) = irqLeave (inOrder (interruptRows l) u) := by
  have hself : List.Forall₂ (RunsAs l) interruptParts interruptParts :=
    List.forall₂_same.mpr fun f hf => (interruptParts_blind f hf).runsAs l
  have hparts := leavesAs_inOrder hself interruptParts_traced u hu hl
  have hrows := leavesAs_inOrder (interruptRows_runAs l) interruptParts_traced u hu hl
  exact hparts.trans hrows.symm

/-! ### The interrupt -/

/-- The service loop is the row of whichever FIFO-ready event the first status word shows (R192). -/
theorem fifoService_eq_row {u : State} {v : Word} (hf : u.fault = none)
    (hu : { u with irq := { u.irq with s := v, q := v }, ret := .done } = u) :
    fifoService u = if eventAt u.cfg.layout v u.cfg.layout.dxrdy then exec (.stDxrdy v) u else
      if eventAt u.cfg.layout v u.cfg.layout.drrdy then exec (.stDrrdy v) u else .next u := by
  have hrow {p : Nat} (he : eventAt u.cfg.layout v p = true) :
      operation u (fun s => fifoService (presentStatus v p s)) = fifoService u := by
    rw [operation_running hf, presentStatus_of_eventAt (s := { u with ret := .done }) he]
    exact congrArg fifoService hu
  split_ifs with hx hd
  · exact (hrow hx).symm
  · exact (hrow hd).symm
  · have hs : u.irq.s = v := congrArg (·.irq.s) hu.symm
    have hready : fifoReady u.lastStatus = false :=
      Bool.or_eq_false_iff.mpr ⟨by simpa [State.lastStatus, statusOf, hs] using hx,
        by simpa [State.lastStatus, statusOf, hs] using hd⟩
    exact if_neg (by simp [serviceDue, hready])

theorem irqLeave_andThen_congr {o : Answer} {f g : State → Answer}
    (h : ∀ u, o = .next u → u.fault = none → irqLeave (f u) = irqLeave (g u)) :
    irqLeave (andThen o f) = irqLeave (andThen o g) := by
  cases o with
  | next v =>
    cases hv : v.fault with
    | none => rw [andThen_next hv, andThen_next hv, h v rfl hv]
    | some k => rw [andThen_halted hv, andThen_halted hv]
  | fault r => rfl
  | refused r => rfl

/-- Settles O60: the service loop is its row, and what comes after it ends the same by rows as by parts. -/
theorem irqRunsItsParts : Obligations.IrqRunsItsParts := by
  intro s hf ha hbusy l v entered seen
  have hbody : exec .irq s = irqBody { s with ret := .done } := operation_attached hf ha _
  have hflight : nothingInFlight (irqEnter { s with ret := .done }) = false := by
    rcases hbusy with hcmd | hdata
    · simp [nothingInFlight, hcmd]
    · simp [nothingInFlight, hdata]
  have hirq : exec .irq s = irqLeave (andThen (fifoService entered) (inOrder interruptParts)) := by
    rw [hbody, irqBody, hflight, ← irqHandle_eq_parts]
    rfl
  have hrows : irqLeave (andThen (fifoService entered) (inOrder interruptParts)) =
      irqLeave (andThen (fifoService entered) (inOrder (interruptRows l))) :=
    irqLeave_andThen_congr fun u hu hok =>
      inOrder_rows_eq_parts hok (congrArg (·.layout) (traced_fifoService _ _ hu).cfg)
  rw [hirq, hrows, fifoService_eq_row (u := entered) (v := v) hf rfl]
  rfl

end Sys2Proof.Machine
end

section
/-! PROOF. Host memory is confined to the segments of the request (R71, R76, R89; O15). Only the accesses of
the PIO walker enter the trace as host-memory events, so that the statement is one about those events alone:
`memLog` is what an operation keeps where it makes no access, and the cursor of R43 places the others. -/

namespace Sys2Proof.Machine

/-! ### The host-memory events of a trace -/

/-- A host-memory access (R58). -/
def touchesMemory : Event → Bool
  | .memR _ _ _ => true
  | .memW _ _ _ => true
  | _ => false

/-- The host-memory accesses of a state's trace. -/
def memLog (s : State) : List Event := s.trace.filter touchesMemory

theorem memLog_eq_of_trace {s t : State} (h : t.trace = s.trace) : memLog t = memLog s :=
  congrArg (·.filter touchesMemory) h

theorem memLog_emit {e : Event} (he : touchesMemory e = false) (s : State) : memLog (emit e s) = memLog s := by
  simp [memLog, he]

theorem memLog_memRead (a : Nat) (w : Width) (s : State) :
    memLog (memRead a w s).2 = memLog s ++ [.memR a w (memRead a w s).1] := by simp [memLog, touchesMemory]

theorem memLog_memWrite (a : Nat) (w : Width) (v : Word) (s : State) :
    memLog (memWrite a w v s) = memLog s ++ [.memW a w v] := by simp [memLog, touchesMemory]

theorem memLog_fifoRead (w : Width) (s : State) : memLog (fifoRead w s).2 = memLog s :=
  (memLog_emit rfl _).trans (memLog_eq_of_trace rfl)

theorem memLog_regRead (r : StoredReg) (s : State) : memLog (regRead r s).2 = memLog s := memLog_emit rfl s

theorem memLog_regWrite (r : StoredReg) (v : Word) (s : State) : memLog (regWrite r v s) = memLog s :=
  (memLog_emit rfl _).trans (memLog_eq_of_trace rfl)

theorem memLog_regDraw (r : DrawnReg) (s : State) : memLog (regDraw r s).2 = memLog s :=
  (memLog_emit rfl _).trans (memLog_eq_of_trace rfl)

/-! ### Operations that make no access -/

/-- Whatever next state `f` answers, `f` made no host-memory access. -/
def Quiet (f : State → Answer) : Prop := ∀ s t, f s = .next t → memLog t = memLog s

theorem Quiet.next {g : State → State} (h : ∀ s, memLog (g s) = memLog s) : Quiet fun s => .next (g s) := by
  intro s t ht
  cases ht
  exact h s

theorem Quiet.self : Quiet .next := .next fun _ => rfl

theorem Quiet.refuse (k : RefuseKind) : Quiet (refuse k) := .next fun _ => rfl

theorem Quiet.andThen {f g : State → Answer} (hf : Quiet f) (hg : Quiet g) :
    Quiet fun s => andThen (f s) g := by
  intro s t h
  obtain ⟨u, hu, ⟨_, rfl⟩ | ⟨_, ht⟩⟩ := andThen_eq_next h
  · exact hf s t hu
  · exact (hg u t ht).trans (hf s u hu)

theorem Quiet.ite {c : State → Prop} [∀ s, Decidable (c s)] {f g : State → Answer} (hf : Quiet f)
    (hg : Quiet g) : Quiet fun s => if c s then f s else g s := by
  intro s t h
  dsimp only at h
  split_ifs at h
  · exact hf s t h
  · exact hg s t h

theorem Quiet.operation {f : State → Answer} (hf : Quiet f) : Quiet (operation · f) := by
  intro s t h
  rcases operation_eq_next h with ⟨_, rfl⟩ | ⟨_, ht⟩
  · rfl
  · exact hf { s with ret := .done } t ht

theorem Quiet.whenAttached {f : State → Answer} (hf : Quiet f) : Quiet (whenAttached · f) := by
  intro s t h
  rcases whenAttached_eq_next h with ⟨_, rfl⟩ | ⟨_, ht⟩
  · rfl
  · exact hf s t ht

theorem Quiet.withQ {f : InFlight → State → Answer} (hf : ∀ q, Quiet (f q)) :
    Quiet fun s => withQ s fun q => f q s := by
  intro s t h
  obtain ⟨q, _, ht⟩ := withQ_eq_next h
  exact hf q s t ht

/-! The host boundary and bus timing (R240, R255, R258, R260). -/

theorem memLog_requestChannels (s : State) : memLog (requestChannels s) = memLog s := by
  unfold requestChannels settleChannels
  dsimp only
  cases (drawChannel s).1 <;> cases (drawChannel _).1 <;> simp [memLog, touchesMemory]

theorem quiet_attachAdmitted : Quiet attachAdmitted := by
  intro s t h
  unfold attachAdmitted at h
  dsimp only at h
  split_ifs at h
  cases h
  have hsession (u : State) :
      memLog (freshSession (if u.cfg.useDma then requestChannels u else u)) = memLog u := by
    split_ifs
    · exact memLog_requestChannels u
    · rfl
  exact (hsession _).trans (by simp [memLog, touchesMemory])

theorem memLog_detachAdmitted (s : State) : memLog (detachAdmitted s) = memLog s := by
  unfold detachAdmitted
  split_ifs <;> simp [memLog, touchesMemory]

theorem memLog_initckPoll : ∀ (n : Nat) (s : State), memLog (initckPoll n s) = memLog s
  | 0, _ => rfl
  | n + 1, s => by
    unfold initckPoll
    dsimp only
    split_ifs
    · exact memLog_regDraw .st0 s
    · exact (memLog_initckPoll n _).trans (memLog_regDraw .st0 s)

theorem memLog_setClock (mode : BusMode) (hz : Nat) (s : State) : memLog (setClock mode hz s) = memLog s := by
  cases mode <;> simp [setClock, setClockOpenDrain, setClockPushPull, memLog, touchesMemory]

theorem memLog_setPower (power : PowerMode) (s : State) : memLog (setPower power s) = memLog s := by
  unfold setPower
  dsimp only
  split_ifs
  · exact (memLog_initckPoll _ _).trans (memLog_regWrite .cmd _ s)
  · rfl

theorem memLog_setIosAdmitted (width : BusWidth) (mode : BusMode) (power : PowerMode) (hz : Nat) (s : State) :
    memLog (setIosAdmitted width mode power hz s) = memLog s :=
  calc memLog (setIosAdmitted width mode power hz s)
    _ = memLog (setClock mode hz (setWidth width s)) := memLog_setPower _ _
    _ = memLog (setWidth width s) := memLog_setClock _ _ _
    _ = memLog s := (memLog_regWrite .ctl _ _).trans (memLog_regRead .ctl s)

/-! Submission, but for the pre-load (R141, R144, R171, R178). -/

theorem memLog_busyPoll : ∀ (n : Nat) (s : State), memLog (busyPoll n s).2 = memLog s
  | 0, _ => rfl
  | n + 1, s => by
    unfold busyPoll
    dsimp only
    split_ifs
    · exact (memLog_busyPoll n _).trans (memLog_regDraw .st1 s)
    · exact memLog_regDraw .st1 s

theorem progEvents_filter_touchesMemory (ch : Option Nat) (es : List Desc) :
    ∀ i, (progEvents ch i es).filter touchesMemory = [] := by
  induction es with
  | nil => exact fun _ => rfl
  | cons e rest ih => exact fun i => ih (i + 1)

theorem memLog_dmaSetup (d : DataPhase) (dir : Dir) (s : State) : memLog (dmaSetup d dir s).2 = memLog s := by
  rcases dmaSetup_cases d dir s with ⟨_, h⟩ | ⟨_, _, h⟩ | ⟨_, msg, _, ⟨_, h⟩ | ⟨_, h⟩⟩ <;>
    simp [h, memLog, touchesMemory, dmaProgram_eq, progEvents_filter_touchesMemory]

theorem quiet_pioInit (d : DataPhase) : Quiet (pioInit d) := by
  intro s t h
  obtain ⟨g, rest, _, rfl⟩ := pioInit_eq_next h
  rfl

theorem quiet_prepareStrategy (d : DataPhase) : Quiet (prepareStrategy d) := by
  intro s t h
  rcases prepareStrategy_eq_next h with ⟨_, _, rfl⟩ | ⟨_, _, h⟩ | ⟨_, h⟩
  · exact memLog_dmaSetup d d.dir s
  · exact (quiet_pioInit d _ t h).trans (memLog_dmaSetup d d.dir s)
  · exact quiet_pioInit d s t h

theorem memLog_prepareRegisters (d : DataPhase) (s : State) : memLog (prepareRegisters d s) = memLog s := by
  simp [prepareRegisters, memLog, touchesMemory]

theorem quiet_prepare : Quiet prepare := by
  intro s t h
  obtain ⟨q, _, ⟨_, rfl⟩ | ⟨d, _, h⟩⟩ := prepare_eq_next h
  · simp [memLog, touchesMemory]
  · exact (quiet_prepareStrategy d _ t h).trans (memLog_prepareRegisters d s)

theorem memLog_issue (slot : Slot) (arg w im : Word) (s : State) :
    memLog (issue slot arg w im s) = memLog s := by
  simp [memLog, touchesMemory]

/-- CMD_START makes no access where no PIO data phase is in flight (R180). -/
theorem cmdStart_memLog {slot : Slot} {s t : State} (hf : s.fault = none) (hpio : s.pioActive = false)
    (h : cmdStart slot s = .next t) : memLog t = memLog s := by
  obtain ⟨q, c, _, _, ⟨_, rfl⟩ | ⟨hpre, _⟩⟩ := cmdStart_eq_next hf h
  · exact (memLog_issue _ _ _ _ _).trans (memLog_regWrite .tor _ _)
  · exact absurd (hpio.symm.trans (pioActive_of_preloads hpre)) Bool.false_ne_true

/-! Ending and completing (R220 to R226). -/

theorem quiet_complete : Quiet complete := .withQ fun q => .next fun s => by simp [memLog, touchesMemory]

theorem quiet_dataTeardown : Quiet dataTeardown := by
  intro s t h
  rcases dataTeardown_eq_next h with ⟨_, rfl⟩ | ⟨_, q, d, dir, _, _, _, rfl⟩
  · rfl
  · simp [memLog, touchesMemory]

theorem memLog_latchInto (q : InFlight) (slot : Slot) (c : Command) (s : State) :
    memLog (latchInto q slot c s) = memLog s := by
  cases hc : c.resp <;> simp [latchInto, latch, hc, memLog, touchesMemory]

theorem quiet_cmdEnd : Quiet cmdEnd := by
  intro s t h
  obtain ⟨q, slot, c, _, _, _, h⟩ := cmdEnd_eq_next h
  have hfinish : Quiet (finishCommand q slot) :=
    .ite (c := fun s => (s.h.data && q.result.error slot == .none) = true) (.next fun _ => rfl)
      (.ite (quiet_dataTeardown.andThen quiet_complete) quiet_complete)
  exact (hfinish _ t h).trans (memLog_latchInto q slot c s)

/-- XFER_END tears the data phase down before it starts the stop command, which then pre-loads nothing
(R224). -/
theorem xferEnd_memLog {s t : State} (hf : s.fault = none) (h : xferEnd s = .next t) : memLog t = memLog s := by
  obtain ⟨u, q, hu, _, h⟩ := xferEnd_eq_next hf h
  have hteardown := quiet_dataTeardown s u hu
  rcases h with ⟨_, h⟩ | ⟨_, _, h⟩
  · exact (quiet_complete u t h).trans hteardown
  · have hframe := dataTeardown_frame hu
    refine (cmdStart_memLog ?_ ?_ h).trans hteardown
    · rw [hframe]
      exact hf
    · rw [hframe]
      rfl

/-! The interrupt, but for the service loop and the residual drain (R195 to R206). -/

theorem quiet_ruleDataTimeout : Quiet ruleDataTimeout := .ite (.withQ fun _ => .next fun _ => rfl) .self

theorem memLog_dataCrcKind (s : State) : memLog (dataCrcKind s).2 = memLog s := by
  unfold dataCrcKind
  split_ifs
  · exact memLog_regDraw .drsp s
  · rfl

theorem quiet_ruleDataCrc : Quiet ruleDataCrc := .ite (.withQ fun _ => .next memLog_dataCrcKind) .self

theorem quiet_ruleCommandTimeout : Quiet ruleCommandTimeout := by
  intro s t h
  rcases ruleCommandTimeout_eq_next h with ⟨_, rfl⟩ | ⟨_, slot, q, _, _, rfl⟩
  · rfl
  · split_ifs <;> rfl

theorem quiet_ruleCommandCrc : Quiet ruleCommandCrc := by
  intro s t h
  rcases ruleCommandCrc_eq_next h with ⟨_, rfl⟩ | ⟨_, _, slot, q, _, _, rfl⟩ <;> rfl

theorem quiet_ruleCommandDone : Quiet ruleCommandDone := .ite (.next fun _ => rfl) .self

theorem memLog_resetIfNeeded (s : State) : memLog (resetIfNeeded s) = memLog s := by
  unfold resetIfNeeded
  split_ifs <;> simp [softReset, memLog, touchesMemory]

theorem quiet_endingStage : Quiet endingStage := by
  intro s t h
  obtain ⟨u, hu, h⟩ := andThen_eq_next h
  have hended : memLog u = memLog s := Quiet.ite (c := (·.irq.endCmd = true)) quiet_cmdEnd .self s u hu
  rcases h with ⟨_, rfl⟩ | ⟨hok, h⟩
  · exact hended
  · refine Eq.trans ?_ hended
    split_ifs at h
    · exact xferEnd_memLog hok h
    · cases h
      rfl

theorem quiet_dmaErrBody : Quiet dmaErrBody := .ite (.withQ fun _ => .next fun _ => rfl) .self

/-! ### Accesses inside the segments -/

/-- A store to host memory. -/
def storesMemory : Event → Bool
  | .memW _ _ _ => true
  | _ => false

/-- The accesses from `s` to `t` lie inside the segments, aligned, and are loads alone unless `stores`. -/
def Confined (sg : List Seg) (stores : Bool) (s t : State) : Prop :=
  ∃ es, memLog t = memLog s ++ es ∧
    ∀ e ∈ es, accessInside sg e = true ∧ (storesMemory e = true → stores = true)

theorem Confined.of_memLog {sg : List Seg} {stores : Bool} {s t : State} (h : memLog t = memLog s) :
    Confined sg stores s t := ⟨[], by simp [h], fun _ h => nomatch h⟩

theorem Confined.trans {sg : List Seg} {stores : Bool} {s u t : State} (h : Confined sg stores s u)
    (h' : Confined sg stores u t) : Confined sg stores s t := by
  obtain ⟨es, hlog, hes⟩ := h
  obtain ⟨fs, hlog', hfs⟩ := h'
  exact ⟨es ++ fs, by rw [hlog', hlog, List.append_assoc],
    fun e he => (List.mem_append.mp he).elim (hes e) (hfs e)⟩

theorem Confined.andThen {sg : List Seg} {stores : Bool} {s t : State} {o : Answer} {f : State → Answer}
    (ho : ∀ u, o = .next u → Confined sg stores s u) (hf : Quiet f) (h : andThen o f = .next t) :
    Confined sg stores s t := by
  obtain ⟨u, hu, ⟨_, rfl⟩ | ⟨_, ht⟩⟩ := andThen_eq_next h
  · exact ho t hu
  · exact (ho u hu).trans (.of_memLog (hf u t ht))

/-- One access pair inside a segment, aligned to its width. -/
theorem pioAccess_confined {sg : List Seg} {g : Seg} {stores : Bool} {dir : Dir} {w : Width} {a : Nat}
    {s t : State} (hg : g ∈ sg) (hstores : dir = .read → stores = true) (halign : a % w.bytes = 0)
    (hlow : g.addr ≤ a) (hhigh : a + w.bytes ≤ g.addr + g.len) (h : pioAccess dir w a s = .next t) :
    Confined sg stores s t := by
  have hinside : (sg.any fun g => decide (g.addr ≤ a) && decide (a + w.bytes ≤ g.addr + g.len)) = true :=
    List.any_eq_true.mpr ⟨g, hg, by simp [hlow, hhigh]⟩
  rcases (pioAccess_eq_next h).2 with ⟨_, rfl⟩ | ⟨hdir, rfl⟩
  · refine ⟨[.memR a w (memRead a w s).1], (memLog_emit rfl _).trans (memLog_memRead a w s),
      fun e he => ?_⟩
    obtain rfl := List.mem_singleton.mp he
    exact ⟨by simp [accessInside, halign, hinside], fun h => nomatch h⟩
  · refine ⟨[.memW a w (fifoRead w s).1], by rw [memLog_memWrite, memLog_fifoRead], fun e he => ?_⟩
    obtain rfl := List.mem_singleton.mp he
    exact ⟨by simp [accessInside, halign, hinside], fun _ => hstores hdir⟩

/-- A run of access pairs inside a segment, aligned to its width. -/
theorem pioAccesses_confined {sg : List Seg} {g : Seg} {stores : Bool} {dir : Dir} {w : Width} {n : Nat}
    (hg : g ∈ sg) (hstores : dir = .read → stores = true) : ∀ {a : Nat} {s t : State}, s.fault = none →
    a % w.bytes = 0 → g.addr ≤ a → a + n * w.bytes ≤ g.addr + g.len →
    pioAccesses dir w n a s = .next t → Confined sg stores s t := by
  induction n with
  | zero =>
    intro a s t _ _ _ _ h
    cases h
    exact .of_memLog rfl
  | succ n ih =>
    intro a s t hf halign hlow hhigh h
    obtain ⟨u, hu, hok, hr⟩ := pioAccesses_succ hf h
    rw [Nat.succ_mul] at hhigh
    have hfirst := pioAccess_confined hg hstores halign hlow (by omega) hu
    exact hfirst.trans (ih hok (by simp [halign]) (by omega) (by omega) hr)

/-- A store is due only in the PIO phase of a READ (R89). -/
def storing (s : State) : Bool := s.pioActive && s.h.dataDir == some .read

/-- One PIO call with the cursor in the list touches the segments alone (R43, R160, R161). -/
theorem pioXfer_confined {n : Nat} {s t : State} {q : InFlight} {d : DataPhase} (hf : s.fault = none)
    (hq : s.q = some q) (hd : q.req.data = some d) (hpio : s.pioActive = true) (hc : CursorInList s d)
    (h : pioXfer n s = .next t) : Confined d.sg (storing s) s t := by
  obtain ⟨q', d', dir, hq', hd', hdir, ⟨_, _, _, rfl⟩ | ⟨u, hu, hok, hm⟩⟩ := pioXfer_eq_next hf h
  · exact .of_memLog rfl
  obtain rfl : q = q' := Option.some.inj (hq.symm.trans hq')
  obtain rfl : d = d' := Option.some.inj (hd.symm.trans hd')
  have hstores : dir = .read → storing s = true := by
    rintro rfl
    simp [storing, hpio, hdir]
  obtain ⟨hlog, g, hg, hlow, hhigh⟩ : memLog u = memLog s ∧
      ∃ g ∈ d.sg, g.addr ≤ u.h.bufPtr ∧ u.h.bufPtr + u.h.segLeft ≤ g.addr + g.len := by
    rcases pioAdvance_eq_next hu with ⟨_, rfl⟩ | ⟨_, _, _, rfl⟩ | ⟨_, g, hg, rfl⟩
    · obtain ⟨_, _, g, hg, hlow, hhigh⟩ := cursorInList_iff.mp hc
      exact ⟨rfl, g, List.mem_of_getElem? hg, hlow, hhigh⟩
    · cases hok
    · exact ⟨rfl, g, List.mem_of_getElem? hg, le_rfl, Nat.add_le_add_left (Nat.min_le_left _ _) _⟩
  obtain ⟨v, hv, rfl⟩ := pioMove_eq_next hok hm
  have hchunk : pioChunk n u ≤ u.h.segLeft := Nat.min_le_right _ _
  have hmoved : Confined d.sg (storing s) u v :=
    pioAccesses_confined hg hstores hok (widthFor_dvd _ _).1 hlow (by rw [widthFor_exact]; omega) hv
  exact (Confined.of_memLog hlog).trans hmoved

/-! ### Request and interrupt -/

/-- The segments of a request (R50). -/
def requestSegments (req : BusRequest) : List Seg := (req.data.map (·.sg)).getD []

/-- A PIO call in the PIO phase of a request in flight. -/
theorem pioXfer_confined_of_sound {n : Nat} {s t : State} {q : InFlight} (hf : s.fault = none)
    (hq : s.q = some q) (hs : DataSound s q.req.data) (hpio : s.pioActive = true)
    (h : pioXfer n s = .next t) : Confined (requestSegments q.req) (storing s) s t := by
  obtain ⟨q', d, _, hq', hd, _⟩ := pioXfer_eq_next hf h
  obtain rfl : q = q' := Option.some.inj (hq.symm.trans hq')
  obtain ⟨hdata, hdma⟩ := pioActive_iff.mp hpio
  have hsegments : requestSegments q.req = d.sg := by simp [requestSegments, hd]
  rw [hsegments]
  exact pioXfer_confined hf hq hd hpio (hs.cursor d hd hdata hdma) h

/-- A PIO call that raised no fault leaves it as it was whether stores are due. -/
theorem pioXfer_storing {n : Nat} {s t : State} (hf : s.fault = none) (h : pioXfer n s = .next t)
    (ht : t.fault = none) : storing t = storing s := by
  obtain ⟨hh, _⟩ := pioXfer_control hf h ht
  simp only [Prod.mk.injEq] at hh
  obtain ⟨_, _, _, hdata, hdir, hdma, _⟩ := hh
  simp [storing, State.pioActive, hdata, hdir, hdma]

/-- The pre-load of CMD_START loads from the segments and stores nothing (R180). -/
theorem cmdStart_confined {slot : Slot} {s t : State} {q : InFlight} (hf : s.fault = none)
    (hq : s.q = some q) (hs : DataSound s q.req.data) (h : cmdStart slot s = .next t) :
    Confined (requestSegments q.req) false s t := by
  obtain ⟨q', c, hq', _, h⟩ := cmdStart_eq_next hf h
  obtain rfl : q = q' := Option.some.inj (hq.symm.trans hq')
  set u := regWrite .tor (value16 CTO_MAX) { s with h := { s.h with cmd := some slot } }
  have hlog : memLog u = memLog s := memLog_regWrite .tor _ _
  rcases h with ⟨_, rfl⟩ | ⟨hpre, x, hx, hend⟩
  · exact .of_memLog ((memLog_issue _ _ _ _ _).trans hlog)
  · have hloads : storing u = false := by
      have hdir : u.h.dataDir = some .write := eq_of_beq (Bool.and_eq_true_iff.mp hpre).2
      simp [storing, hdir]
    have hsound : DataSound u q.req.data := hs.congr rfl
    have hpreload := pioXfer_confined_of_sound (s := u) hf hq hsound (pioActive_of_preloads hpre) hx
    rw [hloads] at hpreload
    refine (Confined.of_memLog hlog).trans (hpreload.trans (.of_memLog ?_))
    rcases hend with ⟨_, rfl⟩ | ⟨_, rfl⟩
    · rfl
    · exact memLog_issue _ _ _ _ _

/-- A submitted request loads from its own segments and stores nothing (R170). -/
theorem requestAdmitted_confined {req : BusRequest} {s t : State} (hs : IdleSound s)
    (hvalid : requestValid req = true) (h : requestAdmitted req s = .next t) :
    Confined (requestSegments req) false s t := by
  have hbusy : memLog (busyCheck s).2 = memLog s := memLog_busyPoll _ s
  unfold requestAdmitted at h
  dsimp only at h
  split_ifs at h
  · cases h
    exact .of_memLog ((memLog_emit rfl _).trans hbusy)
  · set v := { (busyCheck s).2 with q := some (accepted req), h := { (busyCheck s).2.h with doDma := false } }
      with hv
    have hframe : (busyCheck s).2 =
        { s with trace := (busyCheck s).2.trace, env := (busyCheck s).2.env } := busyPoll_frame _ s
    have hview : dataView v = dataView s := by
      rw [hv, hframe]
      simp [dataView, (hs.sound.noData hs.data).2]
    have hdata : v.h.data = false := (data_eq_of_dataView hview).trans hs.data
    obtain ⟨u, hu, h⟩ := andThen_eq_next h
    have hprepared : memLog u = memLog s := (quiet_prepare v u hu).trans hbusy
    rcases h with ⟨_, rfl⟩ | ⟨hok, h⟩
    · exact .of_memLog hprepared
    · obtain ⟨hsound, hpost⟩ := prepare_sound (s := v) rfl hvalid (hs.sound.congr hview) hdata hu
      simp only [Prod.mk.injEq] at hpost
      exact (Confined.of_memLog hprepared).trans (cmdStart_confined hok hpost.2.1 hsound h)

/-- The service loop touches the segments of the request in flight alone (R192). -/
theorem serviceLoop_confined {q : InFlight} : ∀ (fuel : Nat) {s t : State}, FlightSound s q →
    serviceLoop fuel s = .next t →
    Confined (requestSegments q.req) (storing s) s t ∧ (t.fault = none → storing t = storing s)
  | 0, s, t, _, h => by
    cases h
    exact ⟨.of_memLog rfl, fun _ => rfl⟩
  | fuel + 1, s, t, hs, h => by
    rcases serviceLoop_succ h with ⟨_, rfl⟩ | ⟨hdue, u, hu, hend⟩
    · exact ⟨.of_memLog rfl, fun _ => rfl⟩
    · simp only [serviceDue, Bool.and_eq_true] at hdue
      have hmoved := pioXfer_confined_of_sound hs.running hs.request hs.sound hdue.2 hu
      rcases hend with ⟨hbad, rfl⟩ | ⟨hok, hr⟩
      · exact ⟨hmoved, fun ht => absurd ht hbad⟩
      · obtain ⟨hdata, hdma⟩ := pioActive_iff.mp hdue.2
        have hflight := (hs.pioXfer hdata hdma hu hok).1
        have hread : FlightSound (accumulate (readStatus u)) q := hflight.congr hflight.request rfl rfl
        have hlog : memLog (accumulate (readStatus u)) = memLog u := memLog_regDraw .st0 u
        have hstoring : storing (accumulate (readStatus u)) = storing s :=
          (rfl : _ = storing u).trans (pioXfer_storing hs.running hu hok)
        obtain ⟨hrest, hstored⟩ := serviceLoop_confined fuel hread hr
        rw [hstoring] at hrest hstored
        exact ⟨hmoved.trans (.trans (.of_memLog hlog) hrest), hstored⟩

/-- Rule 1 drains into the segments of the request in flight alone (R195). -/
theorem ruleDataDone_confined {s t : State} {q : InFlight} (hs : FlightSound s q)
    (h : ruleDataDone s = .next t) : Confined (requestSegments q.req) (storing s) s t := by
  rcases ruleDataDone_eq_next h with ⟨_, rfl⟩ | ⟨hdue, u, hu, hend⟩
  · exact .of_memLog rfl
  · have hdrained : Confined (requestSegments q.req) (storing s) s u := by
      split_ifs at hu with hres
      · have hpio : s.pioActive = true := by
          simp only [residualDue, Bool.and_eq_true, Bool.not_eq_true'] at hres
          exact pioActive_iff.mpr ⟨(Bool.and_eq_true_iff.mp hdue).2, hres.1.1.1⟩
        exact pioXfer_confined_of_sound hs.running hs.request hs.sound hpio hu
      · cases hu
        exact .of_memLog rfl
    rcases hend with ⟨_, rfl⟩ | ⟨_, q', d, _, _, rfl⟩
    · exact hdrained
    · exact hdrained.trans (.of_memLog rfl)

/-- The rules touch the segments of the request in flight alone: only the first makes an access (R193). -/
theorem classify_confined {s t : State} {q : InFlight} (hs : FlightSound s q) (h : classify s = .next t) :
    Confined (requestSegments q.req) (storing s) s t :=
  .andThen (fun _ hu => ruleDataDone_confined hs hu)
    (quiet_ruleDataTimeout.andThen <| quiet_ruleDataCrc.andThen <| quiet_ruleCommandTimeout.andThen <|
      quiet_ruleCommandCrc.andThen quiet_ruleCommandDone) h

/-- A handled interrupt touches the segments of the request in flight alone (R190). -/
theorem irqHandle_confined {s t : State} {q : InFlight} (hs : FlightSound s q)
    (hc : s.irq.completed = false) (h : irqHandle s = .next t) :
    Confined (requestSegments q.req) (storing s) s t := by
  obtain ⟨u, hu, h⟩ := andThen_eq_next h
  obtain ⟨hserved, hstoring⟩ := serviceLoop_confined _ hs hu
  rcases h with ⟨_, rfl⟩ | ⟨hok, h⟩
  · exact hserved
  · have hflight := (serviceLoop_flight _ hs hc hu hok).1
    have hending : Quiet fun v => andThen (endingStage (resetIfNeeded v))
        fun s => .next (returning (.interrupt true) s) :=
      .andThen (fun v w h => (quiet_endingStage _ w h).trans (memLog_resetIfNeeded v))
        (.next fun _ => rfl)
    have hclassified := Confined.andThen (fun _ hv => classify_confined hflight hv) hending h
    rw [hstoring hok] at hclassified
    exact hserved.trans hclassified

/-- The segments of the request in flight, if one is. -/
def flightSegments (s : State) : List Seg := (s.q.map fun q => requestSegments q.req).getD []

/-- An interrupt touches the segments of the request in flight alone (R190, R191). -/
theorem irqBody_confined {s t : State} (hs : EngineConsistent s) (hf : s.fault = none)
    (h : irqBody s = .next t) : Confined (flightSegments s) (storing s) s t := by
  have henter : memLog (irqEnter s) = memLog s := memLog_regDraw .st0 _
  rcases irqBody_eq_next h with ⟨_, rfl⟩ | ⟨hbusy, u, hu, rfl⟩
  · exact .of_memLog ((memLog_regWrite .im _ _).trans henter)
  · cases hq : s.q with
    | none =>
      have hidle := hs.idle hf (hs.idle_of_noRequest hq)
      simp [nothingInFlight, hidle.cmd, hidle.data] at hbusy
    | some q =>
      have hflight : FlightSound (irqEnter s) q := (hs.flight hf hq).1.congr hq rfl rfl
      have hsegments : flightSegments s = requestSegments q.req := by simp [flightSegments, hq]
      rw [hsegments]
      exact (Confined.of_memLog henter).trans
        ((irqHandle_confined hflight rfl hu).trans (.of_memLog rfl))

/-! ### Every outside operation -/

theorem segmentsOf_request (req : BusRequest) (s : State) :
    segmentsOf (.request req) s = requestSegments req := rfl

theorem segmentsOf_irq (s : State) : segmentsOf .irq s = flightSegments s := by
  cases hq : s.q <;> simp [segmentsOf, flightSegments, requestSegments, hq]

/-- Every outside operation of a consistent engine touches its segments alone, and stores only in an
interrupt in the PIO phase of a READ. -/
theorem exec_confined {i : Instr} {s t : State} (hi : outside i = true) (hs : EngineConsistent s)
    (hf : s.fault = none) (h : exec i s = .next t) :
    Confined (segmentsOf i s) (decide (i = .irq) && storing s) s t := by
  have hquiet (hq : Quiet (exec i)) : Confined (segmentsOf i s) (decide (i = .irq) && storing s) s t :=
    .of_memLog (hq s t h)
  have hattached (body : State → Answer) (h : operation s (whenAttached · body) = .next t) :
      memLog t = memLog s ∨ body { s with ret := .done } = .next t := by
    rcases operation_eq_next h with ⟨_, rfl⟩ | ⟨_, h⟩
    · exact .inl rfl
    · rcases whenAttached_eq_next h with ⟨_, rfl⟩ | ⟨_, h⟩
      · exact .inl rfl
      · exact .inr h
  cases i with
  | attach => exact hquiet (.operation (.ite (c := (·.h.attached = true)) (.refuse _) quiet_attachAdmitted))
  | detach => exact hquiet (.operation (.whenAttached (.ite (.next memLog_detachAdmitted) (.refuse _))))
  | setIos width mode power hz =>
    refine hquiet (.operation (.whenAttached (.ite ?_ (.refuse _))))
    cases widthOfCode width with
    | none => exact .refuse _
    | some width => exact .next (memLog_setIosAdmitted width mode power hz)
  | request req =>
    refine (hattached _ h).elim .of_memLog fun h => ?_
    split_ifs at h with hp hvalid
    · have hidle : IdleSound { s with ret := .done } := (hs.idle hf hp).congr rfl
      have hadmitted := requestAdmitted_confined hidle hvalid h
      exact hadmitted
    · exact .of_memLog (Quiet.refuse _ _ t h)
    · exact .of_memLog (Quiet.refuse _ _ t h)
  | getCd => exact hquiet (.operation (.whenAttached (.next fun _ => by simp [memLog, touchesMemory])))
  | getRo => exact hquiet (.operation (.whenAttached (.next fun _ => by simp [memLog, touchesMemory])))
  | irq =>
    refine (hattached _ h).elim .of_memLog fun h => ?_
    rw [segmentsOf_irq]
    have hdone : EngineConsistent { s with ret := .done } := hs.congr hf rfl
    have hirq := irqBody_confined hdone hf h
    exact hirq
  | dmaErr => exact hquiet (.operation quiet_dmaErrBody)
  | _ => exact absurd hi Bool.false_ne_true

/-! ### What the events say of memory (R74) -/

theorem newEvents_eq {s t : State} {es : List Event} (h : t.trace = s.trace ++ es) : newEvents s t = es := by
  simp [newEvents, h]

/-- Every event of a confined operation lies inside the segments, and is a store only where stores are due. -/
theorem Confined.newEvents {sg : List Seg} {stores : Bool} {s t : State} (h : Confined sg stores s t)
    (ht : s.trace <+: t.trace) {e : Event} (he : e ∈ newEvents s t) :
    accessInside sg e = true ∧ (storesMemory e = true → stores = true) := by
  obtain ⟨fs, htrace⟩ := ht
  obtain ⟨es, hlog, hes⟩ := h
  rw [newEvents_eq htrace.symm] at he
  have hfilter : fs.filter touchesMemory = es := by
    simpa [memLog, ← htrace] using hlog
  cases htouch : touchesMemory e with
  | true => exact hes e (hfilter ▸ List.mem_filter.mpr ⟨he, htouch⟩)
  | false => cases e <;> simp_all [touchesMemory, accessInside, storesMemory]

/-- Events inside the segments change no byte outside them. -/
theorem replayMem_get_outside {sg : List Seg} {a : Nat} (ha : ∀ g ∈ sg, a < g.addr ∨ g.addr + g.len ≤ a)
    {es : List Event} : ∀ {m : Memory}, (∀ e ∈ es, accessInside sg e = true) →
    Memory.get (replayMem m es) a = Memory.get m a := by
  induction es with
  | nil => intros; rfl
  | cons e es ih =>
    intro m h
    obtain ⟨he, hes⟩ := List.forall_mem_cons.mp h
    cases e with
    | memW b w v =>
      simp only [accessInside, Bool.and_eq_true, List.any_eq_true, decide_eq_true_eq] at he
      obtain ⟨_, g, hg, hlow, hhigh⟩ := he
      have houtside : a < b ∨ b + w.bytes ≤ a := (ha g hg).imp (by omega) (by omega)
      exact (ih hes).trans (Memory.writeLE_get_outside houtside)
    | _ => exact ih hes

/-- Events without a store leave memory as it is. -/
theorem replayMem_of_no_store {es : List Event} : ∀ {m : Memory}, (∀ e ∈ es, storesMemory e = false) →
    replayMem m es = m := by
  induction es with
  | nil => intros; rfl
  | cons e es ih =>
    intro m h
    obtain ⟨he, hes⟩ := List.forall_mem_cons.mp h
    cases e with
    | memW b w v => cases he
    | _ => exact ih hes

/-- Settles O15: the events are confined, and memory is what they leave (O8). -/
theorem hostMemoryConfined : Obligations.HostMemoryConfined := by
  intro i s t hi hinv h
  have hconfined : Confined (segmentsOf i s) (decide (i = .irq) && storing s) s t := by
    cases hf : s.fault with
    | none => exact exec_confined hi (hinv.consistent hf) hf h
    | some k =>
      rw [exec_faulted hf] at h
      cases h
      exact .of_memLog rfl
  obtain ⟨_, _, htrace, _⟩ := execKeepsConfigQueueTraceFault i s t h
  have hmem := (storedStateFollowsTrace i s t h).2
  have hevents (e : Event) (he : e ∈ newEvents s t) := hconfined.newEvents htrace he
  refine ⟨fun e he => (hevents e he).1, fun a ha => ?_, fun hno => ?_⟩
  · rw [hmem]
    exact replayMem_get_outside ha fun e he => (hevents e he).1
  · rw [hmem]
    refine replayMem_of_no_store fun e he => ?_
    by_contra hstore
    have hdue := (hevents e he).2 (by simpa using hstore)
    simp only [storing, Bool.and_eq_true, decide_eq_true_eq, beq_iff_eq, pioActive_iff] at hdue
    obtain ⟨hirq, ⟨hdata, hdma⟩, hdir⟩ := hdue
    exact hno ⟨hirq, hdata, hdma, hdir⟩

end Sys2Proof.Machine
end

section
/-! PROOF. Host memory byte by byte (R74; O40) and one call of the PIO walker (R160, R161; O36, O37). -/

namespace Sys2Proof.Machine

/-! ### Memories whose addresses rise

A store may lie outside the address space, where the canonical form ends; what a load after it reads rests
on the order of the listed addresses alone. -/

/-- The listed addresses rise strictly. -/
def Memory.Rising (m : Memory) : Prop := m.Pairwise fun x y => x.1 < y.1

theorem Memory.rising_of_wfFrom {m : Memory} : ∀ {lo : Nat}, Memory.wfFrom lo m = true →
    m.Rising ∧ ∀ e ∈ m, lo ≤ e.1 := by
  induction m with
  | nil => exact fun _ => ⟨.nil, fun _ h => nomatch h⟩
  | cons x m ih =>
    intro lo h
    obtain ⟨hlow, _, _, hrest⟩ := (Memory.wfFrom_cons lo x.1 x.2 m).mp h
    obtain ⟨hrising, hbelow⟩ := ih hrest
    refine ⟨.cons hbelow hrising, List.forall_mem_cons.mpr ⟨hlow, fun e he => ?_⟩⟩
    exact hlow.trans (Nat.le_of_succ_le (hbelow e he))

theorem Memory.rising_of_wf {m : Memory} (h : m.wf = true) : m.Rising := (Memory.rising_of_wfFrom h).1

theorem Memory.get_unlisted {m : Memory} {a : Nat} (h : ∀ e ∈ m, a ≠ e.1) :
    Memory.get m a = unlistedByte := by
  induction m with
  | nil => rfl
  | cons x m ih =>
    obtain ⟨hx, hm⟩ := List.forall_mem_cons.mp h
    exact (if_neg hx).trans (ih hm)

/-- A write lists no address but its own. -/
theorem Memory.mem_set {m : Memory} {a : Nat} {b : Byte} {e : Host.Cell} (h : e ∈ Memory.set m a b) :
    e.1 = a ∨ e ∈ m := by
  induction m with
  | nil =>
    unfold Memory.set at h
    split_ifs at h
    · exact nomatch h
    · exact .inl (congrArg Prod.fst (List.mem_singleton.mp h))
  | cons x m ih =>
    unfold Memory.set at h
    split_ifs at h
    · exact .inr h
    · exact (List.mem_cons.mp h).imp_left (congrArg Prod.fst)
    · exact .inr (List.mem_cons_of_mem x h)
    · exact (List.mem_cons.mp h).imp (congrArg Prod.fst) (List.mem_cons_of_mem x)
    · rcases List.mem_cons.mp h with rfl | h
      · exact .inr List.mem_cons_self
      · exact (ih h).imp_right (List.mem_cons_of_mem x)

theorem Memory.Rising.set {m : Memory} (hm : m.Rising) (a : Nat) (b : Byte) : (Memory.set m a b).Rising := by
  induction m with
  | nil =>
    unfold Memory.set
    split_ifs
    · exact .nil
    · exact List.pairwise_singleton _ _
  | cons x m ih =>
    obtain ⟨hx, hrest⟩ := List.pairwise_cons.mp hm
    unfold Memory.set
    split_ifs with hlt _ heq
    · exact hm
    · exact .cons (List.forall_mem_cons.mpr ⟨hlt, fun e he => hlt.trans (hx e he)⟩) hm
    · exact hrest
    · exact .cons (heq ▸ hx) hrest
    · refine .cons (fun e he => ?_) (ih hrest)
      rcases Memory.mem_set he with rfl | he
      · exact lt_of_le_of_ne (not_lt.mp hlt) (Ne.symm heq)
      · exact hx e he

/-- A load after a store to the same byte gives the byte stored, inside the address space or not. -/
theorem Memory.Rising.get_set_same {m : Memory} (hm : m.Rising) (a : Nat) (b : Byte) :
    Memory.get (Memory.set m a b) a = b := by
  induction m with
  | nil => by_cases hb : b = unlistedByte <;> simp [Memory.set, Memory.get, hb]
  | cons x m ih =>
    obtain ⟨hx, hrest⟩ := List.pairwise_cons.mp hm
    rcases lt_trichotomy a x.1 with hlt | rfl | hgt
    · by_cases hb : b = unlistedByte
      · have hunlisted : Memory.get (x :: m) a = unlistedByte :=
          Memory.get_unlisted (List.forall_mem_cons.mpr ⟨hlt.ne, fun e he => (hlt.trans (hx e he)).ne⟩)
        simpa [Memory.set, hlt, hb] using hunlisted
      · simp [Memory.set, Memory.get, hlt, hb]
    · by_cases hb : b = unlistedByte
      · have hunlisted : Memory.get m x.1 = unlistedByte := Memory.get_unlisted fun e he => (hx e he).ne
        simpa [Memory.set, hb] using hunlisted
      · simp [Memory.set, Memory.get, hb]
    · simp [Memory.set, Memory.get, hgt.not_gt, hgt.ne', ih hrest]

/-! ### Loads and stores of several bytes (R74) -/

/-- The `j`-th byte after a store of `k` bytes. -/
theorem Memory.Rising.get_writeLE {k : Nat} : ∀ {m : Memory} {a j : Nat} {v : Word}, m.Rising → j < k →
    Memory.get (Memory.writeLE m a k v) (a + j) = (v >>> (8 * j)).setWidth 8 := by
  induction k with
  | zero => exact fun _ hj => absurd hj (Nat.not_lt_zero _)
  | succ k ih =>
    intro m a j v hm hj
    rw [Memory.writeLE]
    cases j with
    | zero =>
      have hfirst : Memory.get (Memory.writeLE (Memory.set m a (v.setWidth 8)) (a + 1) k (v >>> 8)) a =
          v.setWidth 8 :=
        (Memory.writeLE_get_outside (.inl (Nat.lt_add_one a))).trans (hm.get_set_same a _)
      simpa using hfirst
    | succ j =>
      rw [show a + (j + 1) = a + 1 + j by omega, ih (hm.set _ _) (Nat.lt_of_succ_lt_succ hj),
        ← BitVec.shiftRight_add, show 8 + 8 * j = 8 * (j + 1) by omega]

/-- A byte below a word of at most three: their disjunction is their sum. -/
theorem toNat_byte_or_shiftLeft {b : Byte} {r : Word} (hr : r.toNat < 256 ^ 3) :
    (b.setWidth 32 ||| (r <<< 8)).toNat = b.toNat + 256 * r.toNat := by
  have hb : b.toNat < 2 ^ 8 := b.isLt
  have hsum := Nat.shiftLeft_add_eq_or_of_lt hb r.toNat
  have hb32 : b.toNat % 2 ^ 32 = b.toNat := Nat.mod_eq_of_lt (by omega)
  have hr32 : r.toNat <<< 8 % 2 ^ 32 = r.toNat <<< 8 := by
    rw [Nat.shiftLeft_eq]
    exact Nat.mod_eq_of_lt (by omega)
  rw [BitVec.toNat_or, BitVec.toNat_setWidth, BitVec.toNat_shiftLeft, hb32, hr32, Nat.or_comm, ← hsum,
    Nat.shiftLeft_eq]
  omega

theorem Memory.readLE_lt {m : Memory} {k : Nat} : ∀ {a : Nat}, k ≤ 4 →
    (Memory.readLE m a k).toNat < 256 ^ k := by
  induction k with
  | zero => exact fun _ => by simp [Memory.readLE]
  | succ k ih =>
    intro a hk
    have hrest := ih (a := a + 1) (Nat.le_of_succ_le hk)
    have hpow : 256 ^ k ≤ 256 ^ 3 := Nat.pow_le_pow_right (by decide) (by omega)
    have hb : (Memory.get m a).toNat < 256 := (Memory.get m a).isLt
    rw [Memory.readLE, toNat_byte_or_shiftLeft (hrest.trans_le hpow), pow_succ]
    omega

/-- A load of one byte more: the byte at the lowest address, and the rest above it. -/
theorem Memory.toNat_readLE_succ {m : Memory} {a k : Nat} (hk : k < 4) :
    (Memory.readLE m a (k + 1)).toNat = (Memory.get m a).toNat + 256 * (Memory.readLE m (a + 1) k).toNat :=
  toNat_byte_or_shiftLeft ((Memory.readLE_lt hk.le).trans_le (Nat.pow_le_pow_right (by decide) (by omega)))

theorem Memory.toNat_readLE {m : Memory} {k : Nat} : ∀ {a : Nat}, k ≤ 4 → (Memory.readLE m a k).toNat =
    ((List.range k).map fun j => 256 ^ j * (Memory.get m (a + j)).toNat).sum := by
  induction k with
  | zero => exact fun _ => rfl
  | succ k ih =>
    intro a hk
    have hterm (j : Nat) : 256 ^ (j + 1) * (Memory.get m (a + (j + 1))).toNat =
        256 * (256 ^ j * (Memory.get m (a + 1 + j)).toNat) := by
      rw [pow_succ', mul_assoc, show a + (j + 1) = a + 1 + j by omega]
    rw [Memory.toNat_readLE_succ hk, ih (Nat.le_of_succ_le hk), List.range_succ_eq_map]
    simp [Function.comp_def, hterm, List.sum_map_mul_left]

theorem Width.bytes_le (w : Width) : w.bytes ≤ 4 := by cases w <;> decide

/-- Settles O40: loads by `Memory.toNat_readLE`, stores byte by byte. -/
theorem hostMemoryLittleEndian : Obligations.HostMemoryLittleEndian := by
  intro m a w v hm
  exact ⟨Memory.toNat_readLE w.bytes_le, fun k hk => (Memory.rising_of_wf hm).get_writeLE hk,
    fun c hc => Memory.writeLE_get_outside hc⟩

/-! ### A run of access pairs, exactly (R75, R160) -/

theorem pioAccess_write {w : Width} {a : Nat} {s : State} (h : a + w.bytes ≤ 2 ^ 32) :
    pioAccess .write w a s = .next { s with
      trace := s.trace ++ [.memR a w (Memory.readLE s.mem a w.bytes),
        .fifoW w (Memory.readLE s.mem a w.bytes)] } := by
  have hin : inHostMemory a w = true := decide_eq_true h
  simp [pioAccess, hin, fifoWrite, memRead, emit]

/-- A run of loads puts its words into the FIFO and changes the trace alone. -/
theorem pioAccesses_write {w : Width} {n : Nat} : ∀ {a : Nat} {s : State}, s.fault = none →
    a + n * w.bytes ≤ 2 ^ 32 → pioAccesses .write w n a s =
      .next { s with trace := s.trace ++ writeEvents s.mem w n a } := by
  induction n with
  | zero => intro a s _ _; simp [pioAccesses, writeEvents]
  | succ n ih =>
    intro a s hf h
    rw [Nat.succ_mul] at h
    rw [pioAccesses, pioAccess_write (by omega), andThen_next (by exact hf), ih (by exact hf) (by omega)]
    simp [writeEvents]

theorem pioAccess_read {w : Width} {a : Nat} {s : State} (h : a + w.bytes ≤ 2 ^ 32) :
    let d := drawFrom Config.freeWord s.env.drr s.env.drawn
    pioAccess .read w a s = .next { s with
      mem := Memory.writeLE s.mem a w.bytes (w.mask d.1)
      trace := s.trace ++ [.fifoR w (w.mask d.1), .memW a w (w.mask d.1)]
      env := { s.env with drr := d.2.1, drawn := d.2.2 } } := by
  have hin : inHostMemory a w = true := decide_eq_true h
  simp [pioAccess, hin, fifoRead, memWrite, emit]

/-- A run of stores puts the drawn words into memory and changes the draws and the trace besides. -/
theorem pioAccesses_read {w : Width} {n : Nat} : ∀ {a : Nat} {s : State}, s.fault = none →
    a + n * w.bytes ≤ 2 ^ 32 → pioAccesses .read w n a s = .next { s with
      mem := readMemory w (fifoDraws n s.env).1 a s.mem
      trace := s.trace ++ readEvents w (fifoDraws n s.env).1 a
      env := (fifoDraws n s.env).2 } := by
  induction n with
  | zero => intro a s _ _; simp [pioAccesses, fifoDraws, readMemory, readEvents]
  | succ n ih =>
    intro a s hf h
    rw [Nat.succ_mul] at h
    rw [pioAccesses, pioAccess_read (by omega), andThen_next (by exact hf), ih (by exact hf) (by omega)]
    simp [fifoDraws, readMemory, readEvents]

theorem fifoDraws_length : ∀ (n : Nat) (e : EnvScript), (fifoDraws n e).1.length = n
  | 0, _ => rfl
  | n + 1, _ => congrArg (· + 1) (fifoDraws_length n _)

/-- A chunk of stores changes no byte outside it. -/
theorem readMemory_get_outside {w : Width} {c : Nat} : ∀ {vs : List Word} {a : Nat} {m : Memory},
    (c < a ∨ a + vs.length * w.bytes ≤ c) → Memory.get (readMemory w vs a m) c = Memory.get m c
  | [], _, _, _ => rfl
  | v :: vs, a, m, h => by
    rw [List.length_cons, Nat.succ_mul] at h
    rw [readMemory, readMemory_get_outside (h.imp (by omega) (by omega)),
      Memory.writeLE_get_outside (h.imp id (by omega))]

/-! ### One call (R160) -/

/-- With no fault and a positive operand the row is the operation. -/
theorem exec_pioXfer_running {n : Nat} {s : State} (hf : s.fault = none) (hn : 1 ≤ n) :
    exec (.pioXfer n) s = pioXfer n { s with ret := .done } := by
  have hrow : exec (.pioXfer n) s =
      operation s fun s => if n = 0 then .refused .operandOutOfDomain else pioXfer n s := rfl
  rw [hrow, operation_running hf, if_neg (by omega)]

/-- Inside a segment a call is the movement alone. -/
theorem pioXfer_eq_pioMove {n : Nat} {s : State} {q : InFlight} {d : DataPhase} {dir : Dir}
    (hf : s.fault = none) (hq : s.q = some q) (hd : q.req.data = some d) (hdir : s.h.dataDir = some dir)
    (hseg : 0 < s.h.segLeft) : pioXfer n s = pioMove dir n s := by
  rw [pioXfer, withData_some hq hd, withDir_some hdir, pioAdvance, if_neg hseg.ne', andThen_next hf]

/-- The chunk lies in the address space where the rest of its segment does. -/
theorem pioChunk_accesses_le {n : Nat} {s : State} (h : s.h.bufPtr + s.h.segLeft ≤ 2 ^ 32) :
    s.h.bufPtr + pioChunk n s / (widthFor s.h.bufPtr (pioChunk n s)).bytes *
      (widthFor s.h.bufPtr (pioChunk n s)).bytes ≤ 2 ^ 32 := by
  have hchunk : pioChunk n s ≤ s.h.segLeft := Nat.min_le_right _ _
  rw [widthFor_exact]
  omega

/-- The movement of a WRITE: the loads of the chunk, then the counters. -/
theorem pioMove_write {n : Nat} {s : State} (hf : s.fault = none)
    (hspace : s.h.bufPtr + s.h.segLeft ≤ 2 ^ 32) :
    let m := pioChunk n s
    let w := widthFor s.h.bufPtr m
    pioMove .write n s = .next { s with
      h := { s.h with bufPtr := s.h.bufPtr + m, segLeft := s.h.segLeft - m, bytesLeft := s.h.bytesLeft - m }
      trace := s.trace ++ writeEvents s.mem w (m / w.bytes) s.h.bufPtr } := by
  dsimp only
  rw [pioMove, pioAccesses_write hf (pioChunk_accesses_le hspace)]
  exact andThen_next (by exact hf) _

/-- The movement of a READ: the stores of the chunk, then the counters. -/
theorem pioMove_read {n : Nat} {s : State} (hf : s.fault = none)
    (hspace : s.h.bufPtr + s.h.segLeft ≤ 2 ^ 32) :
    let m := pioChunk n s
    let w := widthFor s.h.bufPtr m
    let draws := fifoDraws (m / w.bytes) s.env
    pioMove .read n s = .next { s with
      h := { s.h with bufPtr := s.h.bufPtr + m, segLeft := s.h.segLeft - m, bytesLeft := s.h.bytesLeft - m }
      mem := readMemory w draws.1 s.h.bufPtr s.mem
      trace := s.trace ++ readEvents w draws.1 s.h.bufPtr
      env := draws.2 } := by
  dsimp only
  rw [pioMove, pioAccesses_read hf (pioChunk_accesses_le hspace)]
  exact andThen_next (by exact hf) _

/-- The row PIO_XFER inside a segment is the movement, answering `done`. -/
theorem exec_pioXfer_in_segment {n : Nat} {s : State} {q : InFlight} {d : DataPhase} {dir : Dir}
    (hf : s.fault = none) (hq : s.q = some q) (hd : q.req.data = some d) (hdir : s.h.dataDir = some dir)
    (hn : 1 ≤ n) (hseg : 0 < s.h.segLeft) : exec (.pioXfer n) s = pioMove dir n { s with ret := .done } :=
  (exec_pioXfer_running hf hn).trans (pioXfer_eq_pioMove (s := { s with ret := .done }) hf hq hd hdir hseg)

/-- Settles O36: the row is the movement of a WRITE. -/
theorem pioXferWriteMoves : Obligations.PioXferWriteMoves := by
  intro s n q d hf hq hd hdir hn hseg hspace m p w
  exact (exec_pioXfer_in_segment hf hq hd hdir hn hseg).trans
    (pioMove_write (s := { s with ret := .done }) hf hspace)

/-- Settles O37: the row is the movement of a READ, whose stores are as long as the chunk. -/
theorem pioXferReadMoves : Obligations.PioXferReadMoves := by
  intro s n q d hf hq hd hdir hn hseg hspace m p w draws
  refine ⟨(exec_pioXfer_in_segment hf hq hd hdir hn hseg).trans
    (pioMove_read (s := { s with ret := .done }) hf hspace), fun a ha => readMemory_get_outside ?_⟩
  have hlength : draws.1.length * w.bytes = m := by
    rw [fifoDraws_length]
    exact widthFor_exact p m
  rwa [hlength]

end Sys2Proof.Machine
end

section
/-! PROOF. The PIO walker over a whole data phase (R75, R147, R160, R162; O39). A run of accesses moves the
bytes of an address interval in order (`Streamed`); the cursor says which interval of the list comes next. -/

namespace Sys2Proof.Machine

/-! ### The addresses of a list of segments -/

theorem memBytes_eq (m : Memory) (a k : Nat) : memBytes m a k = (List.range' a k).map (Memory.get m) := by
  induction k generalizing a with
  | zero => rfl
  | succ k ih => exact congrArg (Memory.get m a :: ·) (ih (a + 1))

theorem segmentAddrs_cons (g : Seg) (rest : List Seg) :
    segmentAddrs (g :: rest) = List.range' g.addr g.len ++ segmentAddrs rest :=
  congrArg (· ++ segmentAddrs rest) List.range'_eq_map_range.symm

theorem segmentAddrs_append (as bs : List Seg) :
    segmentAddrs (as ++ bs) = segmentAddrs as ++ segmentAddrs bs := by
  induction as with
  | nil => rfl
  | cons g rest ih => simp [segmentAddrs_cons, ih]

theorem segmentBytes_eq (m : Memory) (sg : List Seg) :
    segmentBytes m sg = (segmentAddrs sg).map (Memory.get m) := by
  induction sg with
  | nil => rfl
  | cons g rest ih => rw [segmentBytes, segmentAddrs_cons, List.map_append, memBytes_eq, ih]

theorem totalLength_cons (g : Seg) (rest : List Seg) : totalLength (g :: rest) = g.len + totalLength rest := rfl

theorem totalLength_append (as bs : List Seg) : totalLength (as ++ bs) = totalLength as + totalLength bs := by
  simp [totalLength]

theorem length_segmentAddrs (sg : List Seg) : (segmentAddrs sg).length = totalLength sg := by
  induction sg with
  | nil => rfl
  | cons g rest ih => simp [segmentAddrs_cons, totalLength_cons, ih]

/-- The addresses up to `m` bytes past a place inside a segment: those up to the place, then an interval. -/
theorem segmentAddrs_take_add {pre post : List Seg} {g : Seg} {off m : Nat} (h : off + m ≤ g.len) :
    (segmentAddrs (pre ++ g :: post)).take (totalLength pre + off + m) =
      (segmentAddrs (pre ++ g :: post)).take (totalLength pre + off) ++ List.range' (g.addr + off) m := by
  have hsplit : List.range' g.addr g.len = List.range' g.addr off ++
      (List.range' (g.addr + off) m ++ List.range' (g.addr + off + m) (g.len - off - m)) := by
    rw [List.range'_append_1, List.range'_append_1]
    congr 1
    omega
  have hlist : segmentAddrs (pre ++ g :: post) = (segmentAddrs pre ++ List.range' g.addr off) ++
      (List.range' (g.addr + off) m ++
        (List.range' (g.addr + off + m) (g.len - off - m) ++ segmentAddrs post)) := by
    simp only [segmentAddrs_append, segmentAddrs_cons, hsplit, List.append_assoc]
  have hplace : (segmentAddrs pre ++ List.range' g.addr off).length = totalLength pre + off := by
    simp [length_segmentAddrs]
  rw [hlist, List.take_left' hplace, ← hplace, List.take_length_add_append,
    List.take_left' List.length_range']

/-! ### Streams of bytes (R75) -/

theorem fifoStream_append (es fs : List Event) : fifoStream (es ++ fs) = fifoStream es ++ fifoStream fs := by
  induction es with
  | nil => rfl
  | cons e es ih => cases e <;> simp [fifoStream, ih]

theorem drawnStream_append (es fs : List Event) :
    drawnStream (es ++ fs) = drawnStream es ++ drawnStream fs := by
  induction es with
  | nil => rfl
  | cons e es ih => cases e <;> simp [drawnStream, ih]

theorem length_wordBytes (v : Word) (k : Nat) : (wordBytes v k).length = k := by
  induction k generalizing v with
  | zero => rfl
  | succ k ih => exact congrArg (· + 1) (ih _)

/-- The bytes of a loaded word are those of memory. -/
theorem wordBytes_readLE {m : Memory} {k : Nat} : ∀ {a : Nat}, k ≤ 4 →
    wordBytes (Memory.readLE m a k) k = (List.range' a k).map (Memory.get m) := by
  induction k with
  | zero => exact fun _ => rfl
  | succ k ih =>
    intro a hk
    have hsum := Memory.toNat_readLE_succ (m := m) (a := a) hk
    have hb : (Memory.get m a).toNat < 2 ^ 8 := (Memory.get m a).isLt
    have hlow : (Memory.readLE m a (k + 1)).setWidth 8 = Memory.get m a := by
      apply BitVec.eq_of_toNat_eq
      rw [BitVec.toNat_setWidth, hsum]
      omega
    have hhigh : Memory.readLE m a (k + 1) >>> 8 = Memory.readLE m (a + 1) k := by
      apply BitVec.eq_of_toNat_eq
      rw [BitVec.toNat_ushiftRight, hsum, Nat.shiftRight_eq_div_pow]
      omega
    rw [wordBytes, hlow, hhigh, ih (Nat.le_of_succ_le hk), List.range'_succ, List.map_cons]

/-- A stored word is its bytes stored one after another. -/
theorem writeLE_eq_storeStream {k : Nat} : ∀ (m : Memory) (a : Nat) (v : Word),
    Memory.writeLE m a k v = storeStream (List.range' a k) (wordBytes v k) m := by
  induction k with
  | zero => exact fun _ _ _ => rfl
  | succ k ih => exact fun m a v => ih _ _ _

theorem storeStream_append {as bs : List Nat} {xs ys : List Byte} {m : Memory} (h : xs.length = as.length) :
    storeStream (as ++ bs) (xs ++ ys) m = storeStream bs ys (storeStream as xs m) := by
  induction as generalizing xs m with
  | nil =>
    obtain rfl := List.length_eq_zero_iff.mp h
    cases bs <;> rfl
  | cons a as ih =>
    cases xs with
    | nil => cases h
    | cons x xs => exact ih (Nat.succ.inj h)

/-- Only as many addresses are stored to as there are bytes. -/
theorem storeStream_take (as : List Nat) (xs : List Byte) (m : Memory) :
    storeStream (as.take xs.length) xs m = storeStream as xs m := by
  induction as generalizing xs m with
  | nil => simp
  | cons a as ih =>
    cases xs with
    | nil => rfl
    | cons x xs => exact ih xs _

/-! ### Moving the bytes of an interval -/

/-- From `s` to `t` the bytes at the addresses `as` moved in order: out of memory into the FIFO for a WRITE,
from the FIFO into memory for a READ (R75). -/
def Streamed (dir : Dir) (as : List Nat) (s t : State) : Prop :=
  ∃ es, t.trace = s.trace ++ es ∧
    (dir = .write → t.mem = s.mem ∧ fifoStream es = as.map (Memory.get s.mem)) ∧
    (dir = .read → (drawnStream es).length = as.length ∧ t.mem = storeStream as (drawnStream es) s.mem)

theorem Streamed.of_eq {dir : Dir} {s t : State} (htrace : t.trace = s.trace) (hmem : t.mem = s.mem) :
    Streamed dir [] s t := ⟨[], by simp [htrace], fun _ => ⟨hmem, rfl⟩, fun _ => ⟨rfl, hmem⟩⟩

theorem Streamed.append {dir : Dir} {as bs : List Nat} {s u t : State} (h : Streamed dir as s u)
    (h' : Streamed dir bs u t) : Streamed dir (as ++ bs) s t := by
  obtain ⟨es, htrace, hwrite, hread⟩ := h
  obtain ⟨fs, htrace', hwrite', hread'⟩ := h'
  refine ⟨es ++ fs, by rw [htrace', htrace, List.append_assoc], fun hdir => ?_, fun hdir => ?_⟩
  · obtain ⟨hmem, hstream⟩ := hwrite hdir
    obtain ⟨hmem', hstream'⟩ := hwrite' hdir
    exact ⟨hmem'.trans hmem, by rw [fifoStream_append, hstream, hstream', hmem, List.map_append]⟩
  · obtain ⟨hlength, hmem⟩ := hread hdir
    obtain ⟨hlength', hmem'⟩ := hread' hdir
    refine ⟨by rw [drawnStream_append, List.length_append, List.length_append, hlength, hlength'], ?_⟩
    rw [hmem', hmem, drawnStream_append, storeStream_append hlength]

/-- One access pair moves the bytes of its access. -/
theorem pioAccess_streamed {dir : Dir} {w : Width} {a : Nat} {s t : State}
    (h : pioAccess dir w a s = .next t) : Streamed dir (List.range' a w.bytes) s t := by
  rcases (pioAccess_eq_next h).2 with ⟨rfl, rfl⟩ | ⟨rfl, rfl⟩
  · refine ⟨[.memR a w (memRead a w s).1, .fifoW w (memRead a w s).1], by simp, fun _ => ⟨rfl, ?_⟩,
      (nomatch ·)⟩
    exact (List.append_nil _).trans (wordBytes_readLE w.bytes_le)
  · refine ⟨[.fifoR w (fifoRead w s).1, .memW a w (fifoRead w s).1], by simp, (nomatch ·), fun _ => ?_⟩
    have hstream : drawnStream [.fifoR w (fifoRead w s).1, .memW a w (fifoRead w s).1] =
        wordBytes (fifoRead w s).1 w.bytes := List.append_nil _
    rw [hstream, length_wordBytes, List.length_range']
    exact ⟨rfl, writeLE_eq_storeStream _ _ _⟩

/-- A run of access pairs moves the bytes of its interval. -/
theorem pioAccesses_streamed {dir : Dir} {w : Width} {n : Nat} : ∀ {a : Nat} {s t : State}, s.fault = none →
    pioAccesses dir w n a s = .next t → Streamed dir (List.range' a (n * w.bytes)) s t := by
  induction n with
  | zero =>
    intro a s t _ h
    cases h
    rw [Nat.zero_mul]
    exact .of_eq rfl rfl
  | succ n ih =>
    intro a s t hf h
    obtain ⟨u, hu, hok, hr⟩ := pioAccesses_succ hf h
    have hmoved := (pioAccess_streamed hu).append (ih hok hr)
    rwa [List.range'_append_1, Nat.add_comm, ← Nat.succ_mul] at hmoved

/-- The movement of a call moves the bytes of its chunk. -/
theorem pioMove_streamed {dir : Dir} {n : Nat} {s t : State} (hf : s.fault = none)
    (h : pioMove dir n s = .next t) : Streamed dir (List.range' s.h.bufPtr (pioChunk n s)) s t := by
  obtain ⟨u, hu, rfl⟩ := pioMove_eq_next hf h
  have hmoved := pioAccesses_streamed hf hu
  rwa [widthFor_exact] at hmoved

/-! ### The cursor in the list (R43, R147) -/

/-- The cursor stands `off` bytes into the segment `g` between `pre` and `post`, clamped to the bytes left,
and what lies before it is what was moved. -/
structure CursorAt (d : DataPhase) (pre : List Seg) (g : Seg) (post : List Seg) (off : Nat) (s : State) :
    Prop where
  list : d.sg = pre ++ g :: post
  idx : s.h.sgIdx = pre.length
  ptr : s.h.bufPtr = g.addr + off
  seg : s.h.segLeft = min (g.len - off) s.h.bytesLeft
  inside : off ≤ g.len
  moved : totalLength pre + off + s.h.bytesLeft = dataTotal d

/-- A walk from `s₀` that has come to `s`: the bytes before the cursor have moved, and no fault was raised. -/
structure Walked (s₀ : State) (q : InFlight) (d : DataPhase) (dir : Dir) (s : State) : Prop where
  running : s.fault = none
  request : s.q = some q
  direction : s.h.dataDir = some dir
  cursor : ∃ pre g post off, CursorAt d pre g post off s
  stream : Streamed dir ((segmentAddrs d.sg).take (dataTotal d - s.h.bytesLeft)) s₀ s

/-- The walk does not read the answer. -/
theorem Walked.returning {s₀ s : State} {q : InFlight} {d : DataPhase} {dir : Dir} (hs : Walked s₀ q d dir s)
    (r : Ret) : Walked s₀ q d dir (returning r s) := by
  obtain ⟨pre, g, post, off, hc⟩ := hs.cursor
  exact ⟨hs.running, hs.request, hs.direction,
    ⟨pre, g, post, off, hc.list, hc.idx, hc.ptr, hc.seg, hc.inside, hc.moved⟩, hs.stream⟩

/-- The segments of a valid data phase lie in the address space (R54). -/
theorem segment_le_of_dataValid {d : DataPhase} (hd : dataValid d = true) {g : Seg} (hg : g ∈ d.sg) :
    g.addr + g.len ≤ 2 ^ ADDR_WIDTH := by
  simp only [dataValid, segValid, Bool.and_eq_true, List.all_eq_true, decide_eq_true_eq] at hd
  exact (hd.2 g hg).2

/-- While bytes are left the advance raises no fault: behind an exhausted segment there is another (R162). -/
theorem Walked.advance {s₀ s : State} {q : InFlight} {d : DataPhase} {dir : Dir} (hs : Walked s₀ q d dir s)
    (htotal : dataTotal d ≤ totalLength d.sg) (hleft : 0 < s.h.bytesLeft) :
    ∃ u, pioAdvance d s = .next u ∧ Walked s₀ q d dir u := by
  by_cases hseg : s.h.segLeft = 0
  · obtain ⟨pre, g, post, off, hc⟩ := hs.cursor
    have hoff : off = g.len := by
      have hzero := hc.seg.symm.trans hseg
      have hinside := hc.inside
      omega
    have hlength : totalLength d.sg = totalLength pre + (g.len + totalLength post) := by
      rw [hc.list, totalLength_append, totalLength_cons]
    have hmoved := hc.moved
    cases post with
    | nil =>
      have hnone : totalLength [] = 0 := rfl
      omega
    | cons g' post =>
      have hidx : d.sg[s.h.sgIdx + 1]? = some g' := by simp [hc.list, hc.idx]
      have hmore : s.h.sgIdx + 1 < d.sg.length := (List.getElem?_eq_some_iff.mp hidx).1
      refine ⟨{ s with h := { s.h with
        sgIdx := s.h.sgIdx + 1, bufPtr := g'.addr, segLeft := min g'.len s.h.bytesLeft } }, ?_, ?_⟩
      · rw [pioAdvance, if_pos hseg, if_neg (by omega), hidx]
      · refine ⟨hs.running, hs.request, hs.direction, ⟨pre ++ [g], g', post, 0, ?_⟩, hs.stream⟩
        have hpre : totalLength (pre ++ [g]) = totalLength pre + off := by
          rw [totalLength_append, hoff]
          rfl
        exact ⟨by simp [hc.list], by simp [hc.idx], rfl, rfl, Nat.zero_le _, by rw [hpre]; exact hmoved⟩
  · exact ⟨s, by rw [pioAdvance, if_neg hseg], hs⟩

/-- The movement takes the walk on inside its segment. -/
theorem Walked.move {s₀ s : State} {q : InFlight} {d : DataPhase} {dir : Dir} (hs : Walked s₀ q d dir s)
    (hd : dataValid d = true) (n : Nat) : ∃ t, pioMove dir n s = .next t ∧ Walked s₀ q d dir t := by
  obtain ⟨pre, g, post, off, hc⟩ := hs.cursor
  have hg : g ∈ d.sg := by simp [hc.list]
  have hspace := segment_le_of_dataValid hd hg
  have hchunk : pioChunk n s ≤ min (g.len - off) s.h.bytesLeft := hc.seg ▸ Nat.min_le_right _ _
  have hinside := hc.inside
  have hptr := hc.ptr
  have hseg := hc.seg
  have hmoved := hc.moved
  obtain ⟨t, ht⟩ := pioMove_next (dir := dir) (n := n) hs.running (by omega)
  have hframe := pioMove_frame hs.running ht
  refine ⟨t, ht, ?_, ?_, ?_, ⟨pre, g, post, off + pioChunk n s, ?_⟩, ?_⟩
  · rw [hframe]
    exact hs.running
  · rw [hframe]
    exact hs.request
  · rw [hframe]
    exact hs.direction
  · rw [hframe]
    exact ⟨hc.list, hc.idx, by dsimp only; omega, by dsimp only; omega, by omega, by dsimp only; omega⟩
  · have hdone : dataTotal d - t.h.bytesLeft = totalLength pre + off + pioChunk n s := by
      rw [hframe]
      dsimp only
      omega
    have hbefore : dataTotal d - s.h.bytesLeft = totalLength pre + off := by omega
    have hstream := hs.stream.append (pioMove_streamed hs.running ht)
    rw [hdone, hc.list, segmentAddrs_take_add (by omega)]
    rwa [hbefore, hc.list, hptr] at hstream

/-- One call takes the walk on (R160, R162). -/
theorem Walked.pioXfer {s₀ s : State} {q : InFlight} {d : DataPhase} {dir : Dir} {n : Nat}
    (hs : Walked s₀ q d dir s) (hqd : q.req.data = some d) (hd : dataValid d = true)
    (htotal : dataTotal d ≤ totalLength d.sg) (hleft : 0 < s.h.bytesLeft) (hn : 1 ≤ n) :
    ∃ t, exec (.pioXfer n) s = .next t ∧ Walked s₀ q d dir t := by
  have hdone : Walked s₀ q d dir { s with ret := .done } := hs.returning .done
  obtain ⟨u, hu, hwalked⟩ := hdone.advance htotal hleft
  obtain ⟨t, ht, hend⟩ := hwalked.move hd n
  refine ⟨t, ?_, hend⟩
  rw [exec_pioXfer_running hs.running hn, Machine.pioXfer, withData_some hdone.request hqd,
    withDir_some hdone.direction, hu, andThen_next hwalked.running]
  exact ht

/-- A whole sequence of calls. -/
theorem Walked.pioWalk {s₀ : State} {q : InFlight} {d : DataPhase} {dir : Dir}
    (hqd : q.req.data = some d) (hd : dataValid d = true) (htotal : dataTotal d ≤ totalLength d.sg) :
    ∀ (ns : List Nat) {s : State}, Walked s₀ q d dir s → (∀ n ∈ ns, 1 ≤ n) →
      ∃ t, pioWalk ns s = .next t ∧ Walked s₀ q d dir t
  | [], s, hs, _ => ⟨s, rfl, hs⟩
  | n :: ns, s, hs, hns => by
    obtain ⟨hn, hns⟩ := List.forall_mem_cons.mp hns
    by_cases hleft : s.h.bytesLeft = 0
    · exact ⟨s, if_pos hleft, hs⟩
    · obtain ⟨u, hu, hwalked⟩ := hs.pioXfer hqd hd htotal (Nat.pos_of_ne_zero hleft) hn
      obtain ⟨t, ht, hend⟩ := Walked.pioWalk hqd hd htotal ns hwalked hns
      exact ⟨t, by rw [Machine.pioWalk, if_neg hleft, hu, andThen_next hwalked.running, ht], hend⟩

/-- PIO_INIT starts the walk at the first segment (R147). -/
theorem pioInit_walked {s : State} {q : InFlight} {d : DataPhase} {dir : Dir} (hf : s.fault = none)
    (hq : s.q = some q) (hqd : q.req.data = some d) (hd : dataValid d = true)
    (hdir : s.h.dataDir = some dir) (hleft : s.h.bytesLeft = dataTotal d) :
    ∃ u, exec .pioInit s = .next u ∧ Walked s q d dir u := by
  cases hsg : d.sg with
  | nil => simp [dataValid, hsg] at hd
  | cons g post =>
    refine ⟨{ s with
      h := { s.h with sgIdx := 0, bufPtr := g.addr, segLeft := min g.len s.h.bytesLeft }
      ret := .done }, ?_, ?_⟩
    · have hrow : exec .pioInit s = operation s fun s => withData s fun _ d => pioInit d s := rfl
      rw [hrow, operation_running hf, withData_some (by exact hq) hqd, pioInit, hsg]
    · refine ⟨hf, hq, hdir, ⟨[], g, post, 0, hsg, rfl, rfl, rfl, Nat.zero_le _, ?_⟩, ?_⟩
      · exact (Nat.zero_add _).trans hleft
      · simp only [hleft, Nat.sub_self, List.take_zero]
        exact .of_eq rfl rfl

/-- Settles O39: the walk from PIO_INIT on, and what `Walked` says of its end. -/
theorem pioWalkStreamsTheBuffer : Obligations.PioWalkStreamsTheBuffer := by
  intro s q d dir ns hf hq hqd hd htotal hdir hleft hns
  obtain ⟨u, hu, hstart⟩ := pioInit_walked hf hq hqd hd hdir hleft
  obtain ⟨t, ht, hend⟩ := Walked.pioWalk hqd hd htotal ns hstart hns
  obtain ⟨pre, g, post, off, hc⟩ := hend.cursor
  obtain ⟨es, htrace, hwrite, hread⟩ := hend.stream
  have hmoved := hc.moved
  have hnew : newEvents s t = es := newEvents_eq htrace
  refine ⟨u, t, hu, ht, hend.running, ?_, by omega, fun hw => ?_, fun hr => ?_⟩
  · rw [hc.idx, hc.list]
    simp
  · obtain ⟨hmem, hstream⟩ := hwrite hw
    exact ⟨hmem, by rw [hnew, hstream, segmentBytes_eq, List.map_take]⟩
  · obtain ⟨hlength, hmem⟩ := hread hr
    have hcount : (drawnStream es).length = dataTotal d - t.h.bytesLeft := by
      rw [hlength, List.length_take, length_segmentAddrs]
      omega
    rw [hnew, hmem, ← hcount, storeStream_take]
    exact ⟨rfl, rfl⟩

end Sys2Proof.Machine
end

section
/-! PROOF. One step of the queue (R84, R115, R289; O5), and the message of a well-formed instruction read back
field by field (R112, R113; entries 2 and 3; O6). -/

namespace Sys2Proof.Machine

/-! ### One step -/

theorem fetch_idle {s : State} (h : s.pending = []) : fetch s = .idle := by simp [fetch, h]

theorem fetch_operation {s : State} {m : Message} {rest : List Message} {i : Instr} {tail : List Byte}
    (h : s.pending = m :: rest) (hd : decode m.port m.bytes = .ok (i, tail)) :
    fetch s = .operation i rest := by simp [fetch, h, hd]

theorem fetch_undecodable {s : State} {m : Message} {rest : List Message} {e : DecodeError}
    (h : s.pending = m :: rest) (hd : decode m.port m.bytes = .error e) :
    fetch s = .undecodable e rest := by simp [fetch, h, hd]

/-- A step runs the operation whose message heads the queue. -/
theorem step_operation {s : State} {m : Message} {rest : List Message} {i : Instr} {tail : List Byte}
    (h : s.pending = m :: rest) (hd : decode m.port m.bytes = .ok (i, tail)) :
    step s = exec i (dequeue rest s) := by rw [step, fetch_operation h hd]

/-- Settles O5: the three answers of `fetch`. -/
theorem stepRunsDecodedInstruction : Obligations.StepRunsDecodedInstruction := by
  refine ⟨fun s h => ?_, fun s m rest i tail h hd => step_operation h hd, fun s m rest e h hd => ?_⟩
  · rw [step, fetch_idle h]
  · exact ⟨.undecodable e, by rw [step, fetch_undecodable h hd]; rfl⟩

end Sys2Proof.Machine

namespace Sys2Proof

/-! ### Reading records back -/

/-- The reader `p` reads back what `bs` was written for, whatever follows it. -/
def Reads {α : Type} (p : Reader α) (bs : List Byte) (a : α) : Prop :=
  ∀ rest, p (bs ++ rest) = .ok (a, rest)

theorem Reads.pure {α : Type} (a : α) : Reads (Reader.pure a) [] a := fun _ => rfl

/-- One field and then the others. -/
theorem Reads.bind {α β : Type} {p : Reader α} {f : α → Reader β} {bs cs : List Byte} {a : α} {b : β}
    (h : Reads p bs a) (h' : Reads (f a) cs b) : Reads (p.bind f) (bs ++ cs) b := by
  intro rest
  rw [List.append_assoc, Reader.bind_ok (h _)]
  exact h' rest

/-- The last field. -/
theorem Reads.map {α β : Type} {p : Reader α} {f : α → β} {bs : List Byte} {a : α} (h : Reads p bs a) :
    Reads (p.bind fun a => Reader.pure (f a)) bs (f a) := fun rest => Reader.bind_ok (h rest)

theorem reads_nat {n : Nat} (h : fitsNat n = true) : Reads getNat (putNat n) n := getNat_putNat h

theorem reads_code {α : Type} {f : Nat → Option α} {n : Nat} {a : α} (hf : f n = some a)
    (h : n < 256 := by decide) : Reads (getCode f) (putLE 1 n) a := getCode_putLE h hf

theorem reads_bool (b : Bool) : Reads getBool (putBool b) b := getBool_putBool b

theorem reads_option {α : Type} {p : Reader α} {f : α → List Byte} {o : Option α}
    (h : ∀ a, o = some a → Reads p (f a) a) : Reads (getOption p) (putOption f o) o := getOption_putOption h

theorem reads_list {α : Type} {p : Reader α} {f : α → List Byte} {as : List α}
    (hlength : fitsNat as.length = true) (h : ∀ a ∈ as, Reads p (f a) a) :
    Reads (getList p) (putList f as) as := by
  intro rest
  rw [putList, List.append_assoc, getList, Reader.bind_ok (reads_nat hlength _)]
  exact getMany_putMany h rest

theorem reads_resp (r : Resp) : Reads (getCode respOfCode) (putLE 1 (Machine.respCode r)) r := by
  cases r <;> exact reads_code rfl

theorem reads_dir (dir : Dir) : Reads (getCode dirOfCode) (putLE 1 (dirCode dir)) dir := by
  cases dir <;> exact reads_code rfl

theorem reads_dirOrNone : ∀ dir : Option Dir,
    Reads (getCode dirOrNoneOfCode) (putLE 1 (dirOrNoneCode dir)) dir
  | none => reads_code rfl
  | some .read => reads_code rfl
  | some .write => reads_code rfl

theorem reads_slotOrNone : ∀ slot : Option Slot,
    Reads (getCode slotOrNoneOfCode) (putLE 1 (slotOrNoneCode slot)) slot
  | none => reads_code rfl
  | some .main => reads_code rfl
  | some .stop => reads_code rfl

theorem reads_busMode (mode : BusMode) : Reads (getCode busModeOfCode) (putLE 1 (busModeCode mode)) mode := by
  cases mode <;> exact reads_code rfl

theorem reads_powerMode (power : PowerMode) :
    Reads (getCode powerModeOfCode) (putLE 1 (powerModeCode power)) power := by
  cases power <;> exact reads_code rfl

theorem reads_seg {g : Seg} (h : g.fits = true) : Reads getSeg (putSeg g) g := by
  simp only [Seg.fits, Bool.and_eq_true] at h
  obtain ⟨haddr, hlen⟩ := h
  exact (reads_nat haddr).bind (reads_nat hlen).map

theorem reads_command {c : Command} (h : c.fits = true) : Reads getCommand (putCommand c) c := by
  have hread : Reads getCommand (putNat c.index ++ (putWord c.arg ++ (putLE 1 (Machine.respCode c.resp) ++
      putBool c.busy))) c :=
    (reads_nat h).bind <| Reads.bind (getWord_putWord c.arg) <|
      (reads_resp c.resp).bind (reads_bool c.busy).map
  simpa only [putCommand, List.append_assoc] using hread

theorem reads_dataPhase {d : DataPhase} (h : d.fits = true) : Reads getDataPhase (putDataPhase d) d := by
  simp only [DataPhase.fits, Bool.and_eq_true, List.all_eq_true] at h
  obtain ⟨⟨⟨⟨hsize, hcount⟩, hlength⟩, hsg⟩, htimeout⟩ := h
  have hlist : Reads (getList getSeg) (putList putSeg d.sg) d.sg :=
    reads_list hlength fun g hg => reads_seg (hsg g hg)
  have hread : Reads getDataPhase (putLE 1 (dirCode d.dir) ++ (putNat d.blockSize ++ (putNat d.blockCount ++
      (putList putSeg d.sg ++ (putNat d.timeoutCycles ++ putBool d.stream))))) d :=
    (reads_dir d.dir).bind <| (reads_nat hsize).bind <| (reads_nat hcount).bind <| hlist.bind <|
      (reads_nat htimeout).bind (reads_bool d.stream).map
  simpa only [putDataPhase, List.append_assoc] using hread

theorem reads_request {r : BusRequest} (h : r.fits = true) : Reads getRequest (putRequest r) r := by
  simp only [BusRequest.fits, Bool.and_eq_true] at h
  obtain ⟨⟨⟨hid, hcmd⟩, hdata⟩, hstop⟩ := h
  have hreadData : Reads (getOption getDataPhase) (putOption putDataPhase r.data) r.data :=
    reads_option fun d hd => reads_dataPhase (by simpa [hd] using hdata)
  have hreadStop : Reads (getOption getCommand) (putOption putCommand r.stop) r.stop :=
    reads_option fun c hc => reads_command (by simpa [hc] using hstop)
  have hread : Reads getRequest (putNat r.id ++ (putCommand r.cmd ++ (putOption putDataPhase r.data ++
      putOption putCommand r.stop))) r :=
    (reads_nat hid).bind <| (reads_command hcmd).bind <| hreadData.bind hreadStop.map
  simpa only [putRequest, List.append_assoc] using hread

/-! ### Register words bit by bit (R103, R104, R107) -/

theorem getLsbD_flag (b : Bool) {p : Nat} (hp : p < 32) (i : Nat) :
    (Machine.flag b p).getLsbD i = (b && decide (i = p)) := by
  cases b
  · simp [Machine.flag]
  · simp only [Machine.flag, Machine.bit, if_true, Bool.true_and, BitVec.getLsbD_shiftLeft, BitVec.getLsbD_one]
    by_cases h : i = p
    · simp [h, hp]
    · simp [h]
      omega

theorem getLsbD_fieldAt (v lo : Nat) {i : Nat} (hi : i < 32) :
    (Machine.fieldAt v lo).getLsbD i = (decide (lo ≤ i) && v.testBit (i - lo)) := by
  have hlow : i - lo < 32 := by omega
  rw [Machine.fieldAt, BitVec.getLsbD_shiftLeft, BitVec.getLsbD_ofNat]
  by_cases h : i < lo
  · simp [hi, h, Nat.not_le.mpr h]
  · simp [hi, hlow, h, Nat.not_lt.mp h]

theorem decodeFifoctl_fifoWord (f : FifoFields) :
    decodeFifoctl (Machine.fifoWord Layout.default f) = .ok (.fifoctlWord f) := by
  have hbits (i : Nat) : (Machine.fifoWord Layout.default f).getLsbD i =
      ((f.rst && decide (i = 0)) || (f.dir && decide (i = 1)) || (f.lev && decide (i = 2))) := by
    simp [Machine.fifoWord, Layout.default, getLsbD_flag]
  have hfixed : Machine.fifoWord Layout.default f &&& 0xFFFFFFF8 = 0 := by
    refine BitVec.eq_of_getLsbD_eq fun i hi => ?_
    rw [BitVec.getLsbD_and, hbits]
    interval_cases i <;> simp
  rw [decodeFifoctl, if_pos hfixed]
  simp only [hbits]
  simp

theorem decodeIm_maskWord (f : StatusBits) :
    decodeIm (Machine.maskWord Layout.default f) = .ok (.imWord f) := by
  have hbits (i : Nat) : (Machine.maskWord Layout.default f).getLsbD i =
      ((f.datdne && decide (i = 0)) || (f.rspdne && decide (i = 2)) || (f.toutrd && decide (i = 3)) ||
        (f.toutrs && decide (i = 4)) || (f.crcwr && decide (i = 5)) || (f.crcrd && decide (i = 6)) ||
        (f.crcrs && decide (i = 7)) || (f.dxrdy && decide (i = 9)) || (f.drrdy && decide (i = 10))) := by
    simp [Machine.maskWord, Layout.default, getLsbD_flag]
  have hfixed : Machine.maskWord Layout.default f &&& 0xFFFFF902 = 0 := by
    refine BitVec.eq_of_getLsbD_eq fun i hi => ?_
    rw [BitVec.getLsbD_and, hbits]
    interval_cases i <;> simp
  rw [decodeIm, if_pos hfixed]
  simp only [hbits]
  simp

theorem respCode_testBit_of_ge (r : Resp) {i : Nat} (h : 2 ≤ i) : (Machine.respCode r).testBit i = false := by
  refine Nat.testBit_lt_two_pow (lt_of_lt_of_le ?_ (Nat.pow_le_pow_right (by decide) h))
  cases r <;> decide

theorem decodeCmd_cmdWord (f : CmdFields) :
    decodeCmd (Machine.cmdWord Layout.default f) = .ok (.cmdWord f) := by
  have hbits (i : Nat) (hi : i < 32) : (Machine.cmdWord Layout.default f).getLsbD i =
      (f.indx.getLsbD i || (f.pplen && decide (i = 7)) || (f.bsyexp && decide (i = 8)) ||
        (decide (9 ≤ i) && (Machine.respCode f.rspfmt).testBit (i - 9)) || (f.dtrw && decide (i = 11)) ||
        (f.strmtp && decide (i = 12)) || (f.wdatx && decide (i = 13)) || (f.dmatrig && decide (i = 16))) := by
    simp only [Machine.cmdWord, Layout.default, Machine.active_getLsbD, BitVec.getLsbD_or,
      getLsbD_fieldAt _ _ hi]
    simp [getLsbD_flag, BitVec.testBit_toNat]
  have hfixed : Machine.cmdWord Layout.default f &&& 0xFFFEC040 = 0 := by
    refine BitVec.eq_of_getLsbD_eq fun i hi => ?_
    rw [BitVec.getLsbD_and, hbits i hi]
    interval_cases i <;> simp [respCode_testBit_of_ge]
  have hindx : (Machine.cmdWord Layout.default f).extractLsb' 0 6 = f.indx := by
    refine BitVec.eq_of_getLsbD_eq fun i hi => ?_
    rw [BitVec.getLsbD_extractLsb', hbits _ (by omega)]
    interval_cases i <;> simp
  have hresp : rspfmtOf (Machine.cmdWord Layout.default f) = f.rspfmt := by
    have hhigh : (Machine.cmdWord Layout.default f).getLsbD 10 = (Machine.respCode f.rspfmt).testBit 1 := by
      rw [hbits 10 (by decide)]
      simp
    have hlow : (Machine.cmdWord Layout.default f).getLsbD 9 = (Machine.respCode f.rspfmt).testBit 0 := by
      rw [hbits 9 (by decide)]
      simp
    rw [rspfmtOf, hhigh, hlow]
    cases f.rspfmt <;> rfl
  rw [decodeCmd, if_pos hfixed, hindx, hresp]
  simp only [hbits, Nat.reduceLT]
  simp [respCode_testBit_of_ge]

/-! ### Every message -/

/-- A selector message: its code, then its operands (R112). -/
theorem reads_operation {code : Nat} {bs : List Byte} {i : Instr} (hcode : code < 256)
    (h : Reads (getOperation code) bs i) : Reads (decode .selector) (putLE 1 code ++ bs) i :=
  Reads.bind (p := getLE 1) (fun rest => getLE_putLE rest hcode) h

/-- A selector message with no operands. -/
theorem reads_bareOperation {code : Nat} {i : Instr} (hcode : code < 256)
    (h : getOperation code = Reader.pure i) : Reads (decode .selector) (putLE 1 code) i := by
  have hread := reads_operation hcode (h ▸ Reads.pure i)
  rwa [List.append_nil] at hread

/-- A register-word message: the word, then the tag of its row. -/
theorem reads_row {tag : Nat} {w : Word} {i : Instr} (htag : tag < 256) (h : decodeWord tag w = .ok i) :
    Reads (decode .word) (putRow tag w) i := by
  intro rest
  have hread : getRow (putWord w ++ (putLE 1 tag ++ rest)) = .ok (i, rest) := by
    rw [getRow, Reader.bind_ok (getWord_putWord w _), Reader.bind_ok (getLE_putLE rest htag), h]
  rwa [← List.append_assoc] at hread

theorem decodeStatus_of_bit {w : Word} {p : Nat} (h : w.getLsbD p = true) (i : Instr) :
    decodeStatus w p i = .ok i := if_pos h

/-- Every well-formed instruction is read back from its message, whatever follows it. -/
theorem reads_encode {i : Instr} (h : i.wf = true) : Reads (decode (portOf i)) (encode i) i := by
  cases i with
  | attach => exact reads_bareOperation (by decide) rfl
  | detach => exact reads_bareOperation (by decide) rfl
  | setIos width mode power hz =>
    simp only [Instr.wf, Bool.and_eq_true, decide_eq_true_eq] at h
    have hread : Reads (decode .selector) (putLE 1 0x02 ++ (putLE 1 width ++ (putLE 1 (busModeCode mode) ++
        (putLE 1 (powerModeCode power) ++ putNat hz)))) (.setIos width mode power hz) :=
      reads_operation (by decide) <| Reads.bind (p := getLE 1) (fun rest => getLE_putLE rest h.1) <|
        (reads_busMode mode).bind <| (reads_powerMode power).bind (reads_nat h.2).map
    simpa only [encode, portOf, List.append_assoc] using hread
  | request req => exact reads_operation (by decide) (reads_request h).map
  | getCd => exact reads_bareOperation (by decide) rfl
  | getRo => exact reads_bareOperation (by decide) rfl
  | irq => exact reads_bareOperation (by decide) rfl
  | dmaErr => exact reads_bareOperation (by decide) rfl
  | divsolve r f =>
    simp only [Instr.wf, Bool.and_eq_true, decide_eq_true_eq] at h
    obtain ⟨⟨hr, hfits⟩, hf⟩ := h
    have hread : Reads (decode .selector) (putLE 1 0x10 ++ (putNat (r - 1) ++ putNat f))
        (.divsolve (r - 1 + 1) f) :=
      reads_operation (by decide) <| (reads_nat hfits).bind (reads_nat hf).map
    rw [Nat.sub_add_cancel hr] at hread
    simpa only [encode, portOf, List.append_assoc] using hread
  | prepare => exact reads_bareOperation (by decide) rfl
  | fifoCfg dir => exact reads_operation (by decide) (reads_dirOrNone dir).map
  | dmaSetup => exact reads_bareOperation (by decide) rfl
  | pioInit => exact reads_bareOperation (by decide) rfl
  | pioXfer n =>
    simp only [Instr.wf, Bool.and_eq_true, decide_eq_true_eq] at h
    have hread : Reads (decode .selector) (encode (.pioXfer n)) (.pioXfer (n - 1 + 1)) :=
      reads_operation (by decide) (reads_nat h.2).map
    rwa [Nat.sub_add_cancel h.1] at hread
  | busyCheck => exact reads_bareOperation (by decide) rfl
  | cmdStart slot => exact reads_operation (by decide) (reads_slotOrNone slot).map
  | softReset => exact reads_bareOperation (by decide) rfl
  | cmdEnd => exact reads_bareOperation (by decide) rfl
  | dataTeardown => exact reads_bareOperation (by decide) rfl
  | xferEnd => exact reads_bareOperation (by decide) rfl
  | complete => exact reads_bareOperation (by decide) rfl
  | initck => exact reads_bareOperation (by decide) rfl
  | cmdWord f => exact reads_row (by decide) (decodeCmd_cmdWord f)
  | initckWord => exact reads_row (by decide) rfl
  | stDatdne w => exact reads_row (by decide) (decodeStatus_of_bit h _)
  | stToutrd w => exact reads_row (by decide) (decodeStatus_of_bit h _)
  | stCrcwr w => exact reads_row (by decide) (decodeStatus_of_bit h _)
  | stCrcrd w => exact reads_row (by decide) (decodeStatus_of_bit h _)
  | stToutrs w => exact reads_row (by decide) (decodeStatus_of_bit h _)
  | stCrcrs w => exact reads_row (by decide) (decodeStatus_of_bit h _)
  | stRspdne w => exact reads_row (by decide) (decodeStatus_of_bit h _)
  | stDxrdy w => exact reads_row (by decide) (decodeStatus_of_bit h _)
  | stDrrdy w => exact reads_row (by decide) (decodeStatus_of_bit h _)
  | imWord f => exact reads_row (by decide) (decodeIm_maskWord f)
  | fifoctlWord f => exact reads_row (by decide) (decodeFifoctl_fifoWord f)
  | ctlWord w => exact reads_row (by decide) rfl
  | clkWord w => exact reads_row (by decide) rfl

end Sys2Proof

namespace Sys2Proof.Machine

/-- Settles O6: the message of the instruction is read back, so that the step runs it and leaves the queue
as it was. -/
theorem queuedInstructionRuns : Obligations.QueuedInstructionRuns := by
  intro i s hi
  have hdecode : decode (messageOf i).port (messageOf i).bytes = .ok (i, []) := by
    have hread := reads_encode hi []
    rwa [List.append_nil] at hread
  exact step_operation (s := { s with pending := messageOf i :: s.pending }) rfl hdecode

end Sys2Proof.Machine
end

section
/-! PROOF. DMA_SETUP (R144; O34): one equation per answer, and the chain of descriptors element by element. -/

namespace Sys2Proof.Machine

theorem allAligned_iff {t : Nat} {sg : List Seg} : allAligned t sg = true ↔ ∀ g ∈ sg, g.len % t = 0 := by
  simp [allAligned]

theorem allAligned_eq_false_iff {t : Nat} {sg : List Seg} :
    allAligned t sg = false ↔ ∃ g ∈ sg, g.len % t ≠ 0 := by
  simp [allAligned]

/-! ### The chain -/

theorem length_descChain (tmpl : Desc) (dir : Dir) (msg : List Seg) :
    ∀ i, (descChain tmpl dir i msg).length = msg.length := by
  induction msg with
  | nil => exact fun _ => rfl
  | cons g rest ih => exact fun i => congrArg (· + 1) (ih (i + 1))

/-- The descriptor of the `k`-th segment of a chain that begins at index `i`: linked to the next one, the last
to none. -/
theorem descChain_getElem? (tmpl : Desc) (dir : Dir) {msg : List Seg} : ∀ {i k : Nat} {m : Seg},
    msg[k]? = some m → (descChain tmpl dir i msg)[k]? =
      some (descFor tmpl dir m (if k + 1 < msg.length then some (i + k + 1) else none)) := by
  induction msg with
  | nil => exact fun h => nomatch h
  | cons g rest ih =>
    intro i k m h
    cases k with
    | zero =>
      obtain rfl : g = m := by simpa using h
      cases rest <;> simp [descChain]
    | succ k =>
      have hrest := ih (i := i + 1) (show rest[k]? = some m by simpa using h)
      rw [show i + 1 + k + 1 = i + (k + 1) + 1 by omega] at hrest
      simpa [descChain] using hrest

/-! ### The answers -/

/-- The row DMA_SETUP with its records there. -/
theorem exec_dmaSetup_running {s : State} {q : InFlight} {d : DataPhase} {dir : Dir} (hf : s.fault = none)
    (hq : s.q = some q) (hd : q.req.data = some d) (hdir : s.h.dataDir = some dir) :
    exec .dmaSetup s =
      .next (returning (.setup (dmaSetup d dir { s with ret := .done }).1)
        (dmaSetup d dir { s with ret := .done }).2) := by
  have hrow : exec .dmaSetup s = operation s fun s => withData s fun _ d => withDir s fun dir =>
      .next (returning (.setup (dmaSetup d dir s).1) (dmaSetup d dir s).2) := rfl
  rw [hrow, operation_running hf, withData_some (by exact hq) hd, withDir_some (by exact hdir)]

theorem dmaSetup_misaligned {d : DataPhase} {s : State} (dir : Dir)
    (h : allAligned s.threshold d.sg = false) : dmaSetup d dir s = (false, s) := by simp [dmaSetup, h]

theorem dmaSetup_mapFails {d : DataPhase} {s : State} (dir : Dir) (h : allAligned s.threshold d.sg = true)
    (hmap : (drawMap d.sg s).1 = none) :
    dmaSetup d dir s = (false, emit (.dmaMap d.sg dir none) (drawMap d.sg s).2) := by
  simp [dmaSetup, h, hmap]

theorem dmaSetup_mapMisaligned {d : DataPhase} {s : State} {msg : List Seg} (dir : Dir)
    (h : allAligned s.threshold d.sg = true) (hmap : (drawMap d.sg s).1 = some msg)
    (hmsg : allAligned s.threshold msg = false) :
    dmaSetup d dir s =
      (false, emit (.dmaUnmap d.sg dir) (emit (.dmaMap d.sg dir (some msg)) (drawMap d.sg s).2)) := by
  simp [dmaSetup, h, hmap, hmsg]

theorem dmaSetup_programs {d : DataPhase} {s : State} {msg : List Seg} (dir : Dir)
    (h : allAligned s.threshold d.sg = true) (hmap : (drawMap d.sg s).1 = some msg)
    (hmsg : allAligned s.threshold msg = true) :
    dmaSetup d dir s = (true, dmaProgram dir msg (emit (.dmaMap d.sg dir (some msg)) (drawMap d.sg s).2)) := by
  simp [dmaSetup, h, hmap, hmsg]

/-- Settles O34: each answer of DMA_SETUP; the chain is `descChain`, by `descChain_getElem?`. -/
theorem dmaSetupProgramsChain : Obligations.DmaSetupProgramsChain := by
  intro s q d dir hf hq hd hdir answer env
  set s₁ : State := { s with ret := .done } with hs₁
  rw [exec_dmaSetup_running hf hq hd hdir, ← hs₁]
  refine ⟨fun hsg => ?misaligned, fun hsg => ⟨fun hfail => ?mapFails, fun msg hmap =>
    ⟨fun hmsg => ?mapMisaligned, fun hmsg => ?programs⟩⟩⟩
  case misaligned =>
    rw [dmaSetup_misaligned (s := s₁) dir (allAligned_eq_false_iff.mpr hsg)]
    rfl
  case mapFails =>
    rw [dmaSetup_mapFails (s := s₁) dir (allAligned_iff.mpr hsg) hfail]
    rfl
  case mapMisaligned =>
    rw [dmaSetup_mapMisaligned (s := s₁) dir (allAligned_iff.mpr hsg) hmap (allAligned_eq_false_iff.mpr hmsg)]
    simp only [emit, List.append_assoc]
    rfl
  case programs =>
    refine ⟨descChain (s.dma.tmpl dir) dir 0 msg, length_descChain _ _ _ _, fun k m hk => ?_, ?_⟩
    · rw [descChain_getElem? _ _ hk, Nat.zero_add]
      cases dir <;> rfl
    · rw [dmaSetup_programs (s := s₁) dir (allAligned_iff.mpr hsg) hmap (allAligned_iff.mpr hmsg),
        dmaProgram_eq]
      rfl

end Sys2Proof.Machine
end

section
/-! PROOF. Messages and table words (R101 to R107, R112, R115; O1, O2), and the words of named fields under any
layout: CMD and IM as CMD_START leaves them (R110, R111; O3, O4), CLK while the divider changes (R243; O24). -/

namespace Sys2Proof

/-! ### Messages and table words -/

/-- Settles O1: `reads_encode`, instruction by instruction. -/
theorem decodeEncodeRoundTrip : Obligations.DecodeEncodeRoundTrip := fun _ rest h => reads_encode h rest

/-- A selector message runs the reader of its first byte. -/
theorem decode_selector_cons (b : Byte) (rest : List Byte) :
    decode .selector (b :: rest) = getOperation b.toNat rest := by
  simp [decode, Reader.bind, getLE, Reader.pure]

/-- The codes R112 leaves unassigned name no operation. -/
theorem getOperation_unassigned {n : Nat} (h : (0x08 ≤ n ∧ n ≤ 0x0F) ∨ (0x1E ≤ n ∧ n ≤ 0x1F)) :
    getOperation n = Reader.fail (.unassignedSelector n) := by
  obtain ⟨hlow, hhigh⟩ | ⟨hlow, hhigh⟩ := h <;> interval_cases n <;> rfl

/-- Settles O2: the table words by evaluation, the unassigned codes by `getOperation_unassigned`. -/
theorem tableWordsDecode : Obligations.TableWordsDecode := by
  refine ⟨by decide, by decide, by decide, by decide, by decide, by decide, by decide, by decide, by decide,
    fun b rest h => ?_⟩
  rw [decode_selector_cons, getOperation_unassigned h]
  rfl

/-! ### The premise on a layout -/

/-- What `Layout.ok` says of one register: its fields lie inside the word and apart from one another, and no
bit outside them is active low. -/
theorem Layout.ok_register {l : Layout} (h : l.ok = true) {low : Word} {ps : List Nat}
    (hr : (low, ps) ∈ l.registers) :
    (∀ p ∈ ps, p < 32) ∧ ps.Nodup ∧ ∀ p, p ∉ ps → low.getLsbD p = false := by
  have hreg := List.all_eq_true.mp h _ hr
  simp only [Bool.and_eq_true, List.all_eq_true, decide_eq_true_eq, List.mem_range, Bool.or_eq_true,
    Bool.not_eq_true', List.contains_iff_mem] at hreg
  obtain ⟨⟨hlt, hnodup⟩, hlow⟩ := hreg
  refine ⟨hlt, hnodup, fun p hp => ?_⟩
  by_cases h32 : p < 32
  · exact (hlow p h32).resolve_right hp
  · exact BitVec.getLsbD_of_ge _ _ (Nat.not_lt.mp h32)

/-- The named fields of CMD. -/
theorem Layout.ok_cmd {l : Layout} (hl : l.ok = true) : (∀ p ∈ l.cmdBits, p < 32) ∧ l.cmdBits.Nodup ∧
    ∀ p, p ∉ l.cmdBits → l.low.cmd.getLsbD p = false := Layout.ok_register hl (by simp [Layout.registers])

/-- The named fields of CLK. -/
theorem Layout.ok_clk {l : Layout} (hl : l.ok = true) :
    (∀ p ∈ [l.div, l.div + 1, l.div + 2, l.div + 3, l.clken], p < 32) ∧
    [l.div, l.div + 1, l.div + 2, l.div + 3, l.clken].Nodup := by
  obtain ⟨hlt, hnodup, _⟩ := Layout.ok_register hl (low := l.low.clk) (.tail _ (.head _))
  exact ⟨hlt, hnodup⟩

end Sys2Proof

namespace Sys2Proof.Machine

/-! ### A word as its placed fields -/

/-- The bit at position `i` of a word made of these (position, value) pairs. -/
def placed (fs : List (Nat × Bool)) (i : Nat) : Bool := fs.any fun f => f.2 && decide (i = f.1)

theorem placed_append (fs gs : List (Nat × Bool)) (i : Nat) :
    placed (fs ++ gs) i = (placed fs i || placed gs i) := List.any_append

theorem placed_cons (p : Nat) (b : Bool) (fs : List (Nat × Bool)) (i : Nat) :
    placed ((p, b) :: fs) i = ((b && decide (i = p)) || placed fs i) := rfl

theorem placed_nil (i : Nat) : placed [] i = false := rfl

/-- A position no field takes is 0. -/
theorem placed_of_notMem {fs : List (Nat × Bool)} {i : Nat} (h : i ∉ fs.map Prod.fst) :
    placed fs i = false := by
  refine List.any_eq_false.mpr fun f hf => ?_
  have hne : i ≠ f.1 := fun heq => h (heq ▸ List.mem_map_of_mem hf)
  simp [hne]

/-- Where no two fields share a position, each position shows its own field. -/
theorem placed_of_mem {fs : List (Nat × Bool)} {p : Nat} {b : Bool} (hn : (fs.map Prod.fst).Nodup)
    (h : (p, b) ∈ fs) : placed fs p = b := by
  induction fs with
  | nil => cases h
  | cons f fs ih =>
    obtain ⟨hnot, hn⟩ := List.nodup_cons.mp hn
    rw [placed_cons]
    rcases List.mem_cons.mp h with rfl | h
    · simp [placed_of_notMem hnot]
    · have hne : p ≠ f.1 := fun heq => hnot (heq ▸ List.mem_map_of_mem h)
      simp [hne, ih hn h]

theorem testBit_of_ge {v n j : Nat} (hv : v < 2 ^ n) (hj : n ≤ j) : v.testBit j = false :=
  Nat.testBit_lt_two_pow (hv.trans_le (Nat.pow_le_pow_right (by decide) hj))

/-- A field of `n` bits from position `lo` on. -/
def fieldBits (v lo n : Nat) : List (Nat × Bool) := (List.range n).map fun j => (lo + j, v.testBit j)

theorem placed_fieldBits {v n : Nat} (hv : v < 2 ^ n) (lo i : Nat) :
    placed (fieldBits v lo n) i = (decide (lo ≤ i) && v.testBit (i - lo)) := by
  rw [Bool.eq_iff_iff]
  simp only [placed, fieldBits, List.any_map, List.any_eq_true, List.mem_range, Function.comp_apply,
    Bool.and_eq_true, decide_eq_true_eq]
  constructor
  · rintro ⟨j, _, hj, rfl⟩
    exact ⟨by omega, by rwa [Nat.add_sub_cancel_left]⟩
  · rintro ⟨hle, hbit⟩
    refine ⟨i - lo, ?_, hbit, by omega⟩
    by_contra hge
    rw [testBit_of_ge hv (Nat.not_lt.mp hge)] at hbit
    cases hbit

/-- Bit `j` of the `n`-bit field at `lo` of a word. -/
theorem testBit_field (w : Word) (lo n j : Nat) :
    ((w >>> lo).toNat % 2 ^ n).testBit j = (decide (j < n) && w.getLsbD (lo + j)) := by
  rw [Nat.testBit_mod_two_pow, BitVec.testBit_toNat, BitVec.getLsbD_ushiftRight]

/-- A field is the number its bits spell. -/
theorem field_eq_of_bits {w : Word} {lo n v : Nat} (hv : v < 2 ^ n)
    (h : ∀ j < n, w.getLsbD (lo + j) = v.testBit j) : (w >>> lo).toNat % 2 ^ n = v := by
  refine Nat.eq_of_testBit_eq fun j => ?_
  rw [testBit_field]
  by_cases hj : j < n
  · simp [hj, h j hj]
  · simp [hj, testBit_of_ge hv (Nat.not_lt.mp hj)]

/-! ### The command word (R104, R110) -/

/-- The fields of a command word at their places, in the order of `Layout.cmdBits`. -/
def cmdFieldBits (l : Layout) (f : CmdFields) : List (Nat × Bool) :=
  fieldBits f.indx.toNat l.indx 6 ++ [(l.pplen, f.pplen), (l.bsyexp, f.bsyexp)]
    ++ fieldBits (respCode f.rspfmt) l.rspfmt 2
    ++ [(l.dtrw, f.dtrw), (l.strmtp, f.strmtp), (l.wdatx, f.wdatx), (l.initck, false), (l.dmatrig, f.dmatrig)]

theorem cmdFieldBits_positions (l : Layout) (f : CmdFields) : (cmdFieldBits l f).map Prod.fst = l.cmdBits := rfl

theorem respCode_lt (r : Resp) : respCode r < 2 ^ 2 := by cases r <;> decide

section
variable {l : Layout} (hl : l.ok = true) (f : CmdFields)
include hl

/-- A command word is its fields, each at its place. -/
theorem getLsbD_active_cmdWord {i : Nat} (hi : i < 32) :
    (active l.low.cmd (cmdWord l f)).getLsbD i = placed (cmdFieldBits l f) i := by
  have hlt := (Layout.ok_cmd hl).1
  simp only [Layout.cmdBits, List.forall_mem_cons] at hlt
  obtain ⟨_, _, _, _, _, _, hpplen, hbsyexp, _, _, hdtrw, hstrmtp, hwdatx, _, hdmatrig, _⟩ := hlt
  simp only [cmdWord, active_active, BitVec.getLsbD_or, getLsbD_fieldAt _ _ hi, getLsbD_flag _ hpplen,
    getLsbD_flag _ hbsyexp, getLsbD_flag _ hdtrw, getLsbD_flag _ hstrmtp, getLsbD_flag _ hwdatx,
    getLsbD_flag _ hdmatrig, cmdFieldBits, placed_append, placed_cons, placed_nil,
    placed_fieldBits f.indx.isLt, placed_fieldBits (respCode_lt f.rspfmt), Bool.false_and, Bool.false_or,
    Bool.or_false, Bool.or_assoc]

/-- Each bit of a field shows at its place. -/
theorem getLsbD_cmdWord_of_mem {p : Nat} {b : Bool} (hp : (p, b) ∈ cmdFieldBits l f) :
    (active l.low.cmd (cmdWord l f)).getLsbD p = b := by
  obtain ⟨hlt, hnodup, _⟩ := Layout.ok_cmd hl
  rw [getLsbD_active_cmdWord hl f (hlt p (cmdFieldBits_positions l f ▸ List.mem_map_of_mem hp))]
  exact placed_of_mem hnodup hp

/-- A field of several bits is read back as its number. -/
theorem cmdWord_field {v lo n : Nat} (hv : v < 2 ^ n) (hsub : ∀ x ∈ fieldBits v lo n, x ∈ cmdFieldBits l f) :
    (active l.low.cmd (cmdWord l f) >>> lo).toNat % 2 ^ n = v :=
  field_eq_of_bits hv fun _ hj =>
    getLsbD_cmdWord_of_mem hl f (hsub _ (List.mem_map_of_mem (List.mem_range.mpr hj)))

/-- The fields of a command word, by name (R104). -/
theorem cmdWord_fields {w : Word} (hw : w = active l.low.cmd (cmdWord l f)) :
    (w >>> l.indx).toNat % 64 = f.indx.toNat ∧ (w >>> l.rspfmt).toNat % 4 = respCode f.rspfmt ∧
    w.getLsbD l.bsyexp = f.bsyexp ∧ w.getLsbD l.wdatx = f.wdatx ∧ w.getLsbD l.strmtp = f.strmtp ∧
    w.getLsbD l.dtrw = f.dtrw ∧ w.getLsbD l.dmatrig = f.dmatrig ∧ w.getLsbD l.pplen = f.pplen ∧
    w.getLsbD l.initck = false := by
  subst hw
  refine ⟨cmdWord_field hl f f.indx.isLt fun x hx => ?_, cmdWord_field hl f (respCode_lt f.rspfmt) fun x hx => ?_,
    ?_, ?_, ?_, ?_, ?_, ?_, ?_⟩
  case refine_1 | refine_2 => simp [cmdFieldBits, hx]
  all_goals exact getLsbD_cmdWord_of_mem hl f (by simp [cmdFieldBits])

/-- Every bit with no field is 0 in the register's word. -/
theorem getLsbD_cmdWord_of_notMem {p : Nat} (hp : p ∉ l.cmdBits) : (cmdWord l f).getLsbD p = false := by
  by_cases h32 : p < 32
  · have hbit := getLsbD_active_cmdWord hl f h32
    rwa [placed_of_notMem hp, active_getLsbD, (Layout.ok_cmd hl).2.2 p hp, Bool.xor_false] at hbit
  · exact BitVec.getLsbD_of_ge _ _ (Nat.not_lt.mp h32)

end

/-! ### What CMD_START leaves in CMD and IM (R110, R111) -/

theorem exec_cmdStart_running {s : State} (hf : s.fault = none) (slot : Slot) :
    exec (.cmdStart (some slot)) s = cmdStart slot { s with ret := .done } := by
  have hrow : exec (.cmdStart (some slot)) s = operation s (cmdStart slot) := rfl
  rw [hrow, operation_running hf]

/-- CMD_START that raised no fault leaves the words it computed at entry, pre-load or not. -/
theorem exec_cmdStart_words {slot : Slot} {s t : State} (hf : s.fault = none)
    (h : exec (.cmdStart (some slot)) s = .next t) (ht : t.fault = none) :
    ∃ q c, s.q = some q ∧ q.command slot = some c ∧ t.regs.cmd = commandWord q c s ∧
      t.regs.im = armedMask s := by
  rw [exec_cmdStart_running hf] at h
  obtain ⟨q, c, hq, hc, ⟨_, rfl⟩ | ⟨_, x, hx, ⟨hbad, rfl⟩ | ⟨_, rfl⟩⟩⟩ := cmdStart_eq_next (by exact hf) h
  · exact ⟨q, c, hq, hc, rfl, rfl⟩
  · exact absurd ht hbad
  · exact ⟨q, c, hq, hc, rfl, rfl⟩

theorem InFlight.command_eq_some {q : InFlight} {slot : Slot} {c : Command}
    (h : slot = .main ∧ c = q.req.cmd ∨ slot = .stop ∧ q.req.stop = some c) : q.command slot = some c := by
  rcases h with ⟨rfl, rfl⟩ | ⟨rfl, hc⟩
  · rfl
  · exact hc

/-- The direction of the data phase in flight, where it is this one. -/
theorem activeDir_beq (s : State) (dir : Dir) :
    (s.activeDir == some dir) = (s.h.data && s.h.dataDir == some dir) := by
  cases hd : s.h.data <;> simp [State.activeDir, hd]

/-- Settles O3: CMD holds `commandFields`, each field at its own place since no two places are one. -/
theorem commandWordAssembly : Obligations.CommandWordAssembly := by
  intro s t slot q c hl hf hq hslot hindex h ht l w
  obtain ⟨q', c', hq', hc', hcmd, _⟩ := exec_cmdStart_words hf h ht
  obtain rfl : q = q' := Option.some.inj (hq.symm.trans hq')
  obtain rfl : c = c' := Option.some.inj ((InFlight.command_eq_some hslot).symm.trans hc')
  have hw : w = active l.low.cmd (commandWord q c s) := congrArg (active l.low.cmd) hcmd
  obtain ⟨hindx, hrspfmt, hbsyexp, hwdatx, hstrmtp, hdtrw, hdmatrig, hpplen, hinitck⟩ :=
    cmdWord_fields hl (commandFields q c s) hw
  have hindex' : (commandFields q c s).indx.toNat = c.index := Nat.mod_eq_of_lt (Nat.lt_succ_of_le hindex)
  have hdtrw' : w.getLsbD l.dtrw = (s.h.data && s.h.dataDir == some .write) :=
    hdtrw.trans (activeDir_beq s .write)
  refine ⟨hindx.trans hindex', hrspfmt, hbsyexp, hwdatx, hstrmtp, hdtrw', hdmatrig, hpplen, hinitck,
    fun p hp => hcmd ▸ getLsbD_cmdWord_of_notMem hl _ hp, fun hdata hdma => ⟨?_, ?_, ?_, ?_⟩⟩
  · rw [hwdatx]
    exact hdata
  · rw [hstrmtp]
    simp [commandFields, hdata]
  · simp [hdtrw', hdata]
  · rw [hdmatrig]
    exact hdma

/-- The direction of the data phase in flight, as the rule asks for it. -/
theorem activeDir_eq_some_iff {s : State} {dir : Dir} :
    s.activeDir = some dir ↔ s.h.data = true ∧ s.h.dataDir = some dir := by
  simp [State.activeDir]

/-- The union of R111 for the direction of the data phase in flight. -/
theorem maskWord_armedBits (l : Layout) (dir : Option Dir) (pio : Bool) :
    maskWord l (armedBits dir pio) = active l.low.im ((bit l.rspdne ||| bit l.crcrs ||| bit l.toutrs)
      ||| (if dir = some .write then bit l.datdne ||| bit l.crcwr ||| flag pio l.dxrdy else 0)
      ||| (if dir = some .read then bit l.datdne ||| bit l.crcrd ||| bit l.toutrd ||| flag pio l.drrdy else 0)) := by
  rcases dir with _ | _ | _
  all_goals
    simp [maskWord, armedBits, flag]
    ac_rfl

/-- The five words of R111 under the default layout. -/
theorem maskWord_armedBits_default (dir : Option Dir) (dma : Bool) :
    maskWord Layout.default (armedBits dir !dma) =
      if dir = some .write then (if dma then 0x0B5 else 0x2B5)
      else if dir = some .read then (if dma then 0x0DD else 0x4DD) else 0x094 := by
  rcases dir with _ | _ | _ <;> cases dma <;> rfl

/-- Settles O4: the bits of `armedBits`, by the direction of the data phase in flight. -/
theorem armedMaskUnion : Obligations.ArmedMaskUnion := by
  intro s t slot hf h ht l
  obtain ⟨_, _, _, _, _, him⟩ := exec_cmdStart_words hf h ht
  have hflag (p : Nat) : flag (!s.h.doDma) p = if s.h.doDma then 0 else bit p := by
    cases s.h.doDma <;> rfl
  simp only [him, armedMask, ← activeDir_eq_some_iff, ← hflag]
  refine ⟨maskWord_armedBits l s.activeDir _, fun hdefault => ?_⟩
  rw [show s.cfg.layout = Layout.default from hdefault]
  exact maskWord_armedBits_default s.activeDir s.h.doDma

/-! ### CLK (R102, R243) -/

theorem getLsbD_bit {p : Nat} (hp : p < 32) (i : Nat) : (bit p).getLsbD i = decide (i = p) :=
  (getLsbD_flag true hp i).trans (Bool.true_and _)

/-- A bit the update of the fields keeps is kept in the register's word. -/
theorem updateActive_getLsbD_of_eq {low w : Word} {f : Word → Word} {p : Nat}
    (h : (f (active low w)).getLsbD p = (active low w).getLsbD p) :
    (updateActive low f w).getLsbD p = w.getLsbD p := by
  rw [updateActive, active_getLsbD, h, active_getLsbD, Bool.xor_assoc, Bool.xor_self, Bool.xor_false]

/-- The fields of a `CLK` word with the divider replaced: the bits of `d` at its place, the others kept. -/
theorem getLsbD_withDiv_fields {l : Layout} {d : Nat} (hd : d ≤ DIV_MAX) (w : Word) {i : Nat} (hi : i < 32) :
    (active l.low.clk (withDiv l w d)).getLsbD i =
      if l.div ≤ i ∧ i < l.div + 4 then d.testBit (i - l.div) else (active l.low.clk w).getLsbD i := by
  have hmask : (divMask l).getLsbD i = decide (l.div ≤ i ∧ i < l.div + 4) := by
    rw [divMask, getLsbD_fieldAt _ _ hi, DIV_WIDTH, Nat.testBit_two_pow_sub_one, Bool.decide_and]
    by_cases h : l.div ≤ i
    · simp [h, Nat.sub_lt_iff_lt_add' h]
    · simp [h]
  rw [withDiv, active_updateActive, BitVec.getLsbD_or, BitVec.getLsbD_and, BitVec.getLsbD_not, hmask,
    getLsbD_fieldAt _ _ hi]
  by_cases hlow : l.div ≤ i
  · by_cases hhigh : i < l.div + 4
    · simp [hlow, hhigh]
    · have hzero : d.testBit (i - l.div) = false :=
        testBit_of_ge (n := DIV_WIDTH) (Nat.lt_succ_of_le hd) (by rw [DIV_WIDTH]; omega)
      simp [hi, hlow, hhigh, hzero]
  · simp [hi, hlow]

/-- A bit outside the divider is kept. -/
theorem getLsbD_withDiv_of_outside {l : Layout} {d : Nat} (hd : d ≤ DIV_MAX) (w : Word) {i : Nat} (hi : i < 32)
    (hout : ¬ (l.div ≤ i ∧ i < l.div + 4)) : (withDiv l w d).getLsbD i = w.getLsbD i := by
  have hfields := getLsbD_withDiv_fields (l := l) hd w hi
  rw [if_neg hout, withDiv, active_updateActive] at hfields
  exact updateActive_getLsbD_of_eq hfields

/-- Two words that agree on the bits of the divider have one divider. -/
theorem divOf_congr {l : Layout} {v w : Word}
    (h : ∀ j < 4, (active l.low.clk v).getLsbD (l.div + j) = (active l.low.clk w).getLsbD (l.div + j)) :
    divOf l v = divOf l w :=
  field_eq_of_bits (n := DIV_WIDTH) (Nat.mod_lt _ (by decide)) fun j hj => by
    rw [h j hj, divOf, testBit_field, decide_eq_true hj, Bool.true_and]

section
variable {l : Layout} (hl : l.ok = true) (w : Word)
include hl

theorem clken_lt : l.clken < 32 := (Layout.ok_clk hl).1 _ (by simp)

theorem div_lt {j : Nat} (hj : j < 4) : l.div + j < 32 := by
  have hlast : l.div + 3 < 32 := (Layout.ok_clk hl).1 _ (by simp)
  omega

/-- The clock bit is no bit of the divider. -/
theorem clken_outside_div : ¬ (l.div ≤ l.clken ∧ l.clken < l.div + 4) := by
  have hnodup := (Layout.ok_clk hl).2
  simp only [List.nodup_cons, List.mem_cons, not_or] at hnodup
  omega

/-- The fields of a gated `CLK` word: `CLKEN` is 0, the others are kept. -/
theorem getLsbD_gateClock_fields {i : Nat} (hi : i < 32) :
    (active l.low.clk (gateClock l w)).getLsbD i =
      ((active l.low.clk w).getLsbD i && !decide (i = l.clken)) := by
  rw [gateClock, active_updateActive, BitVec.getLsbD_and, BitVec.getLsbD_not, getLsbD_bit (clken_lt hl),
    decide_eq_true hi, Bool.true_and]

/-- The fields of an ungated `CLK` word: `CLKEN` is 1, the others are kept. -/
theorem getLsbD_ungateClock_fields (i : Nat) :
    (active l.low.clk (ungateClock l w)).getLsbD i =
      ((active l.low.clk w).getLsbD i || decide (i = l.clken)) := by
  rw [ungateClock, active_updateActive, BitVec.getLsbD_or, getLsbD_bit (clken_lt hl)]

theorem clkenOf_gateClock : clkenOf l (gateClock l w) = false := by
  rw [clkenOf, getLsbD_gateClock_fields hl w (clken_lt hl)]
  simp

theorem clkenOf_ungateClock : clkenOf l (ungateClock l w) = true := by
  rw [clkenOf, getLsbD_ungateClock_fields hl]
  simp

theorem clkenOf_withDiv {d : Nat} (hd : d ≤ DIV_MAX) : clkenOf l (withDiv l w d) = clkenOf l w := by
  rw [clkenOf, getLsbD_withDiv_fields hd w (clken_lt hl), if_neg (clken_outside_div hl), clkenOf]

theorem divOf_gateClock : divOf l (gateClock l w) = divOf l w := by
  refine divOf_congr fun j hj => ?_
  have hne : l.div + j ≠ l.clken := fun h => clken_outside_div hl (by omega)
  simp [getLsbD_gateClock_fields hl w (div_lt hl hj), hne, -active_getLsbD]

theorem divOf_ungateClock : divOf l (ungateClock l w) = divOf l w := by
  refine divOf_congr fun j hj => ?_
  have hne : l.div + j ≠ l.clken := fun h => clken_outside_div hl (by omega)
  simp [getLsbD_ungateClock_fields hl, hne, -active_getLsbD]

theorem divOf_withDiv {d : Nat} (hd : d ≤ DIV_MAX) : divOf l (withDiv l w d) = d :=
  field_eq_of_bits (n := DIV_WIDTH) (Nat.lt_succ_of_le hd) fun j hj => by
    rw [DIV_WIDTH] at hj
    rw [getLsbD_withDiv_fields hd w (div_lt hl hj), if_pos (by omega), Nat.add_sub_cancel_left]

theorem getLsbD_gateClock_of_ne {i : Nat} (hi : i < 32) (hne : i ≠ l.clken) :
    (gateClock l w).getLsbD i = w.getLsbD i := by
  have hfields := getLsbD_gateClock_fields hl w hi
  rw [decide_eq_false hne, Bool.not_false, Bool.and_true, gateClock, active_updateActive] at hfields
  exact updateActive_getLsbD_of_eq hfields

theorem getLsbD_ungateClock_of_ne {i : Nat} (hne : i ≠ l.clken) :
    (ungateClock l w).getLsbD i = w.getLsbD i := by
  have hfields := getLsbD_ungateClock_fields hl w i
  rw [decide_eq_false hne, Bool.or_false, ungateClock, active_updateActive] at hfields
  exact updateActive_getLsbD_of_eq hfields

end

/-- Settles O24: what each of the three words keeps of the one before it, and what it changes. -/
theorem clockGatedWhileDividerChanges : Obligations.ClockGatedWhileDividerChanges := by
  intro l w d hl hd c1 c2 c3
  have hgate : clkenOf l c1 = false := clkenOf_gateClock hl w
  have hdiv : divOf l c2 = d := divOf_withDiv hl c1 hd
  refine ⟨hgate, divOf_gateClock hl w, (clkenOf_withDiv hl c1 hd).trans hgate, hdiv,
    clkenOf_ungateClock hl c2, (divOf_ungateClock hl c2).trans hdiv, fun p hp hout => ?_⟩
  simp only [List.mem_cons, List.not_mem_nil, or_false, not_or] at hout
  obtain ⟨h0, h1, h2, h3, hclken⟩ := hout
  have hc1 : c1.getLsbD p = w.getLsbD p := getLsbD_gateClock_of_ne hl w hp hclken
  have hc2 : c2.getLsbD p = w.getLsbD p := (getLsbD_withDiv_of_outside hd c1 hp (by omega)).trans hc1
  exact ⟨hc1, hc2, (getLsbD_ungateClock_of_ne hl c2 hclken).trans hc2⟩

end Sys2Proof.Machine
end

section
/-! PROOF. FIFO_CFG (R142; O33) and a request with no data phase (R141, R170, R178; O30). -/

namespace Sys2Proof.Machine

/-! ### FIFO_CFG (R107, R142) -/

theorem exec_fifoCfg_running {s : State} (hf : s.fault = none) (dir : Dir) :
    exec (.fifoCfg (some dir)) s = .next (fifoCfg dir { s with ret := .done }) := by
  have hrow : exec (.fifoCfg (some dir)) s = operation s fun s => .next (fifoCfg dir s) := rfl
  rw [hrow, operation_running hf]

/-- The two writes of FIFO_CFG, field by field. -/
theorem fifoCfg_eq (dir : Dir) (s : State) : fifoCfg dir s = { s with
    regs := { s.regs with fifoctl := fifoctlFor s dir false }
    trace := s.trace ++ [.regW .fifoctl (fifoctlFor s dir true), .regW .fifoctl (fifoctlFor s dir false)] } := by
  rw [List.append_cons]
  rfl

/-- The FIFOCTL word of a direction: the reset bit over direction and level (R107). -/
theorem fifoctlFor_eq (s : State) (dir : Dir) (reset : Bool) :
    fifoctlFor s dir reset = (flag reset s.cfg.layout.rst ||| ((if dir = .write then bit s.cfg.layout.dir else 0)
      ||| (if s.cfg.threshold = .t32 then bit s.cfg.layout.lev else 0))) ^^^ s.cfg.layout.low.fifoctl := by
  rw [← BitVec.or_assoc]
  cases dir <;> cases ht : s.cfg.threshold <;> simp [fifoctlFor, fifoWord, active, flag, ht]

/-- Settles O33: the words of `fifoctlFor_eq` with the reset bit 1, then 0. -/
theorem fifoCfgSequence : Obligations.FifoCfgSequence := by
  intro s dir hf l low base
  have hasserted : fifoctlFor s dir true = (bit l.rst ||| base) ^^^ low := fifoctlFor_eq s dir true
  have hreleased : fifoctlFor s dir false = base ^^^ low := by
    rw [fifoctlFor_eq, flag, if_neg Bool.false_ne_true, BitVec.zero_or]
  rw [← hasserted, ← hreleased, exec_fifoCfg_running hf, fifoCfg_eq]
  exact ⟨.done, rfl⟩

/-! ### REQUEST with no data phase (R141, R170, R178) -/

/-- A busy check whose first read is clear is that read (R171). -/
theorem busyCheck_clear {s : State} (h : busyOf s.cfg.layout (drawnWord .st1 s) = false) :
    busyCheck s = (false, (regDraw .st1 s).2) := by
  have hread : busyOf s.cfg.layout (regDraw .st1 s).1 = false := h
  rw [busyCheck, Config.busyPollMax, busyPoll, hread]
  rfl

theorem prepare_noData {s : State} {q : InFlight} (hq : s.q = some q) (hd : q.req.data = none) :
    prepare s = .next (prepareNoData s) := by rw [prepare, withQ_some hq, hd]

/-- CMD_START where no pre-load is due: TOR, then the three writes and the phase (R178, R180). -/
theorem cmdStart_unloaded {slot : Slot} {s : State} {q : InFlight} {c : Command} (hf : s.fault = none)
    (hq : s.q = some q) (hc : q.command slot = some c) (hpre : preloads s = false) :
    cmdStart slot s = .next (issue slot c.arg (commandWord q c s) (armedMask s)
      (regWrite .tor (value16 CTO_MAX) { s with h := { s.h with cmd := some slot } })) := by
  have hpre' : preloads (regWrite .tor (value16 CTO_MAX) { s with h := { s.h with cmd := some slot } }) = false :=
    hpre
  rw [cmdStart, withQ_some hq, hc]
  simp only [hpre', Bool.false_eq_true, if_false]
  exact andThen_next (by exact hf) _

/-- The command word with no data phase in flight (R110). -/
theorem commandWord_noData {s : State} (q : InFlight) (c : Command) (hd : s.h.data = false)
    (hdma : s.h.doDma = false) : commandWord q c s = cmdWord s.cfg.layout {
      indx := BitVec.ofNat 6 c.index, pplen := s.h.busMode == .pushPull, bsyexp := c.busy, rspfmt := c.resp,
      dtrw := false, strmtp := false, wdatx := false, dmatrig := false } := by
  simp [commandWord, commandFields, State.activeDir, hd, hdma]

/-- The armed mask with no data phase in flight (R111). -/
theorem armedMask_noData {s : State} (hd : s.h.data = false) : armedMask s =
    (bit s.cfg.layout.rspdne ||| bit s.cfg.layout.toutrs ||| bit s.cfg.layout.crcrs) ^^^ s.cfg.layout.low.im := by
  simp [armedMask, maskWord, armedBits, State.activeDir, hd, flag, active]

/-- A request with no data phase from the busy check on: PREPARE clears the block registers, and CMD_START has
no pre-load (R141, R178). -/
theorem submit_noData {s : State} {req : BusRequest} (hf : s.fault = none) (hd : req.data = none) :
    let v := prepareNoData { s with q := some (accepted req), h := { s.h with doDma := false } }
    submit req s = .next (issue .main req.cmd.arg (commandWord (accepted req) req.cmd v) (armedMask v)
      (regWrite .tor (value16 CTO_MAX) { v with h := { v.h with cmd := some .main } })) := by
  intro v
  have hprepare : prepare { s with q := some (accepted req), h := { s.h with doDma := false } } = .next v :=
    prepare_noData (q := accepted req) rfl hd
  rw [submit, hprepare, andThen_next (by exact hf)]
  exact cmdStart_unloaded (q := accepted req) (by exact hf) rfl rfl rfl

/-- Settles O30: one clear busy read, then `submit_noData`. -/
theorem requestWithoutData : Obligations.RequestWithoutData := by
  intro s req hf ha hidle hvalid hd hbusy l w im
  set s₁ : State := { s with ret := .done } with hs₁
  have hcheck : busyCheck s₁ = (false, (regDraw .st1 s₁).2) := busyCheck_clear hbusy
  rw [exec_request_attached hf ha, if_pos hidle, if_pos hvalid, requestAdmitted, ← hs₁, hcheck]
  simp only [Bool.false_eq_true, if_false]
  rw [submit_noData (by exact hf) hd, commandWord_noData _ _ rfl rfl, armedMask_noData rfl]
  simp only [issue, regWrite, emit, prepareNoData, regDraw, Regs.set, List.append_assoc]
  rfl

end Sys2Proof.Machine
end

section
/-! PROOF. The clock divider solver (R130 to R135; O19 to O22). The result of DIVSOLVE and that of the search are
at most `d` on one and the same condition, `r ≤ 2 * (d + 1) * f ∨ DIV_MAX ≤ d`; the statements follow from it. -/

namespace Sys2Proof.Machine

section
variable {r f d : Nat}

/-! ### The comparison of R131 -/

theorem ceilHalfRatio_le_iff (hf : 0 < f) : ceilHalfRatio r f ≤ d ↔ r ≤ 2 * d * f := by
  rw [ceilHalfRatio, ← Nat.ceilDiv_eq_add_pred_div, ceilDiv_le_iff_le_mul (by omega), Nat.mul_right_comm]

theorem feff_le_iff : feff r d ≤ (f : ℚ) ↔ r ≤ 2 * (d + 1) * f := by
  rw [feff, div_le_iff₀ (by positivity), mul_comm]
  norm_cast

/-! ### DIVSOLVE (R130) -/

theorem divsolve_le_divMax (r f : Nat) : divsolve r f ≤ DIV_MAX := by
  unfold divsolve
  split
  · exact Nat.le_refl _
  · exact Nat.min_le_right _ _

/-- DIVSOLVE is the least divider whose frequency does not exceed the request, or the clamp. The premise shuts
out `r = f = 0`, where every divider meets the request and the answer is the clamp all the same. -/
theorem divsolve_le_iff (h : 0 < r ∨ 0 < f) : divsolve r f ≤ d ↔ r ≤ 2 * (d + 1) * f ∨ DIV_MAX ≤ d := by
  rcases Nat.eq_zero_or_pos f with rfl | hf
  · simp [divsolve, show r ≠ 0 by omega]
  · rw [divsolve, if_neg hf.ne', min_le_iff, Nat.sub_le_iff_le_add, ceilHalfRatio_le_iff hf]

theorem lt_of_lt_divsolve (h : 0 < r ∨ 0 < f) (hd : d < divsolve r f) : 2 * (d + 1) * f < r :=
  Nat.lt_of_not_le fun hle => hd.not_ge ((divsolve_le_iff h).mpr (.inl hle))

/-- The divider meets the request, or it is the clamp (R134). -/
theorem divsolve_meets_or_eq_divMax (h : 0 < r ∨ 0 < f) :
    r ≤ 2 * (divsolve r f + 1) * f ∨ divsolve r f = DIV_MAX :=
  ((divsolve_le_iff h).mp le_rfl).imp_right (divsolve_le_divMax r f).antisymm

theorem divsolve_meets_of_envelope (hf : 0 < f) (henv : r ≤ 2 * (DIV_MAX + 1) * f) :
    r ≤ 2 * (divsolve r f + 1) * f :=
  (divsolve_meets_or_eq_divMax (.inr hf)).elim id fun hmax => by rwa [hmax]

theorem divsolve_antitone (hr : 0 < r) {f1 f2 : Nat} (hle : f1 ≤ f2) : divsolve r f2 ≤ divsolve r f1 :=
  (divsolve_le_iff (.inl hr)).mpr <| ((divsolve_le_iff (.inl hr)).mp le_rfl).imp_left fun hmeets =>
    hmeets.trans (Nat.mul_le_mul_left _ hle)

theorem exec_divsolve_running {s : State} (hr : 0 < r) (hf : s.fault = none) :
    exec (.divsolve r f) s = .next { s with ret := .divider (divsolve r f) } := by
  have hrow : exec (.divsolve r f) s = operation s fun s =>
      if r = 0 then .refused .operandOutOfDomain else .next (returning (.divider (divsolve r f)) s) := rfl
  rw [hrow, operation_running hf, if_neg hr.ne', returning]

/-! ### The search (R132) -/

/-- The search from `n` down ends on the condition of `divsolve_le_iff`, with `n` for DIV_MAX. -/
theorem divisorDown_le_iff (n : Nat) : divisorDown r f n ≤ d ↔ r ≤ 2 * (d + 1) * f ∨ n ≤ d := by
  induction n with
  | zero => simp [divisorDown]
  | succ n ih =>
    rw [divisorDown]
    split
    next hlower =>
      -- divider `n` meets the request, and the search goes on from it
      have hn : n = d → r ≤ 2 * (d + 1) * f := fun hnd => hnd ▸ hlower
      rw [ih]
      omega
    next hstop =>
      -- divider `n` does not meet it, nor does any below
      have hmeets : r ≤ 2 * (d + 1) * f → n + 1 ≤ d := fun hle => by
        by_contra hlt
        exact hstop (hle.trans (Nat.mul_le_mul_right _ (by omega)))
      exact ⟨.inr, fun h => h.elim hmeets id⟩

theorem divisorDown_divMax (h : 0 < r ∨ 0 < f) : divisorDown r f DIV_MAX = divsolve r f :=
  eq_of_forall_ge_iff fun _ => (divisorDown_le_iff DIV_MAX).trans (divsolve_le_iff h).symm

end

/-! ### The statements -/

/-- Settles O22: divider 0 already meets the request. -/
theorem divsolveMaximumSpeed : Obligations.DivsolveMaximumSpeed := fun _ _ hr hle =>
  Nat.le_zero.mp ((divsolve_le_iff (.inl hr)).mpr (.inl (by omega)))

/-- Settles O19: the divider meets the request, or it is the clamp and no divider up to it does. -/
theorem divsolveLeastDivider : Obligations.DivsolveLeastDivider := by
  refine ⟨fun r f hr => ⟨divsolve_le_divMax r f, ?_⟩, fun _ _ _ => exec_divsolve_running, by decide⟩
  by_cases hmeets : r ≤ 2 * (divsolve r f + 1) * f
  · exact .inl ⟨hmeets, fun _ => lt_of_lt_divsolve (.inl hr)⟩
  · have hmax : divsolve r f = DIV_MAX := (divsolve_meets_or_eq_divMax (.inl hr)).resolve_left hmeets
    rw [hmax, not_le] at hmeets
    exact .inr ⟨hmax, fun d hd => Nat.lt_of_le_of_lt (by gcongr) hmeets⟩

/-- Settles O20: above half the reference clock the search is `divisorDown` from DIV_MAX; otherwise both are 0. -/
theorem divsolveSearchAgrees : Obligations.DivsolveSearchAgrees := by
  intro r f hr hf
  rw [divsearch]
  split
  next => exact divisorDown_divMax (.inl hr)
  next hhalf => exact (divsolveMaximumSpeed r f hr (by omega)).symm

/-- Settles O21: the comparison in integers is the one of the exact quotients, by `feff_le_iff`. -/
theorem divsolveEffectiveFrequency : Obligations.DivsolveEffectiveFrequency := by
  refine ⟨fun r f hf henv => feff_le_iff.mpr (divsolve_meets_of_envelope hf henv),
    fun _ _ _ hr => divsolve_antitone hr, fun r f hf hpos _ => ?optimal, divsolve_le_divMax⟩
  case optimal =>
    have hbelow : 2 * (divsolve r f - 1 + 1) * f < r := lt_of_lt_divsolve (.inr hf) (Nat.sub_one_lt hpos.ne')
    exact not_le.mp (mt feff_le_iff.mp (not_le.mpr hbelow))

end Sys2Proof.Machine
end

section
/-! PROOF. PREPARE and PIO_INIT (R141, R143, R147; O31, O32, O35): the two rows as their operations, the registers
a data phase is given before its strategy is chosen, and the choice itself. -/

namespace Sys2Proof.Machine

/-! ### PIO_INIT (R147) -/

/-- The row PIO_INIT with its records there. -/
theorem exec_pioInit_running {s : State} {q : InFlight} {d : DataPhase} (hf : s.fault = none)
    (hq : s.q = some q) (hd : q.req.data = some d) : exec .pioInit s = pioInit d { s with ret := .done } := by
  have hrow : exec .pioInit s = operation s fun s => withData s fun _ d => pioInit d s := rfl
  rw [hrow, operation_running hf, withData_some (by exact hq) hd]

/-- PIO_INIT over a list that is not empty. -/
theorem pioInit_cons {d : DataPhase} {g : Seg} {rest : List Seg} (hsg : d.sg = g :: rest) (s : State) :
    pioInit d s = .next { s with
      h := { s.h with sgIdx := 0, bufPtr := g.addr, segLeft := min g.len s.h.bytesLeft } } := by
  simp [pioInit, hsg]

/-- Settles O35: the row is `pioInit`, on a list with a first segment. -/
theorem pioInitCursor : Obligations.PioInitCursor := by
  refine ⟨by decide, fun s q d g rest hf hq hd hsg => ⟨.done, ?_⟩⟩
  rw [exec_pioInit_running hf hq hd, pioInit_cons hsg]

/-! ### PREPARE (R141) -/

theorem exec_prepare_running {s : State} (hf : s.fault = none) :
    exec .prepare s = prepare { s with ret := .done } := by
  have hrow : exec .prepare s = operation s prepare := rfl
  rw [hrow, operation_running hf]

theorem prepare_data {s : State} {q : InFlight} {d : DataPhase} (hq : s.q = some q) (hd : q.req.data = some d) :
    prepare s = prepareStrategy d (prepareRegisters d s) := by rw [prepare, withQ_some hq, hd]

/-- The register writes and the cursor of a data phase, field by field. -/
theorem prepareRegisters_eq (d : DataPhase) (s : State) : prepareRegisters d s = { s with
    regs := { s.regs with tod := value16 (min d.timeoutCycles DTO_MAX), nblk := value16 d.blockCount,
                          blen := value16 d.blockSize, fifoctl := fifoctlFor s d.dir false }
    h := { s.h with data := true, dataDir := some d.dir, bytesLeft := dataTotal d }
    trace := s.trace ++ [.regW .tod (value16 (min d.timeoutCycles DTO_MAX)), .regW .nblk (value16 d.blockCount),
      .regW .blen (value16 d.blockSize), .regW .fifoctl (fifoctlFor s d.dir true),
      .regW .fifoctl (fifoctlFor s d.dir false)] } := by
  simp only [prepareRegisters, fifoCfg_eq, regWrite, emit, Regs.set, List.append_assoc, List.cons_append,
    List.nil_append]
  rfl

theorem dmaEligible_iff {d : DataPhase} {s : State} : dmaEligible d s = true ↔
    s.cfg.useDma = true ∧ s.h.dmaOk = true ∧ dataTotal d % s.threshold = 0 := by
  simp [dmaEligible, and_assoc]

/-- DMA_SETUP succeeds exactly where (d), (e) and (f) of R143 hold. -/
theorem dmaSetup_succeeds_iff {d : DataPhase} {dir : Dir} {s : State} : (dmaSetup d dir s).1 = true ↔
    (∀ g ∈ d.sg, g.len % s.threshold = 0) ∧
    ∃ msg, (drawMap d.sg s).1 = some msg ∧ ∀ m ∈ msg, m.len % s.threshold = 0 := by
  simp only [← allAligned_iff]
  rcases dmaSetup_cases d dir s with ⟨_, h⟩ | ⟨_, _, h⟩ | ⟨_, msg, _, ⟨_, h⟩ | ⟨_, h⟩⟩ <;>
    simp [*]

/-! The three ways of the choice (R141, R143). -/

theorem prepareStrategy_ineligible {d : DataPhase} {s : State} (he : dmaEligible d s = false) :
    prepareStrategy d s = pioInit d s := by simp [prepareStrategy, he]

theorem prepareStrategy_refused {d : DataPhase} {s : State} (he : dmaEligible d s = true)
    (hs : (dmaSetup d d.dir s).1 = false) : prepareStrategy d s = pioInit d (dmaSetup d d.dir s).2 := by
  simp [prepareStrategy, he, hs]

theorem prepareStrategy_selected {d : DataPhase} {s : State} (he : dmaEligible d s = true)
    (hs : (dmaSetup d d.dir s).1 = true) :
    prepareStrategy d s = .next (selectDma (dmaSetup d d.dir s).2) := by
  simp [prepareStrategy, he, hs]

/-- Over a list that is not empty the choice is always made, and DMA is chosen exactly where DMA_SETUP is
called and succeeds. -/
theorem prepareStrategy_doDma_iff {d : DataPhase} {s : State} (hsg : d.sg ≠ []) (hdma : s.h.doDma = false) :
    ∃ t, prepareStrategy d s = .next t ∧
      (t.h.doDma = true ↔ dmaEligible d s = true ∧ (dmaSetup d d.dir s).1 = true) := by
  obtain ⟨g, rest, hcons⟩ := List.exists_cons_of_ne_nil hsg
  cases he : dmaEligible d s with
  | false => exact ⟨_, (prepareStrategy_ineligible he).trans (pioInit_cons hcons s), by simp [hdma]⟩
  | true =>
    cases hs : (dmaSetup d d.dir s).1 with
    | false =>
      refine ⟨_, (prepareStrategy_refused he hs).trans (pioInit_cons hcons _), ?_⟩
      rw [dmaSetup_frame]
      simp [hdma]
    | true => exact ⟨_, prepareStrategy_selected he hs, by simp⟩

/-- Settles O32: (a) to (c) are `dmaEligible`, (d) to (f) the success of DMA_SETUP. -/
theorem dmaSelectionPredicate : Obligations.DmaSelectionPredicate := by
  intro s q d hf hq hd hsg hdma
  obtain ⟨t, ht, hiff⟩ := prepareStrategy_doDma_iff (s := prepareRegisters d { s with ret := .done }) hsg hdma
  refine ⟨t, ?_, ?_⟩
  · rw [exec_prepare_running hf, prepare_data (by exact hq) hd, ht]
  · rw [hiff, dmaEligible_iff, dmaSetup_succeeds_iff, and_assoc, and_assoc]
    rfl

/-- The answer of DMA_SETUP put back: the state the choice goes on from (R141). -/
theorem dmaSetup_ret_done {d : DataPhase} {dir : Dir} {s : State} (h : s.ret = .done) (r : Ret) :
    { returning r (dmaSetup d dir s).2 with ret := .done } = (dmaSetup d dir s).2 := by
  rw [dmaSetup_frame, ← h]
  rfl

/-- Settles O31: no data phase; PIO with the collaborator not called; DMA_SETUP deciding. -/
theorem prepareRunsItsParts : Obligations.PrepareRunsItsParts := by
  intro s q hf hq
  refine ⟨fun hd => ?noData, ?data⟩
  case noData =>
    rw [exec_prepare_running hf, prepare_noData (by exact hq) hd]
    simp [prepareNoData, regWrite, emit, Regs.set]
  case data =>
    intro d g rest hd hsg total tod f1 f2 v dma
    have hprepare : exec .prepare s = prepareStrategy d v := by
      rw [exec_prepare_running hf, prepare_data (by exact hq) hd, prepareRegisters_eq]
      rfl
    have hdma : dma ↔ dmaEligible d v = true := dmaEligible_iff.symm
    refine ⟨fun hpio => ?_, fun he u hu => ?_⟩
    · have hchoice : prepareStrategy d v = pioInit d v := by
        cases he : dmaEligible d v with
        | false => exact prepareStrategy_ineligible he
        | true =>
          have hlength := hpio.resolve_left (not_not.mpr (hdma.mpr he))
          have hmisaligned := dmaSetup_misaligned (s := v) d.dir (allAligned_eq_false_iff.mpr hlength)
          rw [prepareStrategy_refused he (by rw [hmisaligned]), hmisaligned]
      rw [hprepare, hchoice, pioInit_cons hsg]
    · have hrow : exec .dmaSetup v = .next (returning (.setup (dmaSetup d d.dir v).1) (dmaSetup d d.dir v).2) :=
        exec_dmaSetup_running hf hq hd rfl
      have hframe := dmaSetup_frame d d.dir v
      obtain rfl := Host.Outcome.next.inj (hrow.symm.trans hu)
      refine ⟨fun hret => ?_, fun hret => ?_⟩
      · rw [hprepare, prepareStrategy_selected (hdma.mp he) (Ret.setup.inj hret)]
        exact congrArg (Host.Outcome.next <| selectDma ·) (dmaSetup_ret_done (s := v) rfl _).symm
      · have hfault : (dmaSetup d d.dir v).2.fault = none := by rw [hframe]; exact hf
        have hrequest : (dmaSetup d d.dir v).2.q = some q := by rw [hframe]; exact hq
        rw [hprepare, prepareStrategy_refused (hdma.mp he) (Ret.setup.inj hret),
          exec_pioInit_running (by exact hfault) (by exact hrequest) hd, dmaSetup_ret_done rfl]

end Sys2Proof.Machine
end

section
/-! PROOF. FIFOCTL at every FIFO access (R36, R141, R142, R160; O16). The walker takes its direction from
`H.data_dir`, so that the statement rests on one fact of a state: FIFOCTL is released and set to that direction
(`Aimed`). Every outside operation keeps it, and steers each access by it (`Steered`). -/

namespace Sys2Proof.Machine

/-! ### The relation -/

/-- The direction of a FIFO access (R31). -/
def fifoAccess : Event → Option Dir
  | .fifoR _ _ => some .read
  | .fifoW _ _ => some .write
  | _ => none

/-- The FIFO accesses of a state's trace. -/
def fifoLog (s : State) : List Event := s.trace.filter fun e => (fifoAccess e).isSome

/-- FIFOCTL has the direction in `H`, if there is one, and the reset released (R36). -/
def Aimed (s : State) : Prop := ∀ dir, s.h.dataDir = some dir → s.regs.fifoctl = fifoctlFor s dir false

/-- `Aimed` reads nothing but the direction, FIFOCTL and the configuration. -/
theorem Aimed.congr {s t : State}
    (h : (t.h.dataDir, t.regs.fifoctl, t.cfg) = (s.h.dataDir, s.regs.fifoctl, s.cfg)) (hs : Aimed s) : Aimed t := by
  simp only [Prod.mk.injEq] at h
  obtain ⟨hdir, hfifo, hcfg⟩ := h
  simpa only [Aimed, fifoctlFor, hdir, hfifo, hcfg] using hs

theorem Aimed.of_noDir {s : State} (h : s.h.dataDir = none) : Aimed s := by simp [Aimed, h]

theorem EngineConsistent.aimed {s : State} (hs : EngineConsistent s) : Aimed s := by
  cases hd : s.h.data with
  | false => exact .of_noDir (hs.noData hd).1
  | true => exact hs.fifo hd

/-- Each FIFO access of these events finds its direction in FIFOCTL, the reset released, where the registers
begin as in `s` (R26). -/
def Directed (s : State) (es : List Event) : Prop :=
  ∀ pre e post dir, es = pre ++ e :: post → fifoAccess e = some dir →
    (replayRegs s.regs pre).fifoctl = fifoctlFor s dir false

theorem Directed.of_noAccess {s : State} {es : List Event} (h : ∀ e ∈ es, fifoAccess e = none) :
    Directed s es := by
  rintro pre e post dir rfl hdir
  exact nomatch (h e (by simp)).symm.trans hdir

theorem Directed.append {s u : State} {es fs : List Event} (h : Directed s es) (h' : Directed u fs)
    (hregs : u.regs = replayRegs s.regs es) (hcfg : u.cfg = s.cfg) : Directed s (es ++ fs) := by
  intro pre e post dir heq hdir
  have hword : fifoctlFor u dir false = fifoctlFor s dir false := by simp only [fifoctlFor, hcfg]
  rcases List.append_eq_append_iff.mp heq with ⟨mid, rfl, hfs⟩ | ⟨mid, rfl, hmid⟩
  · rw [replayRegs_append, ← hregs, ← hword]
    exact h' mid e post dir hfs hdir
  · cases mid with
    | nil =>
      rw [← hword, ← List.append_nil pre, ← hregs]
      exact h' [] e post dir hmid.symm hdir
    | cons e' mid =>
      obtain ⟨rfl, _⟩ := List.cons.inj hmid
      exact h pre e mid dir rfl hdir

/-- `t` comes after `s`, and from an aimed FIFO every access between them is directed and the FIFO aimed
after. -/
structure Steered (s t : State) : Prop where
  follows : Follows s t
  aimed : Aimed s → Aimed t
  directed : Aimed s → Directed s (newEvents s t)

theorem Steered.trans {s u t : State} (h : Steered s u) (h' : Steered u t) : Steered s t where
  follows := h.follows.trans h'.follows
  aimed hs := h'.aimed (h.aimed hs)
  directed hs := by
    obtain ⟨es, htrace, hregs, _⟩ := h.follows.log
    obtain ⟨fs, htrace', _⟩ := h'.follows.log
    have hdirected := h.directed hs
    have hdirected' := h'.directed (h.aimed hs)
    rw [newEvents_eq htrace] at hdirected
    rw [newEvents_eq htrace'] at hdirected'
    rw [newEvents_eq (htrace'.trans (by rw [htrace, List.append_assoc]))]
    exact hdirected.append hdirected' hregs h.follows.cfg

/-- An operation that makes no FIFO access. -/
theorem Steered.still {s t : State} (h : Follows s t) (hlog : fifoLog t = fifoLog s)
    (haimed : Aimed s → Aimed t) : Steered s t where
  follows := h
  aimed := haimed
  directed _ := by
    obtain ⟨es, htrace, _⟩ := h.log
    rw [newEvents_eq htrace]
    have hnone : es.filter (fun e => (fifoAccess e).isSome) = [] := by simpa [fifoLog, htrace] using hlog
    exact .of_noAccess fun e he => by simpa using List.filter_eq_nil_iff.mp hnone e he

/-- A change of fields the trace does not record, the direction not among them. -/
theorem Steered.silent {s t : State}
    (h : t = { s with h := { t.h with dataDir := s.h.dataDir }, q := t.q, dma := t.dma, irq := t.irq,
                      env := t.env, ret := t.ret }) : Steered s t := by
  rw [h]
  exact .still (.silent rfl) rfl (.congr rfl)

theorem Steered.refl (s : State) : Steered s s := .silent rfl

/-! ### The primitives (R12) -/

theorem steered_emit {e : Event} (hstores : storesNothing e = true) (he : fifoAccess e = none) (s : State) :
    Steered s (emit e s) :=
  .still (follows_emit hstores s) (by simp [fifoLog, he]) (.congr rfl)

/-- A FIFO access in the direction of the data phase. -/
theorem steered_access {e : Event} {s : State} (hstores : storesNothing e = true)
    (he : fifoAccess e = s.h.dataDir) : Steered s (emit e s) where
  follows := follows_emit hstores s
  aimed := .congr rfl
  directed hs := by
    rw [newEvents_eq (emit_trace e s)]
    intro pre e' post dir heq hdir
    obtain ⟨rfl, rfl, rfl⟩ : pre = [] ∧ e' = e ∧ post = [] := by
      simpa [List.singleton_eq_append_iff] using heq
    exact hs dir (he.symm.trans hdir)

theorem steered_regWrite {r : StoredReg} (hr : r ≠ .fifoctl) (v : Word) (s : State) :
    Steered s (regWrite r v s) := by
  have hfifo : (s.regs.set r v).fifoctl = s.regs.fifoctl := Regs.get_set_ne s.regs v hr.symm
  exact .still (follows_regWrite r v s) (by simp [fifoLog, fifoAccess]) (.congr (by simp [hfifo]))

theorem steered_regDraw (r : DrawnReg) (s : State) : Steered s (regDraw r s).2 :=
  .still (follows_regDraw r s) (by simp [fifoLog, fifoAccess]) (.congr rfl)

/-! ### Sequencing -/

/-- Whatever next state `f` answers is steered from the state it started from. -/
def Steering (f : State → Answer) : Prop := ∀ s t, f s = .next t → Steered s t

theorem Steering.next {g : State → State} (h : ∀ s, Steered s (g s)) : Steering fun s => .next (g s) := by
  intro s t ht
  cases ht
  exact h s

theorem Steering.self : Steering .next := .next .refl

theorem Steering.refuse (k : RefuseKind) : Steering (refuse k) := .next fun _ => .silent rfl

theorem Steering.andThen {f g : State → Answer} (hf : Steering f) (hg : Steering g) :
    Steering fun s => andThen (f s) g := by
  intro s t h
  obtain ⟨u, hu, ⟨_, rfl⟩ | ⟨_, ht⟩⟩ := andThen_eq_next h
  · exact hf s t hu
  · exact (hf s u hu).trans (hg u t ht)

theorem Steering.ite {c : State → Prop} [∀ s, Decidable (c s)] {f g : State → Answer} (hf : Steering f)
    (hg : Steering g) : Steering fun s => if c s then f s else g s := by
  intro s t h
  dsimp only at h
  split_ifs at h
  · exact hf s t h
  · exact hg s t h

theorem Steering.operation {f : State → Answer} (hf : Steering f) : Steering (operation · f) := by
  intro s t h
  rcases operation_eq_next h with ⟨_, rfl⟩ | ⟨_, ht⟩
  · exact .silent rfl
  · exact .trans (.silent rfl) (hf _ t ht)

theorem Steering.whenAttached {f : State → Answer} (hf : Steering f) : Steering (whenAttached · f) := by
  intro s t h
  rcases whenAttached_eq_next h with ⟨_, rfl⟩ | ⟨_, ht⟩
  · exact .silent rfl
  · exact hf s t ht

theorem Steering.withQ {f : InFlight → State → Answer} (hf : ∀ q, Steering (f q)) :
    Steering fun s => withQ s fun q => f q s := by
  intro s t h
  obtain ⟨q, _, ht⟩ := withQ_eq_next h
  exact hf q s t ht

/-! ### The PIO walker (R160) -/

/-- An access pair in the direction of the data phase: its FIFO access is the only one. -/
theorem pioAccess_steered {dir : Dir} {w : Width} {a : Nat} {s t : State} (hdir : s.h.dataDir = some dir)
    (h : pioAccess dir w a s = .next t) : Steered s t := by
  rcases (pioAccess_eq_next h).2 with ⟨rfl, rfl⟩ | ⟨rfl, rfl⟩
  · exact (steered_emit (e := .memR a w _) rfl rfl s).trans (steered_access rfl hdir.symm)
  · have hread : Steered s (fifoRead w s).2 :=
      .trans (.silent rfl) (steered_access (e := .fifoR w _) rfl hdir.symm)
    exact hread.trans (.still (follows_memWrite a w _ _) (by simp [fifoLog, fifoAccess]) (.congr rfl))

theorem pioAccesses_steered {dir : Dir} {w : Width} {n : Nat} : ∀ {a : Nat} {s t : State}, s.fault = none →
    s.h.dataDir = some dir → pioAccesses dir w n a s = .next t → Steered s t := by
  induction n with
  | zero =>
    intro a s t _ _ h
    cases h
    exact .refl s
  | succ n ih =>
    intro a s t hf hdir h
    obtain ⟨u, hu, hok, hr⟩ := pioAccesses_succ hf h
    have hdir' : u.h.dataDir = some dir := by
      rw [pioAccess_frame hu]
      exact hdir
    exact (pioAccess_steered hdir hu).trans (ih hok hdir' hr)

/-- A call of the walker: the advance keeps the direction, and the movement goes in it. -/
theorem steering_pioXfer (n : Nat) : Steering (pioXfer n) := by
  intro s t h
  obtain ⟨q, d, _, _, h⟩ := withData_eq_next h
  obtain ⟨dir, hdir, h⟩ := withDir_eq_next h
  obtain ⟨u, hu, h⟩ := andThen_eq_next h
  obtain ⟨hadvance, hdir'⟩ : Steered s u ∧ u.h.dataDir = s.h.dataDir := by
    have hfollows := traced_pioAdvance d s u hu
    rcases pioAdvance_eq_next hu with ⟨_, rfl⟩ | ⟨_, _, _, rfl⟩ | ⟨_, g, _, rfl⟩ <;>
      exact ⟨.still hfollows rfl (.congr rfl), rfl⟩
  rcases h with ⟨_, rfl⟩ | ⟨hok, h⟩
  · exact hadvance
  · obtain ⟨v, hv, rfl⟩ := pioMove_eq_next hok h
    exact hadvance.trans <| (pioAccesses_steered hok (hdir'.trans hdir) hv).trans (.silent rfl)

/-! ### Submission (R141, R144, R171, R178) -/

theorem steered_busyPoll : ∀ (n : Nat) (s : State), Steered s (busyPoll n s).2
  | 0, s => .refl s
  | n + 1, s => by
    unfold busyPoll
    dsimp only
    split_ifs
    · exact (steered_regDraw .st1 s).trans (steered_busyPoll n _)
    · exact steered_regDraw .st1 s

theorem fifoAccess_of_mem_progEvents (ch : Option Nat) (es : List Desc) :
    ∀ i, ∀ e ∈ progEvents ch i es, fifoAccess e = none := by
  induction es with
  | nil => exact fun _ _ he => nomatch he
  | cons d rest ih => exact fun i => List.forall_mem_cons.mpr ⟨rfl, ih (i + 1)⟩

theorem steered_dmaSetup (d : DataPhase) (dir : Dir) (s : State) : Steered s (dmaSetup d dir s).2 := by
  refine .still (follows_dmaSetup d dir s) ?_ (.congr ?_)
  · rcases dmaSetup_cases d dir s with ⟨_, h⟩ | ⟨_, _, h⟩ | ⟨_, msg, _, ⟨_, h⟩ | ⟨_, h⟩⟩ <;> rw [h]
    · simp [fifoLog, fifoAccess]
    · simp [fifoLog, fifoAccess]
    · simpa [fifoLog, fifoAccess, dmaProgram_eq] using fifoAccess_of_mem_progEvents _ _ 0
  · rw [dmaSetup_frame]

theorem steering_pioInit (d : DataPhase) : Steering (pioInit d) := by
  intro s t h
  obtain ⟨g, rest, _, rfl⟩ := pioInit_eq_next h
  exact .silent rfl

theorem steering_prepareStrategy (d : DataPhase) : Steering (prepareStrategy d) := by
  intro s t h
  rcases prepareStrategy_eq_next h with ⟨_, _, rfl⟩ | ⟨_, _, h⟩ | ⟨_, h⟩
  · exact (steered_dmaSetup d d.dir s).trans (.silent rfl)
  · exact (steered_dmaSetup d d.dir s).trans (steering_pioInit d _ t h)
  · exact steering_pioInit d s t h

/-- FIFO_CFG aims the FIFO at the direction PREPARE has just recorded (R141, R142). -/
theorem steered_prepareRegisters (d : DataPhase) (s : State) : Steered s (prepareRegisters d s) := by
  refine .still (follows_prepareRegisters d s) (by simp [prepareRegisters, fifoLog, fifoAccess]) fun _ dir hdir => ?_
  obtain rfl : d.dir = dir := Option.some.inj hdir
  rfl

theorem steering_prepare : Steering prepare := by
  intro s t h
  obtain ⟨q, _, ⟨_, rfl⟩ | ⟨d, _, h⟩⟩ := prepare_eq_next h
  · exact .still (follows_prepareNoData s) (by simp [fifoLog, fifoAccess]) fun _ => .of_noDir rfl
  · exact (steered_prepareRegisters d s).trans (steering_prepareStrategy d _ t h)

theorem steered_issue (slot : Slot) (arg w im : Word) (s : State) : Steered s (issue slot arg w im s) :=
  .still (follows_issue slot arg w im s) (by simp [fifoLog, fifoAccess]) (.congr rfl)

theorem steering_cmdStart (slot : Slot) : Steering (cmdStart slot) := by
  refine .withQ fun q s t h => ?_
  cases hc : q.command slot with
  | none => simp [hc] at h
  | some c =>
    simp only [hc] at h
    have hstart : Steered s (regWrite .tor (value16 CTO_MAX) { s with h := { s.h with cmd := some slot } }) :=
      .trans (.silent rfl) (steered_regWrite (r := .tor) (by decide) _ _)
    have hpreload : Steering fun u => if preloads u then pioXfer u.threshold u else .next u :=
      .ite (fun u => steering_pioXfer _ u) .self
    exact hstart.trans (hpreload.andThen (.next fun u => steered_issue slot c.arg _ _ u) _ t h)

theorem steering_requestAdmitted (req : BusRequest) : Steering (requestAdmitted req) := by
  intro s t h
  unfold requestAdmitted at h
  dsimp only at h
  have hbusy : Steered s (busyCheck s).2 := steered_busyPoll _ s
  split_ifs at h
  · cases h
    exact hbusy.trans (steered_emit rfl rfl _)
  · exact hbusy.trans <| .trans (.silent rfl) (steering_prepare.andThen (steering_cmdStart .main)
      { (busyCheck s).2 with q := some (accepted req), h := { (busyCheck s).2.h with doDma := false } } t h)

/-! ### The host boundary and bus timing (R240, R245, R255, R258) -/

theorem fifoLog_requestChannels (s : State) : fifoLog (requestChannels s) = fifoLog s := by
  unfold requestChannels settleChannels
  dsimp only
  cases (drawChannel s).1 <;> cases (drawChannel _).1 <;> simp [fifoLog, fifoAccess]

theorem steering_attachAdmitted : Steering attachAdmitted := by
  intro s t h
  have hfollows := traced_attachAdmitted s t h
  unfold attachAdmitted at h
  dsimp only at h
  split_ifs at h
  cases h
  refine .still hfollows ?_ fun _ => .of_noDir rfl
  have hsession (u : State) :
      fifoLog (freshSession (if u.cfg.useDma then requestChannels u else u)) = fifoLog u := by
    split_ifs
    · exact fifoLog_requestChannels u
    · rfl
  exact (hsession _).trans (by simp [fifoLog, fifoAccess])

theorem steered_detachAdmitted (s : State) : Steered s (detachAdmitted s) := by
  refine .still (follows_detachAdmitted s) ?_ (.congr ?_) <;> unfold detachAdmitted <;> split_ifs
  · simp [fifoLog, fifoAccess]
  · simp [fifoLog, fifoAccess]
  · rfl
  · rfl

theorem steered_initckPoll : ∀ (n : Nat) (s : State), Steered s (initckPoll n s)
  | 0, s => .refl s
  | n + 1, s => by
    unfold initckPoll
    dsimp only
    split_ifs
    · exact steered_regDraw .st0 s
    · exact (steered_regDraw .st0 s).trans (steered_initckPoll n _)

theorem steered_setClock (mode : BusMode) (hz : Nat) (s : State) : Steered s (setClock mode hz s) := by
  refine .still (follows_setClock mode hz s) ?_ (.congr ?_) <;> cases mode
  · simp [setClock, setClockOpenDrain, fifoLog, fifoAccess]
  · simp [setClock, setClockPushPull, fifoLog, fifoAccess]
  · rfl
  · rfl

theorem steered_setPower (power : PowerMode) (s : State) : Steered s (setPower power s) := by
  unfold setPower
  refine .trans ?_ (.silent rfl)
  split_ifs
  · exact (steered_regWrite (r := .cmd) (by decide) _ s).trans (steered_initckPoll _ _)
  · exact .refl s

theorem steered_setIosAdmitted (width : BusWidth) (mode : BusMode) (power : PowerMode) (hz : Nat) (s : State) :
    Steered s (setIosAdmitted width mode power hz s) :=
  .trans (.still (follows_setWidth width s) (by simp [setWidth, fifoLog, fifoAccess]) (.congr rfl)) <|
    (steered_setClock mode hz _).trans (steered_setPower power _)

/-! ### Ending and completing (R220 to R226) -/

theorem steering_complete : Steering complete := .withQ fun q => .next fun s =>
  .still (follows_completeRequest q s) (by simp [fifoLog, fifoAccess]) (.congr rfl)

theorem steering_dataTeardown : Steering dataTeardown := by
  intro s t h
  refine .still (traced_dataTeardown s t h) ?_ fun _ => .of_noDir (by rw [dataTeardown_frame h])
  rcases dataTeardown_eq_next h with ⟨_, rfl⟩ | ⟨_, q, d, dir, _, _, _, rfl⟩ <;> simp [fifoLog, fifoAccess]

theorem steered_latchInto (q : InFlight) (slot : Slot) (c : Command) (s : State) :
    Steered s (latchInto q slot c s) := by
  refine .still (follows_latchInto q slot c s) ?_ (.congr ?_)
  · cases hc : c.resp <;> simp [latchInto, latch, hc, fifoLog, fifoAccess]
  · obtain ⟨p, h⟩ := latchInto_eq q slot c s
    rw [h]

theorem steering_cmdEnd : Steering cmdEnd := by
  intro s t h
  obtain ⟨q, slot, c, _, _, _, h⟩ := cmdEnd_eq_next h
  have hfinish : Steering (finishCommand q slot) :=
    .ite (c := fun s => (s.h.data && q.result.error slot == .none) = true) (.next fun _ => .silent rfl)
      (.ite (steering_dataTeardown.andThen steering_complete) steering_complete)
  exact (steered_latchInto q slot c s).trans (hfinish _ t h)

theorem steering_xferEnd : Steering xferEnd :=
  steering_dataTeardown.andThen <| .withQ fun q =>
    .ite (c := fun _ => (q.req.stop.isNone || q.result.cmdError != .none) = true)
      steering_complete (steering_cmdStart .stop)

/-! ### The interrupt path (R190 to R206) -/

theorem steered_readStatus (s : State) : Steered s (readStatus s) :=
  (steered_regDraw .st0 s).trans (.silent rfl)

theorem steering_serviceLoop : ∀ fuel, Steering (serviceLoop fuel)
  | 0 => .self
  | fuel + 1 => by
    intro s t h
    have hread (u : State) : Steered u (accumulate (readStatus u)) :=
      (steered_readStatus u).trans (.silent rfl)
    rcases serviceLoop_succ h with ⟨_, rfl⟩ | ⟨_, u, hu, ⟨_, rfl⟩ | ⟨_, ht⟩⟩
    · exact .refl t
    · exact steering_pioXfer _ s t hu
    · exact (steering_pioXfer _ s u hu).trans <| (hread u).trans (steering_serviceLoop fuel _ t ht)

theorem steering_ruleDataDone : Steering ruleDataDone := by
  have hdrain : Steering fun s => if residualDue s then pioXfer s.h.bytesLeft s else .next s :=
    .ite (fun s => steering_pioXfer _ s) .self
  intro s t h
  rcases ruleDataDone_eq_next h with ⟨_, rfl⟩ | ⟨_, u, hu, ⟨_, rfl⟩ | ⟨_, q, d, _, _, rfl⟩⟩
  · exact .refl t
  · exact hdrain s t hu
  · exact (hdrain s u hu).trans (.silent rfl)

theorem steering_ruleDataTimeout : Steering ruleDataTimeout :=
  .ite (.withQ fun _ => .next fun _ => .silent rfl) .self

theorem steered_dataCrcKind (s : State) : Steered s (dataCrcKind s).2 := by
  unfold dataCrcKind
  split_ifs
  · exact steered_regDraw .drsp s
  · exact .refl s

theorem steering_ruleDataCrc : Steering ruleDataCrc :=
  .ite (.withQ fun _ => .next fun s => (steered_dataCrcKind s).trans (.silent rfl)) .self

theorem steering_ruleCommandTimeout : Steering ruleCommandTimeout := by
  intro s t h
  rcases ruleCommandTimeout_eq_next h with ⟨_, rfl⟩ | ⟨_, slot, q, _, _, rfl⟩
  · exact .refl t
  · split_ifs <;> exact .silent rfl

theorem steering_ruleCommandCrc : Steering ruleCommandCrc := by
  intro s t h
  rcases ruleCommandCrc_eq_next h with ⟨_, rfl⟩ | ⟨_, _, slot, q, _, _, rfl⟩
  · exact .refl t
  · exact .silent rfl

theorem steering_ruleCommandDone : Steering ruleCommandDone := .ite (.next fun _ => .silent rfl) .self

theorem steering_classify : Steering classify :=
  steering_ruleDataDone.andThen <| steering_ruleDataTimeout.andThen <| steering_ruleDataCrc.andThen <|
    steering_ruleCommandTimeout.andThen <| steering_ruleCommandCrc.andThen steering_ruleCommandDone

theorem steered_resetIfNeeded (s : State) : Steered s (resetIfNeeded s) := by
  unfold resetIfNeeded
  split_ifs
  · exact .still (follows_softReset s) (by simp [softReset, fifoLog, fifoAccess]) (.congr rfl)
  · exact .refl s

theorem steering_irqHandle : Steering irqHandle := by
  have hending : Steering endingStage := .andThen (.ite steering_cmdEnd .self) (.ite steering_xferEnd .self)
  have hservice : Steering fifoService := fun s => steering_serviceLoop _ s
  exact hservice.andThen <| steering_classify.andThen <|
    .andThen (fun s t h => (steered_resetIfNeeded s).trans (hending _ t h)) (.next fun _ => .silent rfl)

theorem steering_irqBody : Steering irqBody := by
  intro s t h
  have henter : Steered s (irqEnter s) :=
    .trans (.silent rfl) <| (steered_readStatus _).trans (.silent rfl)
  rcases irqBody_eq_next h with ⟨_, rfl⟩ | ⟨_, u, hu, rfl⟩
  · exact henter.trans <| (steered_regWrite (r := .im) (by decide) _ _).trans (.silent rfl)
  · exact henter.trans <| (steering_irqHandle _ u hu).trans (.silent rfl)

/-! ### Every outside operation -/

theorem exec_steering {i : Instr} (hi : outside i = true) : Steering (exec i) := by
  cases i with
  | attach => exact .operation (.ite (c := (·.h.attached = true)) (.refuse _) steering_attachAdmitted)
  | detach => exact .operation (.whenAttached (.ite (.next steered_detachAdmitted) (.refuse _)))
  | setIos width mode power hz =>
    refine .operation (.whenAttached (.ite ?_ (.refuse _)))
    cases widthOfCode width with
    | none => exact .refuse _
    | some width => exact .next (steered_setIosAdmitted width mode power hz)
  | request req =>
    exact .operation (.whenAttached (.ite
      (.ite (c := fun _ => requestValid req = true) (steering_requestAdmitted req) (.refuse _)) (.refuse _)))
  | getCd =>
    exact .operation (.whenAttached (.next fun _ =>
      .trans (.silent rfl) <| (steered_emit (e := .boardCd _) rfl rfl _).trans (.silent rfl)))
  | getRo =>
    exact .operation (.whenAttached (.next fun _ =>
      .trans (.silent rfl) <| (steered_emit (e := .boardRo _) rfl rfl _).trans (.silent rfl)))
  | irq => exact .operation (.whenAttached steering_irqBody)
  | dmaErr => exact .operation (.ite (.withQ fun _ => .next fun _ => .silent rfl) .self)
  | _ => exact absurd hi Bool.false_ne_true

/-- Settles O16: a consistent engine's FIFO is aimed, and a faulted one's operations add no event. -/
theorem fifoDirectionMatchesAccess : Obligations.FifoDirectionMatchesAccess := by
  intro i s t hi hinv h pre e post hevents
  have hdirected : Directed s (newEvents s t) := by
    cases hf : s.fault with
    | none => exact (exec_steering hi s t h).directed (hinv.consistent hf).aimed
    | some k =>
      rw [exec_faulted hf] at h
      cases h
      exact .of_noAccess (by simp [newEvents])
  constructor
  · rintro w v rfl
    exact hdirected pre _ post .read hevents rfl
  · rintro w v rfl
    exact hdirected pre _ post .write hevents rfl

end Sys2Proof.Machine
end

section
/-! PROOF. PIO_XFER at the end of a segment (R160, R276; O38): the call is the advance followed by the movement,
and the advance has one outcome where the list goes on and one where it does not. -/

namespace Sys2Proof.Machine

/-- With no fault, a positive operand and its records there, the row advances the cursor and then moves. -/
theorem exec_pioXfer_advance {n : Nat} {s : State} {q : InFlight} {d : DataPhase} {dir : Dir}
    (hf : s.fault = none) (hq : s.q = some q) (hd : q.req.data = some d) (hdir : s.h.dataDir = some dir)
    (hn : 1 ≤ n) :
    exec (.pioXfer n) s = andThen (pioAdvance d { s with ret := .done }) (pioMove dir n) := by
  rw [exec_pioXfer_running hf hn, pioXfer, withData_some (by exact hq) hd, withDir_some (by exact hdir)]

/-- Behind an exhausted segment the advance enters the next one, where the list has one. -/
theorem pioAdvance_next_segment {d : DataPhase} {s : State} {g : Seg} (hseg : s.h.segLeft = 0)
    (hg : d.sg[s.h.sgIdx + 1]? = some g) :
    pioAdvance d s = .next { s with h := { s.h with
      sgIdx := s.h.sgIdx + 1, bufPtr := g.addr, segLeft := min g.len s.h.bytesLeft } } := by
  have hmore : s.h.sgIdx + 1 < d.sg.length := (List.getElem?_eq_some_iff.mp hg).1
  rw [pioAdvance, if_pos hseg, if_neg (by omega), hg]

/-- Behind the last segment the advance raises the fault, while bytes are left (R276). -/
theorem pioAdvance_past_end {d : DataPhase} {s : State} (hseg : s.h.segLeft = 0) (hleft : 0 < s.h.bytesLeft)
    (hend : d.sg.length ≤ s.h.sgIdx + 1) : pioAdvance d s = raiseFault s := by
  rw [pioAdvance, if_pos hseg, if_pos ⟨hleft, hend⟩]

/-- Settles O38: after the advance both calls are the same movement in the next segment; where there is none,
the raised fault ends the call before the movement. -/
theorem pioXferSegmentEnd : Obligations.PioXferSegmentEnd := by
  intro s n q d dir hf hq hd hdir hn hseg hleft
  refine ⟨fun g hg hlen => ?next, fun hend => ⟨.halted, ?fault⟩⟩
  case next =>
    have hinside : 0 < min g.len s.h.bytesLeft := lt_min hlen hleft
    rw [exec_pioXfer_advance hf hq hd hdir hn,
      pioAdvance_next_segment (s := { s with ret := .done }) hseg hg, andThen_next (by exact hf)]
    exact Eq.symm <| exec_pioXfer_in_segment (by exact hf) (by exact hq) hd (by exact hdir) hn (by exact hinside)
  case fault =>
    rw [exec_pioXfer_advance hf hq hd hdir hn,
      pioAdvance_past_end (s := { s with ret := .done }) hseg hleft hend]
    exact andThen_halted rfl _

end Sys2Proof.Machine
end

section
/-! PROOF. The phase graph (R285; O13). An interrupt's rules leave the phase, the slot, the data phase and the
request as they were (`KeepsFlight`), so that every change of phase happens in the ending stage (`IrqEdge`); the
one edge out of phase Idle is CMD_START in a submission. -/

namespace Sys2Proof.Machine

/-! ### What the phase rests on -/

/-- The phase and what the table of R42 puts beside it. -/
def flightView (s : State) : Phase × Option Slot × Bool × Option BusRequest :=
  (s.h.phase, s.h.cmd, s.h.data, s.q.map (·.req))

theorem phase_eq_of_flightView {s t : State} (h : flightView t = flightView s) : t.h.phase = s.h.phase :=
  congrArg (·.1) h

theorem flightView_setResult {q : InFlight} {r : Result} {s : State} (hq : s.q = some q) :
    flightView (setResult q r s) = flightView s := by simp [flightView, hq]

/-- From a running engine, whatever next state `f` answers has the same phase and the same in flight. -/
def KeepsFlight (f : State → Answer) : Prop :=
  ∀ s t, s.fault = none → f s = .next t → flightView t = flightView s

theorem KeepsFlight.andThen {f g : State → Answer} (hf : KeepsFlight f) (hg : KeepsFlight g) :
    KeepsFlight fun s => andThen (f s) g := by
  intro s t hs h
  obtain ⟨u, hu, ⟨_, rfl⟩ | ⟨hok, ht⟩⟩ := andThen_eq_next h
  · exact hf s t hs hu
  · exact (hg u t hok ht).trans (hf s u hs hu)

/-! ### Service and classification (R192 to R200) -/

theorem keepsFlight_pioXfer (n : Nat) : KeepsFlight (pioXfer n) := by
  intro s t hs h
  rcases pioXfer_frame hs h with rfl | hframe
  · rfl
  · rw [hframe]
    rfl

theorem keepsFlight_serviceLoop : ∀ fuel, KeepsFlight (serviceLoop fuel)
  | 0 => fun s t _ h => by
    cases h
    rfl
  | fuel + 1 => fun s t hs h => by
    rcases serviceLoop_succ h with ⟨_, rfl⟩ | ⟨_, u, hu, ⟨_, rfl⟩ | ⟨hok, ht⟩⟩
    · rfl
    · exact keepsFlight_pioXfer _ s t hs hu
    · have hread : flightView (accumulate (readStatus u)) = flightView u := rfl
      exact (keepsFlight_serviceLoop fuel (accumulate (readStatus u)) t hok ht).trans <|
        hread.trans (keepsFlight_pioXfer _ s u hs hu)

theorem keepsFlight_ruleDataDone : KeepsFlight ruleDataDone := by
  intro s t hs h
  have hdrain {u : State} (hu : (if residualDue s then pioXfer s.h.bytesLeft s else .next s) = .next u) :
      flightView u = flightView s := by
    split_ifs at hu
    · exact keepsFlight_pioXfer _ s u hs hu
    · cases hu
      rfl
  rcases ruleDataDone_eq_next h with ⟨_, rfl⟩ | ⟨_, u, hu, ⟨_, rfl⟩ | ⟨_, q, d, hq, _, rfl⟩⟩
  · rfl
  · exact hdrain hu
  · rw [flightView_setResult (by exact hq)]
    exact (hdrain hu : flightView u = _)

theorem keepsFlight_ruleDataTimeout : KeepsFlight ruleDataTimeout := by
  intro s t _ h
  rcases ruleDataTimeout_eq_next h with ⟨_, rfl⟩ | ⟨_, q, hq, rfl⟩
  · rfl
  · exact flightView_setResult hq

theorem keepsFlight_ruleDataCrc : KeepsFlight ruleDataCrc := by
  intro s t _ h
  rcases ruleDataCrc_eq_next h with ⟨_, rfl⟩ | ⟨_, q, hq, rfl⟩
  · rfl
  · rw [dataCrcKind_frame]
    exact flightView_setResult hq

theorem keepsFlight_ruleCommandTimeout : KeepsFlight ruleCommandTimeout := by
  intro s t _ h
  rcases ruleCommandTimeout_eq_next h with ⟨_, rfl⟩ | ⟨_, slot, q, _, hq, rfl⟩
  · rfl
  · split_ifs <;> exact flightView_setResult hq

theorem keepsFlight_ruleCommandCrc : KeepsFlight ruleCommandCrc := by
  intro s t _ h
  rcases ruleCommandCrc_eq_next h with ⟨_, rfl⟩ | ⟨_, _, slot, q, _, hq, rfl⟩
  · rfl
  · exact flightView_setResult hq

theorem keepsFlight_ruleCommandDone : KeepsFlight ruleCommandDone := by
  intro s t _ h
  rw [ruleCommandDone_eq] at h
  cases h
  split_ifs <;> rfl

theorem keepsFlight_classify : KeepsFlight classify :=
  keepsFlight_ruleDataDone.andThen <| keepsFlight_ruleDataTimeout.andThen <| keepsFlight_ruleDataCrc.andThen <|
    keepsFlight_ruleCommandTimeout.andThen <| keepsFlight_ruleCommandCrc.andThen keepsFlight_ruleCommandDone

/-! ### Submission (R141, R170, R178) -/

/-- PREPARE moves neither the phase nor the answer. -/
theorem prepare_phase_ret {s t : State} (h : prepare s = .next t) :
    t.h.phase = s.h.phase ∧ t.ret = s.ret := by
  obtain ⟨q, _, ⟨_, rfl⟩ | ⟨d, _, h⟩⟩ := prepare_eq_next h
  · exact ⟨rfl, rfl⟩
  · have hsetup := dmaSetup_frame d d.dir (prepareRegisters d s)
    rcases prepareStrategy_eq_next h with ⟨_, _, rfl⟩ | ⟨_, _, h⟩ | ⟨_, h⟩
    · rw [hsetup]
      exact ⟨rfl, rfl⟩
    · obtain ⟨g, rest, _, rfl⟩ := pioInit_eq_next h
      rw [hsetup]
      exact ⟨rfl, rfl⟩
    · obtain ⟨g, rest, _, rfl⟩ := pioInit_eq_next h
      exact ⟨rfl, rfl⟩

/-- CMD_START ends in the phase of its slot, unless the fault of its pre-load leaves the phase as it was. -/
theorem cmdStart_phase {slot : Slot} {s t : State} (hs : s.fault = none) (h : cmdStart slot s = .next t) :
    t.h.phase = s.h.phase ∨ t.h.phase = phaseOfSlot slot := by
  obtain ⟨q, c, _, _, ⟨_, rfl⟩ | ⟨_, x, hx, ⟨_, rfl⟩ | ⟨_, rfl⟩⟩⟩ := cmdStart_eq_next hs h
  · exact .inr rfl
  · refine .inl ?_
    rcases pioXfer_frame (by exact hs) hx with rfl | hframe
    · rfl
    · rw [hframe]
      rfl
  · exact .inr rfl

/-- A request that is not turned away starts its main command, or leaves the phase as it was. -/
theorem requestAdmitted_phase {req : BusRequest} {s t : State} (h : requestAdmitted req s = .next t) :
    t.h.phase = s.h.phase ∨ t.h.phase = .commandIssued := by
  have hbusy : (busyCheck s).2.h.phase = s.h.phase := by rw [busyCheck, busyPoll_frame]
  unfold requestAdmitted at h
  dsimp only at h
  split_ifs at h
  · cases h
    exact .inl hbusy
  · obtain ⟨u, hu, h⟩ := andThen_eq_next h
    have hprepared : u.h.phase = s.h.phase := (prepare_phase_ret hu).1.trans hbusy
    rcases h with ⟨_, rfl⟩ | ⟨hok, h⟩
    · exact .inl hprepared
    · exact (cmdStart_phase hok h).imp_left (·.trans hprepared)

/-! ### The ending stage (R204, R220, R224) -/

/-- The edges of an interrupt, as the ending stage meets their conditions: none, a completion, a command whose
data phase goes on, a data phase that its stop command follows. -/
def IrqEdge (s t : State) : Prop :=
  t.h.phase = s.h.phase ∨ t.h.phase = .idle ∨
  (s.h.cmd.isSome = true ∧ s.h.data = true ∧ t.h.phase = .dataInFlight) ∨
  (s.h.data = true ∧ s.q.any (·.req.stop.isSome) = true ∧ t.h.phase = .stopIssued)

theorem any_stop_of_requests {p q : Option InFlight} (h : p.map (·.req) = q.map (·.req)) :
    p.any (·.req.stop.isSome) = q.any (·.req.stop.isSome) := by
  simpa [Option.any_map, Function.comp_def] using congrArg (Option.any (·.stop.isSome)) h

/-- An edge starts where the phase and what is in flight are the same. -/
theorem IrqEdge.congr {s u t : State} (h : IrqEdge u t) (hv : flightView u = flightView s) : IrqEdge s t := by
  simp only [flightView, Prod.mk.injEq] at hv
  obtain ⟨hphase, hcmd, hdata, hreq⟩ := hv
  rwa [IrqEdge, hphase, hcmd, hdata, any_stop_of_requests hreq] at h

theorem complete_phase {s t : State} (h : complete s = .next t) : t.h.phase = .idle ∧ t.h.data = false := by
  obtain ⟨q, _, rfl⟩ := complete_eq_next h
  exact ⟨rfl, rfl⟩

/-- CMD_END completes the request, or goes on to the data phase in flight (R220, R222). -/
theorem cmdEnd_phase {s t : State} (hs : s.fault = none) (h : cmdEnd s = .next t) :
    (t.h.phase = .idle ∧ t.h.data = false) ∨
    (s.h.cmd.isSome = true ∧ s.h.data = true ∧ t.h.phase = .dataInFlight ∧
      t.q.map (·.req) = s.q.map (·.req)) := by
  obtain ⟨q, slot, c, hq, hslot, _, h⟩ := cmdEnd_eq_next h
  obtain ⟨p, hlatch⟩ := latchInto_eq q slot c s
  have hrunning : (latchInto q slot c s).fault = none := by rw [hlatch]; exact hs
  rcases finishCommand_eq_next hrunning h with ⟨hd, _, rfl⟩ | ⟨_, _, u, _, hcomplete⟩ | ⟨_, hcomplete⟩
  · rw [hlatch] at hd ⊢
    exact .inr ⟨by simp [hslot], hd, rfl, by simp [hq]⟩
  · exact .inl (complete_phase hcomplete)
  · exact .inl (complete_phase hcomplete)

/-- XFER_END completes the request, or starts its stop command (R224). -/
theorem xferEnd_phase {s t : State} (hs : s.fault = none) (h : xferEnd s = .next t) :
    t.h.phase = s.h.phase ∨ t.h.phase = .idle ∨
    (s.q.any (·.req.stop.isSome) = true ∧ t.h.phase = .stopIssued) := by
  obtain ⟨u, q, hu, hq, ⟨_, hcomplete⟩ | ⟨hstop, _, hstart⟩⟩ := xferEnd_eq_next hs h
  · exact .inr (.inl (complete_phase hcomplete).1)
  · have hframe := dataTeardown_frame hu
    have hrunning : u.fault = none := by rw [hframe]; exact hs
    rcases cmdStart_phase hrunning hstart with hphase | hphase
    · exact .inl (hphase.trans (by rw [hframe]))
    · exact .inr (.inr ⟨by simpa [hq] using Option.isSome_iff_ne_none.mpr hstop, hphase⟩)

/-- The second part of the ending stage runs while a data phase is in flight (R204). -/
theorem endXfer_edge {s t : State} (hs : s.fault = none)
    (h : (if s.irq.endXfer && s.h.data && !s.irq.completed then xferEnd s else .next s) = .next t) :
    t.h.phase = s.h.phase ∨ s.h.data = true ∧ (t.h.phase = .idle ∨
      s.q.any (·.req.stop.isSome) = true ∧ t.h.phase = .stopIssued) := by
  split_ifs at h with hdue
  · simp only [Bool.and_eq_true] at hdue
    exact (xferEnd_phase hs h).imp_right fun hphase => ⟨hdue.1.2, hphase⟩
  · cases h
    exact .inl rfl

/-- Every change of phase of the ending stage is an edge: after a completion no data phase is left to end. -/
theorem endingStage_edge {s t : State} (hs : s.fault = none) (h : endingStage s = .next t) : IrqEdge s t := by
  obtain ⟨u, hu, hr⟩ := andThen_eq_next h
  have hxfer : t.h.phase = u.h.phase ∨ u.h.data = true ∧ (t.h.phase = .idle ∨
      u.q.any (·.req.stop.isSome) = true ∧ t.h.phase = .stopIssued) := by
    rcases hr with ⟨_, rfl⟩ | ⟨hok, hr⟩
    · exact .inl rfl
    · exact endXfer_edge hok hr
  split_ifs at hu
  · rcases cmdEnd_phase hs hu with ⟨hidle, hnone⟩ | ⟨hcmd, hdata, hphase, hreq⟩
    · rcases hxfer with hsame | ⟨hdata, _⟩
      · exact .inr (.inl (hsame.trans hidle))
      · exact absurd (hnone.symm.trans hdata) Bool.false_ne_true
    · rcases hxfer with hsame | ⟨_, hidle | ⟨hsome, hissued⟩⟩
      · exact .inr (.inr (.inl ⟨hcmd, hdata, hsame.trans hphase⟩))
      · exact .inr (.inl hidle)
      · exact .inr (.inr (.inr ⟨hdata, any_stop_of_requests hreq ▸ hsome, hissued⟩))
  · cases hu
    rcases hxfer with hsame | ⟨hdata, hidle | ⟨hsome, hissued⟩⟩
    · exact .inl hsame
    · exact .inr (.inl hidle)
    · exact .inr (.inr (.inr ⟨hdata, hsome, hissued⟩))

/-! ### The outside operations (R112) -/

theorem resetIfNeeded_flight (s : State) :
    flightView (resetIfNeeded s) = flightView s ∧ (resetIfNeeded s).fault = s.fault := by
  unfold resetIfNeeded
  split_ifs <;> exact ⟨rfl, rfl⟩

/-- A handled interrupt: service and rules change nothing that the edges read (R190). -/
theorem irqHandle_edge {s t : State} (hs : s.fault = none) (h : irqHandle s = .next t) : IrqEdge s t := by
  obtain ⟨u, hu, hr⟩ := andThen_eq_next h
  have hserved : flightView u = flightView s := keepsFlight_serviceLoop _ s u hs hu
  rcases hr with ⟨_, rfl⟩ | ⟨hok, h⟩
  · exact .inl (phase_eq_of_flightView hserved)
  obtain ⟨v, hv, hr⟩ := andThen_eq_next h
  have hclassified : flightView v = flightView s := (keepsFlight_classify u v hok hv).trans hserved
  rcases hr with ⟨_, rfl⟩ | ⟨hok, h⟩
  · exact .inl (phase_eq_of_flightView hclassified)
  obtain ⟨hreset, hfault⟩ := resetIfNeeded_flight v
  obtain ⟨w, hw, hr⟩ := andThen_eq_next h
  have hedge : IrqEdge s w := (endingStage_edge (hfault.trans hok) hw).congr (hreset.trans hclassified)
  rcases hr with ⟨_, rfl⟩ | ⟨_, hr⟩
  · exact hedge
  · cases hr
    exact hedge

theorem irqBody_edge {s t : State} (hs : s.fault = none) (h : irqBody s = .next t) : IrqEdge s t := by
  rcases irqBody_eq_next h with ⟨_, rfl⟩ | ⟨_, u, hu, rfl⟩
  · exact .inl rfl
  · have hentered : IrqEdge s u := (irqHandle_edge (s := irqEnter s) hs hu).congr rfl
    exact hentered

/-- The table of R42 says in which phases a data phase is in flight, and in which a command beside it. -/
theorem PhaseTable.of_data {s : State} (h : PhaseTable s) (hd : s.h.data = true) :
    (s.h.phase = .commandIssued ∨ s.h.phase = .dataInFlight) ∧
    (s.h.cmd.isSome = true → s.h.phase = .commandIssued) := by
  cases hp : s.h.phase <;> simp_all [PhaseTable]

/-- A row that needs an attached engine is refused, or runs its body. -/
theorem attachedRow_phase {s t : State} {body : State → Answer}
    (h : operation s (whenAttached · body) = .next t) :
    t.h.phase = s.h.phase ∨ body { s with ret := .done } = .next t := by
  rcases operation_eq_next h with ⟨_, rfl⟩ | ⟨_, h⟩
  · exact .inl rfl
  · rcases whenAttached_eq_next h with ⟨_, rfl⟩ | ⟨_, h⟩
    · exact .inl rfl
    · exact .inr h

/-- Only a detached engine is attached, and it is in phase Idle before and after (R255, R258). -/
theorem exec_attach_phase {s t : State} (hs : EngineConsistent s) (hf : s.fault = none)
    (h : exec .attach s = .next t) : t.h.phase = s.h.phase := by
  rw [exec_attach_running hf] at h
  split_ifs at h with ha
  · cases h
    rfl
  · have hp : s.h.phase = .idle := not_not.mp fun hbusy => ha (hs.attached hbusy)
    unfold attachAdmitted at h
    dsimp only at h
    split_ifs at h
    cases h
    exact hp.symm

/-- A row that runs in phase Idle alone, and leaves a sound engine there (R240, R258). -/
theorem idleRow_phase {k : RefuseKind} {f : State → Answer} {s t : State} (hs : EngineConsistent s)
    (hf : s.fault = none) (hidle : ∀ u v, IdleSound u → f u = .next v → v.h.phase = .idle)
    (h : operation s (whenAttached · fun u => if u.h.phase = .idle then f u else refuse k u) = .next t) :
    t.h.phase = s.h.phase := by
  rcases attachedRow_phase h with hsame | h
  · exact hsame
  · split_ifs at h with hp
    · exact (hidle { s with ret := .done } t ((hs.idle hf hp).congr rfl) h).trans hp.symm
    · cases h
      rfl

theorem dmaErrBody_phase {s t : State} (h : dmaErrBody s = .next t) : t.h.phase = s.h.phase := by
  unfold dmaErrBody at h
  split_ifs at h
  · obtain ⟨q, _, h⟩ := withQ_eq_next h
    cases h
    rfl
  · cases h
    rfl

/-- Settles O13: a submission starts from phase Idle, an interrupt moves along an `IrqEdge`, whose conditions
name its phase by R42, and no other operation moves the phase. -/
theorem phaseTransitionGraph : Obligations.PhaseTransitionGraph := by
  intro i s t hi hinv h
  rcases s.fault.eq_none_or_eq_some.symm with ⟨k, hk⟩ | hf
  · rw [exec_faulted hk] at h
    cases h
    exact .inl rfl
  have hs := hinv.consistent hf
  cases i with
  | attach => exact .inl (exec_attach_phase hs hf h)
  | detach =>
    refine .inl (idleRow_phase hs hf (fun u v hu hv => ?_) h)
    cases hv
    exact (detachAdmitted_idle hu).phase
  | setIos width mode power hz =>
    refine .inl (idleRow_phase hs hf (fun u v hu hv => ?_) h)
    cases hw : widthOfCode width with
    | none =>
      rw [hw] at hv
      cases hv
      exact hu.phase
    | some w =>
      rw [hw] at hv
      cases hv
      exact (setIosAdmitted_idle hu w mode power hz).phase
  | request req =>
    rcases attachedRow_phase h with hsame | h
    · exact .inl hsame
    · split_ifs at h with hp
      · exact (requestAdmitted_phase h).imp_right fun hissued => .inl ⟨⟨req, rfl⟩, hp, hissued⟩
      · cases h
        exact .inl rfl
      · cases h
        exact .inl rfl
  | getCd =>
    refine .inl ((attachedRow_phase h).elim id fun h => ?_)
    cases h
    rfl
  | getRo =>
    refine .inl ((attachedRow_phase h).elim id fun h => ?_)
    cases h
    rfl
  | irq =>
    rcases attachedRow_phase h with hsame | h
    · exact .inl hsame
    · rcases irqBody_edge (by exact hf) h with hsame | hidle | ⟨hcmd, hdata, hflight⟩ | ⟨hdata, hstop, hissued⟩
      · exact .inl hsame
      · by_cases hp : s.h.phase = .idle
        · exact .inl (hidle.trans hp.symm)
        · exact .inr (.inr (.inr (.inr ⟨rfl, hp, hidle⟩)))
      · exact .inr (.inr (.inl ⟨rfl, (hs.phase.of_data hdata).2 hcmd, hdata, hflight⟩))
      · exact .inr (.inr (.inr (.inl ⟨rfl, (hs.phase.of_data hdata).1, hstop, hissued⟩)))
  | dmaErr =>
    rcases operation_eq_next h with ⟨_, rfl⟩ | ⟨_, h⟩
    · exact .inl rfl
    · exact .inl (dmaErrBody_phase (s := { s with ret := .done }) h)
  | _ => exact absurd hi Bool.false_ne_true

end Sys2Proof.Machine
end

section
/-! PROOF. BUSY_CHECK (R171; O27), the two ways a request goes on from it (R170, R172; O28, O29), and the issue of a
command with and without the pre-load (R178 to R181; O41, O42). -/

namespace Sys2Proof.Machine

/-! ### Reads of an environment register (R27) -/

/-- The state after `n` reads of `r` in a row. -/
def afterReads (r : DrawnReg) (n : Nat) (s : State) : State :=
  { s with trace := s.trace ++ (envDraws r n s.env).1.map (Event.regR (.drawn r)), env := (envDraws r n s.env).2 }

theorem afterReads_zero (r : DrawnReg) (s : State) : afterReads r 0 s = s := by simp [afterReads, envDraws]

theorem afterReads_succ (r : DrawnReg) (n : Nat) (s : State) :
    afterReads r (n + 1) s = afterReads r n (regDraw r s).2 := by
  simp [afterReads, envDraws, regDraw, emit, drawnWord]

theorem afterReads_one (r : DrawnReg) (s : State) : afterReads r 1 s = (regDraw r s).2 := by
  rw [afterReads_succ, afterReads_zero]

/-- The last of `n + 1` draws is the read after the first `n`. -/
theorem envDraws_succ_last (r : DrawnReg) : ∀ (n : Nat) (s : State),
    (envDraws r (n + 1) s.env).1 = (envDraws r n s.env).1 ++ [drawnWord r (afterReads r n s)]
  | 0, s => by rw [afterReads_zero]; rfl
  | n + 1, s => by
    rw [afterReads_succ]
    exact congrArg (drawnWord r s :: ·) (envDraws_succ_last r n (regDraw r s).2)

/-! ### BUSY_CHECK (R171) -/

theorem busyPoll_succ (n : Nat) (s : State) : busyPoll (n + 1) s =
    if busyOf s.cfg.layout (drawnWord .st1 s) then busyPoll n (regDraw .st1 s).2
    else (false, (regDraw .st1 s).2) := rfl

/-- Where every read allowed shows BUSY, the poll makes them all and is stuck. -/
theorem busyPoll_stuck : ∀ (n : Nat) (s : State),
    (∀ v ∈ (envDraws .st1 n s.env).1, busyOf s.cfg.layout v = true) →
    busyPoll n s = (true, afterReads .st1 n s)
  | 0, s, _ => by rw [afterReads_zero]; rfl
  | n + 1, s, h => by
    obtain ⟨hfirst, hrest⟩ := List.forall_mem_cons.mp h
    rw [busyPoll_succ, if_pos (by exact hfirst), busyPoll_stuck n _ hrest, afterReads_succ]

/-- The poll ends at its `(k + 1)`-th read, the first that does not show BUSY or the last that is allowed. -/
theorem busyPoll_ends (n : Nat) (s : State) : ∃ k ≤ n, ∃ stuck,
    (∀ v ∈ (envDraws .st1 k s.env).1, busyOf s.cfg.layout v = true) ∧
    busyOf s.cfg.layout (drawnWord .st1 (afterReads .st1 k s)) = stuck ∧ (stuck = true → k = n) ∧
    busyPoll (n + 1) s = (stuck, afterReads .st1 (k + 1) s) := by
  have hnone (s : State) : ∀ v ∈ (envDraws .st1 0 s.env).1, busyOf s.cfg.layout v = true := fun _ hv => nomatch hv
  induction n generalizing s with
  | zero =>
    refine ⟨0, le_rfl, _, hnone s, rfl, fun _ => rfl, ?_⟩
    rw [busyPoll_succ, afterReads_zero, afterReads_one]
    cases busyOf s.cfg.layout (drawnWord .st1 s) <;> rfl
  | succ n ih =>
    cases hb : busyOf s.cfg.layout (drawnWord .st1 s) with
    | false =>
      refine ⟨0, Nat.zero_le _, false, hnone s, by rw [afterReads_zero, hb], nofun, ?_⟩
      rw [busyPoll_succ, hb, afterReads_one]
      rfl
    | true =>
      obtain ⟨k, hk, stuck, hbusy, hlast, hall, hpoll⟩ := ih (regDraw .st1 s).2
      refine ⟨k + 1, Nat.succ_le_succ hk, stuck, List.forall_mem_cons.mpr ⟨hb, hbusy⟩, ?_,
        fun hstuck => congrArg (· + 1) (hall hstuck), ?_⟩
      · rw [afterReads_succ]
        exact hlast
      · rw [busyPoll_succ, if_pos hb, hpoll, afterReads_succ .st1 (k + 1)]

theorem exec_busyCheck_running {s : State} (hf : s.fault = none) :
    exec .busyCheck s = .next (returning (.busy (busyCheck { s with ret := .done }).1)
      (busyCheck { s with ret := .done }).2) := by
  have hrow : exec .busyCheck s =
      operation s fun s => .next (returning (.busy (busyCheck s).1) (busyCheck s).2) := rfl
  rw [hrow, operation_running hf]

/-- Settles O27: the poll ends at one read, and the reads before it showed BUSY. -/
theorem busyCheckBoundedPoll : Obligations.BusyCheckBoundedPoll := by
  intro s hf
  obtain ⟨k, hk, stuck, hbusy, hlast, hall, hpoll⟩ := busyPoll_ends s.cfg.busyPollMore { s with ret := .done }
  have hdraws := envDraws_succ_last .st1 k { s with ret := .done }
  have hcheck : busyCheck { s with ret := .done } = (stuck, afterReads .st1 (k + 1) { s with ret := .done }) := hpoll
  refine ⟨k + 1, stuck, Nat.succ_pos k, Nat.succ_le_succ hk, ?_, fun hstuck => congrArg (· + 1) (hall hstuck),
    ⟨_, ?_, hlast⟩, ?_⟩
  · rw [hdraws, List.dropLast_concat]
    exact hbusy
  · rw [hdraws, List.getLast?_concat]
  · rw [exec_busyCheck_running hf, hcheck]
    rfl

/-! ### REQUEST (R170, R172) -/

theorem exec_request_admitted {s : State} {req : BusRequest} (hf : s.fault = none) (ha : s.h.attached = true)
    (hidle : s.h.phase = .idle) (hvalid : requestValid req = true) :
    exec (.request req) s = requestAdmitted req { s with ret := .done } := by
  rw [exec_request_attached hf ha, if_pos hidle, if_pos hvalid]

/-- Settles O28: the check is stuck after its last read, and the request is never `Q`. -/
theorem requestBusyStuck : Obligations.RequestBusyStuck := by
  intro s req hf ha hidle hvalid draws hbusy
  have hcheck : busyCheck { s with ret := .done } =
      (true, afterReads .st1 s.cfg.busyPollMax { s with ret := .done }) := busyPoll_stuck _ _ hbusy
  refine ⟨.done, ?_⟩
  rw [exec_request_admitted hf ha hidle hvalid, requestAdmitted, hcheck]
  rfl

/-- Settles O29: the parts hand on the state with `ret` as each row sets it at its start, which PREPARE keeps. -/
theorem requestRunsItsParts : Obligations.RequestRunsItsParts := by
  intro s u v req hf ha hidle hvalid hbusy hret hprepare hok
  rw [exec_busyCheck_running hf] at hbusy
  obtain rfl := Host.Outcome.next.inj hbusy
  have hclear : (busyCheck { s with ret := .done }).1 = false := Ret.busy.inj hret
  set w := (busyCheck { s with ret := .done }).2 with hw
  have hframe : w = { s with trace := w.trace, env := w.env, ret := .done } := by rw [hw, busyCheck, busyPoll_frame]
  have hrunning : w.fault = none := by rw [hframe]; exact hf
  have hdone : w.ret = .done := by rw [hframe]
  have hprepared : prepare { w with q := some (accepted req), h := { w.h with doDma := false } } = .next v := by
    rw [exec_prepare_running (by exact hrunning), ← hdone] at hprepare
    exact hprepare
  have hdone' : v.ret = .done := (prepare_phase_ret hprepared).2.trans hdone
  rw [exec_request_admitted hf ha hidle hvalid, requestAdmitted, hclear, if_neg Bool.false_ne_true, submit, hprepared,
    andThen_next hok, exec_cmdStart_running hok, ← hdone']

/-! ### CMD_START (R178 to R181) -/

/-- The writes after the pre-load, field by field. -/
theorem issue_eq (slot : Slot) (arg w im : Word) (s : State) : issue slot arg w im s = { s with
    regs := { s.regs with arg := arg, cmd := w, im := im }
    h := { s.h with phase := phaseOfSlot slot }
    trace := s.trace ++ [.regW .arg arg, .regW .cmd w, .regW .im im] } := by
  simp [issue, regWrite, emit, Regs.set]

theorem phaseOfSlot_eq (slot : Slot) : phaseOfSlot slot = if slot = .main then .commandIssued else .stopIssued := by
  cases slot <;> rfl

theorem preloads_iff {s : State} :
    preloads s = true ↔ s.h.data = true ∧ s.h.doDma = false ∧ s.h.dataDir = some .write := by
  simp [preloads, State.pioActive, and_assoc]

/-- Settles O41: no pre-load is due, and `issue` writes after TOR. -/
theorem cmdStartIssuesCommand : Obligations.CmdStartIssuesCommand := by
  intro s slot q c hf hq hslot hnone w
  set s₁ : State := { s with ret := .done }
  have hpre : preloads s₁ = false := by
    change preloads s = false
    rw [Bool.eq_false_iff, ne_eq, preloads_iff]
    rintro ⟨hdata, hdma, hdir⟩
    simp [hdata, hdma, hdir] at hnone
  rw [exec_cmdStart_running hf, cmdStart_unloaded (s := s₁) hf hq (InFlight.command_eq_some hslot) hpre, issue_eq,
    phaseOfSlot_eq]
  simp only [regWrite, emit, Regs.set, List.append_assoc]
  rfl

/-- CMD_START where a pre-load is due: TOR, the words as they stand then, the pre-load, and the three writes and the
phase after it (R178, R180). -/
theorem cmdStart_preloaded {slot : Slot} {s x : State} {q : InFlight} {c : Command} (hq : s.q = some q)
    (hc : q.command slot = some c) (hpre : preloads s = true)
    (hx : pioXfer s.threshold (regWrite .tor (value16 CTO_MAX) { s with h := { s.h with cmd := some slot } }) = .next x)
    (hok : x.fault = none) :
    cmdStart slot s = .next (issue slot c.arg (commandWord q c s) (armedMask s) x) := by
  have hpre' : preloads (regWrite .tor (value16 CTO_MAX) { s with h := { s.h with cmd := some slot } }) = true :=
    hpre
  rw [cmdStart, withQ_some hq, hc]
  simp only [hpre', if_true]
  rw [← andThen_next hok fun x => .next (issue slot c.arg (commandWord q c s) (armedMask s) x), ← hx]
  rfl

/-- Settles O42: the pre-load is one movement of a WRITE inside its segment, between TOR and `issue`. -/
theorem cmdStartPreloadsPioWrite : Obligations.CmdStartPreloadsPioWrite := by
  intro s slot q c d hf hq hslot hdata hdma hdir hd hseg hspace w m wd
  set s₁ : State := { s with ret := .done }
  set u := regWrite .tor (value16 CTO_MAX) { s₁ with h := { s₁.h with cmd := some slot } }
  have hmove := (pioXfer_eq_pioMove (s := u) (n := s₁.threshold) hf hq hd hdir hseg).trans (pioMove_write hf hspace)
  have hpre : preloads s₁ = true := preloads_iff.mpr ⟨hdata, hdma, hdir⟩
  rw [exec_cmdStart_running hf, cmdStart_preloaded (s := s₁) hq (InFlight.command_eq_some hslot) hpre hmove hf,
    issue_eq, phaseOfSlot_eq]
  rfl

end Sys2Proof.Machine
end

section
/-! PROOF. The classification rules by themselves (R195 to R200; O45, O46, O47), DMA_ERR (R206; O49) and the
soft-reset pulse (R202; O50). A rule has one equation for what it does where its event is seen and one for
where nothing is in flight; a row presents its word, which shows its event, and is then its rule. -/

namespace Sys2Proof.Machine

/-! ### The events of a status word (R103) -/

/-- The named events of ST0 lie inside the word and apart from one another. -/
theorem Layout.ok_status {l : Layout} (hl : l.ok = true) :
    (∀ p ∈ l.statusBits, p < 32) ∧ l.statusBits.Nodup := by
  obtain ⟨hlt, hnodup, _⟩ := Layout.ok_register hl (low := l.low.st0) (ps := l.statusBits)
    (by simp [Layout.registers])
  exact ⟨hlt, hnodup⟩

theorem Layout.crcwr_ne_crcrd {l : Layout} (hl : l.ok = true) : l.crcwr ≠ l.crcrd := by
  intro heq
  simpa [Layout.statusBits, heq] using (Layout.ok_status hl).2

/-- The word an ST0 row presents shows the row's event. -/
theorem eventAt_presented {l : Layout} (hl : l.ok = true) (w : Word) {p : Nat} (hp : p ∈ l.statusBits) :
    eventAt l (withEvent l w p) p = true :=
  eventAt_withEvent_self l w ((Layout.ok_status hl).1 p hp)

/-! ### What each rule does where nothing is in flight -/

section
variable {s : State}

theorem ruleDataDone_noData (hd : s.h.data = false) : ruleDataDone s = .next s := by
  simp [ruleDataDone, hd]

theorem ruleDataTimeout_noData (hd : s.h.data = false) : ruleDataTimeout s = .next s := by
  simp [ruleDataTimeout, hd]

theorem ruleDataCrc_noData (hd : s.h.data = false) : ruleDataCrc s = .next s := by
  simp [ruleDataCrc, hd]

theorem ruleCommandTimeout_noCommand (hc : s.h.cmd = none) : ruleCommandTimeout s = .next s := by
  simp [ruleCommandTimeout, hc]

theorem ruleCommandCrc_noCommand (hc : s.h.cmd = none) : ruleCommandCrc s = .next s := by
  simp [ruleCommandCrc, hc]

theorem ruleCommandDone_noCommand (hc : s.h.cmd = none) : ruleCommandDone s = .next s := by
  simp [ruleCommandDone, hc]

/-! ### What each rule does where its event is seen -/

/-- Rule 1: the drain where one is due, then the total (R195). -/
theorem ruleDataDone_seen (he : s.combined.datdne = true) (hd : s.h.data = true) :
    ruleDataDone s = andThen (if residualDue s then pioXfer s.h.bytesLeft s else .next s) countData := by
  simp [ruleDataDone, he, hd]

theorem countData_some {q : InFlight} {d : DataPhase} (hq : s.q = some q) (hqd : q.req.data = some d) :
    countData s = .next { s with
      q := some { q with result := { q.result with bytesXfered := q.result.bytesXfered + dataTotal d } }
      irq := { s.irq with endXfer := true } } := withData_some hq hqd _

theorem residualDue_iff : residualDue s = true ↔ s.h.doDma = false ∧ s.h.dataDir = some .read ∧
    0 < s.h.bytesLeft ∧ s.h.bytesLeft < s.threshold := by
  simp [residualDue, and_assoc]

/-- Rule 2: the data error is a timeout (R196). -/
theorem ruleDataTimeout_seen {q : InFlight} (he : s.combined.toutrd = true) (hd : s.h.data = true)
    (hq : s.q = some q) : ruleDataTimeout s =
      .next (raiseNeedReset (raiseEndXfer (setResult q { q.result with dataError := .timeout } s))) := by
  simp only [ruleDataTimeout, he, hd, Bool.and_self, if_true, withQ_some hq]

/-- Rule 3: the data error is of the kind that the write bit and DRSP give (R197). -/
theorem ruleDataCrc_seen {q : InFlight} (he : (s.combined.crcwr || s.combined.crcrd) = true)
    (hd : s.h.data = true) (hq : s.q = some q) : ruleDataCrc s =
      .next (raiseNeedReset (raiseEndXfer
        (setResult q { q.result with dataError := (dataCrcKind s).1 } (dataCrcKind s).2))) := by
  simp only [ruleDataCrc, he, hd, Bool.and_self, if_true, withQ_some hq]

/-- With the write bit DRSP is read, and the sentinel makes the kind a timeout (R197). -/
theorem dataCrcKind_write (he : s.combined.crcwr = true) : dataCrcKind s =
    (if (drawnWord .drsp s).setWidth 8 = s.cfg.drspSentinel then .timeout else .crc, (regDraw .drsp s).2) := by
  simp only [dataCrcKind, he, if_true]
  rfl

/-- Without the write bit DRSP is not read (R197). -/
theorem dataCrcKind_read (he : s.combined.crcwr = false) : dataCrcKind s = (.crc, s) := by
  simp [dataCrcKind, he]

/-- Rule 4: the command's error is a timeout, and it ends the data phase where one is attached (R198). -/
theorem ruleCommandTimeout_seen {q : InFlight} {slot : Slot} (he : s.combined.toutrs = true)
    (hc : s.h.cmd = some slot) (hq : s.q = some q) : ruleCommandTimeout s =
      .next (raiseNeedReset (if s.h.data
        then raiseEndXfer (setResult q (q.result.setError slot .timeout) s)
        else raiseEndCmd (setResult q (q.result.setError slot .timeout) s))) := by
  simp only [ruleCommandTimeout, hc, he, if_true, withQ_some hq]
  rfl

/-- Rule 5 at or below HS_CRC_HZ: the command's error is CRC, and it ends the command (R199). -/
theorem ruleCommandCrc_seen {q : InFlight} {slot : Slot} (he : s.combined.crcrs = true)
    (hhz : s.h.busClockHz ≤ s.cfg.hsCrcHz) (hc : s.h.cmd = some slot) (hq : s.q = some q) :
    ruleCommandCrc s =
      .next (raiseNeedReset (raiseEndCmd (setResult q (q.result.setError slot .crc) s))) := by
  simp only [ruleCommandCrc, hc, he, hhz, decide_true, Bool.and_self, if_true, withQ_some hq]

/-- Rule 5 above HS_CRC_HZ does nothing (R199). -/
theorem ruleCommandCrc_highSpeed (hhz : s.cfg.hsCrcHz < s.h.busClockHz) : ruleCommandCrc s = .next s := by
  cases hc : s.h.cmd with
  | none => exact ruleCommandCrc_noCommand hc
  | some slot => simp [ruleCommandCrc, hc, Nat.not_le.mpr hhz]

/-- Rule 6 ends the command (R200). -/
theorem ruleCommandDone_seen {slot : Slot} (he : s.combined.rspdne = true) (hc : s.h.cmd = some slot) :
    ruleCommandDone s = .next (raiseEndCmd s) := by
  simp [ruleCommandDone, he, hc]

end

/-! ### The rows -/

/-- What a row sees when its rule begins: its word with its event as both status words (entry 18). -/
theorem operation_presented {s : State} (hf : s.fault = none) (rule : State → Answer) (w : Word)
    (p : Layout → Nat) :
    operation s (fun s => rule (presentStatus w (p s.cfg.layout) s)) = rule { s with
      irq := { s.irq with s := withEvent s.cfg.layout w (p s.cfg.layout),
                          q := withEvent s.cfg.layout w (p s.cfg.layout) }
      ret := .done } := operation_running hf _

/-- Settles O45: the row is rule 1 with its event seen; what comes before the count is the drain exactly where
one is due, and the drain is the row PIO_XFER of what is left. -/
theorem statusDataDone : Obligations.StatusDataDone := by
  intro s w hl hf word p
  have hrow : exec (.stDatdne w) s = ruleDataDone p := operation_presented hf ruleDataDone w (·.datdne)
  have hseen : p.combined.datdne = true := eventAt_presented hl w (by simp [Layout.statusBits])
  refine ⟨fun hd => hrow.trans (ruleDataDone_noData hd), ?_⟩
  intro q d hd hq hqd q' residual
  have hdrain : exec (.stDatdne w) s = _ := hrow.trans (ruleDataDone_seen hseen hd)
  refine ⟨fun hno => ?none, fun hres u hu hok => ?drain⟩
  case none =>
    rw [hdrain, if_neg (mt (residualDue_iff (s := p)).mp hno), andThen_next (by exact hf)]
    exact countData_some hq hqd
  case drain =>
    have hx : pioXfer p.h.bytesLeft p = .next u :=
      (exec_pioXfer_running (s := p) hf hres.2.2.1).symm.trans hu
    have hqu : u.q = some q :=
      (congrArg (·.2.1) (pioXfer_control (s := p) hf hx hok).2).trans hq
    rw [hdrain, if_pos ((residualDue_iff (s := p)).mpr hres), hx, andThen_next hok]
    exact countData_some hqu hqd

/-- Settles O46: the rows are rules 2 and 3; the row ST_CRCRD shows the write bit exactly where its word did. -/
theorem statusDataErrors : Obligations.StatusDataErrors := by
  intro s w hl hf l seen
  have htoutrd : exec (.stToutrd w) s = ruleDataTimeout (seen l.toutrd) :=
    operation_presented hf ruleDataTimeout w (·.toutrd)
  have hcrcwr : exec (.stCrcwr w) s = ruleDataCrc (seen l.crcwr) :=
    operation_presented hf ruleDataCrc w (·.crcwr)
  have hcrcrd : exec (.stCrcrd w) s = ruleDataCrc (seen l.crcrd) :=
    operation_presented hf ruleDataCrc w (·.crcrd)
  have hshows {p : Nat} (hp : p ∈ l.statusBits) : eventAt l (withEvent l w p) p = true :=
    eventAt_presented hl w hp
  refine ⟨fun hd => ⟨htoutrd.trans (ruleDataTimeout_noData hd), hcrcwr.trans (ruleDataCrc_noData hd),
    hcrcrd.trans (ruleDataCrc_noData hd)⟩, ?_⟩
  intro q hd hq ended b kind wrote
  have hwrote (p : Nat) (hwr : (seen p).combined.crcwr = true) :
      ruleDataCrc (seen p) = .next (wrote p) := by
    rw [ruleDataCrc_seen (s := seen p) (by rw [hwr, Bool.true_or]) hd hq, dataCrcKind_write hwr]
    rfl
  have hkeeps : (seen l.crcrd).combined.crcwr = eventAt l w l.crcwr :=
    eventAt_withEvent_ne l w (Layout.crcwr_ne_crcrd hl)
  have hread : (seen l.crcrd).combined.crcrd = true := hshows (by simp [Layout.statusBits])
  refine ⟨?timeout, ?write, fun hno => ?read, fun hwr => ?both⟩
  case timeout =>
    exact htoutrd.trans (ruleDataTimeout_seen (s := seen l.toutrd) (hshows (by simp [Layout.statusBits])) hd hq)
  case write => exact hcrcwr.trans (hwrote _ (hshows (by simp [Layout.statusBits])))
  case read =>
    rw [hcrcrd, ruleDataCrc_seen (s := seen l.crcrd) (by rw [hread, Bool.or_true]) hd hq,
      dataCrcKind_read (hkeeps.trans hno)]
    rfl
  case both => exact hcrcrd.trans (hwrote _ (hkeeps.trans hwr))

/-- Settles O47: the rows are rules 4, 5 and 6. -/
theorem statusCommandEvents : Obligations.StatusCommandEvents := by
  intro s w hl hf l seen
  have htoutrs : exec (.stToutrs w) s = ruleCommandTimeout (seen l.toutrs) :=
    operation_presented hf ruleCommandTimeout w (·.toutrs)
  have hcrcrs : exec (.stCrcrs w) s = ruleCommandCrc (seen l.crcrs) :=
    operation_presented hf ruleCommandCrc w (·.crcrs)
  have hrspdne : exec (.stRspdne w) s = ruleCommandDone (seen l.rspdne) :=
    operation_presented hf ruleCommandDone w (·.rspdne)
  have hshows {p : Nat} (hp : p ∈ l.statusBits) : eventAt l (withEvent l w p) p = true :=
    eventAt_presented hl w hp
  refine ⟨fun hc => ⟨htoutrs.trans (ruleCommandTimeout_noCommand hc), hcrcrs.trans (ruleCommandCrc_noCommand hc),
    hrspdne.trans (ruleCommandDone_noCommand hc)⟩, ?_⟩
  intro q slot hc hq failed
  have hfailed (k : ErrorKind) : some { q with result := q.result.setError slot k } = failed k := by
    cases slot <;> rfl
  have htimeout : exec (.stToutrs w) s = _ :=
    htoutrs.trans (ruleCommandTimeout_seen (s := seen l.toutrs) (hshows (by simp [Layout.statusBits])) hc hq)
  refine ⟨fun hd => ?endsData, fun hd => ?endsCommand, fun hhz => ?crc, fun hhz => ?highSpeed, ?done⟩
  case endsData =>
    rw [htimeout, if_pos hd, ← hfailed]
    rfl
  case endsCommand =>
    rw [htimeout, if_neg (by simp [seen, hd]), ← hfailed]
    rfl
  case crc =>
    rw [hcrcrs, ruleCommandCrc_seen (s := seen l.crcrs) (hshows (by simp [Layout.statusBits])) hhz hc hq, ← hfailed]
    rfl
  case highSpeed => exact hcrcrs.trans (ruleCommandCrc_highSpeed hhz)
  case done =>
    exact hrspdne.trans (ruleCommandDone_seen (s := seen l.rspdne) (hshows (by simp [Layout.statusBits])) hc)

/-! ### DMA_ERR (R206) -/

theorem exec_dmaErr_running {s : State} (hf : s.fault = none) :
    exec .dmaErr s = dmaErrBody { s with ret := .done } := operation_running hf dmaErrBody

/-- Settles O49: the mark is set under the two conditions of R206 and nothing is changed without them. -/
theorem dmaErrMarksTransfer : Obligations.DmaErrMarksTransfer := by
  refine fun s hf => ⟨fun hidle => ⟨.done, ?idle⟩, fun q hd hdma hq => ⟨.done, ?marked⟩⟩
  case idle =>
    rw [exec_dmaErr_running hf, dmaErrBody, if_neg]
    rcases hidle with h | h <;> simp [h]
  case marked =>
    rw [exec_dmaErr_running hf, dmaErrBody, if_pos (by simp [hd, hdma])]
    exact withQ_some (s := { s with ret := .done }) hq _

/-! ### SOFT_RESET (R202) -/

/-- The whole next state of the pulse: the word read once, asserted, and released from that same word. -/
theorem softReset_eq (s : State) : softReset s = { s with
    regs := { s.regs with ctl := releaseResets s.cfg.layout s.regs.ctl }
    trace := s.trace ++ [.regR (.stored .ctl) s.regs.ctl, .regW .ctl (assertResets s.cfg.layout s.regs.ctl),
      .delay s.cfg.tReset, .regW .ctl (releaseResets s.cfg.layout s.regs.ctl)] } := by
  simp [softReset, regRead, regWrite, delay, emit, Regs.get, Regs.set]

/-- Settles O50: the row is `softReset`, and its two words are the update of the fields written out. -/
theorem softResetPulse : Obligations.SoftResetPulse := by
  refine ⟨by decide, ?_⟩
  intro s hf both low v
  refine ⟨.done, ?_⟩
  have hrow : exec .softReset s = .next (softReset { s with ret := .done }) :=
    operation_running hf fun s => .next (softReset s)
  rw [hrow, softReset_eq]
  rfl

end Sys2Proof.Machine
end

section
/-! PROOF. The FIFO service loop turn by turn (R192; O48). A turn is one PIO call and one read of ST0. The loop has
turns enough (entry 23), so that what follows a turn is the loop again; and no turn reads the combined status, so
that the words seen before are gathered into it before the rest of the loop as well as after. -/

namespace Sys2Proof.Machine

/-! ### Turns enough (R192, R289; entry 23) -/

theorem threshold_pos (s : State) : 0 < s.threshold := by
  unfold State.threshold
  cases s.cfg.threshold <;> decide

theorem segmentCount_eq {s : State} {q : InFlight} {d : DataPhase} (hq : s.q = some q)
    (hd : q.req.data = some d) : segmentCount s = d.sg.length := by
  simp [segmentCount, hq, hd]

/-- What bounds the turns still to come: the bytes left and the segments not yet entered. -/
def turnsLeft (s : State) : Nat := s.h.bytesLeft + (segmentCount s - s.h.sgIdx)

theorem turnsLeft_le_serviceFuel (s : State) : turnsLeft s ≤ serviceFuel s := by
  unfold turnsLeft serviceFuel
  omega

/-- A PIO call that raised no fault moves a byte, or enters a segment. -/
theorem pioXfer_turnsLeft {n : Nat} {s t : State} (hf : s.fault = none) (hn : 0 < n)
    (hleft : 0 < s.h.bytesLeft) (h : pioXfer n s = .next t) (ht : t.fault = none) :
    turnsLeft t < turnsLeft s := by
  obtain ⟨q, d, dir, hq, hd, _, ⟨_, _, _, rfl⟩ | ⟨u, hu, hok, hm⟩⟩ := pioXfer_eq_next hf h
  · cases ht
  have hframe := pioMove_frame hok hm
  have hcount : segmentCount t = segmentCount u := by rw [hframe]; rfl
  have hidx : t.h.sgIdx = u.h.sgIdx := by rw [hframe]
  have hbytes : t.h.bytesLeft = u.h.bytesLeft - min n u.h.segLeft := by rw [hframe]; rfl
  have hsegs : segmentCount s = d.sg.length := segmentCount_eq hq hd
  unfold turnsLeft
  rw [hcount, hidx, hbytes]
  rcases pioAdvance_eq_next hu with ⟨hseg, rfl⟩ | ⟨_, _, _, rfl⟩ | ⟨_, g, hg, rfl⟩
  · omega
  · cases hok
  · have hentered : s.h.sgIdx + 1 < d.sg.length := (List.getElem?_eq_some_iff.mp hg).1
    have hsame : ∀ h : HostState, segmentCount { s with h := h } = segmentCount s := fun _ => rfl
    rw [hsame, hsegs]
    dsimp only
    omega

theorem serviceDue_iff {s : State} : serviceDue s = true ↔
    fifoReady s.lastStatus = true ∧ 0 < s.h.bytesLeft ∧ s.h.data = true ∧ s.h.doDma = false := by
  simp [serviceDue, pioActive_iff, and_assoc]

/-- Fewer turns are left after a turn that raised no fault. -/
theorem turnsLeft_turn {s u : State} (hf : s.fault = none) (hdue : serviceDue s = true)
    (hx : pioXfer s.threshold s = .next u) (hok : u.fault = none) :
    turnsLeft (accumulate (readStatus u)) < turnsLeft s := by
  obtain ⟨_, hleft, _⟩ := serviceDue_iff.mp hdue
  have hmoved : turnsLeft u < turnsLeft s := pioXfer_turnsLeft hf (threshold_pos s) hleft hx hok
  exact hmoved

theorem serviceLoop_notDue {fuel : Nat} {s : State} (h : serviceDue s = false) :
    serviceLoop fuel s = .next s := by
  cases fuel <;> simp [serviceLoop, h]

/-- A turn whose PIO call raised no fault, and then the rest of the loop. -/
theorem serviceLoop_turn {fuel : Nat} {s u : State} (hdue : serviceDue s = true)
    (hx : pioXfer s.threshold s = .next u) (hok : u.fault = none) :
    serviceLoop (fuel + 1) s = serviceLoop fuel (accumulate (readStatus u)) := by
  rw [serviceLoop, if_pos hdue, hx, andThen_next hok]

/-- Any two bounds that leave turns enough give the same run. -/
theorem serviceLoop_fuel : ∀ {fuel fuel' : Nat} {s : State}, s.fault = none → turnsLeft s ≤ fuel →
    turnsLeft s ≤ fuel' → serviceLoop fuel s = serviceLoop fuel' s := by
  intro fuel
  induction fuel with
  | zero =>
    intro fuel' s _ h _
    have hnone : s.h.bytesLeft = 0 := by unfold turnsLeft at h; omega
    have hdue : serviceDue s = false := by simp [serviceDue, hnone]
    rw [serviceLoop_notDue hdue, serviceLoop_notDue hdue]
  | succ fuel ih =>
    intro fuel' s hf h h'
    cases hdue : serviceDue s with
    | false => rw [serviceLoop_notDue hdue, serviceLoop_notDue hdue]
    | true =>
      obtain ⟨_, hleft, _⟩ := serviceDue_iff.mp hdue
      have hmore : 0 < turnsLeft s := Nat.lt_of_lt_of_le hleft (Nat.le_add_right _ _)
      obtain ⟨fuel', rfl⟩ : ∃ n, fuel' = n + 1 := Nat.exists_eq_succ_of_ne_zero (by omega)
      rw [serviceLoop, serviceLoop, if_pos hdue, if_pos hdue]
      cases hx : pioXfer s.threshold s with
      | fault r => rfl
      | refused r => rfl
      | next u =>
        cases hok : u.fault with
        | some k => rw [andThen_halted hok, andThen_halted hok]
        | none =>
          have hless := turnsLeft_turn hf hdue hx hok
          rw [andThen_next hok, andThen_next hok]
          exact ih hok (by omega) (by omega)

/-! ### One turn of the row (R192) -/

theorem fifoService_notDue {s : State} (h : serviceDue s = false) : fifoService s = .next s :=
  serviceLoop_notDue h

/-- After a turn the row goes on as if it began there. -/
theorem fifoService_turn {s u : State} (hf : s.fault = none) (hdue : serviceDue s = true)
    (hx : pioXfer s.threshold s = .next u) (hok : u.fault = none) :
    fifoService s = fifoService (accumulate (readStatus u)) := by
  have hless := turnsLeft_turn hf hdue hx hok
  have hbound := turnsLeft_le_serviceFuel s
  rw [fifoService, serviceFuel, serviceLoop_turn hdue hx hok]
  rw [serviceFuel] at hbound
  exact serviceLoop_fuel hok (by omega) (turnsLeft_le_serviceFuel _)

/-- What is there after the read of ST0 that ends a turn. -/
theorem accumulate_readStatus (u : State) : accumulate (readStatus u) = { u with
    trace := u.trace ++ [.regR (.drawn .st0) (drawnWord .st0 u)]
    env := envAfterWord .st0 u.env
    irq := { u.irq with
      s := drawnWord .st0 u
      q := bothEvents u.cfg.layout u.irq.q (drawnWord .st0 u) } } := rfl

/-! ### The flags of IRQ under a PIO call (R60, R160) -/

/-- The state with these flags. -/
def withFlags (x : IrqLocal) (s : State) : State := { s with irq := x }

/-- With other flags `f` answers the same next state, with those flags. -/
def FlagBlind (f : State → Answer) : Prop :=
  ∀ (x : IrqLocal) (s t : State), f s = .next t → f (withFlags x s) = .next (withFlags x t)

theorem FlagBlind.andThen {f g : State → Answer} (hf : FlagBlind f) (hg : FlagBlind g) :
    FlagBlind fun s => andThen (f s) g := by
  intro x s t h
  obtain ⟨u, hu, hcases⟩ := andThen_eq_next h
  dsimp only
  rw [hf x s u hu]
  rcases hcases with ⟨hbad, rfl⟩ | ⟨hok, hr⟩
  · obtain ⟨k, hk⟩ := Option.ne_none_iff_exists'.mp hbad
    exact andThen_halted (s := withFlags x t) hk g
  · exact (andThen_next (s := withFlags x u) hok g).trans (hg x u t hr)

theorem flagBlind_pioAccess (dir : Dir) (w : Width) (a : Nat) : FlagBlind (pioAccess dir w a) := by
  intro x s t h
  unfold pioAccess at h ⊢
  split_ifs at h ⊢
  cases dir <;> cases h <;> rfl

theorem flagBlind_pioAccesses (dir : Dir) (w : Width) : ∀ n a, FlagBlind (pioAccesses dir w n a)
  | 0, _ => fun _ _ _ h => by cases h; rfl
  | n + 1, a => (flagBlind_pioAccess dir w a).andThen (flagBlind_pioAccesses dir w n (a + w.bytes))

theorem flagBlind_pioAdvance (d : DataPhase) : FlagBlind (pioAdvance d) := by
  intro x s t h
  rcases pioAdvance_eq_next h with ⟨hseg, rfl⟩ | ⟨hseg, hleft, hend, rfl⟩ | ⟨hseg, g, hg, rfl⟩
  · exact if_neg hseg
  · exact pioAdvance_past_end (s := withFlags x s) hseg hleft hend
  · exact pioAdvance_next_segment (s := withFlags x s) hseg hg

theorem flagBlind_pioMove (dir : Dir) (n : Nat) : FlagBlind (pioMove dir n) := fun x s =>
  (flagBlind_pioAccesses dir _ _ _).andThen
    (g := fun u => .next (pioCount (pioChunk n s) u)) (fun _ _ _ h => by cases h; rfl) x s

theorem flagBlind_pioXfer (n : Nat) : FlagBlind (pioXfer n) := by
  intro x s t h
  obtain ⟨q, d, hq, hd, h⟩ := withData_eq_next h
  obtain ⟨dir, hdir, h⟩ := withDir_eq_next h
  rw [pioXfer, withData_some (by exact hq) hd, withDir_some (by exact hdir)]
  exact (flagBlind_pioAdvance d).andThen (flagBlind_pioMove dir n) x s t h

/-! ### Gathering a word before or after the loop (R192) -/

/-- The events of `word` gathered into the combined status. -/
def gather (word : Word) (s : State) : State :=
  { s with irq := { s.irq with q := bothEvents s.cfg.layout word s.irq.q } }

theorem pioXfer_gather {n : Nat} {s t : State} (hf : s.fault = none) (word : Word)
    (h : pioXfer n s = .next t) : pioXfer n (gather word s) = .next (gather word t) := by
  have hkeeps : t.irq = s.irq ∧ t.cfg = s.cfg := by
    rcases pioXfer_frame hf h with rfl | hframe
    · exact ⟨rfl, rfl⟩
    · rw [hframe]
      exact ⟨rfl, rfl⟩
  have hflags : withFlags (gather word s).irq t = gather word t := by
    simp only [withFlags, gather, hkeeps]
  exact hflags ▸ flagBlind_pioXfer n (gather word s).irq s t h

theorem accumulate_readStatus_gather (word : Word) (u : State) :
    accumulate (readStatus (gather word u)) = gather word (accumulate (readStatus u)) := by
  have hassoc := bothEvents_assoc u.cfg.layout word u.irq.q (drawnWord .st0 u)
  rw [accumulate_readStatus, accumulate_readStatus]
  simp only [gather, ← hassoc]
  rfl

/-- A word gathered before the loop is one gathered after it. -/
theorem serviceLoop_gather (word : Word) : ∀ (fuel : Nat) {s t : State}, s.fault = none →
    serviceLoop fuel s = .next t → serviceLoop fuel (gather word s) = .next (gather word t)
  | 0, _, _, _, h => by cases h; rfl
  | fuel + 1, s, t, hf, h => by
    rcases serviceLoop_succ h with ⟨hdue, rfl⟩ | ⟨hdue, u, hu, hcases⟩
    · exact serviceLoop_notDue (s := gather word t) hdue
    · have hturn : pioXfer (gather word s).threshold (gather word s) = .next (gather word u) :=
        pioXfer_gather hf word hu
      rcases hcases with ⟨hbad, rfl⟩ | ⟨hok, hr⟩
      · obtain ⟨k, hk⟩ := Option.ne_none_iff_exists'.mp hbad
        rw [serviceLoop, if_pos (by exact hdue), hturn]
        exact andThen_halted (s := gather word t) hk _
      · rw [serviceLoop_turn (s := gather word s) hdue hturn hok, accumulate_readStatus_gather]
        exact serviceLoop_gather word fuel hok hr

theorem fifoService_gather {s t : State} (hf : s.fault = none) (word : Word) (h : fifoService s = .next t) :
    fifoService (gather word s) = .next (gather word t) := serviceLoop_gather word (serviceFuel s) hf h

/-! ### The turns of a row -/

theorem pioXfer_ret {n : Nat} {s t : State} (hf : s.fault = none) (h : pioXfer n s = .next t)
    (ht : t.fault = none) : t.ret = s.ret := by
  rcases pioXfer_frame hf h with rfl | hframe
  · cases ht
  · rw [hframe]

/-- A turn after which no byte is left, or no FIFO-ready event is seen, is the last. -/
theorem fifoService_lastTurn {s u : State} (hf : s.fault = none) (hdue : serviceDue s = true)
    (hx : pioXfer s.threshold s = .next u) (hok : u.fault = none)
    (hend : u.h.bytesLeft = 0 ∨ fifoReady (statusOf u.cfg.layout (drawnWord .st0 u)) = false) :
    fifoService s = .next (accumulate (readStatus u)) := by
  have hover : serviceDue (accumulate (readStatus u)) = false := by
    rcases hend with hnone | hquiet
    · simp [serviceDue, hnone]
    · simp [serviceDue, State.lastStatus, hquiet]
  rw [fifoService_turn hf hdue hx hok, fifoService_notDue hover]

/-- What follows a turn is the service of the new word alone, with the words seen before gathered in. -/
theorem fifoService_goesOn {s u t : State} (hf : s.fault = none) (hdue : serviceDue s = true)
    (hx : pioXfer s.threshold s = .next u) (hok : u.fault = none)
    (hrest : fifoService { readStatus u with
      irq := { u.irq with s := drawnWord .st0 u, q := drawnWord .st0 u } } = .next t) :
    fifoService s = .next (gather u.irq.q t) := by
  rw [fifoService_turn hf hdue hx hok]
  exact fifoService_gather (by exact hok) u.irq.q hrest

/-- The last chunk of a transfer is one call inside its segment, which leaves nothing. -/
theorem pioXfer_lastChunk {n : Nat} {s : State} {q : InFlight} {d : DataPhase} {dir : Dir}
    (hf : s.fault = none) (hq : s.q = some q) (hd : q.req.data = some d) (hdir : s.h.dataDir = some dir)
    (hseg : 0 < s.h.segLeft) (hlast : s.h.segLeft = s.h.bytesLeft) (hn : s.h.bytesLeft ≤ n)
    (hspace : s.h.bufPtr + s.h.segLeft ≤ 2 ^ 32) :
    ∃ u, pioXfer n s = .next u ∧ u.fault = none ∧ u.h.bytesLeft = 0 := by
  have hchunk : pioChunk n s = s.h.bytesLeft := (min_eq_right (hlast ▸ hn)).trans hlast
  have hinside : s.h.bufPtr + pioChunk n s ≤ 2 ^ ADDR_WIDTH := by
    rw [hchunk, ← hlast]
    exact hspace
  obtain ⟨u, hu⟩ := pioMove_next (dir := dir) hf hinside
  have hframe := pioMove_frame hf hu
  refine ⟨u, (pioXfer_eq_pioMove hf hq hd hdir hseg).trans hu, ?_, ?_⟩
  · rw [hframe]
    exact hf
  · rw [hframe, hchunk]
    exact Nat.sub_self _

/-! ### The rows ST_DXRDY and ST_DRRDY -/

/-- The row of a word that already shows its event, from a state with no fault. -/
theorem operation_fifoService_shown {s : State} (hf : s.fault = none) (w : Word) {p : Layout → Nat}
    (he : eventAt s.cfg.layout w (p s.cfg.layout) = true) :
    operation s (fun s => fifoService (presentStatus w (p s.cfg.layout) s)) =
      fifoService { s with irq := { s.irq with s := w, q := w }, ret := .done } := by
  rw [operation_presented hf, withEvent_of_eventAt _ he]

/-- Settles O48: the row is the service of its word. Where a turn is the last the row is over; where it is not, the
rest is the row of the new word with the word of this row gathered in. -/
theorem statusFifoReady : Obligations.StatusFifoReady := by
  intro s w i pos hl hf hi l word p
  have hrow : exec i s = fifoService p := by
    rcases hi with ⟨rfl, rfl⟩ | ⟨rfl, rfl⟩
    · exact operation_presented hf fifoService w (·.dxrdy)
    · exact operation_presented hf fifoService w (·.drrdy)
  have hready : fifoReady p.lastStatus = true := by
    rcases hi with ⟨_, rfl⟩ | ⟨_, rfl⟩
    · exact Bool.or_eq_true_iff.mpr (.inl (eventAt_presented hl w (by simp [Layout.statusBits])))
    · exact Bool.or_eq_true_iff.mpr (.inr (eventAt_presented hl w (by simp [Layout.statusBits])))
  have hdue (hleft : 0 < s.h.bytesLeft) (hd : s.h.data = true) (hdma : s.h.doDma = false) :
      serviceDue p = true := serviceDue_iff.mpr ⟨hready, hleft, hd, hdma⟩
  have hcall : exec (.pioXfer s.threshold) p = pioXfer p.threshold p :=
    exec_pioXfer_running (s := p) hf (threshold_pos s)
  have hkeeps {u : State} (hu : exec (.pioXfer s.threshold) p = .next u) (hok : u.fault = none) :
      u.irq = p.irq ∧ u.cfg = s.cfg ∧ u.ret = .done := by
    rw [hcall] at hu
    have hcontrol := (pioXfer_control (s := p) hf hu hok).2
    simp only [Prod.mk.injEq] at hcontrol
    obtain ⟨_, _, _, hirq, hcfg⟩ := hcontrol
    exact ⟨hirq, hcfg, pioXfer_ret (s := p) hf hu hok⟩
  have hlast {u : State} (hdue : serviceDue p = true) (hu : exec (.pioXfer s.threshold) p = .next u)
      (hok : u.fault = none)
      (hend : u.h.bytesLeft = 0 ∨ fifoReady (statusOf u.cfg.layout (drawnWord .st0 u)) = false) :
      exec i s = .next { u with
        trace := u.trace ++ [.regR (.drawn .st0) (drawnWord .st0 u)]
        env := envAfterWord .st0 u.env
        irq := { u.irq with s := drawnWord .st0 u, q := bothEvents l word (drawnWord .st0 u) } } := by
    obtain ⟨hirq, hcfg, _⟩ := hkeeps hu hok
    rw [hrow, fifoService_lastTurn (s := p) hf hdue (hcall.symm.trans hu) hok hend, accumulate_readStatus,
      hirq, hcfg]
  refine ⟨?idle, ?lastTurn, ?goesOn, ?lastChunk⟩
  case idle =>
    intro hidle
    refine hrow.trans (fifoService_notDue (Bool.eq_false_iff.mpr fun hdue => ?_))
    obtain ⟨_, hleft, hd, hdma⟩ := serviceDue_iff.mp hdue
    rcases hidle with h | h | h
    · exact hleft.ne' h
    · exact Bool.false_ne_true (h.symm.trans hd)
    · exact Bool.false_ne_true (hdma.symm.trans h)
  case lastTurn =>
    intro hleft hd hdma u hu hok v hend
    obtain ⟨_, hcfg, _⟩ := hkeeps hu hok
    refine hlast (hdue hleft hd hdma) hu hok (hend.imp_right fun hquiet => ?_)
    rw [hcfg]
    exact Bool.or_eq_false_iff.mpr hquiet
  case goesOn =>
    intro hleft hd hdma u hu hok _ v j t hj ht
    obtain ⟨hirq, hcfg, hret⟩ := hkeeps hu hok
    set r : State := { u with
      trace := u.trace ++ [.regR (.drawn .st0) v], env := envAfterWord .st0 u.env }
    have hrest : fifoService { r with irq := { r.irq with s := v, q := v }, ret := .done } = .next t := by
      rcases hj with ⟨he, rfl⟩ | ⟨he, rfl⟩
      · exact (operation_fifoService_shown (s := r) hok v (p := (·.dxrdy)) (by rwa [hcfg])).symm.trans ht
      · exact (operation_fifoService_shown (s := r) hok v (p := (·.drrdy)) (by rwa [hcfg])).symm.trans ht
    have hlayout : t.cfg.layout = l :=
      congrArg (·.layout) ((traced_fifoService _ _ hrest).cfg.trans hcfg)
    rw [hrow, fifoService_goesOn (s := p) hf (hdue hleft hd hdma) (hcall.symm.trans hu) hok (hret ▸ hrest), hirq,
      gather, hlayout]
  case lastChunk =>
    intro q d dir hd hdma hq hqd hdir hseg hend hn hspace
    obtain ⟨u, hu, hok, hnone⟩ := pioXfer_lastChunk (s := p) hf hq hqd hdir hseg hend hn hspace
    exact ⟨u, hcall.trans hu, hok, hnone,
      hlast (hdue (hend ▸ hseg) hd hdma) (hcall.trans hu) hok (.inl hnone)⟩

end Sys2Proof.Machine
end

section
/-! PROOF. An interrupt that ends a command with a short response and no data phase (R199, R200, R203, R220, R226;
O44): no service and no rule of the data phase, the CRC policy, one pulse where the error is surfaced, and the end of
the command, which completes the request. -/

namespace Sys2Proof.Machine

/-! ### Without a data phase -/

theorem fifoService_noData {s : State} (hd : s.h.data = false) : fifoService s = .next s :=
  fifoService_notDue (by simp [serviceDue, State.pioActive, hd])

/-- Without a data phase the rules of the command are left (R195 to R197). -/
theorem classify_noData {s : State} (hf : s.fault = none) (hd : s.h.data = false) :
    classify s = andThen (ruleCommandTimeout s) fun s => andThen (ruleCommandCrc s) ruleCommandDone := by
  simp only [classify, ruleDataDone_noData hd, ruleDataTimeout_noData hd, ruleDataCrc_noData hd, andThen_next hf]

/-- A command CRC error is surfaced: it is reported, and the bus clock is at or below HS_CRC_HZ (R199). -/
abbrev CrcSurfaced (s : State) : Prop := s.combined.crcrs = true ∧ s.h.busClockHz ≤ s.cfg.hsCrcHz

/-- Rule 5 is the CRC policy (R199). -/
theorem ruleCommandCrc_policy {s : State} {q : InFlight} {slot : Slot} (hc : s.h.cmd = some slot)
    (hq : s.q = some q) : ruleCommandCrc s = .next (if CrcSurfaced s
      then raiseNeedReset (raiseEndCmd (setResult q (q.result.setError slot .crc) s)) else s) := by
  split_ifs with h
  · exact ruleCommandCrc_seen h.1 h.2 hc hq
  · by_cases he : s.combined.crcrs = true
    · exact ruleCommandCrc_highSpeed (Nat.not_le.mp fun hhz => h ⟨he, hhz⟩)
    · exact ruleCommandCrc_quiet (Bool.eq_false_of_not_eq_true he)

/-- Command-done with no data phase and no command timeout: the CRC policy, and the command ends (R193, R200). -/
theorem classify_commandDone {s : State} {q : InFlight} {slot : Slot} (hf : s.fault = none)
    (hd : s.h.data = false) (hc : s.h.cmd = some slot) (hq : s.q = some q)
    (hdone : s.combined.rspdne = true) (htime : s.combined.toutrs = false) :
    classify s = .next (raiseEndCmd (if CrcSurfaced s
      then raiseNeedReset (raiseEndCmd (setResult q (q.result.setError slot .crc) s)) else s)) := by
  rw [classify_noData hf hd, ruleCommandTimeout_quiet htime, andThen_next hf, ruleCommandCrc_policy hc hq]
  split_ifs <;> rw [andThen_next (by exact hf), ruleCommandDone_seen (by exact hdone) (by exact hc)]

/-! ### The end of the command (R220, R226) -/

/-- The request with its response latched (R221). -/
def shortResponse (q : InFlight) (slot : Slot) (r : Word) : InFlight :=
  { q with result := q.result.setResponse slot { q.result.response slot with w0 := r } }

theorem latchInto_short {q : InFlight} {slot : Slot} {c : Command} {s : State}
    (hresp : c.resp = .shortCrc ∨ c.resp = .shortNoCrc) : latchInto q slot c s = { s with
      h := { s.h with cmd := none }
      q := some (shortResponse q slot (drawnWord .rsp3 s))
      trace := s.trace ++ [.regR (.drawn .rsp3) (drawnWord .rsp3 s)]
      env := envAfterWord .rsp3 s.env } := by
  rcases hresp with h | h <;> simp only [latchInto, latch, h] <;> rfl

/-- CMD_END of a short-response command with no data phase completes the request with the response latched. -/
theorem cmdEnd_short {q : InFlight} {slot : Slot} {c : Command} {s : State} (hd : s.h.data = false)
    (hc : s.h.cmd = some slot) (hq : s.q = some q) (hslot : q.command slot = some c)
    (hresp : c.resp = .shortCrc ∨ c.resp = .shortNoCrc) :
    cmdEnd s = .next { s with
      h := { s.h with cmd := none, data := false, phase := .idle }
      q := none
      regs := { s.regs with im := 0 ^^^ s.cfg.layout.low.im }
      irq := { s.irq with completed := true }
      trace := s.trace ++ [.regR (.drawn .rsp3) (drawnWord .rsp3 s), .regW .im (0 ^^^ s.cfg.layout.low.im),
        .completion (shortResponse q slot (drawnWord .rsp3 s)).record]
      env := envAfterWord .rsp3 s.env } := by
  have hfinish (u : State) (hu : u.h.data = false) : finishCommand q slot u = complete u := by
    simp [finishCommand, hu]
  rw [cmdEnd, withQ_some hq, hc]
  simp only [hslot]
  rw [hfinish _ (by rw [latchInto_short hresp]; exact hd), latchInto_short hresp, complete, withQ_some rfl,
    completeRequest_eq]
  simp only [List.append_assoc, List.cons_append, List.nil_append]

/-- The ending stage of a command that completed the request is its end alone (R204). -/
theorem endingStage_completed {s u : State} (hend : s.irq.endCmd = true) (hu : cmdEnd s = .next u)
    (hok : u.fault = none) (hd : u.h.data = false) : endingStage s = .next u := by
  rw [endingStage, if_pos hend, hu, andThen_next hok, if_neg (by simp [hd])]

/-! ### The interrupt -/

/-- The handled interrupt, part by part where no part raises the fault (R190). -/
theorem irqHandle_runs {s u v w : State} (hs : fifoService s = .next u) (hu : u.fault = none)
    (hclassify : classify u = .next v) (hv : v.fault = none)
    (hending : endingStage (resetIfNeeded v) = .next w) (hw : w.fault = none) :
    irqHandle s = .next (returning (.interrupt true) w) := by
  simp only [irqHandle, hs, andThen_next hu, hclassify, andThen_next hv, hending, andThen_next hw]

/-- A draw depends on the environment alone (R27). -/
theorem drawnWord_congr {r : DrawnReg} {s t : State} (h : s.env = t.env) : drawnWord r s = drawnWord r t := by
  simp only [drawnWord, h]

/-- A handled interrupt with no data phase whose rules end a short-response command: the pulse if one was asked for,
and then the completion. -/
theorem irqHandle_endsCommand {s x y : State} {q : InFlight} {slot : Slot} {c : Command} {r : Word}
    (hf : s.fault = none) (hdata : s.h.data = false) (hclassify : classify s = .next x) (hx : x.fault = none)
    (hend : y.irq.endCmd = true) (hreset : resetIfNeeded x = y) (hy : y.fault = none) (hr : drawnWord .rsp3 y = r)
    (hd : y.h.data = false) (hc : y.h.cmd = some slot) (hq : y.q = some q) (hslot : q.command slot = some c)
    (hresp : c.resp = .shortCrc ∨ c.resp = .shortNoCrc) :
    irqLeave (irqHandle s) = .next { y with
      h := { y.h with cmd := none, data := false, phase := .idle }
      q := none
      regs := { y.regs with im := 0 ^^^ y.cfg.layout.low.im }
      irq := IrqLocal.clear
      trace := y.trace ++ [.regR (.drawn .rsp3) r, .regW .im (0 ^^^ y.cfg.layout.low.im),
        .completion (shortResponse q slot r).record]
      env := envAfterWord .rsp3 y.env
      ret := .interrupt true } := by
  subst hr
  have hending := endingStage_completed hend (cmdEnd_short hd hc hq hslot hresp) hy rfl
  rw [irqHandle_runs (fifoService_noData hdata) hf hclassify hx (by rw [hreset]; exact hending) (by exact hy)]
  rfl

/-- Settles O44: the rules answer the CRC policy and the end of the command, and the pulse comes where the policy
asked for it. -/
theorem irqEndsCommand : Obligations.IrqEndsCommand := by
  intro s q slot c _ hf ha hc hd hq hslot hresp l v e1 r hdone htime surfaced asserted released off old result done
  set flags : IrqLocal := { IrqLocal.clear with s := v, q := v }
  set s₁ : State := { s with trace := s.trace ++ [.regR (.drawn .st0) v], env := e1, irq := flags, ret := .done }
  have hirq : exec .irq s = irqLeave (irqHandle s₁) := by
    have hbody : exec .irq s = irqBody { s with ret := .done } := operation_attached hf ha _
    have hbusy : nothingInFlight s₁ = false := by simp [nothingInFlight, s₁, hc]
    have henter : irqEnter { s with ret := .done } = s₁ := rfl
    rw [hbody, irqBody, henter, hbusy]
    rfl
  have hclassify := classify_commandDone (s := s₁) hf hd hc hq hdone htime
  by_cases hsurf : surfaced
  · rw [if_pos (show CrcSurfaced s₁ from hsurf)] at hclassify
    set failed : InFlight := { q with result := q.result.setError slot .crc }
    set x : State := { s₁ with q := some failed, irq := { flags with endCmd := true, needReset := true } }
    have hslot' : failed.command slot = some c := by
      rw [← hslot]
      cases slot <;> rfl
    have hold : failed.result.response slot = old := by cases slot <;> rfl
    have hreset : resetIfNeeded x = softReset x := if_pos rfl
    have hend := irqHandle_endsCommand (s := s₁) (x := x) (q := failed) hf hd hclassify hf rfl hreset hf (r := r)
      (drawnWord_congr rfl) hd hc rfl hslot' hresp
    rw [softReset_eq] at hend
    simp only [done, result, if_pos hsurf]
    rw [hirq, hend, shortResponse, hold]
  · rw [if_neg (show ¬ CrcSurfaced s₁ from hsurf)] at hclassify
    have hreset : resetIfNeeded (raiseEndCmd s₁) = raiseEndCmd s₁ := if_neg Bool.false_ne_true
    rw [hirq, irqHandle_endsCommand (s := s₁) hf hd hclassify hf rfl hreset hf (r := r) (drawnWord_congr rfl) hd
      hc hq hslot hresp]
    simp only [done, result, if_neg hsurf, List.append_nil]
    rfl

end Sys2Proof.Machine
end

section
/-! PROOF. One soft-reset pulse at most in an interrupt, and before any Completion (R202, R203; O17). What comes
before the place of the pulse adds neither accesses to CTL nor Completions to the trace; what comes after it adds no
access to CTL; and CTL is at the pulse what it was at entry, since a stored register changes by writes alone (R26). -/

namespace Sys2Proof.Machine

/-! ### The events an operation may add -/

/-- The trace of `t` is that of `s` and after it only events that `P` allows. -/
def Adds (P : Event → Bool) (s t : State) : Prop := ∃ es, t.trace = s.trace ++ es ∧ ∀ e ∈ es, P e = true

section
variable {P : Event → Bool}

theorem Adds.of_trace_eq {s t : State} (h : t.trace = s.trace) : Adds P s t := ⟨[], by simp [h], by simp⟩

theorem Adds.refl (s : State) : Adds P s s := .of_trace_eq rfl

theorem Adds.trans {s u t : State} (h : Adds P s u) (h' : Adds P u t) : Adds P s t := by
  obtain ⟨es, hes, hP⟩ := h
  obtain ⟨fs, hfs, hP'⟩ := h'
  refine ⟨es ++ fs, by rw [hfs, hes, List.append_assoc], fun e he => ?_⟩
  exact (List.mem_append.mp he).elim (hP e) (hP' e)

theorem Adds.mono {Q : Event → Bool} {s t : State} (h : Adds P s t) (hPQ : ∀ e, P e = true → Q e = true) :
    Adds Q s t := by
  obtain ⟨es, hes, hP⟩ := h
  exact ⟨es, hes, fun e he => hPQ e (hP e he)⟩

/-- One event. -/
theorem Adds.event {s t : State} {e : Event} (he : P e = true) (h : t.trace = s.trace ++ [e]) : Adds P s t :=
  ⟨[e], h, by simpa using he⟩

/-- From a running engine, whatever next state `f` answers, `P` allows the events `f` added. -/
def Only (P : Event → Bool) (f : State → Answer) : Prop :=
  ∀ s t, s.fault = none → f s = .next t → Adds P s t

theorem Only.next {g : State → State} (h : ∀ s, Adds P s (g s)) : Only P fun s => .next (g s) := by
  intro s t _ ht
  cases ht
  exact h s

theorem Only.self : Only P .next := .next .refl

theorem Only.andThen {f g : State → Answer} (hf : Only P f) (hg : Only P g) :
    Only P fun s => andThen (f s) g := by
  intro s t hs h
  obtain ⟨u, hu, ⟨_, rfl⟩ | ⟨hok, ht⟩⟩ := andThen_eq_next h
  · exact hf s t hs hu
  · exact (hf s u hs hu).trans (hg u t hok ht)

theorem Only.ite {c : State → Prop} [∀ s, Decidable (c s)] {f g : State → Answer} (hf : Only P f)
    (hg : Only P g) : Only P fun s => if c s then f s else g s := by
  intro s t hs h
  dsimp only at h
  split_ifs at h
  · exact hf s t hs h
  · exact hg s t hs h

theorem Only.withQ {f : InFlight → State → Answer} (hf : ∀ q, Only P (f q)) :
    Only P fun s => withQ s fun q => f q s := by
  intro s t hs h
  obtain ⟨q, _, ht⟩ := withQ_eq_next h
  exact hf q s t hs ht

end

/-! ### Before the pulse: service and classification (R192 to R200) -/

/-- Neither an access to CTL nor a Completion. -/
def bystander (e : Event) : Bool := !isCtlAccess e && !isCompletion e

theorem pioAccess_bystander (dir : Dir) (w : Width) (a : Nat) : Only bystander (pioAccess dir w a) := by
  intro s t _ h
  rcases (pioAccess_eq_next h).2 with ⟨_, rfl⟩ | ⟨_, rfl⟩
  · exact (Adds.event (t := (memRead a w s).2) rfl rfl).trans (.event rfl rfl)
  · exact (Adds.event (t := (fifoRead w s).2) rfl rfl).trans (.event rfl rfl)

theorem pioAccesses_bystander (dir : Dir) (w : Width) : ∀ n a, Only bystander (pioAccesses dir w n a)
  | 0, _ => .self
  | n + 1, a => (pioAccess_bystander dir w a).andThen (pioAccesses_bystander dir w n (a + w.bytes))

theorem pioXfer_bystander (n : Nat) : Only bystander (pioXfer n) := by
  intro s t hs h
  obtain ⟨q, d, dir, _, _, _, ⟨_, _, _, rfl⟩ | ⟨u, hu, hok, hm⟩⟩ := pioXfer_eq_next hs h
  · exact .of_trace_eq rfl
  · obtain ⟨v, hv, rfl⟩ := pioMove_eq_next hok hm
    have hadvance : u.trace = s.trace := by
      rcases pioAdvance_eq_next hu with ⟨_, rfl⟩ | ⟨_, _, _, rfl⟩ | ⟨_, g, _, rfl⟩ <;> rfl
    have hmoved : Adds bystander u v := pioAccesses_bystander dir _ _ _ u v hok hv
    exact (Adds.of_trace_eq hadvance).trans <| hmoved.trans (.of_trace_eq rfl)

theorem serviceLoop_bystander : ∀ fuel, Only bystander (serviceLoop fuel)
  | 0 => .self
  | fuel + 1 => by
    intro s t hs h
    have hread (u : State) : Adds bystander u (accumulate (readStatus u)) :=
      .event (e := .regR (.drawn .st0) (drawnWord .st0 u)) rfl rfl
    rcases serviceLoop_succ h with ⟨_, rfl⟩ | ⟨_, u, hu, ⟨_, rfl⟩ | ⟨hok, ht⟩⟩
    · exact .refl t
    · exact pioXfer_bystander _ s t hs hu
    · exact (pioXfer_bystander _ s u hs hu).trans <| (hread u).trans (serviceLoop_bystander fuel _ t hok ht)

theorem ruleDataDone_bystander : Only bystander ruleDataDone := by
  intro s t hs h
  have hdrain : Only bystander fun s => if residualDue s then pioXfer s.h.bytesLeft s else .next s :=
    .ite (fun s => pioXfer_bystander _ s) .self
  rcases ruleDataDone_eq_next h with ⟨_, rfl⟩ | ⟨_, u, hu, ⟨_, rfl⟩ | ⟨_, q, d, _, _, rfl⟩⟩
  · exact .refl t
  · exact hdrain s t hs hu
  · exact (hdrain s u hs hu).trans (.of_trace_eq rfl)

theorem dataCrcKind_bystander (s : State) : Adds bystander s (dataCrcKind s).2 := by
  unfold dataCrcKind
  split_ifs
  · exact .event (e := .regR (.drawn .drsp) (drawnWord .drsp s)) rfl rfl
  · exact .refl s

theorem classify_bystander : Only bystander classify := by
  have hdata : Only bystander ruleDataTimeout := .ite (.withQ fun _ => .next fun _ => .of_trace_eq rfl) .self
  have hcrc : Only bystander ruleDataCrc :=
    .ite (.withQ fun _ => .next fun s => (dataCrcKind_bystander s).trans (.of_trace_eq rfl)) .self
  have htimeout : Only bystander ruleCommandTimeout := by
    intro s t _ h
    rcases ruleCommandTimeout_eq_next h with ⟨_, rfl⟩ | ⟨_, slot, q, _, _, rfl⟩
    · exact .refl t
    · split_ifs <;> exact .of_trace_eq rfl
  have hcommand : Only bystander ruleCommandCrc := by
    intro s t _ h
    rcases ruleCommandCrc_eq_next h with ⟨_, rfl⟩ | ⟨_, _, slot, q, _, _, rfl⟩
    · exact .refl t
    · exact .of_trace_eq rfl
  have hdone : Only bystander ruleCommandDone := .ite (.next fun _ => .of_trace_eq rfl) .self
  exact ruleDataDone_bystander.andThen <| hdata.andThen <| hcrc.andThen <| htimeout.andThen <|
    hcommand.andThen hdone

/-! ### After the pulse: the ending stage (R204, R220, R224) -/

/-- No access to CTL. -/
def sparesCtl (e : Event) : Bool := !isCtlAccess e

theorem sparesCtl_of_bystander (e : Event) (h : bystander e = true) : sparesCtl e = true :=
  (Bool.and_eq_true_iff.mp h).1

theorem complete_sparesCtl : Only sparesCtl complete := .withQ fun _ => .next fun s =>
  (Adds.event (t := regWrite .im (noInterrupts s.cfg.layout) (clearRequest s)) rfl rfl).trans (.event rfl rfl)

theorem dataTeardown_sparesCtl : Only sparesCtl dataTeardown := by
  intro s t _ h
  rcases dataTeardown_eq_next h with ⟨_, rfl⟩ | ⟨_, q, d, dir, _, _, _, rfl⟩
  · exact .of_trace_eq rfl
  · exact ⟨[.dmaStop (s.dma.chan dir), .dmaClean (s.dma.chan dir), .dmaUnmap d.sg dir], by simp, by
      simp [sparesCtl, isCtlAccess]⟩

theorem latch_sparesCtl (c : Command) (dst : Response) (s : State) : Adds sparesCtl s (latch c dst s).2 := by
  have hdraw (r : DrawnReg) (u : State) : Adds sparesCtl u (regDraw r u).2 :=
    .event (e := .regR (.drawn r) (drawnWord r u)) rfl rfl
  unfold latch
  cases c.resp with
  | none => exact .refl s
  | shortCrc => exact hdraw .rsp3 s
  | shortNoCrc => exact hdraw .rsp3 s
  | longCrc =>
    exact (hdraw .rsp0 s).trans <| (hdraw .rsp1 _).trans <| (hdraw .rsp2 _).trans (hdraw .rsp3 _)

theorem cmdEnd_sparesCtl : Only sparesCtl cmdEnd := by
  intro s t hs h
  obtain ⟨q, slot, c, _, _, _, h⟩ := cmdEnd_eq_next h
  have hfinish : Only sparesCtl (finishCommand q slot) :=
    .ite (.next fun _ => .of_trace_eq rfl) <|
      .ite (dataTeardown_sparesCtl.andThen complete_sparesCtl) complete_sparesCtl
  have hlatch : Adds sparesCtl s (latchInto q slot c s) :=
    (Adds.of_trace_eq rfl).trans <| (latch_sparesCtl c _ { s with h := { s.h with cmd := none } }).trans
      (.of_trace_eq rfl)
  obtain ⟨p, hp⟩ := latchInto_eq q slot c s
  exact hlatch.trans (hfinish _ t (by rw [hp]; exact hs) h)

theorem cmdStart_sparesCtl (slot : Slot) : Only sparesCtl (cmdStart slot) := by
  intro s t hs h
  have hissue (arg w im : Word) (u : State) : Adds sparesCtl u (issue slot arg w im u) :=
    ⟨[.regW .arg arg, .regW .cmd w, .regW .im im], by simp, by simp [sparesCtl, isCtlAccess]⟩
  set u := regWrite .tor (value16 CTO_MAX) { s with h := { s.h with cmd := some slot } } with hu
  have htor : Adds sparesCtl s u := .event (e := .regW .tor (value16 CTO_MAX)) rfl rfl
  obtain ⟨q, c, _, _, ⟨_, rfl⟩ | ⟨_, x, hx, hcases⟩⟩ := cmdStart_eq_next hs h
  · exact htor.trans (hissue ..)
  · have hpreload := htor.trans ((pioXfer_bystander _ u x hs hx).mono sparesCtl_of_bystander)
    rcases hcases with ⟨_, rfl⟩ | ⟨_, rfl⟩
    · exact hpreload
    · exact hpreload.trans (hissue ..)

theorem endingStage_sparesCtl : Only sparesCtl endingStage := by
  have hxferEnd : Only sparesCtl xferEnd :=
    dataTeardown_sparesCtl.andThen <| .withQ fun _ => .ite complete_sparesCtl (cmdStart_sparesCtl .stop)
  exact .andThen (.ite cmdEnd_sparesCtl .self) (.ite hxferEnd .self)

/-! ### The interrupt -/

/-- Events that spare CTL leave the register as it was (R26). -/
theorem replayRegs_ctl {es : List Event} : ∀ {b : Regs}, (∀ e ∈ es, sparesCtl e = true) →
    (replayRegs b es).ctl = b.ctl := by
  induction es with
  | nil => exact fun _ => rfl
  | cons e es ih =>
    intro b h
    obtain ⟨he, hes⟩ := List.forall_mem_cons.mp h
    cases e with
    | regW r v =>
      have hne : r ≠ .ctl := by
        rintro rfl
        cases he
      exact (ih hes).trans (Regs.get_set_ne b v hne.symm)
    | _ => exact ih hes

/-- The events of one soft-reset pulse that finds `v` in CTL (R202). -/
def pulse (c : Config) (v : Word) : List Event :=
  [.regR (.stored .ctl) v, .regW .ctl (assertResets c.layout v), .delay c.tReset,
    .regW .ctl (releaseResets c.layout v)]

theorem Follows.ctl {s t : State} (h : Follows s t) (hadds : Adds sparesCtl s t) : t.regs.ctl = s.regs.ctl := by
  obtain ⟨es, hes, hspares⟩ := hadds
  rw [h.newEvents.1, newEvents_eq hes]
  exact replayRegs_ctl hspares

/-- After `s` came one pulse, no Completion before it and no other access to CTL (R203). -/
def Pulsed (s t : State) : Prop := ∃ pre post, t.trace = s.trace ++ (pre ++ pulse s.cfg s.regs.ctl ++ post) ∧
  (∀ e ∈ pre, bystander e = true) ∧ ∀ e ∈ post, sparesCtl e = true

theorem Pulsed.of_softReset {s t : State} (h : Adds sparesCtl (softReset s) t) : Pulsed s t := by
  obtain ⟨post, hpost, hspares⟩ := h
  refine ⟨[], post, ?_, by simp, hspares⟩
  rw [hpost, softReset_eq]
  exact List.append_assoc ..

theorem Pulsed.after {s u t : State} (h : Pulsed u t) (hfollows : Follows s u) (hbystander : Adds bystander s u) :
    Pulsed s t := by
  have hctl := hfollows.ctl (hbystander.mono sparesCtl_of_bystander)
  obtain ⟨before, hbefore, hbeforeBystander⟩ := hbystander
  obtain ⟨pre, post, htrace, hpre, hpost⟩ := h
  refine ⟨before ++ pre, post, ?_, fun e he => ?_, hpost⟩
  · rw [htrace, hbefore, hctl, hfollows.cfg]
    simp only [List.append_assoc]
  · exact (List.mem_append.mp he).elim (hbeforeBystander e) (hpre e)

/-- A handled interrupt adds no access to CTL, or exactly one pulse before any Completion (R190, R203). -/
theorem irqHandle_pulsed {s t : State} (hs : s.fault = none) (h : irqHandle s = .next t) :
    Adds sparesCtl s t ∨ Pulsed s t := by
  have hclassified : Only bystander fun s => andThen (fifoService s) classify :=
    .andThen (fun s => serviceLoop_bystander _ s) classify_bystander
  have hended : Only sparesCtl fun s => andThen (endingStage s) fun s => .next (returning (.interrupt true) s) :=
    endingStage_sparesCtl.andThen (.next fun _ => .of_trace_eq rfl)
  rw [irqHandle, ← andThen_assoc] at h
  obtain ⟨u, hu, ⟨_, rfl⟩ | ⟨hok, hr⟩⟩ := andThen_eq_next h
  · exact .inl ((hclassified s t hs hu).mono sparesCtl_of_bystander)
  have hbefore := hclassified s u hs hu
  cases hneed : u.irq.needReset with
  | false =>
    rw [resetIfNeeded, if_neg (by simp [hneed])] at hr
    exact .inl ((hbefore.mono sparesCtl_of_bystander).trans (hended u t hok hr))
  | true =>
    rw [resetIfNeeded, if_pos hneed] at hr
    exact .inr ((Pulsed.of_softReset (hended (softReset u) t hok hr)).after
      (traced_fifoService.andThen traced_classify s u hu) hbefore)

/-- So does an interrupt, whose read of ST0 at entry and mask of the spurious case spare CTL (R190, R191). -/
theorem irqBody_pulsed {s t : State} (hs : s.fault = none) (h : irqBody s = .next t) :
    Adds sparesCtl s t ∨ Pulsed s t := by
  have henter : Adds bystander s (irqEnter s) := .event (e := .regR (.drawn .st0) (drawnWord .st0 s)) rfl rfl
  have henter' := henter.mono sparesCtl_of_bystander
  rcases irqBody_eq_next h with ⟨_, rfl⟩ | ⟨_, u, hu, rfl⟩
  · exact .inl (henter'.trans (.event (e := .regW .im (noInterrupts s.cfg.layout)) rfl rfl))
  · have hfollows : Follows s (irqEnter s) :=
      .trans (.silent rfl) <| (follows_readStatus _).trans (.silent rfl)
    exact (irqHandle_pulsed (s := irqEnter s) hs hu).imp henter'.trans fun hp => Pulsed.after hp hfollows henter

/-- Settles O17: a refused interrupt adds no event, and one that runs is `irqBody_pulsed`. -/
theorem onePulsePerInterrupt : Obligations.OnePulsePerInterrupt := by
  intro s t _ h
  have hpulsed : Adds sparesCtl s t ∨ Pulsed s t := by
    have hrow : operation s (whenAttached · irqBody) = .next t := h
    rcases operation_eq_next hrow with ⟨_, rfl⟩ | ⟨hf, hrow⟩
    · exact .inl (.of_trace_eq rfl)
    rcases whenAttached_eq_next hrow with ⟨_, rfl⟩ | ⟨_, hbody⟩
    · exact .inl (.of_trace_eq rfl)
    exact irqBody_pulsed (s := { s with ret := .done }) hf hbody
  have hspares {e : Event} (he : sparesCtl e = true) : isCtlAccess e = false := by simpa [sparesCtl] using he
  rcases hpulsed with ⟨es, htrace, hes⟩ | ⟨pre, post, htrace, hpre, hpost⟩
  · left
    rw [newEvents_eq htrace]
    exact fun e he => hspares (hes e he)
  · refine .inr ⟨pre, post, newEvents_eq htrace, fun e he => hspares ?_, fun e he => ?_⟩
    · exact (List.mem_append.mp he).elim (fun h => sparesCtl_of_bystander e (hpre e h)) (hpost e)
    · simpa using (Bool.and_eq_true_iff.mp (hpre e he)).2

end Sys2Proof.Machine
end

section
/-! PROOF. The end of a command and of a data phase (R220 to R224; O51 to O54): what the latch draws, the teardown with
and without DMA as one equation, and the two ways on from each end. -/

namespace Sys2Proof.Machine

/-! ### The response latch (R221) -/

theorem latch_none {c : Command} (hc : c.resp = .none) (dst : Response) (s : State) : latch c dst s = (dst, s) := by
  simp only [latch, hc]

theorem latch_short {c : Command} (hc : c.resp = .shortCrc ∨ c.resp = .shortNoCrc) (dst : Response) (s : State) :
    latch c dst s = ({ dst with w0 := (regDraw .rsp3 s).1 }, (regDraw .rsp3 s).2) := by
  rcases hc with hc | hc <;> simp only [latch, hc]

/-- A long response is four draws, the least significant word first. -/
theorem latch_long {c : Command} (hc : c.resp = .longCrc) (dst : Response) (s : State) :
    let r0 := regDraw .rsp0 s
    let r1 := regDraw .rsp1 r0.2
    let r2 := regDraw .rsp2 r1.2
    let r3 := regDraw .rsp3 r2.2
    latch c dst s = (⟨r3.1, r2.1, r1.1, r0.1⟩, r3.2) := by
  simp only [latch, hc]

/-- Settles O51, class by class; a draw reads nothing of the trace the draws before it left. -/
theorem responseLatch : Obligations.ResponseLatch := by
  intro c dst s
  refine ⟨fun hc => latch_none hc dst s, fun hc => latch_short hc dst s, fun hc => ?_⟩
  intro r0 e0 r1 e1 r2 e2 r3
  have htrace : s.trace ++ [.regR (.drawn .rsp0) r0, .regR (.drawn .rsp1) r1, .regR (.drawn .rsp2) r2,
      .regR (.drawn .rsp3) r3] = s.trace ++ [.regR (.drawn .rsp0) r0] ++ [.regR (.drawn .rsp1) r1] ++
      [.regR (.drawn .rsp2) r2] ++ [.regR (.drawn .rsp3) r3] := by simp
  rw [htrace]
  exact latch_long hc dst s

/-! ### DATA_TEARDOWN (R223) -/

/-- The events of the release of DMA: none where it is not in use, and otherwise the stop, the clean and the unmap of
the transfer in flight. -/
def Released (s : State) (es : List Event) : Prop :=
  s.h.doDma = false ∧ es = [] ∨
  s.h.doDma = true ∧ ∃ q d dir, s.q = some q ∧ q.req.data = some d ∧ s.h.dataDir = some dir ∧
    es = [.dmaStop (s.dma.chan dir), .dmaClean (s.dma.chan dir), .dmaUnmap d.sg dir]

/-- The state with no data phase in flight, after these events. -/
def tornDown (es : List Event) (s : State) : State := { s with
  h := { s.h with data := false, doDma := false, dataDir := none, msg := [] }
  trace := s.trace ++ es }

theorem clearData_eq_tornDown (s : State) : clearData s = tornDown [] s := by simp [clearData, tornDown]

theorem clearData_releaseDma_eq_tornDown (d : DataPhase) (dir : Dir) (s : State) : clearData (releaseDma d dir s) =
    tornDown [.dmaStop (s.dma.chan dir), .dmaClean (s.dma.chan dir), .dmaUnmap d.sg dir] s := by
  simp [clearData, releaseDma, tornDown, emit]

/-- DATA_TEARDOWN as one equation, with DMA and without. -/
theorem dataTeardown_released {s : State} {es : List Event} (h : Released s es) :
    dataTeardown s = .next (tornDown es s) := by
  rcases h with ⟨hdma, rfl⟩ | ⟨hdma, q, d, dir, hq, hd, hdir, rfl⟩
  · rw [dataTeardown, if_neg (by simp [hdma]), clearData_eq_tornDown]
  · rw [dataTeardown, if_pos hdma, withData_some hq hd, withDir_some hdir, clearData_releaseDma_eq_tornDown]

/-- A teardown that answers released what was in use. -/
theorem dataTeardown_eq_tornDown {s t : State} (h : dataTeardown s = .next t) :
    ∃ es, Released s es ∧ t = tornDown es s := by
  rcases dataTeardown_eq_next h with ⟨hdma, rfl⟩ | ⟨hdma, q, d, dir, hq, hd, hdir, rfl⟩
  · exact ⟨[], .inl ⟨hdma, rfl⟩, clearData_eq_tornDown s⟩
  · exact ⟨_, .inr ⟨hdma, q, d, dir, hq, hd, hdir, rfl⟩, clearData_releaseDma_eq_tornDown d dir s⟩

theorem exec_dataTeardown_released {s : State} {es : List Event} (hf : s.fault = none) (hes : Released s es) :
    exec .dataTeardown s = .next (tornDown es { s with ret := .done }) := by
  have hrow : exec .dataTeardown s = operation s dataTeardown := rfl
  rw [hrow, operation_running hf, dataTeardown_released (s := { s with ret := .done }) hes]

/-- Settles O53: the teardown is `tornDown`, after the events its DMA use asks for. -/
theorem dataTeardownReleases : Obligations.DataTeardownReleases := by
  refine ⟨by decide, ?_⟩
  intro s hf h
  refine ⟨fun hdma => ⟨.done, ?_⟩, fun q d dir hdma hq hd hdir => ⟨.done, ?_⟩⟩
  · rw [exec_dataTeardown_released hf (.inl ⟨hdma, rfl⟩), tornDown, List.append_nil]
  · exact exec_dataTeardown_released hf (.inr ⟨hdma, q, d, dir, hq, hd, hdir, rfl⟩)

/-! ### COMPLETE after a teardown (R222, R224, R226) -/

/-- A completion once no data phase is in flight, after these events of its release. -/
theorem complete_tornDown {s : State} {q : InFlight} (hq : s.q = some q) (es : List Event) :
    complete (tornDown es s) = .next { s with
      h := { s.h with cmd := none, phase := .idle, data := false, doDma := false, dataDir := none, msg := [] }
      q := none
      regs := { s.regs with im := 0 ^^^ s.cfg.layout.low.im }
      irq := { s.irq with completed := true }
      trace := s.trace ++ es ++ [.regW .im (0 ^^^ s.cfg.layout.low.im), .completion q.record] } := by
  rw [complete, withQ_some (s := tornDown es s) hq, completeRequest_eq]
  rfl

/-- A completion where there was no data phase. -/
theorem complete_noData {s : State} {q : InFlight} (hd : s.h.data = false) (hq : s.q = some q) :
    complete s = .next { s with
      h := { s.h with cmd := none, phase := .idle }
      q := none
      regs := { s.regs with im := 0 ^^^ s.cfg.layout.low.im }
      irq := { s.irq with completed := true }
      trace := s.trace ++ [.regW .im (0 ^^^ s.cfg.layout.low.im), .completion q.record] } := by
  rw [complete, withQ_some hq, completeRequest_eq, ← hd]

/-! ### CMD_END (R220, R222) -/

/-- The latch reads neither `H` nor the answer. -/
theorem latchInto_running (q : InFlight) (slot : Slot) (c : Command) (s : State) (r : Ret) :
    let p := latch c (q.result.response slot) s
    latchInto q slot c { s with ret := r } = { s with
      h := { s.h with cmd := none }, q := some { q with result := q.result.setResponse slot p.1 }
      trace := p.2.trace, env := p.2.env, ret := r } := by
  cases hc : c.resp <;> simp only [latchInto, latch, hc] <;> rfl

theorem finishCommand_noData {q : InFlight} {slot : Slot} {s : State} (hd : s.h.data = false) :
    finishCommand q slot s = complete s := by simp [finishCommand, hd]

theorem finishCommand_goesOn {q : InFlight} {slot : Slot} {s : State} (hd : s.h.data = true)
    (herr : q.result.error slot = .none) :
    finishCommand q slot s = .next { s with h := { s.h with phase := .dataInFlight } } := by
  simp [finishCommand, hd, herr]

theorem finishCommand_failed {q : InFlight} {slot : Slot} {s : State} {es : List Event} (hf : s.fault = none)
    (hd : s.h.data = true) (herr : q.result.error slot ≠ .none) (hes : Released s es) :
    finishCommand q slot s = complete (tornDown es s) := by
  rw [finishCommand, if_neg (by simp [herr]), if_pos hd, dataTeardown_released hes, andThen_next (by exact hf)]

/-- CMD_END as its two halves (R220). -/
theorem exec_cmdEnd_running {s : State} {q : InFlight} {slot : Slot} {c : Command} (hf : s.fault = none)
    (hq : s.q = some q) (hcmd : s.h.cmd = some slot) (hc : q.command slot = some c) :
    exec .cmdEnd s = finishCommand q slot (latchInto q slot c { s with ret := .done }) := by
  have hrow : exec .cmdEnd s = operation s cmdEnd := rfl
  rw [hrow, operation_running hf, cmdEnd, withQ_some (s := { s with ret := .done }) hq]
  simp only [hcmd, hc]

/-- Settles O52: the latched state, then each outcome of the second half. -/
theorem cmdEndOutcomes : Obligations.CmdEndOutcomes := by
  intro s q slot c hf hq hcmd hslot r err q' off done
  have herr : q'.result.error slot = err ∧ q.result.error slot = err := by cases slot <;> exact ⟨rfl, rfl⟩
  set u : State := { s with
    h := { s.h with cmd := none }, q := some q', trace := r.2.trace, env := r.2.env, ret := .done } with hu
  have hrun : exec .cmdEnd s = finishCommand q slot u := by
    rw [exec_cmdEnd_running hf hq hcmd (InFlight.command_eq_some hslot), latchInto_running]
    cases slot <;> rfl
  have hfailed {es : List Event} (hd : s.h.data = true) (he : err ≠ .none) (hes : Released u es) :
      exec .cmdEnd s = complete (tornDown es u) :=
    hrun.trans (finishCommand_failed (s := u) hf hd (herr.2 ▸ he) hes)
  refine ⟨fun hd => ?_, fun hd he => ?_, fun hd he => ?_⟩
  · rw [hrun, finishCommand_noData (s := u) hd, complete_noData (s := u) hd rfl]
    simp only [done, List.append_nil]
    rfl
  · exact hrun.trans (finishCommand_goesOn (s := u) hd (herr.2.trans he))
  · refine ⟨fun hdma => ?_, fun d dir hdma hd' hdir => ?_⟩
    · exact (hfailed hd he (.inl ⟨hdma, rfl⟩)).trans (complete_tornDown rfl [])
    · exact (hfailed hd he (.inr ⟨hdma, q', d, dir, rfl, hd', hdir, rfl⟩)).trans (complete_tornDown rfl _)

/-! ### XFER_END (R224) -/

theorem exec_xferEnd_running {s : State} {es : List Event} (hf : s.fault = none) (hes : Released s es) :
    exec .xferEnd s = stopOrComplete (tornDown es { s with ret := .done }) := by
  have hrow : exec .xferEnd s = operation s xferEnd := rfl
  rw [hrow, operation_running hf, xferEnd, dataTeardown_released (s := { s with ret := .done }) hes,
    andThen_next (by exact hf)]

/-- Settles O54: the teardown, and then `complete_tornDown` or the stop command, which has no data phase and so no
pre-load. -/
theorem xferEndDecidesStop : Obligations.XferEndDecidesStop := by
  intro s q dma hf hq hdma h l off
  have hes : Released s dma := hdma.imp_right fun ⟨hon, d, dir, hd, hdir, hev⟩ => ⟨hon, q, d, dir, hq, hd, hdir, hev⟩
  set s₁ : State := { s with ret := .done }
  have hq₁ : (tornDown dma s₁).q = some q := hq
  rw [exec_xferEnd_running hf hes, stopOrComplete, withQ_some hq₁]
  constructor
  · intro hend
    rw [if_pos (by simpa using hend), complete_tornDown (s := s₁) hq]
  · intro c hc hok w im
    rw [if_neg (by simp [hc, hok]), cmdStart_unloaded (slot := .stop) (by exact hf) hq₁ hc rfl, issue_eq,
      commandWord_noData _ _ rfl rfl, armedMask_noData rfl]
    simp only [regWrite, emit, Regs.set, tornDown, List.append_assoc]
    rfl

end Sys2Proof.Machine
end

section
/-! PROOF. At most one Completion in an operation, and the last of its events (R226, R228, R229, R268; O14). Only
COMPLETE and the busy-stuck submission deliver one. An interrupt reaches COMPLETE in its ending stage alone, and what came
before it left the direction, the channels and the request as they were at entry, so that the teardown releases what
was in use then. -/

namespace Sys2Proof.Machine

/-! ### Events that are no Completion -/

/-- Not a Completion. -/
def noCompletion (e : Event) : Bool := !isCompletion e

theorem noCompletion_of_bystander (e : Event) (h : bystander e = true) : noCompletion e = true :=
  (Bool.and_eq_true_iff.mp h).2

section
variable {P : Event → Bool}

theorem Adds.emit {e : Event} (he : P e = true) (s : State) : Adds P s (emit e s) := .event he rfl

theorem Adds.regWrite {r : StoredReg} {v : Word} (he : P (.regW r v) = true) (s : State) :
    Adds P s (regWrite r v s) := .event he rfl

theorem Adds.regDraw {r : DrawnReg} (he : ∀ v, P (.regR (.drawn r) v) = true) (s : State) :
    Adds P s (regDraw r s).2 := .event (he _) rfl

theorem Only.refuse (k : RefuseKind) : Only P (refuse k) := .next fun _ => .of_trace_eq rfl

theorem Only.operation {f : State → Answer} (hf : Only P f) : Only P (operation · f) := by
  intro s t hs h
  rcases operation_eq_next h with ⟨_, rfl⟩ | ⟨_, ht⟩
  · exact .of_trace_eq rfl
  · exact hf { s with ret := .done } t hs ht

theorem Only.whenAttached {f : State → Answer} (hf : Only P f) : Only P (whenAttached · f) := by
  intro s t hs h
  rcases whenAttached_eq_next h with ⟨_, rfl⟩ | ⟨_, ht⟩
  · exact .of_trace_eq rfl
  · exact hf s t hs ht

end

/-! ### The host boundary and bus timing (R240, R255, R258) -/

theorem settleChannels_noCompletion (a b : Option Nat) (s : State) :
    Adds noCompletion s (settleChannels a b s) := by
  cases a <;> cases b
  · exact .refl s
  · exact .emit rfl s
  · exact .emit rfl s
  · exact .of_trace_eq rfl

theorem requestChannels_noCompletion (s : State) : Adds noCompletion s (requestChannels s) :=
  (Adds.emit (e := .dmaRequest .read _) rfl (drawChannel s).2).trans <|
    (Adds.emit (e := .dmaRequest .write _) rfl (drawChannel _).2).trans (settleChannels_noCompletion _ _ _)

theorem attachAdmitted_noCompletion : Only noCompletion attachAdmitted := by
  intro s t _ h
  have hsession (u : State) :
      Adds noCompletion u (freshSession (if u.cfg.useDma then requestChannels u else u)) := by
    split_ifs
    · exact requestChannels_noCompletion u
    · exact .refl u
  unfold attachAdmitted at h
  dsimp only at h
  split_ifs at h
  cases h
  exact (Adds.emit (e := .clkEnable) rfl s).trans <| (Adds.emit (e := .clkRate _) rfl _).trans (hsession _)

theorem detachAdmitted_noCompletion (s : State) : Adds noCompletion s (detachAdmitted s) := by
  unfold detachAdmitted
  split_ifs
  · exact ⟨[.dmaFree .read, .dmaFree .write, .clkDisable], by simp, by decide⟩
  · exact .emit (e := .clkDisable) rfl s

theorem initckPoll_noCompletion : ∀ (n : Nat) (s : State), Adds noCompletion s (initckPoll n s)
  | 0, s => .refl s
  | n + 1, s => by
    have hread := Adds.regDraw (P := noCompletion) (r := .st0) (fun _ => rfl) s
    unfold initckPoll
    dsimp only
    split_ifs
    · exact hread
    · exact hread.trans (initckPoll_noCompletion n _)

theorem setIosAdmitted_noCompletion (width : BusWidth) (mode : BusMode) (power : PowerMode) (hz : Nat) (s : State) :
    Adds noCompletion s (setIosAdmitted width mode power hz s) := by
  have hread (r : StoredReg) (u : State) : Adds noCompletion u (regRead r u).2 := .emit rfl u
  have hwrite (r : StoredReg) (v : Word) (u : State) : Adds noCompletion u (regWrite r v u) := .regWrite rfl u
  have hclock (u : State) : Adds noCompletion u (setClock mode hz u) := by
    cases mode with
    | openDrain => exact (hread .clk u).trans <| (hwrite .clk _ _).trans (.of_trace_eq rfl)
    | pushPull =>
      exact (hread .clk u).trans <| (hwrite .clk _ _).trans <| (Adds.emit (e := .delay _) rfl _).trans <|
        (hwrite .clk _ _).trans <| (hwrite .clk _ _).trans <| (Adds.emit (e := .delay _) rfl _).trans (.of_trace_eq rfl)
  have hpower (u : State) : Adds noCompletion u (setPower power u) := by
    unfold setPower
    dsimp only
    split_ifs
    · exact (hwrite .cmd _ u).trans <| (initckPoll_noCompletion _ _).trans (.of_trace_eq rfl)
    · exact .of_trace_eq rfl
  have hwidth : Adds noCompletion s (setWidth width s) :=
    (hread .ctl s).trans <| (hwrite .ctl _ _).trans (.of_trace_eq rfl)
  exact hwidth.trans <| (hclock _).trans (hpower _)

/-! ### Submission (R141, R144, R171, R178) -/

theorem busyPoll_noCompletion : ∀ (n : Nat) (s : State), Adds noCompletion s (busyPoll n s).2
  | 0, s => .refl s
  | n + 1, s => by
    have hread := Adds.regDraw (P := noCompletion) (r := .st1) (fun _ => rfl) s
    rw [busyPoll_succ]
    split_ifs
    · exact hread.trans (busyPoll_noCompletion n _)
    · exact hread

theorem programChain_noCompletion (ch : Option Nat) (es : List Desc) :
    ∀ (i : Nat) (s : State), Adds noCompletion s (programChain ch i es s) := by
  induction es with
  | nil => exact fun _ => .refl
  | cons e rest ih => exact fun i s => (Adds.emit (e := .dmaProg ch i e) rfl s).trans (ih (i + 1) _)

theorem dmaSetup_noCompletion (d : DataPhase) (dir : Dir) (s : State) :
    Adds noCompletion s (dmaSetup d dir s).2 := by
  have hmap (r : Option (List Seg)) : Adds noCompletion s (emit (.dmaMap d.sg dir r) (drawMap d.sg s).2) :=
    .event (e := .dmaMap d.sg dir r) rfl rfl
  rcases dmaSetup_cases d dir s with ⟨_, h⟩ | ⟨_, _, h⟩ | ⟨_, msg, _, ⟨_, h⟩ | ⟨_, h⟩⟩ <;> rw [h]
  · exact .refl s
  · exact hmap _
  · exact (hmap _).trans (.emit (e := .dmaUnmap d.sg dir) rfl _)
  · exact (hmap _).trans <| (programChain_noCompletion _ _ 0 _).trans (.emit (e := .dmaStart _) rfl _)

theorem prepare_noCompletion : Only noCompletion prepare := by
  intro s t _ h
  have hinit {d : DataPhase} {u v : State} (h : pioInit d u = .next v) : Adds noCompletion u v := by
    obtain ⟨g, rest, _, rfl⟩ := pioInit_eq_next h
    exact .of_trace_eq rfl
  obtain ⟨q, _, ⟨_, rfl⟩ | ⟨d, _, h⟩⟩ := prepare_eq_next h
  · exact (Adds.regWrite (r := .blen) rfl s).trans (.regWrite (r := .nblk) rfl _)
  · have hregisters : Adds noCompletion s (prepareRegisters d s) := by
      rw [prepareRegisters_eq]
      exact ⟨_, rfl, by simp [noCompletion, isCompletion]⟩
    have hsetup := hregisters.trans (dmaSetup_noCompletion d d.dir _)
    rcases prepareStrategy_eq_next h with ⟨_, _, rfl⟩ | ⟨_, _, h⟩ | ⟨_, h⟩
    · exact hsetup
    · exact hsetup.trans (hinit h)
    · exact hregisters.trans (hinit h)

theorem cmdStart_noCompletion (slot : Slot) : Only noCompletion (cmdStart slot) := by
  intro s t hs h
  have hissue (arg w im : Word) (u : State) : Adds noCompletion u (issue slot arg w im u) :=
    ⟨[.regW .arg arg, .regW .cmd w, .regW .im im], by simp, by simp [noCompletion, isCompletion]⟩
  set u := regWrite .tor (value16 CTO_MAX) { s with h := { s.h with cmd := some slot } }
  have htor : Adds noCompletion s u := .event (e := .regW .tor (value16 CTO_MAX)) rfl rfl
  obtain ⟨q, c, _, _, ⟨_, rfl⟩ | ⟨_, x, hx, hcases⟩⟩ := cmdStart_eq_next hs h
  · exact htor.trans (hissue ..)
  · have hpreload := htor.trans ((pioXfer_bystander _ u x hs hx).mono noCompletion_of_bystander)
    rcases hcases with ⟨_, rfl⟩ | ⟨_, rfl⟩
    · exact hpreload
    · exact hpreload.trans (hissue ..)

theorem submit_noCompletion (req : BusRequest) : Only noCompletion (submit req) := fun s =>
  prepare_noCompletion.andThen (cmdStart_noCompletion .main)
    { s with q := some (accepted req), h := { s.h with doDma := false } }

/-! ### What service and classification leave for the teardown (R192 to R200) -/

/-- What a teardown reads of a state besides the request in flight (R223), and whether it is attached. -/
def releaseView (s : State) : Bool × Bool × Option Dir × Bool × DmaProgram :=
  (s.h.attached, s.h.data, s.h.dataDir, s.h.doDma, s.dma)

/-- From a running engine, whatever next state `f` answers has the same to release. -/
def KeepsRelease (f : State → Answer) : Prop :=
  ∀ s t, s.fault = none → f s = .next t → releaseView t = releaseView s

theorem KeepsRelease.self : KeepsRelease .next := fun s t _ h => by
  cases h
  rfl

theorem KeepsRelease.andThen {f g : State → Answer} (hf : KeepsRelease f) (hg : KeepsRelease g) :
    KeepsRelease fun s => andThen (f s) g := by
  intro s t hs h
  obtain ⟨u, hu, ⟨_, rfl⟩ | ⟨hok, ht⟩⟩ := andThen_eq_next h
  · exact hf s t hs hu
  · exact (hg u t hok ht).trans (hf s u hs hu)

theorem keepsRelease_pioXfer (n : Nat) : KeepsRelease (pioXfer n) := by
  intro s t hs h
  rcases pioXfer_frame hs h with rfl | hframe
  · rfl
  · rw [hframe]
    rfl

theorem keepsRelease_serviceLoop : ∀ fuel, KeepsRelease (serviceLoop fuel)
  | 0 => .self
  | fuel + 1 => by
    intro s t hs h
    rcases serviceLoop_succ h with ⟨_, rfl⟩ | ⟨_, u, hu, ⟨_, rfl⟩ | ⟨hok, ht⟩⟩
    · rfl
    · exact keepsRelease_pioXfer _ s t hs hu
    · have hread : releaseView (accumulate (readStatus u)) = releaseView u := rfl
      exact (keepsRelease_serviceLoop fuel (accumulate (readStatus u)) t hok ht).trans <|
        hread.trans (keepsRelease_pioXfer _ s u hs hu)

theorem keepsRelease_ruleDataDone : KeepsRelease ruleDataDone := by
  intro s t hs h
  rcases ruleDataDone_eq_next h with ⟨_, rfl⟩ | ⟨_, u, hu, ht⟩
  · rfl
  · have hdrain : releaseView u = releaseView s := by
      split_ifs at hu
      · exact keepsRelease_pioXfer _ s u hs hu
      · exact KeepsRelease.self s u hs hu
    rcases ht with ⟨_, rfl⟩ | ⟨_, q, d, _, _, rfl⟩ <;> exact hdrain

theorem keepsRelease_classify : KeepsRelease classify := by
  have hdata : KeepsRelease ruleDataTimeout := by
    intro s t _ h
    rcases ruleDataTimeout_eq_next h with ⟨_, rfl⟩ | ⟨_, q, _, rfl⟩ <;> rfl
  have hcrc : KeepsRelease ruleDataCrc := by
    intro s t _ h
    rcases ruleDataCrc_eq_next h with ⟨_, rfl⟩ | ⟨_, q, _, rfl⟩
    · rfl
    · rw [dataCrcKind_frame]
      rfl
  have htimeout : KeepsRelease ruleCommandTimeout := by
    intro s t _ h
    rcases ruleCommandTimeout_eq_next h with ⟨_, rfl⟩ | ⟨_, slot, q, _, _, rfl⟩
    · rfl
    · split_ifs <;> rfl
  have hcommand : KeepsRelease ruleCommandCrc := by
    intro s t _ h
    rcases ruleCommandCrc_eq_next h with ⟨_, rfl⟩ | ⟨_, _, slot, q, _, _, rfl⟩ <;> rfl
  have hdone : KeepsRelease ruleCommandDone := by
    intro s t _ h
    rw [ruleCommandDone_eq] at h
    cases h
    split_ifs <;> rfl
  exact keepsRelease_ruleDataDone.andThen <| hdata.andThen <| hcrc.andThen <| htimeout.andThen <|
    hcommand.andThen hdone

/-! ### A Completion delivered (R226) -/

/-- From `s` to `t` came these events, no Completion among them, and then one Completion; the engine is idle with no
reference to a request, and attached as it was (R226, R228). -/
def EndsWith (s t : State) (pre : List Event) (record : CompletionRecord) : Prop :=
  (t.fault = none ∧ t.h.attached = s.h.attached ∧ t.h.phase = .idle ∧ t.h.cmd = none ∧ t.h.data = false ∧ t.q = none) ∧
  t.trace = s.trace ++ (pre ++ [.completion record]) ∧ ∀ e ∈ pre, noCompletion e = true

/-- One Completion was delivered, of the request in flight at `s`, and what of DMA was in use at `s` was released before
it (R223, R229). -/
def Delivered (s t : State) : Prop := ∃ req pre record, EndsWith s t pre record ∧
  s.q.map (·.req) = some req ∧ record.id = req.id ∧
  ∀ d dir, s.h.doDma = true → req.data = some d → s.h.dataDir = some dir →
    [.dmaStop (s.dma.chan dir), .dmaClean (s.dma.chan dir), .dmaUnmap d.sg dir] <:+: pre

/-- A Completion is one of an earlier state too, if nothing that it reads has changed from there. -/
theorem Delivered.after {s u t : State} (h : Delivered u t) (hadds : Adds noCompletion s u)
    (hview : releaseView u = releaseView s) (hreq : u.q.map (·.req) = s.q.map (·.req)) : Delivered s t := by
  simp only [releaseView, Prod.mk.injEq] at hview
  obtain ⟨hattached, _, hdir, hdma, hprogram⟩ := hview
  obtain ⟨es, hes, hesNone⟩ := hadds
  obtain ⟨req, pre, record, ⟨⟨hf, ha, hrest⟩, htrace, hbefore⟩, hq, hid, hreleased⟩ := h
  refine ⟨req, es ++ pre, record, ⟨⟨hf, ha.trans hattached, hrest⟩, ?_, List.forall_mem_append.mpr ⟨hesNone, hbefore⟩⟩,
    hreq.symm.trans hq, hid, ?_⟩
  · rw [htrace, hes]
    simp only [List.append_assoc]
  · rw [← hdma, ← hdir, ← hprogram]
    exact fun d dir hon hd hdir' => (hreleased d dir hon hd hdir').trans (List.suffix_append es pre).isInfix

/-- COMPLETE, after events that are no Completions (R226). -/
theorem completeRequest_endsWith {s u : State} {es : List Event} (q : InFlight) (hf : u.fault = none)
    (ha : u.h.attached = s.h.attached) (htrace : u.trace = s.trace ++ es) (hes : ∀ e ∈ es, noCompletion e = true) :
    EndsWith s (completeRequest q u) (es ++ [.regW .im (noInterrupts u.cfg.layout)]) q.record :=
  ⟨⟨hf, ha, rfl, rfl, rfl, rfl⟩, by simp [htrace],
    List.forall_mem_append.mpr ⟨hes, by simp [noCompletion, isCompletion]⟩⟩

/-- COMPLETE where DMA is not in use. -/
theorem complete_delivered {s t : State} (hf : s.fault = none) (hdma : s.h.doDma = false)
    (h : complete s = .next t) : Delivered s t := by
  obtain ⟨q, hq, rfl⟩ := complete_eq_next h
  exact ⟨q.req, _, _, completeRequest_endsWith (es := []) q hf rfl (List.append_nil _).symm nofun, by simp [hq], rfl,
    fun _ _ hon => absurd (hdma.symm.trans hon) Bool.false_ne_true⟩

theorem noCompletion_of_released {s : State} {es : List Event} (h : Released s es) :
    ∀ e ∈ es, noCompletion e = true := by
  rcases h with ⟨_, rfl⟩ | ⟨_, q, d, dir, _, _, _, rfl⟩ <;> simp [noCompletion, isCompletion]

/-- COMPLETE after DATA_TEARDOWN (R223). -/
theorem teardown_complete_delivered {s u t : State} (hf : s.fault = none) (hu : dataTeardown s = .next u)
    (h : complete u = .next t) : Delivered s t := by
  obtain ⟨es, hes, rfl⟩ := dataTeardown_eq_tornDown hu
  obtain ⟨q, hq, rfl⟩ := complete_eq_next h
  have hq' : s.q = some q := hq
  refine ⟨q.req, _, _, completeRequest_endsWith q hf rfl rfl (noCompletion_of_released hes), by simp [hq'], rfl,
    fun d dir hon hd hdir => ?_⟩
  rcases hes with ⟨hoff, _⟩ | ⟨_, q', d', dir', hq'', hd', hdir', rfl⟩
  · exact absurd (hoff.symm.trans hon) Bool.false_ne_true
  · obtain rfl : q = q' := Option.some.inj (hq'.symm.trans hq'')
    obtain rfl : d = d' := Option.some.inj (hd.symm.trans hd')
    obtain rfl : dir = dir' := Option.some.inj (hdir.symm.trans hdir')
    exact (List.prefix_append ..).isInfix

/-! ### The ending stage (R204, R220, R224) -/

theorem latch_noCompletion (c : Command) (dst : Response) (s : State) : Adds noCompletion s (latch c dst s).2 := by
  have hdraw (r : DrawnReg) (u : State) : Adds noCompletion u (regDraw r u).2 := .regDraw (fun _ => rfl) u
  cases hc : c.resp with
  | none => rw [latch_none hc]; exact .refl s
  | shortCrc => rw [latch_short (.inl hc)]; exact hdraw .rsp3 s
  | shortNoCrc => rw [latch_short (.inr hc)]; exact hdraw .rsp3 s
  | longCrc =>
    rw [latch_long hc]
    exact (hdraw .rsp0 s).trans <| (hdraw .rsp1 _).trans <| (hdraw .rsp2 _).trans (hdraw .rsp3 _)

/-- CMD_END goes on to the data phase, or delivers the Completion (R220, R222). -/
theorem cmdEnd_delivers {s t : State} (hf : s.fault = none) (hdma : s.h.data = false → s.h.doDma = false)
    (h : cmdEnd s = .next t) : Delivered s t ∨
      Adds noCompletion s t ∧ releaseView t = releaseView s ∧ t.q.map (·.req) = s.q.map (·.req) := by
  obtain ⟨q, slot, c, hq, _, _, h⟩ := cmdEnd_eq_next h
  obtain ⟨p, hlatch⟩ := latchInto_eq q slot c s
  set u := latchInto q slot c s
  have hadds : Adds noCompletion s u :=
    (latch_noCompletion c _ { s with h := { s.h with cmd := none } }).trans (.of_trace_eq rfl)
  have hview : releaseView u = releaseView s := by rw [hlatch]; rfl
  have hreq : u.q.map (·.req) = s.q.map (·.req) := by rw [hlatch, hq]; rfl
  have hrunning : u.fault = none := by rw [hlatch]; exact hf
  rcases finishCommand_eq_next hrunning h with ⟨_, _, rfl⟩ | ⟨_, _, v, hv, hcomplete⟩ | ⟨hd, hcomplete⟩
  · exact .inr ⟨hadds, hview, hreq⟩
  · exact .inl ((teardown_complete_delivered hrunning hv hcomplete).after hadds hview hreq)
  · have hoff : u.h.doDma = false := by
      rw [hlatch] at hd ⊢
      exact hdma hd
    exact .inl ((complete_delivered hrunning hoff hcomplete).after hadds hview hreq)

/-- XFER_END starts the stop command, or delivers the Completion (R224). -/
theorem xferEnd_delivers {s t : State} (hf : s.fault = none) (h : xferEnd s = .next t) :
    Delivered s t ∨ Adds noCompletion s t := by
  obtain ⟨u, q, hu, _, ⟨_, hcomplete⟩ | ⟨_, _, hstart⟩⟩ := xferEnd_eq_next hf h
  · exact .inl (teardown_complete_delivered hf hu hcomplete)
  · obtain ⟨es, hes, rfl⟩ := dataTeardown_eq_tornDown hu
    have hteardown : Adds noCompletion s (tornDown es s) := ⟨es, rfl, noCompletion_of_released hes⟩
    exact .inr (hteardown.trans (cmdStart_noCompletion .stop (tornDown es s) t hf hstart))

/-- After a Completion of the command no data phase is left to end (R204). -/
theorem endingStage_delivers {s t : State} (hf : s.fault = none) (hdma : s.h.data = false → s.h.doDma = false)
    (h : endingStage s = .next t) : Delivered s t ∨ Adds noCompletion s t := by
  obtain ⟨u, hu, hr⟩ := andThen_eq_next h
  have hcmd : Delivered s u ∨
      Adds noCompletion s u ∧ releaseView u = releaseView s ∧ u.q.map (·.req) = s.q.map (·.req) := by
    split_ifs at hu
    · exact cmdEnd_delivers hf hdma hu
    · cases hu
      exact .inr ⟨.refl s, rfl, rfl⟩
  rcases hr with ⟨_, rfl⟩ | ⟨hok, h⟩
  · exact hcmd.imp_right (·.1)
  rcases hcmd with hdelivered | ⟨hadds, hview, hreq⟩
  · have hdata : u.h.data = false := by
      obtain ⟨_, _, _, ⟨⟨_, _, _, _, hdata, _⟩, _⟩, _⟩ := hdelivered
      exact hdata
    rw [if_neg (by simp [hdata])] at h
    cases h
    exact .inl hdelivered
  · split_ifs at h
    · exact (xferEnd_delivers hok h).imp (·.after hadds hview hreq) hadds.trans
    · cases h
      exact .inr hadds

/-! ### The interrupt (R190) -/

theorem resetIfNeeded_noCompletion (s : State) : Adds noCompletion s (resetIfNeeded s) := by
  unfold resetIfNeeded
  split_ifs
  · rw [softReset_eq]
    exact ⟨_, rfl, by simp [noCompletion, isCompletion]⟩
  · exact .refl s

theorem releaseView_resetIfNeeded (s : State) : releaseView (resetIfNeeded s) = releaseView s := by
  unfold resetIfNeeded
  split_ifs <;> rfl

/-- A handled interrupt delivers no Completion before its ending stage. -/
theorem irqHandle_delivers {s t : State} (hf : s.fault = none) (hdma : s.h.data = false → s.h.doDma = false)
    (h : irqHandle s = .next t) : Delivered s t ∨ Adds noCompletion s t := by
  obtain ⟨u, hu, hr⟩ := andThen_eq_next h
  have hserved := (serviceLoop_bystander _ s u hf hu).mono noCompletion_of_bystander
  rcases hr with ⟨_, rfl⟩ | ⟨hok, h⟩
  · exact .inr hserved
  obtain ⟨v, hv, hr⟩ := andThen_eq_next h
  have hclassified := hserved.trans ((classify_bystander u v hok hv).mono noCompletion_of_bystander)
  rcases hr with ⟨_, rfl⟩ | ⟨hok', h⟩
  · exact .inr hclassified
  have hadds := hclassified.trans (resetIfNeeded_noCompletion v)
  have hview : releaseView (resetIfNeeded v) = releaseView s := (releaseView_resetIfNeeded v).trans <|
    (keepsRelease_classify u v hok hv).trans (keepsRelease_serviceLoop _ s u hf hu)
  obtain ⟨hflight, hfault⟩ := resetIfNeeded_flight v
  have hflight' : flightView (resetIfNeeded v) = flightView s := hflight.trans <|
    (keepsFlight_classify u v hok hv).trans (keepsFlight_serviceLoop _ s u hf hu)
  have hdma' : (resetIfNeeded v).h.data = false → (resetIfNeeded v).h.doDma = false := by
    simp only [releaseView, Prod.mk.injEq] at hview
    obtain ⟨_, hdata, _, hdma', _⟩ := hview
    rwa [hdata, hdma']
  obtain ⟨w, hw, hr⟩ := andThen_eq_next h
  have hended : Delivered s w ∨ Adds noCompletion s w :=
    (endingStage_delivers (hfault.trans hok') hdma' hw).imp
      (·.after hadds hview (congrArg (·.2.2.2) hflight')) hadds.trans
  rcases hr with ⟨_, rfl⟩ | ⟨_, hr⟩
  · exact hended
  · cases hr
    exact hended

theorem irqBody_delivers {s t : State} (hf : s.fault = none) (hdma : s.h.data = false → s.h.doDma = false)
    (h : irqBody s = .next t) : Delivered s t ∨ Adds noCompletion s t := by
  have henter : Adds noCompletion s (irqEnter s) := .event (e := .regR (.drawn .st0) (drawnWord .st0 s)) rfl rfl
  rcases irqBody_eq_next h with ⟨_, rfl⟩ | ⟨_, u, hu, rfl⟩
  · exact .inr (henter.trans (.event (e := .regW .im (noInterrupts s.cfg.layout)) rfl rfl))
  · exact (irqHandle_delivers (s := irqEnter s) hf hdma hu).imp (Delivered.after · henter rfl rfl) henter.trans

/-! ### The outside operations (R112) -/

/-- A submission of an idle engine delivers no Completion, but for the timeout of one turned away as busy (R170,
R172). -/
theorem requestAdmitted_delivers {req : BusRequest} {s t : State} (hs : IdleSound s)
    (h : requestAdmitted req s = .next t) : (∃ pre record, EndsWith s t pre record ∧ record.id = req.id ∧
      record.cmdError = .timeout) ∨ Adds noCompletion s t := by
  have hbusy : Adds noCompletion s (busyCheck s).2 := busyPoll_noCompletion _ s
  have hframe : (busyCheck s).2 = { s with trace := (busyCheck s).2.trace, env := (busyCheck s).2.env } :=
    busyPoll_frame _ s
  unfold requestAdmitted at h
  dsimp only at h
  split_ifs at h
  · cases h
    obtain ⟨pre, hpre, hnone⟩ := hbusy
    refine .inl ⟨pre, { accepted req with result := { Result.initial with cmdError := .timeout } }.record,
      ⟨?_, ?_, hnone⟩, rfl, rfl⟩
    · rw [hframe]
      exact ⟨hs.running, rfl, hs.phase, hs.cmd, hs.data, hs.request⟩
    · rw [busyStuck, emit_trace, hpre, List.append_assoc]
  · refine .inr (hbusy.trans (submit_noCompletion req _ t ?_ h))
    rw [hframe]
    exact hs.running

/-- The operations that deliver no Completion: all but REQUEST and IRQ. -/
theorem exec_noCompletion {i : Instr} (hi : outside i = true) (hreq : ∀ req, i ≠ .request req) (hirq : i ≠ .irq) :
    Only noCompletion (exec i) := by
  cases i with
  | attach => exact .operation (.ite (c := (·.h.attached = true)) (.refuse _) attachAdmitted_noCompletion)
  | detach => exact .operation (.whenAttached (.ite (.next detachAdmitted_noCompletion) (.refuse _)))
  | setIos width mode power hz =>
    refine .operation (.whenAttached (.ite ?_ (.refuse _)))
    cases widthOfCode width with
    | none => exact .refuse _
    | some width => exact .next (setIosAdmitted_noCompletion width mode power hz)
  | request req => exact absurd rfl (hreq req)
  | getCd => exact .operation (.whenAttached (.next fun s => .event (e := .boardCd (drawCd s).1) rfl rfl))
  | getRo => exact .operation (.whenAttached (.next fun s => .event (e := .boardRo (drawRo s).1) rfl rfl))
  | irq => exact absurd rfl hirq
  | dmaErr => exact .operation (.ite (.withQ fun _ => .next fun _ => .of_trace_eq rfl) .self)
  | _ => exact absurd hi Bool.false_ne_true

/-- A row that needs an attached engine is refused without an event, or runs its body. -/
theorem attachedRow_noCompletion {s t : State} {body : State → Answer}
    (h : operation s (whenAttached · body) = .next t) :
    (s.h.attached = true ∧ body { s with ret := .done } = .next t) ∨ Adds noCompletion s t := by
  rcases operation_eq_next h with ⟨_, rfl⟩ | ⟨_, h⟩
  · exact .inr (.of_trace_eq rfl)
  · rcases whenAttached_eq_next h with ⟨_, rfl⟩ | ⟨ha, h⟩
    · exact .inr (.of_trace_eq rfl)
    · exact .inl ⟨ha, h⟩

theorem exec_request_delivers {req : BusRequest} {s t : State} (hs : EngineConsistent s) (hf : s.fault = none)
    (h : exec (.request req) s = .next t) : s.h.attached = true ∧ (∃ pre record, EndsWith s t pre record ∧
      record.id = req.id ∧ record.cmdError = .timeout) ∨ Adds noCompletion s t := by
  rcases attachedRow_noCompletion h with ⟨ha, h⟩ | hnone
  · split_ifs at h with hp
    · have hidle : IdleSound { s with ret := .done } := (hs.idle hf hp).congr rfl
      exact (requestAdmitted_delivers hidle h).imp_left fun hends => ⟨ha, hends⟩
    · cases h
      exact .inr (.of_trace_eq rfl)
    · cases h
      exact .inr (.of_trace_eq rfl)
  · exact .inr hnone

theorem exec_irq_delivers {s t : State} (hs : EngineConsistent s) (hf : s.fault = none)
    (h : exec .irq s = .next t) : s.h.attached = true ∧ Delivered s t ∨ Adds noCompletion s t := by
  rcases attachedRow_noCompletion h with ⟨ha, h⟩ | hnone
  · exact (irqBody_delivers (s := { s with ret := .done }) hf (fun hd => (hs.noData hd).2) h).imp_left
      fun hdelivered => ⟨ha, hdelivered⟩
  · exact .inr hnone

theorem Adds.newEvents_noCompletion {s t : State} (h : Adds noCompletion s t) :
    ∀ e ∈ newEvents s t, isCompletion e = false := by
  obtain ⟨es, hes, hnone⟩ := h
  rw [newEvents_eq hes]
  simpa [noCompletion] using hnone

/-- What the statement says of every Completion of an attached engine. -/
theorem EndsWith.shown {s t : State} {pre : List Event} {record : CompletionRecord} (h : EndsWith s t pre record)
    (ha : s.h.attached = true) : newEvents s t = pre ++ [.completion record] ∧
      (∀ e ∈ pre, isCompletion e = false) ∧ runEnd t = .quiescent ∧ t.h.cmd = none ∧ t.h.data = false ∧ t.q = none := by
  obtain ⟨⟨hf, ha', hphase, hrest⟩, htrace, hbefore⟩ := h
  exact ⟨newEvents_eq htrace, by simpa [noCompletion] using hbefore, by simp [runEnd, hf, ha', ha, hphase], hrest⟩

/-- Settles O14: a submission turned away delivers the timeout from an engine that stays idle, an interrupt delivers
what its ending stage does, and no other operation delivers a Completion. -/
theorem completionEndsTheRequest : Obligations.CompletionEndsTheRequest := by
  intro i s t hi hinv h
  rcases s.fault.eq_none_or_eq_some.symm with ⟨k, hk⟩ | hf
  · rw [exec_faulted hk] at h
    cases h
    exact .inl (by simp [newEvents])
  have hs := hinv.consistent hf
  by_cases hrequest : ∃ req, i = .request req
  · obtain ⟨req, rfl⟩ := hrequest
    rcases exec_request_delivers hs hf h with ⟨ha, pre, record, hends, hid, herr⟩ | hnone
    · obtain ⟨hevents, hbefore, hend, hcmd, hdata, hnoRequest⟩ := hends.shown ha
      exact .inr ⟨pre, record, hevents, hbefore, hend, hcmd, hdata, hnoRequest,
        .inl ⟨req, rfl, hid, herr⟩⟩
    · exact .inl hnone.newEvents_noCompletion
  by_cases hirq : i = .irq
  · subst hirq
    rcases exec_irq_delivers hs hf h with ⟨ha, req, pre, record, hends, hreq, hid, hreleased⟩ | hnone
    · obtain ⟨q, hq, rfl⟩ := Option.map_eq_some_iff.mp hreq
      obtain ⟨hevents, hbefore, hend, hcmd, hdata, hnoRequest⟩ := hends.shown ha
      refine .inr ⟨pre, record, hevents, hbefore, hend, hcmd, hdata, hnoRequest,
        .inr ⟨rfl, q, hq, hid, fun d dir hon hd hdir => ?_⟩⟩
      obtain ⟨a, b, hab⟩ := hreleased d dir hon hd hdir
      exact ⟨a, b, hab.symm⟩
    · exact .inl hnone.newEvents_noCompletion
  · exact .inl (exec_noCompletion hi (not_exists.mp hrequest) hirq s t hf h).newEvents_noCompletion

end Sys2Proof.Machine
end

section
/-! PROOF. INITCK (R245; O26) and SET_IOS (R240 to R244, R246; O23, O25). The poll of INITCK is a number of reads of
ST0 that the draws alone fix, so that HostState passes through it; the width and the clock have one equation for the
whole state each, and the power step is the mode recorded, after INITCK on the transition to UP. -/

namespace Sys2Proof.Machine

/-! ### INITCK (R245) -/

theorem initckPoll_succ (n : Nat) (s : State) : initckPoll (n + 1) s =
    if eventAt s.cfg.layout (drawnWord .st0 s) s.cfg.layout.rspdne then (regDraw .st0 s).2
    else initckPoll n (regDraw .st0 s).2 := rfl

/-- The poll ends at its `(k + 1)`-th read, the first that shows RSPDNE or the last that is allowed. -/
theorem initckPoll_ends (n : Nat) (s : State) : ∃ k ≤ n,
    (∀ v ∈ (envDraws .st0 k s.env).1, eventAt s.cfg.layout v s.cfg.layout.rspdne = false) ∧
    (k = n ∨ eventAt s.cfg.layout (drawnWord .st0 (afterReads .st0 k s)) s.cfg.layout.rspdne = true) ∧
    initckPoll (n + 1) s = afterReads .st0 (k + 1) s := by
  induction n generalizing s with
  | zero =>
    refine ⟨0, le_rfl, (fun _ hv => nomatch hv), .inl rfl, ?_⟩
    rw [initckPoll_succ, afterReads_one]
    exact ite_self _
  | succ n ih =>
    cases hdone : eventAt s.cfg.layout (drawnWord .st0 s) s.cfg.layout.rspdne with
    | true =>
      refine ⟨0, Nat.zero_le _, (fun _ hv => nomatch hv), .inr (by rw [afterReads_zero, hdone]), ?_⟩
      rw [initckPoll_succ, if_pos hdone, afterReads_one]
    | false =>
      obtain ⟨k, hk, hquiet, hlast, hpoll⟩ := ih (regDraw .st0 s).2
      refine ⟨k + 1, Nat.succ_le_succ hk, List.forall_mem_cons.mpr ⟨hdone, hquiet⟩, ?_, ?_⟩
      · rw [afterReads_succ]
        exact hlast.imp_left (congrArg (· + 1))
      · rw [initckPoll_succ, hdone, if_neg Bool.false_ne_true, hpoll, afterReads_succ .st0 (k + 1)]

theorem exec_initck_running {s : State} (hf : s.fault = none) :
    exec .initck s = .next (initck { s with ret := .done }) :=
  operation_running hf fun s => .next (initck s)

/-- Settles O26: one write of CMD, then the reads of `initckPoll_ends`. -/
theorem initckPulsesAndPolls : Obligations.InitckPulsesAndPolls := by
  intro s hf l w
  set started := regWrite .cmd w { s with ret := .done }
  obtain ⟨k, hk, hquiet, hlast, hpoll⟩ := initckPoll_ends s.cfg.initckPollMore started
  have hinitck : initck { s with ret := .done } = afterReads .st0 (k + 1) started := hpoll
  have hdraws : (envDraws .st0 (k + 1) s.env).1 = _ := envDraws_succ_last .st0 k started
  refine ⟨k + 1, .done, Nat.succ_pos k, Nat.succ_le_succ hk, ?_,
    hlast.imp (congrArg (· + 1)) fun hdone => ⟨_, ?_, hdone⟩, ?_⟩
  · rw [hdraws, List.dropLast_concat]
    exact hquiet
  · rw [hdraws, List.getLast?_concat]
  · rw [exec_initck_running hf, hinitck]
    rfl

/-! ### Width and clock (R241 to R244) -/

theorem withWidth4_eq (l : Layout) (w : Word) (width : BusWidth) : withWidth4 l w (width == .w4) =
    (if width = .w4 then (w ^^^ l.low.ctl) ||| bit l.width4 else (w ^^^ l.low.ctl) &&& ~~~(bit l.width4))
      ^^^ l.low.ctl := by
  cases width <;> rfl

theorem setWidth_eq (width : BusWidth) (s : State) : setWidth width s =
    let ctl := withWidth4 s.cfg.layout s.regs.ctl (width == .w4)
    { s with
      regs := { s.regs with ctl := ctl }
      h := { s.h with busWidth := width }
      trace := s.trace ++ [.regR (.stored .ctl) s.regs.ctl, .regW .ctl ctl] } := by
  simp [setWidth, regRead, regWrite, emit, Regs.get, Regs.set]

theorem setClockOpenDrain_eq (s : State) : setClockOpenDrain s =
    let od := withDiv s.cfg.layout s.regs.clk s.cfg.odDivider.toNat
    { s with
      regs := { s.regs with clk := od }
      trace := s.trace ++ [.regR (.stored .clk) s.regs.clk, .regW .clk od] } := by
  simp [setClockOpenDrain, regRead, regWrite, emit, Regs.get, Regs.set]

/-- The three words follow from the one read, each from the word before it. -/
theorem setClockPushPull_eq (hz : Nat) (s : State) : setClockPushPull hz s =
    let c1 := gateClock s.cfg.layout s.regs.clk
    let c2 := withDiv s.cfg.layout c1 (divsolve s.h.refClockHz hz)
    let c3 := ungateClock s.cfg.layout c2
    { s with
      regs := { s.regs with clk := c3 }
      trace := s.trace ++ [.regR (.stored .clk) s.regs.clk, .regW .clk c1, .delay s.cfg.tSettle, .regW .clk c2,
        .regW .clk c3, .delay s.cfg.tSettle] } := by
  simp [setClockPushPull, regRead, regWrite, delay, emit, Regs.get, Regs.set]

theorem setClock_powerMode (mode : BusMode) (hz : Nat) (s : State) :
    (setClock mode hz s).h.powerMode = s.h.powerMode := by
  cases mode <;> rfl

/-! ### Power (R246) -/

/-- Where there is no transition to UP the power mode is recorded and nothing else happens. -/
theorem setPower_of_no_transition {power : PowerMode} {s : State} (h : power = .up → s.h.powerMode = .up) :
    setPower power s = { s with h := { s.h with powerMode := power } } := by
  have hstays : (power == .up && s.h.powerMode != .up) = false := by simpa using h
  rw [setPower, hstays]
  rfl

theorem setPower_off (s : State) : setPower .off s = { s with h := { s.h with powerMode := .off } } :=
  setPower_of_no_transition nofun

/-- The poll neither reads nor changes HostState. -/
theorem initckPoll_withH (h : HostState) : ∀ (n : Nat) (s : State),
    initckPoll n { s with h := h } = { initckPoll n s with h := h }
  | 0, _ => rfl
  | n + 1, s => by
    cases hdone : eventAt s.cfg.layout (drawnWord .st0 s) s.cfg.layout.rspdne with
    | true =>
      rw [initckPoll_succ n s, if_pos hdone, initckPoll_succ]
      exact if_pos hdone
    | false =>
      rw [initckPoll_succ n s, hdone, if_neg Bool.false_ne_true, ← initckPoll_withH h n, initckPoll_succ]
      exact if_neg (Bool.eq_false_iff.mp hdone)

theorem initck_withH (h : HostState) (s : State) : initck { s with h := h } = { initck s with h := h } :=
  initckPoll_withH h s.cfg.initckPollMax (regWrite .cmd (initckWord s.cfg.layout) s)

theorem initck_h (s : State) : (initck s).h = s.h := by rw [initck, initckPoll_frame, regWrite_h]

/-- The transition to UP is INITCK after the setting for another mode, since INITCK is blind to the mode recorded. -/
theorem setPower_up {s : State} (h : s.h.powerMode ≠ .up) : setPower .up s =
    let v := initck (setPower .off s)
    { v with h := { v.h with powerMode := .up } } := by
  have hgoes : (PowerMode.up == .up && s.h.powerMode != .up) = true := by simpa using h
  have hoff : initck (setPower .off s) = { initck s with h := { s.h with powerMode := .off } } := by
    rw [setPower_off]
    exact initck_withH _ s
  rw [hoff, setPower, hgoes, if_pos rfl, initck_h]

/-! ### SET_IOS (R240, R246) -/

theorem exec_setIos_admitted {s : State} {code : Nat} {width : BusWidth} (hf : s.fault = none)
    (ha : s.h.attached = true) (hidle : s.h.phase = .idle) (hwidth : widthOfCode code = some width)
    (mode : BusMode) (power : PowerMode) (hz : Nat) :
    exec (.setIos code mode power hz) s = .next (setIosAdmitted width mode power hz { s with ret := .done }) := by
  rw [exec_setIos_attached hf ha, if_pos hidle, hwidth]

theorem exec_setIos_of_no_transition {s : State} {code : Nat} {width : BusWidth} {power : PowerMode}
    (hf : s.fault = none) (ha : s.h.attached = true) (hidle : s.h.phase = .idle)
    (hwidth : widthOfCode code = some width) (hpower : power = .up → s.h.powerMode = .up) (mode : BusMode) (hz : Nat) :
    exec (.setIos code mode power hz) s =
      let u := setClock mode hz (setWidth width { s with ret := .done })
      .next { u with h := { u.h with powerMode := power } } := by
  rw [exec_setIos_admitted hf ha hidle hwidth, setIosAdmitted,
    setPower_of_no_transition (by rwa [setClock_powerMode])]

/-- Settles O23: the equations of the width, of the clock in either mode, and of a power mode that is only
recorded. -/
theorem setIosWidthAndClock : Obligations.SetIosWidthAndClock := by
  intro s code width power hz hf ha hidle hcode hpower l v ctl od c1 c2 c3
  have hwidth : widthOfCode code = some width := by
    rcases hcode with ⟨rfl, rfl⟩ | ⟨rfl, rfl⟩ <;> rfl
  have hctl : withWidth4 s.cfg.layout s.regs.ctl (width == .w4) = ctl := withWidth4_eq _ _ _
  constructor
  · rw [exec_setIos_of_no_transition hf ha hidle hwidth hpower, setClock, setClockOpenDrain_eq, setWidth_eq]
    simp only [hctl, List.append_assoc, List.cons_append, List.nil_append]
    rfl
  · rw [exec_setIos_of_no_transition hf ha hidle hwidth hpower, setClock, setClockPushPull_eq, setWidth_eq]
    simp only [hctl, List.append_assoc, List.cons_append, List.nil_append]
    rfl

/-- Settles O25: the width and the clock come before the power step in either mode, and `setPower_up` relates the
two power steps. -/
theorem setIosPowerUpPulsesClock : Obligations.SetIosPowerUpPulsesClock := by
  intro s code mode hz hf ha hidle hcode hpower
  obtain ⟨width, hwidth⟩ : ∃ width, widthOfCode code = some width := by
    interval_cases code
    exacts [⟨.w1, rfl⟩, ⟨.w4, rfl⟩]
  let clocked := setClock mode hz (setWidth width { s with ret := .done })
  have hdown : clocked.h.powerMode ≠ .up := by rwa [setClock_powerMode]
  have hoff : (setPower .off clocked).fault = none ∧ (setPower .off clocked).ret = .done := by
    rw [setPower_off]
    cases mode <;> exact ⟨hf, rfl⟩
  obtain ⟨hrunning, hret⟩ := hoff
  refine ⟨setPower .off clocked, initck (setPower .off clocked),
    exec_setIos_admitted hf ha hidle hwidth mode .off hz, ?_, ?_⟩
  · rw [exec_initck_running hrunning, ← hret]
  · rw [exec_setIos_admitted hf ha hidle hwidth]
    exact congrArg _ (setPower_up hdown)

end Sys2Proof.Machine
end

section
/-! PROOF. Every step keeps host memory in its canonical form (O9; the form is the model's, entry 11). An operation
without host-memory accesses (`Quiet`) leaves memory as it is, since memory is what the trace's writes leave (O8); the
others are made of PIO calls, which store inside the address space alone (R70, R160). -/

namespace Sys2Proof.Machine

/-! ### Operations that make no access -/

/-- Memory stands where no access entered the trace. -/
theorem Follows.mem_of_memLog {s t : State} (h : Follows s t) (hlog : memLog t = memLog s) : t.mem = s.mem := by
  obtain ⟨es, htrace, _, hmem⟩ := h.log
  have hnone : es.filter touchesMemory = [] := by simpa [memLog, htrace] using hlog
  rw [hmem]
  refine replayMem_of_no_store fun e he => ?_
  have htouch : touchesMemory e = false := by simpa using List.filter_eq_nil_iff.mp hnone e he
  cases e with
  | memW a w v => cases htouch
  | _ => rfl

theorem Quiet.withData {f : InFlight → DataPhase → State → Answer} (hf : ∀ q d, Quiet (f q d)) :
    Quiet fun s => withData s fun q d => f q d s := by
  intro s t h
  obtain ⟨q, d, _, _, ht⟩ := withData_eq_next h
  exact hf q d s t ht

theorem Quiet.withDir {f : Dir → State → Answer} (hf : ∀ dir, Quiet (f dir)) :
    Quiet fun s => withDir s fun dir => f dir s := by
  intro s t h
  obtain ⟨dir, _, ht⟩ := withDir_eq_next h
  exact hf dir s t ht

theorem Quiet.refused (r : Refusal) : Quiet fun _ => .refused r := fun _ _ h => nomatch h

theorem memLog_returning (r : Ret) (s : State) : memLog (returning r s) = memLog s := rfl

theorem memLog_softReset (s : State) : memLog (softReset s) = memLog s := by
  simp [softReset, memLog, touchesMemory]

/-- A row that is one register write, its word one of the configured layout. -/
theorem quiet_regWriteRow (r : StoredReg) (w : Layout → Word) :
    Quiet fun s => operation s fun s => .next (regWrite r (w s.cfg.layout) s) :=
  .operation (.next fun s => memLog_regWrite r (w s.cfg.layout) s)

/-! ### Keeping the form -/

/-- From a running engine whatever next state `f` answers has its memory in canonical form, if it was. -/
def KeepsCanonical (f : State → Answer) : Prop :=
  ∀ s t, s.fault = none → f s = .next t → s.mem.wf = true → t.mem.wf = true

theorem KeepsCanonical.of_quiet {f : State → Answer} (hf : Quiet f) (ht : Traced f) : KeepsCanonical f := by
  intro s t _ h hm
  rwa [(ht s t h).mem_of_memLog (hf s t h)]

theorem KeepsCanonical.refuse (k : RefuseKind) : KeepsCanonical (refuse k) := .of_quiet (.refuse k) (.refuse k)

theorem KeepsCanonical.andThen {f g : State → Answer} (hf : KeepsCanonical f) (hg : KeepsCanonical g) :
    KeepsCanonical fun s => andThen (f s) g := by
  intro s t hs h hm
  obtain ⟨u, hu, ⟨_, rfl⟩ | ⟨hok, ht⟩⟩ := andThen_eq_next h
  · exact hf s t hs hu hm
  · exact hg u t hok ht (hf s u hs hu hm)

theorem KeepsCanonical.ite {c : State → Prop} [∀ s, Decidable (c s)] {f g : State → Answer}
    (hf : KeepsCanonical f) (hg : KeepsCanonical g) : KeepsCanonical fun s => if c s then f s else g s := by
  intro s t hs h
  dsimp only at h
  split_ifs at h
  · exact hf s t hs h
  · exact hg s t hs h

theorem KeepsCanonical.operation {f : State → Answer} (hf : KeepsCanonical f) : KeepsCanonical (operation · f) := by
  intro s t hs h
  exact hf { s with ret := .done } t hs ((operation_running hs f).symm.trans h)

theorem KeepsCanonical.whenAttached {f : State → Answer} (hf : KeepsCanonical f) :
    KeepsCanonical (whenAttached · f) := by
  intro s t hs h hm
  rcases whenAttached_eq_next h with ⟨_, rfl⟩ | ⟨_, ht⟩
  · exact hm
  · exact hf s t hs ht hm

/-- An ST0 row presents its word and runs its rule (entry 18). -/
theorem keepsCanonical_presented {rule : State → Answer} (hr : KeepsCanonical rule) (w : Word) (p : Config → Nat) :
    KeepsCanonical fun s => operation s fun s => rule (presentStatus w (p s.cfg) s) :=
  .operation fun s t hs h => hr (presentStatus w (p s.cfg) s) t hs h

/-! ### The operations that move bytes (R160, R178, R190) -/

theorem keepsCanonical_pioXfer (n : Nat) : KeepsCanonical (pioXfer n) := fun _ _ => pioXfer_wf

theorem keepsCanonical_cmdStart (slot : Slot) : KeepsCanonical (cmdStart slot) := by
  intro s t hs h hm
  obtain ⟨q, c, _, _, h⟩ := cmdStart_eq_next hs h
  set u := regWrite .tor (value16 CTO_MAX) { s with h := { s.h with cmd := some slot } }
  rcases h with ⟨_, rfl⟩ | ⟨_, x, hx, hend⟩
  · exact hm
  · have hloaded : x.mem.wf = true := pioXfer_wf (s := u) hs hx hm
    rcases hend with ⟨_, rfl⟩ | ⟨_, rfl⟩ <;> exact hloaded

theorem keepsCanonical_submit (req : BusRequest) : KeepsCanonical (submit req) := fun s =>
  (KeepsCanonical.of_quiet quiet_prepare traced_prepare).andThen (keepsCanonical_cmdStart .main)
    { s with q := some (accepted req), h := { s.h with doDma := false } }

theorem keepsCanonical_requestAdmitted (req : BusRequest) : KeepsCanonical (requestAdmitted req) := by
  intro s t hs h hm
  obtain ⟨hfault, hmem⟩ : (busyCheck s).2.fault = s.fault ∧ (busyCheck s).2.mem = s.mem := by
    rw [busyCheck, busyPoll_frame]
    exact ⟨rfl, rfl⟩
  rw [← hmem] at hm
  unfold requestAdmitted at h
  dsimp only at h
  split_ifs at h
  · cases h
    exact hm
  · exact keepsCanonical_submit req _ t (hfault.trans hs) h hm

theorem keepsCanonical_fifoService : KeepsCanonical fifoService := fun _ _ => serviceLoop_wf _

theorem keepsCanonical_ruleDataDone : KeepsCanonical ruleDataDone := by
  have hcount : KeepsCanonical countData :=
    .of_quiet (.withData fun _ _ => .next fun _ => rfl) (.withData fun _ _ => .next fun _ => .silent rfl)
  have hself : KeepsCanonical .next := .of_quiet .self (.next .refl)
  exact .ite (.andThen (.ite (fun s => keepsCanonical_pioXfer _ s) hself) hcount) hself

/-- A handled interrupt moves bytes in its service loop and in rule 1 alone (R192, R195). -/
theorem keepsCanonical_irqHandle : KeepsCanonical irqHandle := by
  have hrules : KeepsCanonical classify := keepsCanonical_ruleDataDone.andThen <| .of_quiet
    (quiet_ruleDataTimeout.andThen <| quiet_ruleDataCrc.andThen <| quiet_ruleCommandTimeout.andThen <|
      quiet_ruleCommandCrc.andThen quiet_ruleCommandDone)
    (traced_ruleDataTimeout.andThen <| traced_ruleDataCrc.andThen <| traced_ruleCommandTimeout.andThen <|
      traced_ruleCommandCrc.andThen traced_ruleCommandDone)
  have hending : KeepsCanonical fun s => endingStage (resetIfNeeded s) := .of_quiet
    (fun s t h => (quiet_endingStage _ t h).trans (memLog_resetIfNeeded s))
    (fun s t h => (follows_resetIfNeeded s).trans (traced_endingStage _ t h))
  exact keepsCanonical_fifoService.andThen <| hrules.andThen <|
    hending.andThen (.of_quiet (.next fun _ => rfl) (.next fun _ => .silent rfl))

theorem keepsCanonical_irqBody : KeepsCanonical irqBody := by
  intro s t hs h hm
  rcases irqBody_eq_next h with ⟨_, rfl⟩ | ⟨_, u, hu, rfl⟩
  · exact hm
  · exact keepsCanonical_irqHandle (irqEnter s) u hs hu hm

theorem keepsCanonical_xferEnd : KeepsCanonical xferEnd := by
  intro s t hs h hm
  rwa [(traced_xferEnd s t h).mem_of_memLog (xferEnd_memLog hs h)]

/-! ### Every instruction -/

theorem exec_keepsCanonical (i : Instr) : KeepsCanonical (exec i) := by
  have hquiet {i : Instr} (h : Quiet (exec i)) : KeepsCanonical (exec i) := .of_quiet h (exec_traced i)
  cases i with
  | attach => exact hquiet (.operation (.ite (c := (·.h.attached = true)) (.refuse _) quiet_attachAdmitted))
  | detach => exact hquiet (.operation (.whenAttached (.ite (.next memLog_detachAdmitted) (.refuse _))))
  | setIos width mode power hz =>
    refine hquiet (.operation (.whenAttached (.ite ?_ (.refuse _))))
    cases widthOfCode width with
    | none => exact .refuse _
    | some width => exact .next (memLog_setIosAdmitted width mode power hz)
  | request req =>
    exact .operation (.whenAttached (.ite
      (.ite (c := fun _ => requestValid req = true) (keepsCanonical_requestAdmitted req) (.refuse _)) (.refuse _)))
  | getCd => exact hquiet (.operation (.whenAttached (.next fun _ => by simp [memLog, touchesMemory])))
  | getRo => exact hquiet (.operation (.whenAttached (.next fun _ => by simp [memLog, touchesMemory])))
  | irq => exact .operation (.whenAttached keepsCanonical_irqBody)
  | dmaErr => exact hquiet (.operation quiet_dmaErrBody)
  | divsolve r f =>
    exact hquiet (.operation (.ite (c := fun _ => r = 0) (.refused _) (.next (memLog_returning _))))
  | prepare => exact hquiet (.operation quiet_prepare)
  | fifoCfg dir =>
    cases dir with
    | none => exact hquiet (.operation (.refused _))
    | some dir => exact hquiet (.operation (.next (g := fifoCfg dir) fun s =>
        (memLog_regWrite .fifoctl _ _).trans (memLog_regWrite .fifoctl _ s)))
  | dmaSetup =>
    exact hquiet (.operation (.withData fun _ d => .withDir fun dir => .next fun s =>
      (memLog_returning (.setup (dmaSetup d dir s).1) _).trans (memLog_dmaSetup d dir s)))
  | pioInit => exact hquiet (.operation (.withData fun _ d => quiet_pioInit d))
  | pioXfer n =>
    exact .operation (.ite (c := fun _ => n = 0) (.of_quiet (.refused _) (.refused _)) (keepsCanonical_pioXfer n))
  | busyCheck => exact hquiet (.operation (.next fun s =>
      (memLog_returning (.busy (busyCheck s).1) _).trans (memLog_busyPoll s.cfg.busyPollMax s)))
  | cmdStart slot =>
    cases slot with
    | none => exact hquiet (.operation (.refused _))
    | some slot => exact .operation (keepsCanonical_cmdStart slot)
  | softReset => exact hquiet (.operation (.next memLog_softReset))
  | cmdEnd => exact hquiet (.operation quiet_cmdEnd)
  | dataTeardown => exact hquiet (.operation quiet_dataTeardown)
  | xferEnd => exact .operation keepsCanonical_xferEnd
  | complete => exact hquiet (.operation quiet_complete)
  | initck =>
    exact hquiet (.operation (.next (g := initck) fun s =>
      (memLog_initckPoll _ _).trans (memLog_regWrite .cmd _ s)))
  | cmdWord f => exact hquiet (quiet_regWriteRow .cmd (cmdWord · f))
  | initckWord => exact hquiet (quiet_regWriteRow .cmd initckWord)
  | stDatdne w => exact keepsCanonical_presented keepsCanonical_ruleDataDone w (·.layout.datdne)
  | stToutrd w =>
    exact keepsCanonical_presented (.of_quiet quiet_ruleDataTimeout traced_ruleDataTimeout) w (·.layout.toutrd)
  | stCrcwr w => exact keepsCanonical_presented (.of_quiet quiet_ruleDataCrc traced_ruleDataCrc) w (·.layout.crcwr)
  | stCrcrd w => exact keepsCanonical_presented (.of_quiet quiet_ruleDataCrc traced_ruleDataCrc) w (·.layout.crcrd)
  | stToutrs w =>
    exact keepsCanonical_presented (.of_quiet quiet_ruleCommandTimeout traced_ruleCommandTimeout) w (·.layout.toutrs)
  | stCrcrs w =>
    exact keepsCanonical_presented (.of_quiet quiet_ruleCommandCrc traced_ruleCommandCrc) w (·.layout.crcrs)
  | stRspdne w =>
    exact keepsCanonical_presented (.of_quiet quiet_ruleCommandDone traced_ruleCommandDone) w (·.layout.rspdne)
  | stDxrdy w => exact keepsCanonical_presented keepsCanonical_fifoService w (·.layout.dxrdy)
  | stDrrdy w => exact keepsCanonical_presented keepsCanonical_fifoService w (·.layout.drrdy)
  | imWord f => exact hquiet (quiet_regWriteRow .im (maskWord · f))
  | fifoctlWord f => exact hquiet (quiet_regWriteRow .fifoctl (fifoWord · f))
  | ctlWord w => exact hquiet (quiet_regWriteRow .ctl fun _ => w)
  | clkWord w => exact hquiet (quiet_regWriteRow .clk fun _ => w)

/-- Settles O9: of the three kinds of step only an operation can write memory, and a faulted engine refuses it. -/
theorem stepKeepsMemoryCanonical : Obligations.StepKeepsMemoryCanonical := by
  intro s t hm h
  rcases step_eq_next h with ⟨_, rfl⟩ | ⟨m, rest, _, ⟨i, tail, _, hexec⟩ | ⟨e, _, rfl⟩⟩
  · exact hm
  · rcases s.fault.eq_none_or_eq_some with hf | ⟨k, hk⟩
    · exact exec_keepsCanonical i (dequeue rest s) t hf hexec hm
    · rw [exec_faulted (s := dequeue rest s) hk] at hexec
      cases hexec
      exact hm
  · exact hm

end Sys2Proof.Machine
end

section
/-! PROOF. DETACH (R258; O57) and the two board queries (R260, R261; O58): the whole next state of each. -/

namespace Sys2Proof.Machine

/-! ### DETACH (R258) -/

/-- A detach that gives the channel pair back, and then disables the clock. -/
theorem detachAdmitted_held {s : State} (h : s.h.dmaOk = true) : detachAdmitted s = { s with
    h := { s.h with attached := false, dmaOk := false }
    dma := { s.dma with chanRead := none, chanWrite := none }
    trace := s.trace ++ [.dmaFree .read, .dmaFree .write, .clkDisable] } := by
  rw [detachAdmitted, if_pos h]
  simp only [freeChannels, emit, List.append_assoc, List.cons_append, List.nil_append]

/-- With no channel held a detach disables the clock alone. -/
theorem detachAdmitted_unheld {s : State} (h : s.h.dmaOk = false) : detachAdmitted s = { s with
    h := { s.h with attached := false }, trace := s.trace ++ [.clkDisable] } := by
  rw [detachAdmitted, if_neg (by simp [h])]
  rfl

/-- Settles O57: an attached engine in phase Idle is detached, with its channels held and without. -/
theorem detachReleases : Obligations.DetachReleases := by
  intro s hf ha hp
  rw [exec_detach_attached hf ha, if_pos hp]
  exact ⟨fun hheld => congrArg _ (detachAdmitted_held hheld),
    fun hunheld => congrArg _ (detachAdmitted_unheld hunheld)⟩

/-! ### GET_CD and GET_RO (R260, R261) -/

/-- A draw of the card-detect answer changes the draws alone. -/
theorem drawCd_frame (s : State) : (drawCd s).2 = { s with env := (drawCd s).2.env } := rfl

/-- A draw of the write-protect answer changes the draws alone. -/
theorem drawRo_frame (s : State) : (drawRo s).2 = { s with env := (drawRo s).2.env } := rfl

theorem exec_getCd_attached {s : State} (hf : s.fault = none) (ha : s.h.attached = true) :
    exec .getCd s = .next (returning (.answer (drawCd s).1) (emit (.boardCd (drawCd s).1) (drawCd s).2)) :=
  operation_attached hf ha _

theorem exec_getRo_attached {s : State} (hf : s.fault = none) (ha : s.h.attached = true) :
    exec .getRo s = .next (returning (.answer (drawRo s).1) (emit (.boardRo (drawRo s).1) (drawRo s).2)) :=
  operation_attached hf ha _

/-- Settles O58: in whatever phase an attached engine is, each query is one draw, one event and the answer. -/
theorem boardQueriesForward : Obligations.BoardQueriesForward := by
  intro s hf ha
  constructor
  · rw [exec_getCd_attached hf ha, drawCd_frame]
    rfl
  · rw [exec_getRo_attached hf ha, drawRo_frame]
    rfl

end Sys2Proof.Machine
end

section
/-! PROOF. Every outside operation answers a next state (R278, R280; O12). A next state may be one of the sticky fault:
what is shown is that no record an operation reads is absent, and no access leaves the address space. The cursor of
R43 places the accesses of a PIO call, R42 the records, and `end_cmd` is raised only beside a command in flight. -/

namespace Sys2Proof.Machine

/-! ### Answering a next state -/

/-- The operation ran to its end. -/
def Answers (o : Answer) : Prop := ∃ t, o = .next t

theorem Answers.next (s : State) : Answers (.next s) := ⟨s, rfl⟩

theorem Answers.andThen {o : Answer} {f : State → Answer} (ho : Answers o)
    (hf : ∀ u, o = .next u → u.fault = none → Answers (f u)) : Answers (andThen o f) := by
  obtain ⟨u, rfl⟩ := ho
  rcases u.fault.eq_none_or_eq_some with hok | ⟨k, hk⟩
  · rw [andThen_next hok]
    exact hf u rfl hok
  · exact ⟨u, andThen_halted hk f⟩

theorem Answers.ite {c : Prop} [Decidable c] {o p : Answer} (ho : c → Answers o) (hp : ¬ c → Answers p) :
    Answers (if c then o else p) := by
  split_ifs with h
  · exact ho h
  · exact hp h

theorem Answers.withQ {s : State} {q : InFlight} {f : InFlight → Answer} (hq : s.q = some q)
    (h : Answers (f q)) : Answers (withQ s f) := by
  rwa [withQ_some hq]

theorem Answers.irqLeave {o : Answer} (ho : Answers o) : Answers (irqLeave o) := by
  obtain ⟨u, rfl⟩ := ho
  exact .next (dropIrq u)

/-! ### The PIO walker (R43, R160) -/

/-- While bytes are left the advance stays, enters a segment or raises the fault. -/
theorem pioAdvance_answers (d : DataPhase) {s : State} (hleft : 0 < s.h.bytesLeft) : Answers (pioAdvance d s) := by
  by_cases hseg : s.h.segLeft = 0
  · by_cases hmore : s.h.sgIdx + 1 < d.sg.length
    · exact ⟨_, pioAdvance_next_segment hseg (List.getElem?_eq_getElem hmore)⟩
    · exact ⟨_, pioAdvance_past_end hseg hleft (Nat.le_of_not_lt hmore)⟩
  · exact ⟨s, by rw [pioAdvance, if_neg hseg]⟩

/-- The rest of the segment after the advance lies in the address space (R54). -/
theorem pioAdvance_in_memory {d : DataPhase} {s u : State} (hvalid : dataValid d = true) (hc : CursorInList s d)
    (h : pioAdvance d s = .next u) (hok : u.fault = none) : u.h.bufPtr + u.h.segLeft ≤ 2 ^ ADDR_WIDTH := by
  rcases pioAdvance_eq_next h with ⟨_, rfl⟩ | ⟨_, _, _, rfl⟩ | ⟨_, g, hg, rfl⟩
  · obtain ⟨_, _, g, hg, _, hhigh⟩ := cursorInList_iff.mp hc
    exact hhigh.trans (segment_le_of_dataValid hvalid (List.mem_of_getElem? hg))
  · cases hok
  · exact (Nat.add_le_add_left (Nat.min_le_left _ _) _).trans
      (segment_le_of_dataValid hvalid (List.mem_of_getElem? hg))

/-- A PIO data phase with bytes left, its cursor in the list: what a PIO call needs to be made. -/
structure Movable (s : State) (q : InFlight) (d : DataPhase) : Prop where
  running : s.fault = none
  request : s.q = some q
  data : q.req.data = some d
  valid : dataValid d = true
  dir : s.h.dataDir = some d.dir
  cursor : CursorInList s d
  left : 0 < s.h.bytesLeft

theorem Movable.pioXfer_answers {s : State} {q : InFlight} {d : DataPhase} (hs : Movable s q d) (n : Nat) :
    Answers (pioXfer n s) := by
  rw [pioXfer, withData_some hs.request hs.data, withDir_some hs.dir]
  refine (pioAdvance_answers d hs.left).andThen fun u hu hok => pioMove_next hok ?_
  exact (Nat.add_le_add_left (Nat.min_le_right _ _) _).trans (pioAdvance_in_memory hs.valid hs.cursor hu hok)

theorem DataSound.movable {s : State} {q : InFlight} {d : DataPhase} (hs : DataSound s q.req.data)
    (hf : s.fault = none) (hq : s.q = some q) (hvalid : requestValid q.req = true) (hd : q.req.data = some d)
    (hpio : s.pioActive = true) (hleft : 0 < s.h.bytesLeft) : Movable s q d := by
  obtain ⟨hdata, hdma⟩ := pioActive_iff.mp hpio
  exact ⟨hf, hq, hd, dataValid_of_requestValid hvalid hd, by rw [hs.dir hdata, hd, Option.map_some],
    hs.cursor d hd hdata hdma, hleft⟩

/-! ### REQUEST (R141, R170, R178) -/

theorem dataTotal_pos {d : DataPhase} (h : dataValid d = true) : 0 < dataTotal d := by
  simp only [dataValid, Bool.and_eq_true, decide_eq_true_eq] at h
  obtain ⟨⟨⟨⟨⟨hsize, _⟩, hcount⟩, _⟩, _⟩, _⟩ := h
  exact Nat.mul_pos hcount hsize

theorem pioInit_answers {d : DataPhase} (hvalid : dataValid d = true) (s : State) : Answers (pioInit d s) := by
  cases hsg : d.sg with
  | nil => simp [dataValid, hsg] at hvalid
  | cons g rest => exact ⟨_, pioInit_cons hsg s⟩

/-- PREPARE of a valid request always has a strategy (R141). -/
theorem prepare_answers {s : State} {q : InFlight} (hq : s.q = some q) (hvalid : requestValid q.req = true) :
    Answers (prepare s) := by
  cases hd : q.req.data with
  | none => exact ⟨_, prepare_noData hq hd⟩
  | some d =>
    have hinit := pioInit_answers (dataValid_of_requestValid hvalid hd)
    rw [prepare_data hq hd]
    exact .ite (fun _ => .ite (fun _ => .next _) fun _ => hinit _) fun _ => hinit _

/-- A data phase that PREPARE leaves to PIO has all its bytes left (R141). -/
theorem prepare_bytesLeft {s t : State} {q : InFlight} {d : DataPhase} (hq : s.q = some q)
    (hd : q.req.data = some d) (h : prepare s = .next t) (hdma : t.h.doDma = false) :
    t.h.bytesLeft = dataTotal d := by
  rw [prepare_data hq hd] at h
  rcases prepareStrategy_eq_next h with ⟨_, _, rfl⟩ | ⟨_, _, h⟩ | ⟨_, h⟩
  · cases hdma
  · obtain ⟨g, rest, _, rfl⟩ := pioInit_eq_next h
    rw [dmaSetup_frame]
    rfl
  · obtain ⟨g, rest, _, rfl⟩ := pioInit_eq_next h
    rfl

/-- CMD_START of a command that is there, where a pre-load that is due can be made (R178, R180). -/
theorem cmdStart_answers {slot : Slot} {s : State} {q : InFlight} {c : Command} (hq : s.q = some q)
    (hc : q.command slot = some c) (hload : preloads s = true → ∃ d, Movable s q d) :
    Answers (cmdStart slot s) := by
  set u := regWrite .tor (value16 CTO_MAX) { s with h := { s.h with cmd := some slot } }
  have hmoves (hpre : preloads u = true) : Answers (pioXfer u.threshold u) := by
    obtain ⟨d, hs⟩ := hload hpre
    have hmovable : Movable u q d :=
      ⟨hs.running, hs.request, hs.data, hs.valid, hs.dir, hs.cursor, hs.left⟩
    exact hmovable.pioXfer_answers _
  rw [cmdStart, withQ_some hq, hc]
  exact .andThen (.ite hmoves fun _ => .next u) fun _ _ _ => .next _

theorem submit_answers {req : BusRequest} {s : State} (hs : IdleSound s) (hvalid : requestValid req = true) :
    Answers (submit req s) := by
  set v := { s with q := some (accepted req), h := { s.h with doDma := false } } with hv
  have hview : dataView v = dataView s := by simp [dataView, hv, (hs.sound.noData hs.data).2]
  refine (prepare_answers (s := v) rfl hvalid).andThen fun u hu hok => ?_
  obtain ⟨hsound, hframe⟩ := prepare_sound (s := v) rfl hvalid (hs.sound.congr hview) hs.data hu
  simp only [Prod.mk.injEq] at hframe
  obtain ⟨_, hq, _, hdata⟩ := hframe
  refine cmdStart_answers hq rfl fun hpre => ?_
  have hpio := pioActive_of_preloads hpre
  obtain ⟨hon, hdma⟩ := pioActive_iff.mp hpio
  obtain ⟨d, hd⟩ := Option.isSome_iff_exists.mp (hdata.symm.trans hon)
  refine ⟨d, hsound.movable hok hq hvalid hd hpio ?_⟩
  rw [prepare_bytesLeft (s := v) rfl hd hu hdma]
  exact dataTotal_pos (dataValid_of_requestValid hvalid hd)

theorem requestAdmitted_answers {req : BusRequest} {s : State} (hs : IdleSound s)
    (hvalid : requestValid req = true) : Answers (requestAdmitted req s) := by
  have hchecked : IdleSound (busyCheck s).2 := by
    rw [busyCheck, busyPoll_frame]
    exact hs.congr rfl
  exact .ite (fun _ => .next _) fun _ => submit_answers hchecked hvalid

/-! ### Service and classification (R192 to R200) -/

/-- A data phase in flight is one of the request (R42). -/
theorem FlightSound.data_some {s : State} {q : InFlight} (hs : FlightSound s q) (hdata : s.h.data = true) :
    ∃ d, q.req.data = some d := by
  have htable := hs.table
  rw [← Option.isSome_iff_exists]
  cases hp : s.h.phase <;> simp_all [flightTable]

theorem pioXfer_answers_of_flight {s : State} {q : InFlight} (hs : FlightSound s q)
    (hpio : s.pioActive = true) (hleft : 0 < s.h.bytesLeft) (n : Nat) : Answers (pioXfer n s) := by
  obtain ⟨d, hd⟩ := hs.data_some (pioActive_iff.mp hpio).1
  exact (hs.sound.movable hs.running hs.request hs.valid hd hpio hleft).pioXfer_answers n

theorem serviceLoop_answers {q : InFlight} : ∀ (fuel : Nat) {s : State}, FlightSound s q →
    Answers (serviceLoop fuel s)
  | 0, s, _ => .next s
  | fuel + 1, s, hs => by
    refine .ite (fun hdue => ?_) fun _ => .next s
    obtain ⟨_, hleft, hdata, hdma⟩ := serviceDue_iff.mp hdue
    refine (pioXfer_answers_of_flight hs (pioActive_iff.mpr ⟨hdata, hdma⟩) hleft _).andThen fun u hu hok => ?_
    have hflight := (hs.pioXfer hdata hdma hu hok).1
    exact serviceLoop_answers fuel (hflight.congr hflight.request rfl rfl)

/-- Rule 1: the drain is a PIO call with bytes left, and the count is of the request's data phase (R195). -/
theorem ruleDataDone_answers {s : State} {q : InFlight} (hs : FlightSound s q) : Answers (ruleDataDone s) := by
  refine .ite (fun hseen => ?_) fun _ => .next s
  have hdata : s.h.data = true := (Bool.and_eq_true_iff.mp hseen).2
  obtain ⟨d, hd⟩ := hs.data_some hdata
  by_cases hres : residualDue s = true
  · obtain ⟨hdma, _, hleft, _⟩ := residualDue_iff.mp hres
    rw [if_pos hres]
    refine (pioXfer_answers_of_flight hs (pioActive_iff.mpr ⟨hdata, hdma⟩) hleft _).andThen fun u hu hok => ?_
    exact ⟨_, countData_some (hs.pioXfer hdata hdma hu hok).1.request hd⟩
  · rw [if_neg hres, andThen_next hs.running]
    exact ⟨_, countData_some hs.request hd⟩

theorem ruleDataTimeout_answers {s : State} {q : InFlight} (hq : s.q = some q) : Answers (ruleDataTimeout s) :=
  .ite (fun _ => .withQ hq (.next _)) fun _ => .next s

theorem ruleDataCrc_answers {s : State} {q : InFlight} (hq : s.q = some q) : Answers (ruleDataCrc s) :=
  .ite (fun _ => .withQ hq (.next _)) fun _ => .next s

theorem ruleCommandTimeout_answers {s : State} {q : InFlight} (hq : s.q = some q) :
    Answers (ruleCommandTimeout s) := by
  cases hc : s.h.cmd with
  | none => exact ⟨s, ruleCommandTimeout_noCommand hc⟩
  | some slot =>
    cases he : s.combined.toutrs with
    | false => exact ⟨s, ruleCommandTimeout_quiet he⟩
    | true => exact ⟨_, ruleCommandTimeout_seen he hc hq⟩

theorem ruleCommandCrc_answers {s : State} {q : InFlight} (hq : s.q = some q) : Answers (ruleCommandCrc s) := by
  cases hc : s.h.cmd with
  | none => exact ⟨s, ruleCommandCrc_noCommand hc⟩
  | some slot => exact ⟨_, ruleCommandCrc_policy hc hq⟩

theorem ruleCommandDone_answers (s : State) : Answers (ruleCommandDone s) := ⟨_, ruleCommandDone_eq s⟩

theorem Classified.request {s : State} (hs : Classified s) : ∃ q, s.q = some q := by
  obtain ⟨q, hflight, _⟩ := hs
  exact ⟨q, hflight.request⟩

/-- Each rule leaves the request in flight to the next one (R193). -/
theorem classify_answers {s : State} {q : InFlight} (hs : FlightSound s q) (hr : ResultSettled s q)
    (hc : s.irq.completed = false) : Answers (classify s) := by
  refine (ruleDataDone_answers hs).andThen fun u hu hok => ?_
  have hdone := ruleDataDone_classified hs hr hc hu hok
  obtain ⟨_, hq⟩ := hdone.request
  refine (ruleDataTimeout_answers hq).andThen fun v hv _ => ?_
  have htimed := ruleDataTimeout_classified hdone hv
  obtain ⟨_, hq⟩ := htimed.request
  refine (ruleDataCrc_answers hq).andThen fun w hw _ => ?_
  have hchecked := ruleDataCrc_classified htimed hw
  obtain ⟨_, hq⟩ := hchecked.request
  refine (ruleCommandTimeout_answers hq).andThen fun x hx _ => ?_
  obtain ⟨_, hq⟩ := (ruleCommandTimeout_classified hchecked hx).request
  exact (ruleCommandCrc_answers hq).andThen fun y _ _ => ruleCommandDone_answers y

/-! ### A command to end is in flight (R193, R204) -/

/-- `end_cmd` is raised only beside a command in flight. -/
def EndsInFlight (s : State) : Prop := s.irq.endCmd = true → s.h.cmd.isSome = true

/-- From a running engine `f` keeps `EndsInFlight`. -/
def KeepsEndsInFlight (f : State → Answer) : Prop :=
  ∀ s t, s.fault = none → f s = .next t → EndsInFlight s → EndsInFlight t

theorem KeepsEndsInFlight.andThen {f g : State → Answer} (hf : KeepsEndsInFlight f) (hg : KeepsEndsInFlight g) :
    KeepsEndsInFlight fun s => andThen (f s) g := by
  intro s t hs h hends
  obtain ⟨u, hu, ⟨_, rfl⟩ | ⟨hok, ht⟩⟩ := andThen_eq_next h
  · exact hf s t hs hu hends
  · exact hg u t hok ht (hf s u hs hu hends)

theorem keepsEndsInFlight_pioXfer (n : Nat) : KeepsEndsInFlight (pioXfer n) := by
  intro s t hs h hends
  rcases pioXfer_frame hs h with rfl | hframe
  · exact hends
  · rw [hframe]
    exact hends

theorem keepsEndsInFlight_serviceLoop : ∀ fuel, KeepsEndsInFlight (serviceLoop fuel)
  | 0 => fun s t _ h hends => by
    cases h
    exact hends
  | fuel + 1 => fun s t hs h hends => by
    rcases serviceLoop_succ h with ⟨_, rfl⟩ | ⟨_, u, hu, ⟨_, rfl⟩ | ⟨hok, ht⟩⟩
    · exact hends
    · exact keepsEndsInFlight_pioXfer _ s t hs hu hends
    · have hread : EndsInFlight (accumulate (readStatus u)) := keepsEndsInFlight_pioXfer _ s u hs hu hends
      exact keepsEndsInFlight_serviceLoop fuel (accumulate (readStatus u)) t hok ht hread

theorem keepsEndsInFlight_ruleDataDone : KeepsEndsInFlight ruleDataDone := by
  intro s t hs h hends
  rcases ruleDataDone_eq_next h with ⟨_, rfl⟩ | ⟨_, u, hu, hend⟩
  · exact hends
  · have hdrained : EndsInFlight u := by
      split_ifs at hu
      · exact keepsEndsInFlight_pioXfer _ s u hs hu hends
      · cases hu
        exact hends
    rcases hend with ⟨_, rfl⟩ | ⟨_, q, d, _, _, rfl⟩ <;> exact hdrained

/-- The rules of the data phase raise `end_xfer`, and those of the command run beside one in flight. -/
theorem keepsEndsInFlight_classify : KeepsEndsInFlight classify := by
  refine keepsEndsInFlight_ruleDataDone.andThen <| .andThen ?dataTimeout <| .andThen ?dataCrc <|
    .andThen ?commandTimeout <| .andThen ?commandCrc ?commandDone <;> intro s t _ h hends
  case dataTimeout => rcases ruleDataTimeout_eq_next h with ⟨_, rfl⟩ | ⟨_, q, _, rfl⟩ <;> exact hends
  case dataCrc =>
    rcases ruleDataCrc_eq_next h with ⟨_, rfl⟩ | ⟨_, q, _, rfl⟩
    · exact hends
    · rw [dataCrcKind_frame]
      exact hends
  case commandTimeout =>
    rcases ruleCommandTimeout_eq_next h with ⟨_, rfl⟩ | ⟨_, slot, q, hslot, _, rfl⟩
    · exact hends
    · intro _
      split_ifs <;> exact Option.isSome_of_eq_some hslot
  case commandCrc =>
    rcases ruleCommandCrc_eq_next h with ⟨_, rfl⟩ | ⟨_, _, slot, q, hslot, _, rfl⟩
    · exact hends
    · exact fun _ => Option.isSome_of_eq_some hslot
  case commandDone =>
    rw [ruleCommandDone_eq] at h
    cases h
    split_ifs with hdone
    · exact fun _ => (Bool.and_eq_true_iff.mp hdone).2
    · exact hends

/-! ### The ending stage (R204, R220, R224) -/

theorem complete_answers {s : State} {q : InFlight} (hq : s.q = some q) : Answers (complete s) :=
  .withQ hq (.next _)

/-- What a teardown releases is there where DMA is in use (R42, R223). -/
theorem DataSound.released {s : State} {q : InFlight} (hs : DataSound s q.req.data) (hq : s.q = some q)
    (hsome : s.h.data = true → ∃ d, q.req.data = some d) : ∃ es, Released s es := by
  cases hdma : s.h.doDma with
  | false => exact ⟨[], .inl ⟨hdma, rfl⟩⟩
  | true =>
    have hdata : s.h.data = true := by
      by_contra hoff
      exact Bool.false_ne_true ((hs.noData (by simpa using hoff)).2.symm.trans hdma)
    obtain ⟨d, hd⟩ := hsome hdata
    exact ⟨_, .inr ⟨hdma, q, d, d.dir, hq, hd, by rw [hs.dir hdata, hd, Option.map_some], rfl⟩⟩

theorem finishCommand_answers {s : State} {q q' : InFlight} {es : List Event} (slot : Slot) (hf : s.fault = none)
    (hq : s.q = some q') (hes : Released s es) : Answers (finishCommand q slot s) := by
  cases hd : s.h.data with
  | false =>
    rw [finishCommand_noData hd]
    exact complete_answers hq
  | true =>
    by_cases herr : q.result.error slot = .none
    · exact ⟨_, finishCommand_goesOn hd herr⟩
    · rw [finishCommand_failed hf hd herr hes]
      exact complete_answers (s := tornDown es s) hq

/-- The command in flight is one of the request (R42). -/
theorem FlightSound.command_some {s : State} {q : InFlight} {slot : Slot} (hs : FlightSound s q)
    (hslot : s.h.cmd = some slot) : ∃ c, q.command slot = some c := by
  cases slot with
  | main => exact ⟨q.req.cmd, rfl⟩
  | stop =>
    have htable := hs.table
    refine Option.isSome_iff_exists.mp (?_ : q.req.stop.isSome = true)
    cases hp : s.h.phase <;> simp_all [flightTable]

theorem cmdEnd_answers {s : State} {q : InFlight} (hs : FlightSound s q) (hcmd : s.h.cmd.isSome = true) :
    Answers (cmdEnd s) := by
  obtain ⟨slot, hslot⟩ := Option.isSome_iff_exists.mp hcmd
  obtain ⟨c, hc⟩ := hs.command_some hslot
  have hhalves : cmdEnd s = finishCommand q slot (latchInto q slot c s) := by
    rw [cmdEnd, withQ_some hs.request]
    simp only [hslot, hc]
  rw [hhalves]
  obtain ⟨p, hlatch⟩ := latchInto_eq q slot c s
  set u := latchInto q slot c s
  set q' : InFlight := { q with result := q.result.setResponse slot p }
  obtain ⟨hrunning, hq, hdata, hsound⟩ :
      u.fault = none ∧ u.q = some q' ∧ u.h.data = s.h.data ∧ DataSound u q'.req.data := by
    rw [hlatch]
    exact ⟨hs.running, rfl, rfl, hs.sound.congr rfl⟩
  obtain ⟨es, hes⟩ := hsound.released hq fun hd => hs.data_some (hdata.symm.trans hd)
  exact finishCommand_answers slot hrunning hq hes

/-- XFER_END: no pre-load is due for the stop command, the data phase being torn down (R224). -/
theorem xferEnd_answers {s : State} {q : InFlight} (hs : FlightSound s q) : Answers (xferEnd s) := by
  obtain ⟨es, hes⟩ := hs.sound.released hs.request hs.data_some
  rw [xferEnd, dataTeardown_released hes, andThen_next (s := tornDown es s) hs.running]
  have hq : (tornDown es s).q = some q := hs.request
  refine .withQ hq (.ite (fun _ => complete_answers hq) fun hstop => ?_)
  obtain ⟨c, hc⟩ : ∃ c, q.command .stop = some c := by
    simp only [Bool.or_eq_true, not_or, Option.isNone_iff_eq_none] at hstop
    exact Option.ne_none_iff_exists'.mp hstop.1
  exact cmdStart_answers hq hc fun hpre => nomatch pioActive_of_preloads hpre

/-- The ending stage ends a command in flight, and then a data phase that its completion left (R204). -/
theorem endingStage_answers {s : State} (hs : Classified s) (hends : EndsInFlight s) : Answers (endingStage s) := by
  obtain ⟨q, hflight, hr⟩ := hs
  refine .andThen (.ite (fun hend => cmdEnd_answers hflight (hends hend)) fun _ => .next s) fun u hu _ =>
    .ite (fun hdue => ?_) fun _ => .next u
  have hdata : u.h.data = true := by
    simp only [Bool.and_eq_true] at hdue
    exact hdue.1.2
  split_ifs at hu with hend
  · rcases cmdEnd_sound hflight hr hu with hidle | ⟨q', hflight', _⟩
    · exact absurd (hidle.data.symm.trans hdata) Bool.false_ne_true
    · exact xferEnd_answers hflight'
  · cases hu
    exact xferEnd_answers hflight

/-! ### The outside operations (R112) -/

theorem resetIfNeeded_endsInFlight {s : State} (hs : EndsInFlight s) : EndsInFlight (resetIfNeeded s) := by
  unfold resetIfNeeded
  split_ifs <;> exact hs

/-- A handled interrupt: service, rules and ending stage in turn (R190). -/
theorem irqHandle_answers {s : State} {q : InFlight} (hs : FlightSound s q) (hr : ResultSettled s q)
    (hc : s.irq.completed = false) (hends : EndsInFlight s) : Answers (irqHandle s) := by
  refine (serviceLoop_answers _ hs).andThen fun u hu hok => ?_
  obtain ⟨hserved, hdata, hcompleted⟩ := serviceLoop_flight _ hs hc hu hok
  have hsettled : ResultSettled u q :=
    ⟨hr.cmdError, hr.stopError, fun hd => hr.counting (hdata.symm.trans hd), hr.counted⟩
  refine (classify_answers hserved hsettled hcompleted).andThen fun v hv hvok => ?_
  have hclassified := classify_classified hserved hsettled hcompleted hv hvok
  have hendsAfter : EndsInFlight v :=
    keepsEndsInFlight_classify u v hok hv (keepsEndsInFlight_serviceLoop _ s u hs.running hu hends)
  exact (endingStage_answers (resetIfNeeded_classified hclassified)
    (resetIfNeeded_endsInFlight hendsAfter)).andThen fun _ _ _ => .next _

/-- Where something is in flight there is a request (R42). -/
theorem EngineConsistent.request_some {s : State} (hs : EngineConsistent s) (hf : s.fault = none)
    (hbusy : nothingInFlight s = false) : ∃ q, s.q = some q := by
  cases hq : s.q with
  | some q => exact ⟨q, rfl⟩
  | none =>
    have hidle := hs.idle hf (hs.idle_of_noRequest hq)
    simp [nothingInFlight, hidle.cmd, hidle.data] at hbusy

theorem irqBody_answers {s : State} (hs : EngineConsistent s) (hf : s.fault = none) : Answers (irqBody s) := by
  refine .irqLeave (.ite (fun _ => .next _) fun hbusy => ?_)
  obtain ⟨q, hq⟩ := hs.request_some hf (Bool.eq_false_of_not_eq_true hbusy)
  obtain ⟨hflight, hr⟩ := hs.flight hf hq
  have henter : FlightSound (irqEnter s) q := hflight.congr hq rfl rfl
  exact irqHandle_answers henter ⟨hr.cmdError, hr.stopError, hr.counting, hr.counted⟩ rfl (nomatch ·)

theorem dmaErrBody_answers {s : State} (hs : EngineConsistent s) (hf : s.fault = none) :
    Answers (dmaErrBody s) := by
  refine .ite (fun hdue => ?_) fun _ => .next s
  obtain ⟨q, hq⟩ := hs.request_some hf (by simp [nothingInFlight, (Bool.and_eq_true_iff.mp hdue).1])
  exact .withQ hq (.next _)

/-- A row that needs an attached engine is refused, or runs its body. -/
theorem attachedRow_answers {s : State} {body : State → Answer} (hf : s.fault = none)
    (h : Answers (body { s with ret := .done })) : Answers (operation s (whenAttached · body)) := by
  rw [operation_running hf]
  exact .ite (fun _ => h) fun _ => .next _

theorem exec_attach_answers {s : State} (hf : s.fault = none) (hrates : ∀ r ∈ s.env.clkRate, r ≠ 0) :
    Answers (exec .attach s) := by
  cases ha : s.h.attached with
  | true => exact ⟨_, (exec_attach_running hf).trans (if_pos ha)⟩
  | false => exact ⟨_, exec_attach_detached hf ha (drawRate_pos hrates)⟩

/-- Settles O12: a faulted engine refuses; ATTACH needs its rate, a submission the invariant of phase Idle, an
interrupt and a DMA error what is in flight, and the other operations nothing. -/
theorem outsideOperationsAlwaysAnswer : Obligations.OutsideOperationsAlwaysAnswer := by
  intro i s hi hinv hrates
  rcases s.fault.eq_none_or_eq_some.symm with ⟨k, hk⟩ | hf
  · exact ⟨_, exec_faulted hk i⟩
  have hs := hinv.consistent hf
  have hdone : EngineConsistent { s with ret := .done } := hs.congr hf rfl
  cases i with
  | attach => exact exec_attach_answers hf (hrates rfl)
  | detach => exact attachedRow_answers hf (.ite (fun _ => .next _) fun _ => .next _)
  | setIos width mode power hz =>
    refine attachedRow_answers hf (.ite (fun _ => ?_) fun _ => .next _)
    cases widthOfCode width <;> exact .next _
  | request req =>
    exact attachedRow_answers hf (.ite (fun hidle =>
      .ite (requestAdmitted_answers (hdone.idle hf hidle)) fun _ => .next _) fun _ => .next _)
  | getCd => exact attachedRow_answers hf (.next _)
  | getRo => exact attachedRow_answers hf (.next _)
  | irq => exact attachedRow_answers hf (irqBody_answers hdone hf)
  | dmaErr =>
    have hrow : exec .dmaErr s = dmaErrBody { s with ret := .done } := operation_running hf _
    rw [hrow]
    exact dmaErrBody_answers hdone hf
  | _ => exact absurd hi Bool.false_ne_true

end Sys2Proof.Machine
end
